-- ==== Sys2Proof/Word.lean ====
section
/-! DEFINITION. The word of the register window (spec/00 "Conventions": a word is 16 bits). -/

namespace Sys2Proof

/-- A word of the register window. -/
abbrev Word := BitVec 16

end Sys2Proof
end

