-- ==== Sys2Proof/Syntax.lean ====
section
/-! DEFINITION. The events of the part: one constructor for each row of spec/opcode_table.json, with the
row's operands. An event that takes an item from another block carries no copy of the item: it takes the
one that is on its way (State.wires, or the in-flight command of the CP). -/

namespace Sys2Proof

/-- The level of a pin (R108, R117). -/
inductive Level where
  | low
  | high
deriving DecidableEq, Repr

/-- The two senders of link requests (R7). -/
inductive RequestSender where
  | tt
  | qe
deriving DecidableEq, Repr

/-- The two senders of posts other than Q_SEND (R60). -/
inductive PostSender where
  | tt
  | lu
deriving DecidableEq, Repr

/-- The two flag registers (R163). -/
inductive FlagReg where
  | flaga
  | flagb
deriving DecidableEq, Repr

/-- One event of the part: a row of opcode_table.json. -/
inductive Instr where
  /-- TB_TICK (R1): the TBCLK rising edge at which the count reaches the divisor. -/
  | tbTick
  /-- TICK_ARRIVAL (R13): a tick reaches the DU. -/
  | tickArrival
  /-- TICK_APPLICATION (R15): the DU applies a tick. -/
  | tickApplication
  /-- ENTRY_FALLS_DUE (R15): the tick application at which the head's delta reaches 0. -/
  | entryFallsDue
  /-- RELINK_WALK_START (R18): the DU starts the walk of the first entry of the relink list. -/
  | relinkWalkStart
  /-- WALK_END (R20): the walk in progress ends and its entry is placed. -/
  | walkEnd
  /-- LINK_REQUEST (R24): a LINK request of the given sender reaches the DU. -/
  | linkRequest (sender : RequestSender)
  /-- UNLINK_REQUEST (R24): an UNLINK request of the given sender reaches the DU. -/
  | unlinkRequest (sender : RequestSender)
  /-- RELOAD_REQUEST (R25): a RELOAD request of the given sender reaches the DU. -/
  | reloadRequest (sender : RequestSender)
  /-- TAKE_LINK (R26): the DU takes a LINK request. -/
  | takeLink
  /-- TAKE_UNLINK (R27): the DU takes an UNLINK request. -/
  | takeUnlink
  /-- TAKE_RELOAD (R28): the DU takes a RELOAD request. -/
  | takeReload
  /-- NOWLO_READ (R6): a host read of NOWLO. -/
  | nowloRead
  /-- EXPIRY_NOTICE (R44): the TT takes the next notice of the DU. -/
  | expiryNotice
  /-- RETRIGGER_REQUEST (R48): the TT takes the next retrigger request of the LU. -/
  | retriggerRequest
  /-- POST (R62): the QE takes the next post of the given sender. -/
  | post (sender : PostSender)
  /-- TIMEOUT_NOTICE (R95): the QE takes the next notice of the DU. -/
  | timeoutNotice
  /-- LOGPOP_READ (R99): a host read of LOGPOP. -/
  | logpopRead
  /-- EDGE (R109): the LU compares a sample of an input with its level field. -/
  | edge (line : Fin 8) (sample : Level)
  /-- ROUND (R114): the edge that completes a round of an input in COUNT mode. -/
  | round (line : Fin 8) (sample : Level)
  /-- OUTPUT_ACTION (R117): the LU takes the next action of the TT. -/
  | outputAction
  /-- LU_TICK (R119): the LU takes a tick. -/
  | luTick
  /-- DONE_SIGNAL (R128): the NU takes a DONE signal of the CP. -/
  | doneSignal
  /-- SLIP_SIGNAL (R128): the NU takes a SLIP signal of the DU. -/
  | slipSignal
  /-- LEVEL_SIGNAL (R128): the NU takes the QE's next signal, a LEVEL signal. -/
  | levelSignal
  /-- DROP_SIGNAL (R128): the NU takes the QE's next signal, a DROP signal. -/
  | dropSignal
  /-- FLAG_WRITE (R130): a host write to FLAGA or FLAGB. -/
  | flagWrite (reg : FlagReg) (value : Word)
  /-- INTEN_WRITE (R135): a host write to CONTROL with SOFT 0. -/
  | intenWrite (value : Word)
  /-- WARM_RESET (R156): a host write to CONTROL with SOFT 1. -/
  | warmReset (value : Word)
  /-- TB_WARM_RESET (R4). -/
  | tbWarmReset
  /-- DU_WARM_RESET (R32). -/
  | duWarmReset
  /-- TT_WARM_RESET (R53). -/
  | ttWarmReset
  /-- QE_WARM_RESET (R82, R107). -/
  | qeWarmReset
  /-- LU_WARM_RESET (R126). -/
  | luWarmReset
  /-- NU_WARM_RESET (R139). -/
  | nuWarmReset
  /-- COLD_RESET (R173): RESETN goes low, or the power-on detector acts. -/
  | coldReset
  /-- RESETN_RISE (R125): RESETN has risen; `levels` holds the first sample of EVn in bit n. -/
  | resetnRise (levels : BitVec 8)
  /-- STATUS_WRITE (R150): a host write to STATUS. -/
  | statusWrite (value : Word)
  /-- PARAM_WRITE (R152): a host write to a PARAM register. -/
  | paramWrite (index : Fin 6) (value : Word)
  /-- REGISTER_WRITE (R141): a host write to a read-only address. -/
  | registerWrite (addr : BitVec 4) (value : Word)
  /-- COMMAND_COMPLETION (R146): the CP takes a command's completion. -/
  | commandCompletion
  /-- NOP (R148). -/
  | nop
  /-- UNKNOWN_CODE (R148). -/
  | unknownCode
  /-- TMR_DEFINE (R37). -/
  | tmrDefine
  /-- TMR_ARM (R39). -/
  | tmrArm
  /-- TMR_DISARM (R41). -/
  | tmrDisarm
  /-- TMR_RETUNE (R42). -/
  | tmrRetune
  /-- TMR_RELEASE (R38). -/
  | tmrRelease
  /-- TMR_READ (R51). -/
  | tmrRead
  /-- Q_SETUP (R74). -/
  | qSetup
  /-- Q_SEND (R76). -/
  | qSend
  /-- Q_TAKE (R78). -/
  | qTake
  /-- Q_PURGE (R79). -/
  | qPurge
  /-- Q_READ (R80). -/
  | qRead
  /-- CTX_SETUP (R86). -/
  | ctxSetup
  /-- CTX_WAIT (R87). -/
  | ctxWait
  /-- CTX_ABANDON (R102). -/
  | ctxAbandon
  /-- CTX_COLLECT (R101). -/
  | ctxCollect
  /-- CTX_READ (R105). -/
  | ctxRead
  /-- LN_SETUP (R121). -/
  | lnSetup
  /-- LN_DRIVE (R123). -/
  | lnDrive
  /-- LN_READ (R124). -/
  | lnRead
  /-- TB_SETUP (R2). -/
  | tbSetup
  /-- TB_RUN (R3). -/
  | tbRun
  /-- TB_HALT (R3). -/
  | tbHalt
  /-- TB_READ (R30). -/
  | tbRead
  /-- NT_LEVEL (R133). -/
  | ntLevel
  /-- COMMAND_WRITE (R142, R149): a host write to COMMAND. -/
  | commandWrite (value : Word)
  /-- TBCLK_RISING_EDGE (R1): a synchronised rising edge of TBCLK. -/
  | tbclkRisingEdge
deriving DecidableEq, Repr

end Sys2Proof
end

