-- ==== Sys2Proof/Decode.lean ====
section
/-! DEFINITION. The command that a word spells by the table's bits. No row of spec/opcode_table.json gives
bits (every "fields" is empty and no row has "fixed"), so no word spells a command (log 15). The codes that
the HOST writes to COMMAND (R143) are not an encoding of the table's rows: they are decoded in
Machine/Operands.lean (ownerOf) when the CP accepts the write. -/

namespace Sys2Proof

/-- No row gives bits: no word spells a command. -/
def decodeTableWord (_nbits _w : Nat) : Option Instr := none

end Sys2Proof
end

