-- ==== Sys2Proof/Config.lean ====
section
/-! DEFINITION. The fixed quantities of the part (spec/00 "Numbers"), its command codes (R143) and its
identification word (R161). The manual leaves no value of any result open, so there is no free value here. -/

namespace Sys2Proof.Config

/-- Cells of the shared pool (R54). -/
def cells : Nat := 128

/-- The most ticks the backlog holds (R13). -/
def maxBacklog : Nat := 7

/-- What a read of IDENT returns (R161). -/
def ident : Word := 0x6410

/-! The command codes of R143. -/

def codeNop : Word := 0x0000
def codeTmrDefine : Word := 0x0010
def codeTmrArm : Word := 0x0011
def codeTmrDisarm : Word := 0x0012
def codeTmrRetune : Word := 0x0013
def codeTmrRelease : Word := 0x0014
def codeTmrRead : Word := 0x0015
def codeQSetup : Word := 0x0020
def codeQSend : Word := 0x0022
def codeQTake : Word := 0x0023
def codeQPurge : Word := 0x0024
def codeQRead : Word := 0x0025
def codeCtxSetup : Word := 0x0030
def codeCtxWait : Word := 0x0031
def codeCtxAbandon : Word := 0x0032
def codeCtxCollect : Word := 0x0033
def codeCtxRead : Word := 0x0034
def codeLnSetup : Word := 0x0040
def codeLnDrive : Word := 0x0041
def codeLnRead : Word := 0x0042
def codeTbSetup : Word := 0x0050
def codeTbRun : Word := 0x0051
def codeTbHalt : Word := 0x0052
def codeTbRead : Word := 0x0053
def codeNtLevel : Word := 0x0060

/-! The addresses of the register window (R160). -/

def addrIdent : BitVec 4 := 0x0
def addrStatus : BitVec 4 := 0x1
def addrCommand : BitVec 4 := 0x2
def addrParam0 : BitVec 4 := 0x3
def addrParam5 : BitVec 4 := 0x8
def addrLogpop : BitVec 4 := 0x9
def addrFlaga : BitVec 4 := 0xA
def addrFlagb : BitVec 4 := 0xB
def addrVector : BitVec 4 := 0xC
def addrControl : BitVec 4 := 0xD
def addrNowlo : BitVec 4 := 0xE
def addrNowhi : BitVec 4 := 0xF

end Sys2Proof.Config
end

