-- ==== Sys2Proof/Machine/State.lean ====
section
/-! DEFINITION. The state of the part as plain data: the seven blocks' records, the items on their way
between blocks, the pins, and the queue of events. Every cold-reset value is the one the spec states
(R4, R6, R31, R52, R81, R106, R125, R138, R159, R173); the model's own fields are marked. -/

namespace Sys2Proof.Machine

abbrev TimerId := Fin 48
abbrev ContextId := Fin 16
abbrev QueueId := Fin 8
abbrev LineId := Fin 8
abbrev OutputId := Fin 4
abbrev SourceId := Fin 19

/-- The seven blocks (spec/00 "Block diagram"). -/
inductive Block where
  | tb
  | du
  | tt
  | qe
  | lu
  | nu
  | cp
deriving DecidableEq, Repr

/-! ## Time Base (spec/01 section 1.1) -/

/-- The TB's three items of state (R1). -/
structure TimeBase where
  divisor : Word
  prescaler : Word
  running : Bool
deriving DecidableEq, Repr

/-- R4. -/
def TimeBase.cold : TimeBase := { divisor := 1, prescaler := 0, running := false }

/-! ## Deadline Unit (spec/01) -/

/-- A deadline entry identifier (R7): 0 to 47 are timers, 48 to 63 the timeouts of contexts. -/
inductive EntryId where
  | timer (t : TimerId)
  | context (c : ContextId)
deriving DecidableEq, Repr

/-- The identifier's number (R7). -/
def EntryId.number : EntryId → Nat
  | .timer t => t.val
  | .context c => 48 + c.val

/-- A linked entry (R8). -/
structure LinkedEntry where
  entry : EntryId
  delta : Nat
  reload : Word
  arming : BitVec 8
deriving DecidableEq, Repr

/-- A record of the relink list (R21). -/
structure RelinkEntry where
  entry : EntryId
  reload : Word
  arming : BitVec 8
deriving DecidableEq, Repr

/-- A link request (section 1.8). -/
inductive LinkRequest where
  | link (entry : EntryId) (delay reload : Word) (arming : BitVec 8)
  | unlink (entry : EntryId)
  | reload (entry : EntryId) (value : Word)
deriving DecidableEq, Repr

/-- The entry a request is for. -/
def LinkRequest.entry : LinkRequest → EntryId
  | .link e _ _ _ => e
  | .unlink e => e
  | .reload e _ => e

/-- What started a walk (R11). -/
inductive WalkSource where
  | link
  | relink
deriving DecidableEq, Repr

/-- The walk record (R11). -/
structure WalkRecord where
  entry : EntryId
  delay : Word
  reload : Word
  arming : BitVec 8
  source : WalkSource
deriving DecidableEq, Repr

/-- What the DU is in the middle of (R11): nothing; applying a tick, or taking a request, that arrived while
it was IDLE; or a walk (WALKING). DEDUCED, log 5: a step that the selection rule takes from the relink
list, the backlog or the table is between steps until its own event. -/
inductive DuActivity where
  | quiet
  | applying
  | taking (request : LinkRequest)
  | walking (walk : WalkRecord)
deriving DecidableEq, Repr

/-- The DU's state (R5, R8, R11, R13, R14, R21, R23). -/
structure DeadlineUnit where
  now : BitVec 32
  list : List LinkedEntry
  relink : List RelinkEntry
  table : List LinkRequest
  backlog : Nat
  slip : BitVec 8
  activity : DuActivity
deriving DecidableEq, Repr

/-- R31. -/
def DeadlineUnit.cold : DeadlineUnit :=
  { now := 0, list := [], relink := [], table := [], backlog := 0, slip := 0, activity := .quiet }

/-! ## Messages (R59) -/

/-- The kind of a message. -/
inductive MessageKind where
  | timer
  | line
  | sent
deriving DecidableEq, Repr

/-- A data list of 0, 1 or 2 words. -/
inductive MessageData where
  | none
  | one (d0 : Word)
  | two (d0 d1 : Word)
deriving DecidableEq, Repr

/-- A message as its sender makes it (R45, R115, R76): without the stamp, which the QE sets. -/
structure Draft where
  kind : MessageKind
  origin : BitVec 6
  tag : Word
  priority : BitVec 2
  seq : BitVec 8
  data : MessageData
deriving DecidableEq, Repr

/-- A message record (R59). -/
structure Message where
  body : Draft
  stamp : Word
deriving DecidableEq, Repr

/-- A post on its way to the QE (R45, R115). -/
structure Post where
  queue : QueueId
  body : Draft
deriving DecidableEq, Repr

/-! ## Timer Table (spec/02) -/

/-- A timer's state (R33). -/
inductive TimerState where
  | free
  | idle
  | armed
deriving DecidableEq, Repr

/-- A timer's mode (R33). -/
inductive TimerMode where
  | oneShot
  | periodic
deriving DecidableEq, Repr

/-- The four actions on an output (R117). -/
inductive ActionKind where
  | set
  | clear
  | toggle
  | pulse
deriving DecidableEq, Repr

/-- An output action (R46). -/
structure OutputAction where
  output : OutputId
  kind : ActionKind
deriving DecidableEq, Repr

/-- A timer's message template (R33). -/
structure Template where
  tag : Word
  priority : BitVec 2
  data : MessageData
deriving DecidableEq, Repr

/-- A timer record (R33). -/
structure Timer where
  state : TimerState
  mode : TimerMode
  period : Word
  target : Option QueueId
  template : Template
  action : Option OutputAction
  arming : BitVec 8
  expiries : Word
deriving DecidableEq, Repr

/-- R52. -/
def Timer.cold : Timer :=
  { state := .free, mode := .oneShot, period := 0, target := none
    template := { tag := 0, priority := 0, data := .none }, action := none, arming := 0, expiries := 0 }

/-- The TT's state. -/
structure TimerTable where
  timers : Vector Timer 48
deriving DecidableEq, Repr

/-- R52. -/
def TimerTable.cold : TimerTable := { timers := Vector.replicate 48 Timer.cold }

/-! ## Queue Engine (spec/03, spec/04) -/

/-- The order of a list (R61, R92). -/
inductive Order where
  | fifo
  | priority
deriving DecidableEq, Repr

/-- The overflow policy (R65). -/
inductive Overflow where
  | reject
  | displace
deriving DecidableEq, Repr

/-- A queue record (R56). Its count is the length of `msgs`. -/
structure QueueRec where
  enabled : Bool
  quota : Nat
  reserve : Nat
  threshold : Nat
  msgOrder : Order
  waiterOrder : Order
  policy : Overflow
  msgs : List Message
  waiters : List ContextId
  peak : Nat
  drops : Word
deriving DecidableEq, Repr

/-- R81. -/
def QueueRec.cold : QueueRec :=
  { enabled := false, quota := 0, reserve := 0, threshold := 0, msgOrder := .fifo, waiterOrder := .fifo
    policy := .reject, msgs := [], waiters := [], peak := 0, drops := 0 }

/-- A context's state (R83). -/
inductive ContextState where
  | idle
  | waiting
  | complete
deriving DecidableEq, Repr

/-- How a deferred completion ended a wait (R93). "none" is the absence of one. -/
inductive WaitOutcome where
  | message
  | timeout
  | purged
deriving DecidableEq, Repr

/-- A context record (R83). -/
structure Context where
  state : ContextState
  priority : BitVec 3
  queue : QueueId
  timeout : Option Word
  arming : BitVec 8
  outcome : Option WaitOutcome
  slot : Option Message
  stamp : Word
deriving DecidableEq, Repr

/-- R106. -/
def Context.cold : Context :=
  { state := .idle, priority := 0, queue := 0, timeout := none, arming := 0, outcome := none
    slot := none, stamp := 0 }

/-- An entry of the completion log (R98). -/
structure LogEntry where
  context : ContextId
  outcome : WaitOutcome
  queue : QueueId
deriving DecidableEq, Repr

/-- The QE's state: `free` is F (R54). -/
structure QueueEngine where
  free : Nat
  queues : Vector QueueRec 8
  contexts : Vector Context 16
  log : List LogEntry
deriving DecidableEq, Repr

/-- R81, R106. -/
def QueueEngine.cold : QueueEngine :=
  { free := Config.cells, queues := Vector.replicate 8 QueueRec.cold
    contexts := Vector.replicate 16 Context.cold, log := [] }

/-! ## Line Unit (spec/05) -/

/-- An input's mode (R108). -/
inductive LineMode where
  | off
  | post
  | count
  | retrigger
deriving DecidableEq, Repr

/-- An input's edge selection (R110). -/
inductive EdgeSel where
  | rise
  | fall
  | both
deriving DecidableEq, Repr

/-- An input record (R108). `firstSampleDue` is the state R125 implies: the next sample is the first after
RESETN rose, and is not an edge. -/
structure Input where
  mode : LineMode
  edge : EdgeSel
  queue : QueueId
  tag : Word
  priority : BitVec 2
  compare : Word
  timer : TimerId
  edgeCount : Word
  rounds : BitVec 8
  level : Level
  firstSampleDue : Bool
deriving DecidableEq, Repr

/-- R125. -/
def Input.cold : Input :=
  { mode := .off, edge := .rise, queue := 0, tag := 0, priority := 0, compare := 0, timer := 0
    edgeCount := 0, rounds := 0, level := .low, firstSampleDue := true }

/-- An output (R117). -/
structure Output where
  level : Level
  pulsePending : Bool
deriving DecidableEq, Repr

/-- R125. -/
def Output.cold : Output := { level := .low, pulsePending := false }

/-- The LU's state. -/
structure LineUnit where
  inputs : Vector Input 8
  outputs : Vector Output 4
deriving DecidableEq, Repr

/-- R125. -/
def LineUnit.cold : LineUnit :=
  { inputs := Vector.replicate 8 Input.cold, outputs := Vector.replicate 4 Output.cold }

/-! ## Notification Unit (spec/06) -/

/-- The eighteen latched flags and the nineteen levels (R127). Bit q of `level` and `drop` is queue q's flag.
The LOG flag is no latch: it is the log-not-empty condition of the QE (R129). -/
structure NotifyUnit where
  done : Bool
  slip : Bool
  level : BitVec 8
  drop : BitVec 8
  levels : Vector (BitVec 2) 19
deriving DecidableEq, Repr

/-- R138. -/
def NotifyUnit.cold : NotifyUnit :=
  { done := false, slip := false, level := 0, drop := 0, levels := Vector.replicate 19 0 }

/-- A signal of the QE to the NU (R67, R69). -/
inductive QueueSignal where
  | level (q : QueueId)
  | drop (q : QueueId)
deriving DecidableEq, Repr

/-! ## Command Port (spec/07) -/

/-- The six words of the PARAM or the REPLY registers. -/
abbrev Words6 := Vector Word 6

/-- The result codes that are produced (R155). -/
inductive ResultCode where
  | ok
  | unknown
  | badIndex
  | badValue
  | wrongState
  | noCells
  | queueFull
  | empty
  | disabled
  | aborted
deriving DecidableEq, Repr

/-- A completion: the result code and the six reply words (R146). -/
structure Completion where
  result : ResultCode
  reply : Words6
deriving DecidableEq, Repr

/-- Where an accepted command stands (R144, R146, R157): handed over to its owner and not yet taken, or taken,
with its completion on its way back to the CP. -/
inductive Stage where
  | handedOver
  | completing (completion : Completion)
deriving DecidableEq, Repr

/-- The in-flight record (R140), with the command's stage. -/
structure InFlight where
  code : Word
  params : Words6
  owner : Block
  stage : Stage
deriving DecidableEq, Repr

/-- The CP's state (R140). The slot is FREE exactly when there is no in-flight record. -/
structure CommandPort where
  slot : Option InFlight
  params : Words6
  reply : Words6
  result : ResultCode
  refused : Bool
  lastCode : Word
  inten : Bool
  nowLatch : Word
deriving DecidableEq, Repr

/-- R159. -/
def CommandPort.cold : CommandPort :=
  { slot := none, params := Vector.replicate 6 0, reply := Vector.replicate 6 0, result := .ok
    refused := false, lastCode := 0, inten := false, nowLatch := 0 }

/-! ## Items between blocks (R172, R173) -/

/-- An item on its way, with its sender's count of warm resets taken when it was sent (log 7). -/
structure Sent (α : Type) where
  epoch : Nat
  item : α
deriving DecidableEq, Repr

/-- A notice of the DU (R16): `who` is the timer or the context. -/
structure Notice (α : Type) where
  who : α
  arming : BitVec 8
deriving DecidableEq, Repr

/-- The FIFOs between blocks, one for each sender and receiver, oldest first. -/
structure Wires where
  tbToDu : List (Sent Unit)
  tbToLu : List (Sent Unit)
  duToTt : List (Sent (Notice TimerId))
  duToQe : List (Sent (Notice ContextId))
  duToNu : List (Sent Unit)
  ttToDu : List (Sent LinkRequest)
  qeToDu : List (Sent LinkRequest)
  ttToQe : List (Sent Post)
  luToQe : List (Sent Post)
  ttToLu : List (Sent OutputAction)
  luToTt : List (Sent TimerId)
  qeToNu : List (Sent QueueSignal)
  cpToNu : List (Sent Unit)
deriving DecidableEq, Repr

/-- R173: nothing is in flight after a cold reset. -/
def Wires.cold : Wires :=
  { tbToDu := [], tbToLu := [], duToTt := [], duToQe := [], duToNu := [], ttToDu := [], qeToDu := []
    ttToQe := [], luToQe := [], ttToLu := [], luToTt := [], qeToNu := [], cpToNu := [] }

/-- How many warm resets the CP has started and each block has taken since the last cold reset. DESIGN CHOICE,
log 7: the model's own bookkeeping for the boundary of R172, safe. -/
structure Resets where
  cp : Nat
  tb : Nat
  du : Nat
  tt : Nat
  qe : Nat
  lu : Nat
  nu : Nat
deriving DecidableEq, Repr

/-- DESIGN CHOICE 0, log 7. -/
def Resets.cold : Resets := { cp := 0, tb := 0, du := 0, tt := 0, qe := 0, lu := 0, nu := 0 }

/-! ## The host's bus (R160, R170) -/

/-- What the part reads from the bus pins: the levels of CSN, RDN and WRN (true is high; each is active low), the
address on A3 to A0, and the word that the host puts on D15 to D0. -/
structure BusPins where
  csn : Bool
  rdn : Bool
  wrn : Bool
  address : BitVec 4
  data : Word
deriving DecidableEq, Repr

/-- The access in progress at the CP (R160): none; a read access, for which the CP drives its word; a write access,
which the CP takes when its strobe is deasserted; or both strobes asserted together, taken as neither. -/
inductive BusAccess where
  | idle
  | read (word : Word)
  | write
  | neither
deriving DecidableEq, Repr

/-- The whole part. `resetnLow`: RESETN is low (R170, R173). `bus`: the host's access in progress (R160). `pending`:
the events still to come, oldest first (log 1). -/
structure State where
  resetnLow : Bool
  tb : TimeBase
  du : DeadlineUnit
  tt : TimerTable
  qe : QueueEngine
  lu : LineUnit
  nu : NotifyUnit
  cp : CommandPort
  wires : Wires
  resets : Resets
  bus : BusAccess
  pending : List Instr
deriving DecidableEq, Repr

/-- Why the machine would stop. The manual stops it nowhere, so no event raises a fault: there is none. Safe. -/
inductive Fault where
deriving DecidableEq, Repr

/-- Why an event would have no meaning. `notModelled` is for an arm of exec that has none yet; no arm uses it.
Safe: nothing can be proved of a refused event. -/
inductive Refusal where
  | notModelled (mnemonic : String)
deriving DecidableEq, Repr

/-- The outcome of one event. -/
abbrev Outcome := Host.Outcome State Fault Refusal

/-- The machine right after a cold reset: every block at its cold-reset value, RESETN just risen, the first
sample of each input still to come (DESIGN CHOICE, log 4), no access in progress (DESIGN CHOICE, log 10), nothing in
flight, no event waiting. -/
def State.reset : State :=
  { resetnLow := false, tb := .cold, du := .cold, tt := .cold, qe := .cold, lu := .cold, nu := .cold
    cp := .cold, wires := .cold, resets := .cold, bus := .idle, pending := [] }

end Sys2Proof.Machine
end

