-- ==== Sys2Proof/Machine/Ops.lean ====
section
/-! DEFINITION. The named operations over State: banks of records, the FIFOs between blocks with the
warm-reset boundary of R172, one update per field of State, and the path of a command from its owner back to
the CP (R144, R146). -/

namespace Sys2Proof.Machine

/-! ## Banks of like records -/

/-- Every record of a bank changed alike. -/
def mapBank {α β : Type} {n : Nat} (f : α → β) (v : Vector α n) : Vector β n :=
  ⟨⟨v.toArray.toList.map f⟩, by simp⟩

/-- The sum of a quantity over a bank. -/
def sumBank {α : Type} {n : Nat} (f : α → Nat) (v : Vector α n) : Nat :=
  (v.toArray.toList.map f).sum

/-- Timer t. -/
def TimerTable.timer (tt : TimerTable) (t : TimerId) : Timer := tt.timers[t.val]

/-- Timer t replaced. -/
def TimerTable.setTimer (tt : TimerTable) (t : TimerId) (r : Timer) : TimerTable :=
  { tt with timers := tt.timers.set t.val r }

/-- Queue q. -/
def QueueEngine.queue (qe : QueueEngine) (q : QueueId) : QueueRec := qe.queues[q.val]

/-- Queue q replaced. -/
def QueueEngine.setQueue (qe : QueueEngine) (q : QueueId) (r : QueueRec) : QueueEngine :=
  { qe with queues := qe.queues.set q.val r }

/-- Context c. -/
def QueueEngine.context (qe : QueueEngine) (c : ContextId) : Context := qe.contexts[c.val]

/-- Context c replaced. -/
def QueueEngine.setContext (qe : QueueEngine) (c : ContextId) (r : Context) : QueueEngine :=
  { qe with contexts := qe.contexts.set c.val r }

/-- Input n. -/
def LineUnit.input (lu : LineUnit) (n : LineId) : Input := lu.inputs[n.val]

/-- Input n replaced. -/
def LineUnit.setInput (lu : LineUnit) (n : LineId) (r : Input) : LineUnit :=
  { lu with inputs := lu.inputs.set n.val r }

/-- Output o. -/
def LineUnit.output (lu : LineUnit) (o : OutputId) : Output := lu.outputs[o.val]

/-- Output o replaced. -/
def LineUnit.setOutput (lu : LineUnit) (o : OutputId) (r : Output) : LineUnit :=
  { lu with outputs := lu.outputs.set o.val r }

/-- The level of a source (R127). -/
def NotifyUnit.levelOf (nu : NotifyUnit) (n : SourceId) : BitVec 2 := nu.levels[n.val]

/-- A source's level replaced. -/
def NotifyUnit.setLevel (nu : NotifyUnit) (n : SourceId) (l : BitVec 2) : NotifyUnit :=
  { nu with levels := nu.levels.set n.val l }

/-! ## One update per field of State -/

def State.withTb (s : State) (x : TimeBase) : State := { s with tb := x }
def State.withDu (s : State) (x : DeadlineUnit) : State := { s with du := x }
def State.withTt (s : State) (x : TimerTable) : State := { s with tt := x }
def State.withQe (s : State) (x : QueueEngine) : State := { s with qe := x }
def State.withLu (s : State) (x : LineUnit) : State := { s with lu := x }
def State.withNu (s : State) (x : NotifyUnit) : State := { s with nu := x }
def State.withCp (s : State) (x : CommandPort) : State := { s with cp := x }
def State.withWires (s : State) (x : Wires) : State := { s with wires := x }
def State.withResets (s : State) (x : Resets) : State := { s with resets := x }
def State.withBus (s : State) (x : BusAccess) : State := { s with bus := x }
def State.withResetnLow (s : State) (x : Bool) : State := { s with resetnLow := x }

/-! ## FIFOs between blocks (R172, log 7) -/

/-- How many warm resets a block has taken. -/
def Resets.taken (r : Resets) : Block → Nat
  | .tb => r.tb
  | .du => r.du
  | .tt => r.tt
  | .qe => r.qe
  | .lu => r.lu
  | .nu => r.nu
  | .cp => r.cp

/-- An item is sent. R172: one sent before the sender's warm reset to a receiver that has already taken its own
is discarded there. -/
def send {α : Type} (sender receiver : Nat) (x : α) (w : List (Sent α)) : List (Sent α) :=
  if sender < receiver then w else w ++ [{ epoch := sender, item := x }]

/-- Several items are sent, in order. -/
def sendAll {α : Type} (sender receiver : Nat) (xs : List α) (w : List (Sent α)) : List (Sent α) :=
  if sender < receiver then w else w ++ xs.map (fun x => { epoch := sender, item := x })

/-- The next item that a receiver may take, with the rest of the FIFO. R172: an item sent after the sender's
warm reset is taken only after the receiver's. -/
def receive {α : Type} (receiver : Nat) : List (Sent α) → Option (α × List (Sent α))
  | [] => none
  | x :: rest => if x.epoch = receiver then some (x.item, rest) else none

/-- The receiver takes a warm reset: what was sent before the sender's is discarded (R172). -/
def boundary {α : Type} (receiver : Nat) (w : List (Sent α)) : List (Sent α) :=
  w.filter (fun x => receiver ≤ x.epoch)

/-! ## What a block's event sends -/

/-- The DU after an event, with the notices and SLIP signals it sends (R14, R15). -/
structure DuOut where
  du : DeadlineUnit
  expiries : List (Notice TimerId) := []
  timeouts : List (Notice ContextId) := []
  slips : List Unit := []

/-- The TT after an event, with what it sends (spec/02, opening). -/
structure TtOut where
  tt : TimerTable
  requests : List LinkRequest := []
  posts : List Post := []
  actions : List OutputAction := []

/-- The QE after an event, with what it sends (R67, R69, R90, R94). -/
structure QeOut where
  qe : QueueEngine
  requests : List LinkRequest := []
  signals : List QueueSignal := []

/-- The LU after an event, with what it sends (R113 to R116). -/
structure LuOut where
  lu : LineUnit
  posts : List Post := []
  retriggers : List TimerId := []

/-- The DU's event takes effect. -/
def State.commitDu (s : State) (o : DuOut) : State :=
  (s.withDu o.du).withWires
    { s.wires with
      duToTt := sendAll s.resets.du s.resets.tt o.expiries s.wires.duToTt
      duToQe := sendAll s.resets.du s.resets.qe o.timeouts s.wires.duToQe
      duToNu := sendAll s.resets.du s.resets.nu o.slips s.wires.duToNu }

/-- The TT's event takes effect. -/
def State.commitTt (s : State) (o : TtOut) : State :=
  (s.withTt o.tt).withWires
    { s.wires with
      ttToDu := sendAll s.resets.tt s.resets.du o.requests s.wires.ttToDu
      ttToQe := sendAll s.resets.tt s.resets.qe o.posts s.wires.ttToQe
      ttToLu := sendAll s.resets.tt s.resets.lu o.actions s.wires.ttToLu }

/-- The QE's event takes effect. -/
def State.commitQe (s : State) (o : QeOut) : State :=
  (s.withQe o.qe).withWires
    { s.wires with
      qeToDu := sendAll s.resets.qe s.resets.du o.requests s.wires.qeToDu
      qeToNu := sendAll s.resets.qe s.resets.nu o.signals s.wires.qeToNu }

/-- The LU's event takes effect. -/
def State.commitLu (s : State) (o : LuOut) : State :=
  (s.withLu o.lu).withWires
    { s.wires with
      luToQe := sendAll s.resets.lu s.resets.qe o.posts s.wires.luToQe
      luToTt := sendAll s.resets.lu s.resets.tt o.retriggers s.wires.luToTt }

/-! ## Events -/

/-- The outcome of an event that leads to `t`. While RESETN is low no block takes or sends any item and the CP
takes no access (R173). -/
def running (s t : State) : Outcome := .next (if s.resetnLow then s else t)

/-- After a write access that leads to `t`: its strobe is deasserted, so no access is in progress (R160). While RESETN is
low the write is ignored (R141). -/
def State.written (s t : State) : State := (if s.resetnLow then s else t).withBus .idle

/-- The outcome of a write access that leads to `t`. -/
def hostWrite (s t : State) : Outcome := .next (s.written t)

/-- The low 16 bits of NOW, which the QE reads for stamps (R5, R60, R93). -/
def State.stampNow (s : State) : Word := s.du.now.setWidth 16

/-- The six words r0 to r5 (R146: the words a rule does not supply are 0). -/
def words (r0 r1 r2 r3 r4 r5 : Word := 0) : Words6 := #v[r0, r1, r2, r3, r4, r5]

/-- A completion with OK. -/
def Completion.ok (reply : Words6 := words) : Completion := { result := .ok, reply := reply }

/-- A completion that reports no change: reply words all 0 (R146). -/
def Completion.fail (r : ResultCode) : Completion := { result := r, reply := words }

/-- The captured words of the command in flight, if it has the given code, its owner has not yet taken it, and
the owner has taken every warm reset that the CP sent before handing it over (R144, R156). -/
def State.handedOver (s : State) (code : Word) : Option Words6 :=
  match s.cp.slot with
  | some r =>
    if r.stage = .handedOver ∧ r.code = code ∧ s.resets.taken r.owner = s.resets.cp then some r.params else none
  | none => none

/-- The owner returns its completion to the CP (R146). -/
def CommandPort.returned (cp : CommandPort) (c : Completion) : CommandPort :=
  { cp with slot := cp.slot.map fun r => { r with stage := .completing c } }

/-- The owning block takes the command in flight as one event (R144): its rule `f` gives the completion and the
state that the command leaves. No such command handed over: the event does not occur (log 2). -/
def takeCommand (code : Word) (f : Words6 → State → Completion × State) (s : State) : State :=
  match s.handedOver code with
  | none => s
  | some p => (f p s).2.withCp ((f p s).2.cp.returned (f p s).1)

/-- The CP takes a completion (R146): result, reply, slot FREE, DONE sent. -/
def State.complete (s : State) (c : Completion) : State :=
  (s.withCp { s.cp with slot := none, result := c.result, reply := c.reply }).withWires
    { s.wires with cpToNu := send s.resets.cp s.resets.nu () s.wires.cpToNu }

end Sys2Proof.Machine
end

