-- ==== Sys2Proof/Machine/Operands.lean ====
section
/-! DEFINITION. How the owning block reads the captured parameter words (R165, R166): the field codes, the
object number of P0 with its unassigned bits, and the owning block of each command code (R143). -/

namespace Sys2Proof.Machine

/-- Bits lo + len - 1 down to lo of a word. -/
def field (w : Word) (lo len : Nat) : BitVec len := w.extractLsb' lo len

/-- Bit n of a word. -/
def bit (w : Word) (n : Nat) : Bool := w.getLsbD n

/-- A three-bit queue number. -/
def queueOf (b : BitVec 3) : QueueId := ⟨b.toNat, b.isLt⟩

/-- A three-bit input number. -/
def lineOf (b : BitVec 3) : LineId := ⟨b.toNat, b.isLt⟩

/-- A four-bit context number. -/
def contextOf (b : BitVec 4) : ContextId := ⟨b.toNat, b.isLt⟩

/-- A two-bit output number. -/
def outputOf (b : BitVec 2) : OutputId := ⟨b.toNat, b.isLt⟩

/-- A timer number, 0 to 47. -/
def timerOf (n : Nat) : Option TimerId := if h : n < 48 then some ⟨n, h⟩ else none

/-- A source number, 0 to 18. -/
def sourceOf (n : Nat) : Option SourceId := if h : n < 19 then some ⟨n, h⟩ else none

/-- The object number of P0 is in range: every bit of P0 that R166 assigns to no field (the ones of `unassigned`)
is part of the number, and one that is 1 puts it out of range (R165). -/
def inRange (p0 unassigned : Word) : Bool := (p0 &&& unassigned) == 0

/-! ## Field codes (R165) -/

def timerModeOf (b : Bool) : TimerMode := if b then .periodic else .oneShot

def orderOf (b : Bool) : Order := if b then .priority else .fifo

def overflowOf (b : Bool) : Overflow := if b then .displace else .reject

/-- Action kinds: 0 none, 1 SET, 2 CLEAR, 3 TOGGLE, 4 PULSE; 5 to 7 are BAD_VALUE, here `none`. -/
def actionKindOf (k : BitVec 3) : Option (Option ActionKind) :=
  match k.toNat with
  | 0 => some none
  | 1 => some (some .set)
  | 2 => some (some .clear)
  | 3 => some (some .toggle)
  | 4 => some (some .pulse)
  | _ => none

/-- A data list of the given count; 3 is BAD_VALUE, here `none`. Words beyond the count are ignored (R36, R76). -/
def dataOf (count : BitVec 2) (d0 d1 : Word) : Option MessageData :=
  match count.toNat with
  | 0 => some .none
  | 1 => some (.one d0)
  | 2 => some (.two d0 d1)
  | _ => none

/-- Line modes: 0 OFF, 1 POST, 2 COUNT, 3 RETRIGGER. -/
def lineModeOf (m : BitVec 2) : LineMode :=
  match m.toNat with
  | 0 => .off
  | 1 => .post
  | 2 => .count
  | _ => .retrigger

/-- Edge selection: 0 RISE, 1 FALL, 2 BOTH; 3 is BAD_VALUE, here `none`. -/
def edgeSelOf (e : BitVec 2) : Option EdgeSel :=
  match e.toNat with
  | 0 => some .rise
  | 1 => some .fall
  | 2 => some .both
  | _ => none

/-- What CTX_WAIT may do on an empty queue (R87): the timeout mode with its tick count. -/
inductive WaitMode where
  | untimed
  | poll
  | timed (ticks : Word)
deriving DecidableEq, Repr

/-- Timeout modes: 0 none, 1 poll, 2 timed; 3, and timed with a tick count of 0, are BAD_VALUE, here `none`
(R87). -/
def waitModeOf (m : BitVec 2) (ticks : Word) : Option WaitMode :=
  match m.toNat with
  | 0 => some .untimed
  | 1 => some .poll
  | 2 => if ticks = 0 then none else some (.timed ticks)
  | _ => none

/-! ## Bits of P0 that R166 assigns to no field -/

def unassignedQSetup : Word := 0xFF80
def unassignedQSend : Word := 0xF008
def unassignedQueue : Word := 0xFFF8
def unassignedQRead : Word := 0xFEF8
def unassignedCtxSetup : Word := 0xFF80
def unassignedCtxWait : Word := 0xFC80
def unassignedContext : Word := 0xFFF0
def unassignedLnSetup : Word := 0xC808
def unassignedLnDrive : Word := 0xFF8C
def unassignedLine : Word := 0xFFF8
def unassignedNtLevel : Word := 0xFCE0

/-! ## Owning blocks (R143) -/

/-- The block that owns a command code; the CP owns NOP and every unknown code. -/
def ownerOf (code : Word) : Block :=
  if code = Config.codeTmrDefine ∨ code = Config.codeTmrArm ∨ code = Config.codeTmrDisarm ∨
      code = Config.codeTmrRetune ∨ code = Config.codeTmrRelease ∨ code = Config.codeTmrRead then .tt
  else if code = Config.codeQSetup ∨ code = Config.codeQSend ∨ code = Config.codeQTake ∨
      code = Config.codeQPurge ∨ code = Config.codeQRead ∨ code = Config.codeCtxSetup ∨
      code = Config.codeCtxWait ∨ code = Config.codeCtxAbandon ∨ code = Config.codeCtxCollect ∨
      code = Config.codeCtxRead then .qe
  else if code = Config.codeLnSetup ∨ code = Config.codeLnDrive ∨ code = Config.codeLnRead then .lu
  else if code = Config.codeTbSetup ∨ code = Config.codeTbRun ∨ code = Config.codeTbHalt ∨
      code = Config.codeTbRead then .tb
  else if code = Config.codeNtLevel then .nu
  else .cp

/-- The code is NOP or one of the 24 commands of R143. -/
def knownCode (code : Word) : Bool := ownerOf code != .cp || code == Config.codeNop

end Sys2Proof.Machine
end

