-- ==== Sys2Proof/Machine/Replies.lean ====
section
/-! DEFINITION. The layouts of the reply words (R161, R162, R167, R168, R169): the codes of every item and the
place of every field. -/

namespace Sys2Proof.Machine

/-- A value in the bits of a word that begin at `lo`. -/
def place {n : Nat} (lo : Nat) (b : BitVec n) : Word := b.setWidth 16 <<< lo

/-- One bit of a word. -/
def placeBit (lo : Nat) (b : Bool) : Word := place lo (BitVec.ofBool b)

/-- A quantity as a word. -/
def natWord (n : Nat) : Word := BitVec.ofNat 16 n

/-- A quantity that fits eight bits (R169), placed at `lo`. -/
def placeNat8 (lo n : Nat) : Word := place lo (BitVec.ofNat 8 n)

def levelBit : Level → Bool
  | .low => false
  | .high => true

/-- STATUS.RESULT (R155). -/
def ResultCode.code : ResultCode → BitVec 4
  | .ok => 0x0
  | .unknown => 0x1
  | .badIndex => 0x2
  | .badValue => 0x3
  | .wrongState => 0x4
  | .noCells => 0x6
  | .queueFull => 0x7
  | .empty => 0x8
  | .disabled => 0x9
  | .aborted => 0xF

/-- Timer states (R168). -/
def TimerState.code : TimerState → BitVec 2
  | .free => 0
  | .idle => 1
  | .armed => 2

/-- Timer modes (R165). -/
def TimerMode.code : TimerMode → BitVec 1
  | .oneShot => 0
  | .periodic => 1

/-- Orders (R165). -/
def Order.code : Order → BitVec 1
  | .fifo => 0
  | .priority => 1

/-- Overflow policies (R165). -/
def Overflow.code : Overflow → BitVec 1
  | .reject => 0
  | .displace => 1

/-- Context states (R169). -/
def ContextState.code : ContextState → BitVec 2
  | .idle => 0
  | .waiting => 1
  | .complete => 2

/-- Outcomes (R162, R167). -/
def WaitOutcome.code : WaitOutcome → BitVec 2
  | .message => 1
  | .timeout => 2
  | .purged => 3

/-- An outcome or none (R167). -/
def outcomeCode : Option WaitOutcome → BitVec 2
  | none => 0
  | some o => o.code

/-- Message kinds (R167; 0 is "none"). -/
def MessageKind.code : MessageKind → BitVec 2
  | .timer => 1
  | .line => 2
  | .sent => 3

/-- Line modes (R165). -/
def LineMode.code : LineMode → BitVec 2
  | .off => 0
  | .post => 1
  | .count => 2
  | .retrigger => 3

/-- Edge selections (R165). -/
def EdgeSel.code : EdgeSel → BitVec 2
  | .rise => 0
  | .fall => 1
  | .both => 2

/-- The number of data words. -/
def MessageData.count : MessageData → BitVec 2
  | .none => 0
  | .one _ => 1
  | .two _ _ => 2

/-- The first data word, 0 when absent (R167). -/
def MessageData.data0 : MessageData → Word
  | .none => 0
  | .one d => d
  | .two d _ => d

/-- The second data word, 0 when absent (R167). -/
def MessageData.data1 : MessageData → Word
  | .none => 0
  | .one _ => 0
  | .two _ d => d

def queueBits (q : QueueId) : BitVec 3 := BitVec.ofNat 3 q.val

/-! ## Link status (R29, R168) -/

/-- The four link statuses (R29). -/
inductive LinkStatus where
  | notLinked
  | linked
  | linkPending
  | relinkPending
deriving DecidableEq, Repr

/-- R168. -/
def LinkStatus.code : LinkStatus → BitVec 2
  | .notLinked => 0
  | .linked => 1
  | .linkPending => 2
  | .relinkPending => 3

/-! ## The message layout (R167) -/

/-- A message with an outcome and its queue. -/
def messageWords (m : Message) (outcome : Option WaitOutcome) (q : QueueId) : Words6 :=
  words (place 0 m.body.kind.code ||| place 2 m.body.origin ||| place 8 m.body.priority |||
      place 10 m.body.data.count ||| place 12 (outcomeCode outcome))
    m.body.tag (place 0 m.body.seq ||| place 8 (queueBits q)) m.body.data.data0 m.body.data.data1 m.stamp

/-- CTX_COLLECT with outcome TIMEOUT or PURGED: kind none, the queue and the completion stamp. -/
def noMessageWords (outcome : Option WaitOutcome) (q : QueueId) (stamp : Word) : Words6 :=
  words (place 12 (outcomeCode outcome)) 0 (place 8 (queueBits q)) 0 0 stamp

/-- CTX_WAIT that entered WAITING: the queue and the context's arming number. -/
def waitingWords (q : QueueId) (arming : BitVec 8) : Words6 :=
  words 0 0 (place 8 (queueBits q)) (place 0 arming)

/-! ## The word of a LOGPOP read (R162) -/

/-- An entry with the number of entries that remain. -/
def logWord (e : LogEntry) (remaining : Nat) : Word :=
  place 0 e.outcome.code ||| place 4 (BitVec.ofNat 4 e.context.val) ||| place 8 (queueBits e.queue) |||
    place 12 (BitVec.ofNat 4 remaining)

end Sys2Proof.Machine
end

