-- ==== Sys2Proof/Machine/Flags.lean ====
section
/-! DEFINITION. The notification flags, the interrupt condition, INTN and the vector (spec/06), and the STATUS
word (R154, R161). -/

namespace Sys2Proof.Machine

/-- The LOG condition: the completion log is not empty (R100, R129). -/
def QueueEngine.logNotEmpty (qe : QueueEngine) : Bool := !qe.log.isEmpty

/-- The nineteen flags, source n in bit n (R127, R163): DONE, LOG, SLIP, LEVEL Q0 to Q7, DROP Q0 to Q7. -/
def NotifyUnit.flags (nu : NotifyUnit) (log : Bool) : BitVec 19 :=
  nu.drop ++ nu.level ++ BitVec.ofBool nu.slip ++ BitVec.ofBool log ++ BitVec.ofBool nu.done

/-- A source is pending: its flag is set and its level is 1 or more (R132). -/
def NotifyUnit.pending (nu : NotifyUnit) (log : Bool) (n : SourceId) : Bool :=
  (nu.flags log).getLsbD n.val && nu.levelOf n != 0

/-- The nineteen sources, lowest number first. -/
def allSources : List SourceId := [0, 1, 2, 3, 4, 5, 6, 7, 8, 9, 10, 11, 12, 13, 14, 15, 16, 17, 18]

/-- At least one source is pending (R134). -/
def NotifyUnit.condition (nu : NotifyUnit) (log : Bool) : Bool := allSources.any (nu.pending log)

/-- The first pending source of a level, lowest number first. -/
def NotifyUnit.firstAt (nu : NotifyUnit) (log : Bool) (l : BitVec 2) : Option SourceId :=
  allSources.find? fun n => nu.pending log n && nu.levelOf n == l

/-- The source the vector names: the highest level, then the lowest number (R136). -/
def NotifyUnit.vector (nu : NotifyUnit) (log : Bool) : Option SourceId :=
  ((nu.firstAt log 3).or (nu.firstAt log 2)).or (nu.firstAt log 1)

/-- The VECTOR word (R136, R163). -/
def NotifyUnit.vectorWord (nu : NotifyUnit) (log : Bool) : Word :=
  match nu.vector log with
  | none => 0
  | some n => place 0 (BitVec.ofNat 5 (n.val + 1)) ||| place 8 (nu.levelOf n)

/-- The NU takes a signal of a queue (R128). -/
def NotifyUnit.takeQueueSignal (nu : NotifyUnit) : QueueSignal → NotifyUnit
  | .level q => { nu with level := nu.level ||| BitVec.twoPow 8 q.val }
  | .drop q => { nu with drop := nu.drop ||| BitVec.twoPow 8 q.val }

/-- A write to FLAGA: each position written as 1 clears its latched flag; the LOG position has no effect
(R130, R163). -/
def NotifyUnit.writeFlagA (nu : NotifyUnit) (w : Word) : NotifyUnit :=
  { nu with
    done := nu.done && !w.getLsbD 0
    slip := nu.slip && !w.getLsbD 2
    level := nu.level &&& ~~~(w.extractLsb' 3 8)
    drop := nu.drop &&& ~~~((w.extractLsb' 11 5).setWidth 8) }

/-- A write to FLAGB: positions 0 to 2 are DROP Q5 to Q7, the others have no effect (R130, R163). -/
def NotifyUnit.writeFlagB (nu : NotifyUnit) (w : Word) : NotifyUnit :=
  { nu with drop := nu.drop &&& ~~~((w.extractLsb' 0 3).setWidth 8 <<< 5) }

/-- R139: the latched flags clear, the levels are kept. -/
def NotifyUnit.warm (nu : NotifyUnit) : NotifyUnit :=
  { nu with done := false, slip := false, level := 0, drop := 0 }

/-- The LOG flag of the part. -/
def State.logFlag (s : State) : Bool := s.qe.logNotEmpty

/-- The interrupt condition, STATUS.INT (R134). -/
def State.interruptCondition (s : State) : Bool := s.nu.condition s.logFlag

/-- INTN is asserted if and only if CONTROL.INTEN is 1 and the interrupt condition holds (R134, R170). -/
def State.intnAsserted (s : State) : Bool := s.cp.inten && s.interruptCondition

/-- The STATUS word (R154, R161). -/
def State.statusWord (s : State) : Word :=
  placeBit 0 s.cp.slot.isSome ||| placeBit 1 s.cp.refused ||| placeBit 2 s.tb.running |||
    placeBit 3 s.interruptCondition ||| place 4 s.cp.result.code |||
    place 8 (BitVec.ofNat 5 s.qe.log.length)

end Sys2Proof.Machine
end

