-- ==== Sys2Proof/Machine/DeadlineList.lean ====
section
/-! DEFINITION. The operations of the Deadline Unit on its own record (spec/01 sections 1.3 to 1.9): the delta
list, the relink list, the request table, the selection rule and the link status. -/

namespace Sys2Proof.Machine

/-! ## The delta list -/

/-- Unlinking (R17): the entry leaves the list and its delta is added to its successor's. -/
def unlinkEntry (e : EntryId) : List LinkedEntry → List LinkedEntry
  | [] => []
  | x :: rest =>
    if x.entry = e then
      match rest with
      | [] => []
      | y :: ys => { y with delta := y.delta + x.delta } :: ys
    else x :: unlinkEntry e rest

/-- Placement (R20): after the last entry whose remaining time is at most `d`. `d` counts from the entry before
the given list. -/
def placeEntry (e : EntryId) (d : Nat) (reload : Word) (arming : BitVec 8) :
    List LinkedEntry → List LinkedEntry
  | [] => [{ entry := e, delta := d, reload := reload, arming := arming }]
  | x :: rest =>
    if x.delta ≤ d then x :: placeEntry e (d - x.delta) reload arming rest
    else { entry := e, delta := d, reload := reload, arming := arming } ::
      { x with delta := x.delta - d } :: rest

/-- The remaining time of an entry of the list (R8), the time before the list being `before`. -/
def remainingFrom (before : Nat) (e : EntryId) : List LinkedEntry → Option Nat
  | [] => none
  | x :: rest => if x.entry = e then some (before + x.delta) else remainingFrom (before + x.delta) e rest

/-- The remaining time of a linked entry (R8). -/
def remaining (e : EntryId) (l : List LinkedEntry) : Option Nat := remainingFrom 0 e l

/-- A RELOAD taken (R28): the linked entry's reload changes; delta, position and arming do not. -/
def reloadEntry (e : EntryId) (v : Word) (l : List LinkedEntry) : List LinkedEntry :=
  l.map fun x => if x.entry = e then { x with reload := v } else x

/-! ## The request table -/

/-- A LINK or UNLINK arrives (R24): a pending request for the entry is discarded and the new one joins the tail. -/
def enterReplacing (r : LinkRequest) (table : List LinkRequest) : List LinkRequest :=
  table.filter (fun x => x.entry ≠ r.entry) ++ [r]

/-- A pending request meets a RELOAD for the same entry (R25). -/
def LinkRequest.meetReload (v : Word) : LinkRequest → LinkRequest
  | .link e d _ a => .link e d v a
  | .unlink e => .unlink e
  | .reload e _ => .reload e v

/-- A RELOAD arrives (R25). -/
def enterReload (e : EntryId) (v : Word) (table : List LinkRequest) : List LinkRequest :=
  if table.any (fun x => x.entry = e) then
    table.map fun x => if x.entry = e then x.meetReload v else x
  else table ++ [.reload e v]

/-- A request arrives at a DU that is not IDLE (R24, R25). -/
def enterRequest (r : LinkRequest) (table : List LinkRequest) : List LinkRequest :=
  match r with
  | .link _ _ _ _ => enterReplacing r table
  | .unlink _ => enterReplacing r table
  | .reload e v => enterReload e v table

/-! ## IDLE, WALKING and the selection rule -/

/-- The DU is IDLE: no step in progress, relink list, backlog and request table all empty (section 1.4). -/
def DeadlineUnit.idle (du : DeadlineUnit) : Bool :=
  du.activity == .quiet && du.relink.isEmpty && du.backlog == 0 && du.table.isEmpty

/-- The DU is WALKING (R11). -/
def DeadlineUnit.isWalking (du : DeadlineUnit) : Bool :=
  match du.activity with
  | .walking _ => true
  | .quiet | .applying | .taking _ => false

/-- The tick that the DU applies now, if it is a tick that it takes next: the one that arrived while it was
IDLE, or by the selection rule (R12) one of the backlog, which is then one less (R13). The answer is the DU
with the tick in hand gone. -/
def DeadlineUnit.claimTick (du : DeadlineUnit) : Option DeadlineUnit :=
  match du.activity with
  | .applying => some { du with activity := .quiet }
  | .quiet =>
    match du.relink with
    | [] => if du.backlog = 0 then none else some { du with backlog := du.backlog - 1 }
    | _ :: _ => none
  | .taking _ => none
  | .walking _ => none

/-- The request that the DU takes now, if it is a request that it takes next: the one that arrived while it was
IDLE, or by the selection rule (R12) the oldest of the table, which it leaves (R23). -/
def DeadlineUnit.claimRequest (du : DeadlineUnit) : Option (LinkRequest × DeadlineUnit) :=
  match du.activity with
  | .taking r => some (r, { du with activity := .quiet })
  | .quiet =>
    match du.relink, du.table with
    | [], r :: rest => if du.backlog = 0 then some (r, { du with table := rest }) else none
    | _ :: _, _ => none
    | [], [] => none
  | .applying => none
  | .walking _ => none

/-! ## Arrivals -/

/-- A tick reaches the DU (R13, R14). IDLE: its application begins at once. Otherwise it joins the backlog, or is
lost when the backlog holds 7: the slip count saturates and SLIP is sent. -/
def DeadlineUnit.tickArrives (du : DeadlineUnit) : DuOut :=
  if du.idle then { du := { du with activity := .applying } }
  else if du.backlog < Config.maxBacklog then { du := { du with backlog := du.backlog + 1 } }
  else { du := { du with slip := if du.slip = 255 then 255 else du.slip + 1 }, slips := [()] }

/-- A request reaches the DU (R23). IDLE: it is taken at once. Otherwise it is entered in the table. -/
def DeadlineUnit.requestArrives (du : DeadlineUnit) (r : LinkRequest) : DeadlineUnit :=
  if du.idle then { du with activity := .taking r } else { du with table := enterRequest r du.table }

/-! ## Steps -/

/-- The entries that fall due with the head: those that follow it with delta 0 (R15). -/
def dueWith : List LinkedEntry → List LinkedEntry
  | [] => []
  | x :: rest => if x.delta = 0 then x :: dueWith rest else []

/-- The entries that stay: from the first with a non-zero delta on (R15). -/
def notDue : List LinkedEntry → List LinkedEntry
  | [] => []
  | x :: rest => if x.delta = 0 then notDue rest else x :: rest

/-- The expiry notices of the entries removed (R7, R16). -/
def expiriesOf (l : List LinkedEntry) : List (Notice TimerId) :=
  l.filterMap fun x => match x.entry with
    | .timer t => some { who := t, arming := x.arming }
    | .context _ => none

/-- The timeout notices of the entries removed (R7, R16). -/
def timeoutsOf (l : List LinkedEntry) : List (Notice ContextId) :=
  l.filterMap fun x => match x.entry with
    | .timer _ => none
    | .context c => some { who := c, arming := x.arming }

/-- The entries removed that join the relink list: those with a non-zero reload (R15). -/
def relinksOf (l : List LinkedEntry) : List RelinkEntry :=
  l.filterMap fun x =>
    if x.reload = 0 then none else some { entry := x.entry, reload := x.reload, arming := x.arming }

/-- Tick application (R15), the tick in hand already taken from where it was held. -/
def DeadlineUnit.applyTick (du : DeadlineUnit) : DuOut :=
  match du.list with
  | [] => { du := { du with now := du.now + 1 } }
  | head :: rest =>
    if 1 < head.delta then
      { du := { du with now := du.now + 1, list := { head with delta := head.delta - 1 } :: rest } }
    else
      { du := { du with
          now := du.now + 1
          list := notDue rest
          relink := du.relink ++ relinksOf (head :: dueWith rest) }
        expiries := expiriesOf (head :: dueWith rest)
        timeouts := timeoutsOf (head :: dueWith rest) }

/-- The next tick application takes an entry out of the list: the head's delta reaches 0 (R15). -/
def DeadlineUnit.headFallsDue (du : DeadlineUnit) : Bool :=
  match du.list with
  | [] => false
  | head :: _ => head.delta ≤ 1

/-- A walk begins (R18). -/
def DeadlineUnit.beginWalk (du : DeadlineUnit) (w : WalkRecord) : DeadlineUnit :=
  { du with activity := .walking w }

/-- The relink walk of the first entry of the relink list begins (R18, R22). -/
def DeadlineUnit.startRelink (du : DeadlineUnit) : DeadlineUnit :=
  match du.activity, du.relink with
  | .quiet, r :: rest =>
    { du with
      relink := rest
      activity := .walking { entry := r.entry, delay := r.reload, reload := r.reload, arming := r.arming
                             source := .relink } }
  | .quiet, [] => du
  | .applying, _ => du
  | .taking _, _ => du
  | .walking _, _ => du

/-- The walk in progress ends (R20). -/
def DeadlineUnit.endWalk (du : DeadlineUnit) : DeadlineUnit :=
  match du.activity with
  | .walking w =>
    { du with list := placeEntry w.entry w.delay.toNat w.reload w.arming du.list, activity := .quiet }
  | .quiet => du
  | .applying => du
  | .taking _ => du

/-- The DU takes the request in hand as its kind requires (R26, R27, R28). -/
def DeadlineUnit.takeRequest (du : DeadlineUnit) : LinkRequest → DeadlineUnit
  | .link e d rl a =>
    { du with
      list := unlinkEntry e du.list
      activity := .walking { entry := e, delay := d, reload := rl, arming := a, source := .link } }
  | .unlink e => { du with list := unlinkEntry e du.list }
  | .reload e v => { du with list := reloadEntry e v du.list }

/-- R32: lists, table, backlog, slip count and walk go; NOW stays. A tick or a request in hand (log 5) is discarded
unapplied with them (DESIGN CHOICE, log 18). -/
def DeadlineUnit.warm (du : DeadlineUnit) : DeadlineUnit :=
  { now := du.now, list := [], relink := [], table := [], backlog := 0, slip := 0, activity := .quiet }

/-! ## Link status (R29) -/

/-- The delay of a pending LINK for the entry in the request table. -/
def linkDelay (e : EntryId) (table : List LinkRequest) : Option Word :=
  table.findSome? fun
    | .link e' d _ _ => if e' = e then some d else none
    | .unlink _ => none
    | .reload _ _ => none

/-- An UNLINK for the entry is in the request table. -/
def unlinkPending (e : EntryId) (table : List LinkRequest) : Bool :=
  table.any fun
    | .link _ _ _ _ => false
    | .unlink e' => e' = e
    | .reload _ _ => false

/-- The status by what the DU is in the middle of: a walk (R29's third and fourth conditions), or a request being
taken, which stands as the walk or the removal it leads to (DEDUCED, log 9). -/
def activityStatus (e : EntryId) : DuActivity → Option (LinkStatus × Word)
  | .walking w =>
    if w.entry = e then
      match w.source with
      | .link => some (.linkPending, w.delay)
      | .relink => some (.relinkPending, w.reload)
    else none
  | .taking (.link e' d _ _) => if e' = e then some (.linkPending, d) else none
  | .taking (.unlink e') => if e' = e then some (.notLinked, 0) else none
  | .taking (.reload _ _) => none
  | .quiet => none
  | .applying => none

/-- The reload of an entry of the relink list. -/
def relinkReload (e : EntryId) (l : List RelinkEntry) : Option Word :=
  l.findSome? fun x => if x.entry = e then some x.reload else none

/-- The link status of an entry with its tick value, by the first condition of R29 that holds. -/
def DeadlineUnit.linkStatus (du : DeadlineUnit) (e : EntryId) : LinkStatus × Word :=
  match linkDelay e du.table with
  | some d => (.linkPending, d)
  | none =>
    if unlinkPending e du.table then (.notLinked, 0)
    else
      match activityStatus e du.activity with
      | some st => st
      | none =>
        match relinkReload e du.relink with
        | some rl => (.relinkPending, rl)
        | none =>
          match remaining e du.list with
          | some n => (.linked, natWord n)
          | none => (.notLinked, 0)

end Sys2Proof.Machine
end

