-- ==== Sys2Proof/Machine/Queues.lean ====
section
/-! DEFINITION. The queues and the cell pool of the Queue Engine (spec/03): message order, admission, overflow,
the fate of a post, delivery to a waiter, and the queue commands. -/

namespace Sys2Proof.Machine

/-! ## Counts, reserves and the pool -/

/-- The number of stored messages (R56). -/
def QueueRec.count (r : QueueRec) : Nat := r.msgs.length

/-- The unmet reserve (R55): 0 when the count is at or above the reserve. -/
def QueueRec.unmet (r : QueueRec) : Nat := r.reserve - r.count

/-- U (R55). -/
def QueueEngine.unmetTotal (qe : QueueEngine) : Nat := sumBank QueueRec.unmet qe.queues

/-- A saturating drop count (R67). -/
def bumpDrops (d : Word) : Word := if d = 65535 then 65535 else d + 1

/-! ## Orders (R61, R92) -/

/-- An item joins a list after every item of its own or a higher rank, before every lower one. -/
def insertRanked {α : Type} (rank : α → Nat) (x : α) : List α → List α
  | [] => [x]
  | y :: rest => if rank x ≤ rank y then y :: insertRanked rank x rest else x :: y :: rest

/-- An item joins a list in its order. -/
def insertOrdered {α : Type} (o : Order) (rank : α → Nat) (x : α) (l : List α) : List α :=
  match o with
  | .fifo => l ++ [x]
  | .priority => insertRanked rank x l

/-- A message's rank (R61). -/
def Message.rank (m : Message) : Nat := m.body.priority.toNat

/-- A message joins the message list (R61). -/
def QueueRec.insert (r : QueueRec) (m : Message) : List Message := insertOrdered r.msgOrder Message.rank m r.msgs

/-! ## Admission and overflow -/

/-- The admission test for an enabled queue without waiters (R63). -/
def QueueEngine.admits (qe : QueueEngine) (q : QueueId) : Bool :=
  decide ((qe.queue q).count < (qe.queue q).quota) &&
    (decide ((qe.queue q).count < (qe.queue q).reserve) || decide (qe.unmetTotal < qe.free))

/-- A message is stored (R64): a cell, its place, the peak (R68), and LEVEL when the count goes from threshold - 1
to threshold (R69). -/
def QueueEngine.store (qe : QueueEngine) (q : QueueId) (m : Message) : QeOut :=
  { qe := { qe.setQueue q { qe.queue q with
              msgs := (qe.queue q).insert m
              peak := max (qe.queue q).peak ((qe.queue q).count + 1) } with free := qe.free - 1 }
    signals := if (qe.queue q).count + 1 = (qe.queue q).threshold then [.level q] else [] }

/-- A loss at a queue (R67), `msgs` being the message list after it. -/
def QueueEngine.lose (qe : QueueEngine) (q : QueueId) (msgs : List Message) : QeOut :=
  { qe := qe.setQueue q { qe.queue q with msgs := msgs, drops := bumpDrops (qe.queue q).drops }
    signals := [.drop q] }

/-- The lowest rank present in a list of messages that is not empty. -/
def lowestRank : Message → List Message → Nat
  | m, [] => m.rank
  | m, x :: rest => min m.rank (lowestRank x rest)

/-- The victim of a displacement and the list without it (R66): the head of a FIFO queue; in a PRIORITY queue the
first message of the lowest priority present, if that is at most the new message's. -/
def QueueRec.victim (r : QueueRec) (m : Message) : Option (Message × List Message) :=
  match r.msgs with
  | [] => none
  | x :: rest =>
    match r.msgOrder with
    | .fifo => some (x, rest)
    | .priority =>
      if lowestRank x rest ≤ m.rank then
        match (x :: rest).find? (fun y => y.rank == lowestRank x rest) with
        | none => none
        | some v => some (v, (x :: rest).eraseP (fun y => y.rank == lowestRank x rest))
      else none

/-- What became of a post (R62). -/
inductive Fate where
  | disabled
  | delivered (c : ContextId)
  | stored
  | displaced (victim : Message)
  | dropped
deriving DecidableEq, Repr

/-- A post that the admission test refuses (R65, R66). -/
def QueueEngine.overflow (qe : QueueEngine) (q : QueueId) (m : Message) : Fate × QeOut :=
  match (qe.queue q).policy with
  | .reject => (.dropped, qe.lose q (qe.queue q).msgs)
  | .displace =>
    match (qe.queue q).victim m with
    | none => (.dropped, qe.lose q (qe.queue q).msgs)
    | some (v, rest) => (.displaced v, qe.lose q (insertOrdered (qe.queue q).msgOrder Message.rank m rest))

/-! ## Deferred completion (R93, used by delivery, timeout and purge) -/

/-- A context leaves a queue's waiter list. -/
def QueueEngine.dropWaiter (qe : QueueEngine) (q : QueueId) (c : ContextId) : QueueEngine :=
  qe.setQueue q { qe.queue q with waiters := (qe.queue q).waiters.erase c }

/-- The context record after a deferred completion (R93). `byDeadline`: a current timeout notice, which keeps the
arming number (R95); every other end of a wait increases it (R84). -/
def Context.completed (x : Context) (o : WaitOutcome) (slot : Option Message) (now : Word) (byDeadline : Bool) :
    Context :=
  { x with
    state := .complete, outcome := some o, slot := slot, stamp := now
    arming := if byDeadline then x.arming else x.arming + 1 }

/-- The common effects of a deferred completion of c, waiting on q (R93): waiter list, record, log. -/
def QueueEngine.finishWait (qe : QueueEngine) (q : QueueId) (c : ContextId) (o : WaitOutcome)
    (slot : Option Message) (now : Word) (byDeadline : Bool) : QueueEngine :=
  { (qe.dropWaiter q c).setContext c ((qe.context c).completed o slot now byDeadline) with
    log := qe.log ++ [{ context := c, outcome := o, queue := (qe.context c).queue }] }

/-- The UNLINK of a wait that ends other than by its deadline, if it was timed (R94, R96, R102). -/
def Context.unlinkIfTimed (x : Context) (c : ContextId) : List LinkRequest :=
  match x.timeout with
  | none => []
  | some _ => [.unlink (.context c)]

/-- Delivery of a message to the waiter c (R70, R94). -/
def QueueEngine.deliver (qe : QueueEngine) (q : QueueId) (c : ContextId) (m : Message) : QeOut :=
  { qe := qe.finishWait q c .message (some m) m.stamp false
    requests := (qe.context c).unlinkIfTimed c }

/-! ## Taking a post -/

/-- The fate of a post by the first condition of R62 that holds, the queue being enabled. -/
def QueueEngine.takeEnabled (qe : QueueEngine) (q : QueueId) (m : Message) : Fate × QeOut :=
  match (qe.queue q).waiters with
  | c :: _ => (.delivered c, qe.deliver q c m)
  | [] => if qe.admits q then (.stored, qe.store q m) else qe.overflow q m

/-- The QE takes a post of the TT or the LU (R62, R71). -/
def QueueEngine.takePost (qe : QueueEngine) (q : QueueId) (m : Message) : Fate × QeOut :=
  if (qe.queue q).enabled then qe.takeEnabled q m else (.disabled, qe.lose q (qe.queue q).msgs)

/-- The posts of a sender on their way. -/
def Wires.postsOf (w : Wires) : PostSender → List (Sent Post)
  | .tt => w.ttToQe
  | .lu => w.luToQe

/-- The posts of a sender on their way, replaced. -/
def Wires.setPostsOf (w : Wires) : PostSender → List (Sent Post) → Wires
  | .tt, x => { w with ttToQe := x }
  | .lu, x => { w with luToQe := x }

/-- The QE takes a post off its wire and stamps it (R60). -/
def State.takePost (s : State) (sender : PostSender) : State :=
  match receive s.resets.qe (s.wires.postsOf sender) with
  | none => s
  | some (p, rest) =>
    (s.withWires (s.wires.setPostsOf sender rest)).commitQe
      (s.qe.takePost p.queue { body := p.body, stamp := s.stampNow }).2

/-- POST (R62). -/
def execPost (sender : PostSender) (s : State) : Outcome := running s (s.takePost sender)

/-! ## Queue commands -/

/-- A queue or context command's rule lifted to State, with the stamp of the moment. -/
def qeCommand (f : Words6 → Word → QueueEngine → Completion × QeOut) (p : Words6) (s : State) :
    Completion × State :=
  ((f p s.stampNow s.qe).1, s.commitQe (f p s.stampNow s.qe).2)

/-- The range check of an enabled configuration (R74). -/
def setupInRange (quota reserve threshold : Nat) : Bool :=
  decide (1 ≤ quota ∧ quota ≤ Config.cells ∧ reserve ≤ quota ∧ 1 ≤ threshold ∧ threshold ≤ quota)

/-- The queue record that Q_SETUP's parameters give (R75, R166): lists, peak and drops are kept. -/
def QueueRec.configured (r : QueueRec) (p : Words6) : QueueRec :=
  { r with
    enabled := bit p[0] 3
    msgOrder := orderOf (bit p[0] 4)
    waiterOrder := orderOf (bit p[0] 5)
    policy := overflowOf (bit p[0] 6)
    quota := if bit p[0] 3 then p[1].toNat else 0
    reserve := if bit p[0] 3 then p[2].toNat else 0
    threshold := if bit p[0] 3 then p[3].toNat else 0 }

/-- U' of the pool check: the unmet reserves of the other queues (R74). -/
def QueueEngine.unmetOthers (qe : QueueEngine) (q : QueueId) : Nat := qe.unmetTotal - (qe.queue q).unmet

/-- Q_SETUP's rule (R73, R74, R75). -/
def qSetup (p : Words6) (_now : Word) (qe : QueueEngine) : Completion × QeOut :=
  if !inRange p[0] unassignedQSetup then (.fail .badIndex, { qe := qe })
  else if bit p[0] 3 && !setupInRange p[1].toNat p[2].toNat p[3].toNat then (.fail .badValue, { qe := qe })
  else
    let q := queueOf (field p[0] 0 3)
    if (qe.queue q).msgs ≠ [] ∨ (qe.queue q).waiters ≠ [] then (.fail .wrongState, { qe := qe })
    else if bit p[0] 3 && decide (qe.free < p[2].toNat + qe.unmetOthers q) then (.fail .noCells, { qe := qe })
    else
      let qe' := qe.setQueue q ((qe.queue q).configured p)
      (.ok (words (natWord qe'.free) (natWord qe'.unmetTotal)), { qe := qe' })

/-- Q_SETUP (R74). -/
def execQSetup (s : State) : Outcome := running s (takeCommand Config.codeQSetup (qeCommand qSetup) s)

/-- The message that Q_SEND's parameters make (R76, R166). -/
def sendDraft (p : Words6) (data : MessageData) : Draft :=
  { kind := .sent, origin := (field p[0] 8 4).setWidth 6, tag := p[1], priority := field p[0] 4 2
    seq := field p[2] 0 8, data := data }

/-- Q_SEND's completion, from the fate of its post and the queue after the event (R77, R169). -/
def sendCompletion (fate : Fate) (r : QueueRec) (stamp : Word) : Completion :=
  match fate with
  | .disabled => .fail .disabled
  | .delivered c => .ok (words (place 0 (1 : BitVec 2) ||| place 4 (BitVec.ofNat 4 c.val)) (natWord r.count) stamp)
  | .stored => .ok (words (place 0 (2 : BitVec 2)) (natWord r.count) stamp)
  | .displaced v =>
    .ok (words (place 0 (3 : BitVec 2)) (natWord r.count) stamp
      (place 0 v.body.kind.code ||| place 2 v.body.origin) (place 0 v.body.seq))
  | .dropped => { result := .queueFull, reply := words 0 (natWord r.count) 0 0 0 r.drops }

/-- Q_SEND's rule (R73, R76, R77). -/
def qSend (p : Words6) (now : Word) (qe : QueueEngine) : Completion × QeOut :=
  if !inRange p[0] unassignedQSend then (.fail .badIndex, { qe := qe })
  else
    match dataOf (field p[0] 6 2) p[3] p[4] with
    | none => (.fail .badValue, { qe := qe })
    | some data =>
      let q := queueOf (field p[0] 0 3)
      if (qe.queue q).enabled then
        let r := qe.takeEnabled q { body := sendDraft p data, stamp := now }
        (sendCompletion r.1 (r.2.qe.queue q) now, r.2)
      else (.fail .disabled, { qe := qe })

/-- Q_SEND (R76). -/
def execQSend (s : State) : Outcome := running s (takeCommand Config.codeQSend (qeCommand qSend) s)

/-- The head message leaves the queue and its cell is freed (R78, R88), `rest` being the list after it. -/
def QueueEngine.removeHead (qe : QueueEngine) (q : QueueId) (rest : List Message) : QueueEngine :=
  { qe.setQueue q { qe.queue q with msgs := rest } with free := qe.free + 1 }

/-- Q_TAKE's rule (R73, R78). -/
def qTake (p : Words6) (_now : Word) (qe : QueueEngine) : Completion × QeOut :=
  if !inRange p[0] unassignedQueue then (.fail .badIndex, { qe := qe })
  else
    let q := queueOf (field p[0] 0 3)
    match (qe.queue q).msgs with
    | [] => (.fail .empty, { qe := qe })
    | m :: rest => (.ok (messageWords m none q), { qe := qe.removeHead q rest })

/-- Q_TAKE (R78). -/
def execQTake (s : State) : Outcome := running s (takeCommand Config.codeQTake (qeCommand qTake) s)

/-- Every message of a queue is discarded and its cell freed (R79). -/
def QueueEngine.discardAll (qe : QueueEngine) (q : QueueId) : QueueEngine :=
  { qe.setQueue q { qe.queue q with msgs := [] } with free := qe.free + (qe.queue q).count }

/-- The waiters of a list complete with PURGED, in order (R96). -/
def QueueEngine.purgeWaiters (q : QueueId) (now : Word) : List ContextId → QueueEngine → QueueEngine
  | [], qe => qe
  | c :: rest, qe => QueueEngine.purgeWaiters q now rest (qe.finishWait q c .purged none now false)

/-- The UNLINK requests of a purge, in waiter order (R96). -/
def QueueEngine.purgeUnlinks (qe : QueueEngine) (l : List ContextId) : List LinkRequest :=
  l.flatMap fun c => (qe.context c).unlinkIfTimed c

/-- Q_PURGE's rule (R73, R79, R96). -/
def qPurge (p : Words6) (now : Word) (qe : QueueEngine) : Completion × QeOut :=
  if !inRange p[0] unassignedQueue then (.fail .badIndex, { qe := qe })
  else
    let q := queueOf (field p[0] 0 3)
    let ws := (qe.queue q).waiters
    (.ok (words (natWord (qe.queue q).count) (natWord ws.length)),
      { qe := QueueEngine.purgeWaiters q now ws (qe.discardAll q), requests := qe.purgeUnlinks ws })

/-- Q_PURGE (R79). -/
def execQPurge (s : State) : Outcome := running s (takeCommand Config.codeQPurge (qeCommand qPurge) s)

/-- Q_READ's reply (R80, R169). -/
def qReadWords (qe : QueueEngine) (q : QueueId) : Words6 :=
  let r := qe.queue q
  words
    (place 0 (queueBits q) ||| placeBit 3 r.enabled ||| place 4 r.msgOrder.code ||| place 5 r.waiterOrder.code |||
      place 6 r.policy.code ||| place 8 (BitVec.ofNat 5 r.waiters.length))
    (placeNat8 0 r.quota ||| placeNat8 8 r.reserve) (placeNat8 0 r.threshold ||| placeNat8 8 r.count)
    (placeNat8 0 r.peak) (placeNat8 0 qe.free ||| placeNat8 8 qe.unmetTotal) r.drops

/-- The statistics cleared (R68, R80). -/
def QueueRec.cleared (r : QueueRec) : QueueRec := { r with drops := 0, peak := r.count }

/-- Q_READ's rule (R73, R80). -/
def qRead (p : Words6) (_now : Word) (qe : QueueEngine) : Completion × QeOut :=
  if !inRange p[0] unassignedQRead then (.fail .badIndex, { qe := qe })
  else
    let q := queueOf (field p[0] 0 3)
    (.ok (qReadWords qe q), { qe := if bit p[0] 8 then qe.setQueue q (qe.queue q).cleared else qe })

/-- Q_READ (R80). -/
def execQRead (s : State) : Outcome := running s (takeCommand Config.codeQRead (qeCommand qRead) s)

end Sys2Proof.Machine
end

