-- ==== Sys2Proof/Machine/Contexts.lean ====
section
/-! DEFINITION. The contexts and the completion log of the Queue Engine (spec/04): waits, timeouts, the log reads
and the context commands; the QE's warm reset. -/

namespace Sys2Proof.Machine

/-! ## Timeout notices -/

/-- A timeout notice is current: WAITING, timed, the same arming number (R95). -/
def Context.current (x : Context) (arming : BitVec 8) : Bool :=
  x.state == .waiting && x.timeout.isSome && x.arming == arming

/-- The QE takes a timeout notice (R95): current, or stale and discarded without effect. -/
def QueueEngine.takeTimeout (qe : QueueEngine) (n : Notice ContextId) (now : Word) : QueueEngine :=
  if (qe.context n.who).current n.arming then
    qe.finishWait (qe.context n.who).queue n.who .timeout none now true
  else qe

/-- The QE takes a timeout notice off its wire. -/
def State.timeoutNotice (s : State) : State :=
  match receive s.resets.qe s.wires.duToQe with
  | none => s
  | some (n, rest) =>
    (s.withWires { s.wires with duToQe := rest }).commitQe { qe := s.qe.takeTimeout n s.stampNow }

/-- TIMEOUT_NOTICE (R95). -/
def execTimeoutNotice (s : State) : Outcome := running s s.timeoutNotice

/-! ## The completion log -/

/-- The log without a context's entry (R98, R101, R103). -/
def QueueEngine.unlog (qe : QueueEngine) (c : ContextId) : QueueEngine :=
  { qe with log := qe.log.filter (fun e => e.context ≠ c) }

/-- A context has an entry in the log (R105). -/
def QueueEngine.inLog (qe : QueueEngine) (c : ContextId) : Bool := qe.log.any (fun e => e.context = c)

/-! ## Context commands -/

/-- CTX_SETUP's rule (R85, R86). -/
def ctxSetup (p : Words6) (_now : Word) (qe : QueueEngine) : Completion × QeOut :=
  if !inRange p[0] unassignedCtxSetup then (.fail .badIndex, { qe := qe })
  else
    let c := contextOf (field p[0] 0 4)
    if (qe.context c).state = .waiting then (.fail .wrongState, { qe := qe })
    else
      (.ok (words (place 0 (qe.context c).priority)),
        { qe := qe.setContext c { qe.context c with priority := field p[0] 4 3 } })

/-- CTX_SETUP (R86). -/
def execCtxSetup (s : State) : Outcome := running s (takeCommand Config.codeCtxSetup (qeCommand ctxSetup) s)

/-- A waiter's rank (R92). -/
def QueueEngine.waiterRank (qe : QueueEngine) (c : ContextId) : Nat := (qe.context c).priority.toNat

/-- A context begins a deferred wait (R90): WAITING, the queue, the timeout setting, a new arming number when timed,
its place in the waiter list (R92). -/
def QueueEngine.beginWait (qe : QueueEngine) (c : ContextId) (q : QueueId) (timeout : Option Word) : QueueEngine :=
  (qe.setQueue q { qe.queue q with
      waiters := insertOrdered (qe.queue q).waiterOrder qe.waiterRank c (qe.queue q).waiters }).setContext c
    { qe.context c with
      state := .waiting, queue := q, timeout := timeout
      arming := if timeout.isSome then (qe.context c).arming + 1 else (qe.context c).arming }

/-- The LINK of a timed wait, `arming` being the number after the increase (R90). -/
def waitLink (c : ContextId) (timeout : Option Word) (arming : BitVec 8) : List LinkRequest :=
  match timeout with
  | none => []
  | some ticks => [.link (.context c) ticks 0 arming]

/-- CTX_WAIT on an empty enabled queue by an IDLE context (R89, R90). -/
def waitOnEmpty (qe : QueueEngine) (c : ContextId) (q : QueueId) (timeout : Option Word) : Completion × QeOut :=
  let qe' := qe.beginWait c q timeout
  (.ok (waitingWords q (qe'.context c).arming),
    { qe := qe', requests := waitLink c timeout (qe'.context c).arming })

/-- CTX_WAIT's rule (R85, R87 to R90). -/
def ctxWait (p : Words6) (_now : Word) (qe : QueueEngine) : Completion × QeOut :=
  if !inRange p[0] unassignedCtxWait then (.fail .badIndex, { qe := qe })
  else
    match waitModeOf (field p[0] 8 2) p[1] with
    | none => (.fail .badValue, { qe := qe })
    | some mode =>
      let c := contextOf (field p[0] 0 4)
      let q := queueOf (field p[0] 4 3)
      if (qe.context c).state ≠ .idle then (.fail .wrongState, { qe := qe })
      else if !(qe.queue q).enabled then (.fail .disabled, { qe := qe })
      else
        match (qe.queue q).msgs with
        | m :: rest => (.ok (messageWords m (some .message) q), { qe := qe.removeHead q rest })
        | [] =>
          match mode with
          | .poll => (.fail .empty, { qe := qe })
          | .untimed => waitOnEmpty qe c q none
          | .timed ticks => waitOnEmpty qe c q (some ticks)

/-- CTX_WAIT (R87). -/
def execCtxWait (s : State) : Outcome := running s (takeCommand Config.codeCtxWait (qeCommand ctxWait) s)

/-- A context returned to IDLE (R83): outcome none, slot empty. -/
def Context.toIdle (x : Context) : Context := { x with state := .idle, outcome := none, slot := none }

/-- CTX_ABANDON's reply: prior state, discarded outcome, queue, and the arming number after the command (R102,
R103, R169). -/
def abandonWords (prior : ContextState) (outcome : Option WaitOutcome) (q : QueueId) (arming : BitVec 8) : Words6 :=
  words (place 0 prior.code ||| place 4 (outcomeCode outcome) ||| place 8 (queueBits q)) (place 0 arming)

/-- CTX_ABANDON's rule (R85, R102, R103). -/
def ctxAbandon (p : Words6) (_now : Word) (qe : QueueEngine) : Completion × QeOut :=
  if !inRange p[0] unassignedContext then (.fail .badIndex, { qe := qe })
  else
    let c := contextOf (field p[0] 0 4)
    let x := qe.context c
    match x.state with
    | .idle => (.ok (abandonWords .idle none x.queue x.arming), { qe := qe })
    | .waiting =>
      (.ok (abandonWords .waiting none x.queue (x.arming + 1)),
        { qe := (qe.dropWaiter x.queue c).setContext c { x with state := .idle, arming := x.arming + 1 }
          requests := x.unlinkIfTimed c })
    | .complete =>
      (.ok (abandonWords .complete x.outcome x.queue x.arming), { qe := (qe.unlog c).setContext c x.toIdle })

/-- CTX_ABANDON (R102). -/
def execCtxAbandon (s : State) : Outcome := running s (takeCommand Config.codeCtxAbandon (qeCommand ctxAbandon) s)

/-- CTX_COLLECT's reply (R101, R167). -/
def collectWords (x : Context) : Words6 :=
  match x.slot with
  | some m => messageWords m x.outcome x.queue
  | none => noMessageWords x.outcome x.queue x.stamp

/-- CTX_COLLECT's rule (R85, R101). -/
def ctxCollect (p : Words6) (_now : Word) (qe : QueueEngine) : Completion × QeOut :=
  if !inRange p[0] unassignedContext then (.fail .badIndex, { qe := qe })
  else
    let c := contextOf (field p[0] 0 4)
    match (qe.context c).state with
    | .complete =>
      (.ok (collectWords (qe.context c)), { qe := (qe.unlog c).setContext c (qe.context c).toIdle })
    | .idle => (.fail .wrongState, { qe := qe })
    | .waiting => (.fail .wrongState, { qe := qe })

/-- CTX_COLLECT (R101). -/
def execCtxCollect (s : State) : Outcome := running s (takeCommand Config.codeCtxCollect (qeCommand ctxCollect) s)

/-- CTX_READ's reply (R105, R169). -/
def ctxReadWords (x : Context) (inLog : Bool) (link : LinkStatus × Word) : Words6 :=
  words
    (place 0 x.state.code ||| place 4 x.priority ||| place 8 (queueBits x.queue) ||| placeBit 11 x.timeout.isSome |||
      placeBit 12 inLog ||| place 13 (outcomeCode x.outcome))
    (x.timeout.getD 0) (place 0 x.arming ||| place 8 link.1.code) link.2

/-- CTX_READ's rule (R105): it reads the context, and the DU as it stands (R29; R91 read so too, log 9), and changes
nothing. -/
def ctxRead (p : Words6) (s : State) : Completion × State :=
  if !inRange p[0] unassignedContext then (.fail .badIndex, s)
  else
    let c := contextOf (field p[0] 0 4)
    (.ok (ctxReadWords (s.qe.context c) (s.qe.inLog c) (s.du.linkStatus (.context c))), s)

/-- CTX_READ (R105). -/
def execCtxRead (s : State) : Outcome := running s (takeCommand Config.codeCtxRead ctxRead s)

/-! ## Warm reset (R82, R107) -/

/-- R82: the configuration stays, the lists, peak and drops go. -/
def QueueRec.warm (r : QueueRec) : QueueRec := { r with msgs := [], waiters := [], peak := 0, drops := 0 }

/-- R82, R107. -/
def QueueEngine.warm (qe : QueueEngine) : QueueEngine :=
  { free := Config.cells, queues := mapBank QueueRec.warm qe.queues
    contexts := mapBank Context.toIdle qe.contexts, log := [] }

end Sys2Proof.Machine
end

