-- ==== Sys2Proof/Machine/Lines.lean ====
section
/-! DEFINITION. The Line Unit (spec/05): edges and rounds of the inputs, output actions, ticks, and the line
commands. -/

namespace Sys2Proof.Machine

/-! ## Inputs -/

/-- The levels of all inputs, EVn in bit n of the byte (R111). -/
def LineUnit.inputLevels (lu : LineUnit) : BitVec 8 :=
  BitVec.ofBoolListLE (lu.inputs.toArray.toList.map fun x => levelBit x.level) |>.setWidth 8

/-- An edge to the given level qualifies (R110). -/
def EdgeSel.admits : EdgeSel → Level → Bool
  | .rise, .high => true
  | .rise, .low => false
  | .fall, .high => false
  | .fall, .low => true
  | .both, .high => true
  | .both, .low => true

/-- The message of an input's post (R115), `x` being the input and `lu` the unit after the edge set the level. -/
def lineDraft (lu : LineUnit) (x : Input) (n : LineId) (seq : BitVec 8) : Draft :=
  { kind := .line, origin := BitVec.ofNat 6 n.val, tag := x.tag, priority := x.priority, seq := seq
    data := .one (lu.inputLevels.setWidth 16) }

/-- The next qualifying edge completes a round (R114). -/
def Input.completes (x : Input) : Bool := x.mode == .count && x.edgeCount + 1 == x.compare

/-- The input after a qualifying edge, by its mode (R112, R113, R114, R116). -/
def Input.counted (x : Input) : Input :=
  match x.mode with
  | .off => x
  | .post => { x with edgeCount := x.edgeCount + 1 }
  | .retrigger => { x with edgeCount := x.edgeCount + 1 }
  | .count =>
    if x.completes then { x with edgeCount := 0, rounds := x.rounds + 1 }
    else { x with edgeCount := x.edgeCount + 1 }

/-- The posts of a qualifying edge (R113, R114), `x` being the input before it was counted. -/
def Input.edgePosts (lu : LineUnit) (x : Input) (n : LineId) : List Post :=
  match x.mode with
  | .off => []
  | .retrigger => []
  | .post => [{ queue := x.queue, body := lineDraft lu x n ((x.edgeCount + 1).setWidth 8) }]
  | .count => if x.completes then [{ queue := x.queue, body := lineDraft lu x n (x.rounds + 1) }] else []

/-- The retrigger requests of a qualifying edge (R116). -/
def Input.edgeRetriggers (x : Input) : List TimerId :=
  match x.mode with
  | .retrigger => [x.timer]
  | .off => []
  | .post => []
  | .count => []

/-- The level of an input set (R109). -/
def LineUnit.setInputLevel (lu : LineUnit) (n : LineId) (l : Level) : LineUnit :=
  lu.setInput n { lu.input n with level := l, firstSampleDue := false }

/-- The mode's effects of a qualifying edge, the level being set (R112 to R116). -/
def LineUnit.qualifies (lu : LineUnit) (n : LineId) : LuOut :=
  { lu := lu.setInput n (lu.input n).counted
    posts := (lu.input n).edgePosts lu n
    retriggers := (lu.input n).edgeRetriggers }

/-- The LU compares a sample with the input's level field (R109). The first sample after RESETN rose sets the level
and is no edge (R125). -/
def LineUnit.sample (lu : LineUnit) (n : LineId) (l : Level) : LuOut :=
  if (lu.input n).firstSampleDue then { lu := lu.setInputLevel n l }
  else if (lu.input n).level = l then { lu := lu }
  else if (lu.input n).edge.admits l then (lu.setInputLevel n l).qualifies n
  else { lu := lu.setInputLevel n l }

/-- EDGE (R109). -/
def execEdge (n : LineId) (l : Level) (s : State) : Outcome := running s (s.commitLu (s.lu.sample n l))

/-- The sample is an edge that completes a round (R114). -/
def LineUnit.roundAt (lu : LineUnit) (n : LineId) (l : Level) : Bool :=
  !(lu.input n).firstSampleDue && (lu.input n).level != l && (lu.input n).edge.admits l && (lu.input n).completes

/-- ROUND (R114): the edge that completes a round; any other edge is no ROUND (log 6). -/
def execRound (n : LineId) (l : Level) (s : State) : Outcome :=
  running s (if s.lu.roundAt n l then s.commitLu (s.lu.sample n l) else s)

/-! ## Outputs -/

/-- The opposite level. -/
def flipLevel : Level → Level
  | .low => .high
  | .high => .low

/-- An output after an action (R117). -/
def Output.act (o : Output) : ActionKind → Output
  | .set => { level := .high, pulsePending := false }
  | .clear => { level := .low, pulsePending := false }
  | .toggle => { level := flipLevel o.level, pulsePending := false }
  | .pulse => { level := .high, pulsePending := true }

/-- The LU takes an action (R117). -/
def LineUnit.act (lu : LineUnit) (a : OutputAction) : LineUnit :=
  lu.setOutput a.output ((lu.output a.output).act a.kind)

/-- The LU takes an action of the TT off its wire (R118). -/
def State.outputAction (s : State) : State :=
  match receive s.resets.lu s.wires.ttToLu with
  | none => s
  | some (a, rest) => (s.withWires { s.wires with ttToLu := rest }).withLu (s.lu.act a)

/-- OUTPUT_ACTION (R117). -/
def execOutputAction (s : State) : Outcome := running s s.outputAction

/-- A tick ends a pending pulse (R119). -/
def Output.tick (o : Output) : Output := if o.pulsePending then { level := .low, pulsePending := false } else o

/-- A tick at every output (R119). -/
def LineUnit.tick (lu : LineUnit) : LineUnit := { lu with outputs := mapBank Output.tick lu.outputs }

/-- The LU takes a tick off its wire (R119). -/
def State.luTick (s : State) : State :=
  match receive s.resets.lu s.wires.tbToLu with
  | none => s
  | some (_, rest) => (s.withWires { s.wires with tbToLu := rest }).withLu s.lu.tick

/-- LU_TICK (R119). -/
def execLuTick (s : State) : Outcome := running s s.luTick

/-- The levels of the four outputs, ACTn in bit n (R169). -/
def LineUnit.outputLevels (lu : LineUnit) : BitVec 4 :=
  BitVec.ofBoolListLE (lu.outputs.toArray.toList.map fun o => levelBit o.level) |>.setWidth 4

/-- The pulse-pending marks of the four outputs, ACTn in bit n (R169). -/
def LineUnit.pendingMarks (lu : LineUnit) : BitVec 4 :=
  BitVec.ofBoolListLE (lu.outputs.toArray.toList.map fun o => o.pulsePending) |>.setWidth 4

/-! ## Line commands -/

/-- A line command's rule lifted to State. No line command sends anything. -/
def luCommand (f : Words6 → LineUnit → Completion × LineUnit) (p : Words6) (s : State) : Completion × State :=
  ((f p s.lu).1, s.withLu (f p s.lu).2)

/-- The timer field that LN_SETUP sets: the further value in RETRIGGER mode, else 0 (R121); `none` for a timer
number of 48 or more. -/
def setupTimer (mode : LineMode) (v : Word) : Option TimerId :=
  match mode with
  | .retrigger => timerOf v.toNat
  | .off => some 0
  | .post => some 0
  | .count => some 0

/-- The compare field that LN_SETUP sets: the further value in COUNT mode, else 0 (R121). -/
def setupCompare (mode : LineMode) (v : Word) : Word :=
  match mode with
  | .count => v
  | .off => 0
  | .post => 0
  | .retrigger => 0

/-- LN_SETUP's reply (R121, R169). -/
def lnSetupWords (x : Input) : Words6 :=
  words x.edgeCount (place 0 x.rounds ||| placeBit 8 (levelBit x.level))

/-- The input that LN_SETUP's parameters give (R121): the counters 0, the level kept. -/
def Input.configured (x : Input) (p : Words6) (mode : LineMode) (edge : EdgeSel) (timer : TimerId) : Input :=
  { x with
    mode := mode, edge := edge, queue := queueOf (field p[0] 8 3), tag := p[1], priority := field p[0] 12 2
    compare := setupCompare mode p[2], timer := timer, edgeCount := 0, rounds := 0 }

/-- LN_SETUP's rule (R120, R121). -/
def lnSetup (p : Words6) (lu : LineUnit) : Completion × LineUnit :=
  if !inRange p[0] unassignedLnSetup then (.fail .badIndex, lu)
  else
    let n := lineOf (field p[0] 0 3)
    let mode := lineModeOf (field p[0] 4 2)
    match setupTimer mode p[2] with
    | none => (.fail .badIndex, lu)
    | some timer =>
      match edgeSelOf (field p[0] 6 2) with
      | none => (.fail .badValue, lu)
      | some edge =>
        if mode = .count ∧ p[2] = 0 then (.fail .badValue, lu)
        else (.ok (lnSetupWords (lu.input n)), lu.setInput n ((lu.input n).configured p mode edge timer))

/-- LN_SETUP (R121). -/
def execLnSetup (s : State) : Outcome := running s (takeCommand Config.codeLnSetup (luCommand lnSetup) s)

/-- LN_DRIVE's reply (R123, R169). -/
def lnDriveWords (before after : Output) (lu : LineUnit) : Words6 :=
  words (placeBit 0 (levelBit before.level) ||| placeBit 1 (levelBit after.level) ||| placeBit 2 after.pulsePending)
    (place 0 lu.outputLevels)

/-- The outputs after LN_DRIVE's action, code 0 being no action (R123). -/
def LineUnit.drive (lu : LineUnit) (o : OutputId) : Option ActionKind → LineUnit
  | none => lu
  | some k => lu.act { output := o, kind := k }

/-- LN_DRIVE's rule (R120, R123). -/
def lnDrive (p : Words6) (lu : LineUnit) : Completion × LineUnit :=
  if !inRange p[0] unassignedLnDrive then (.fail .badIndex, lu)
  else
    match actionKindOf (field p[0] 4 3) with
    | none => (.fail .badValue, lu)
    | some k =>
      let o := outputOf (field p[0] 0 2)
      let lu' := lu.drive o k
      (.ok (lnDriveWords (lu.output o) (lu'.output o) lu'), lu')

/-- LN_DRIVE (R123). -/
def execLnDrive (s : State) : Outcome := running s (takeCommand Config.codeLnDrive (luCommand lnDrive) s)

/-- The compare value or timer number that the mode uses, 0 in OFF and POST (R124, R169). -/
def Input.further (x : Input) : Word :=
  match x.mode with
  | .count => x.compare
  | .retrigger => natWord x.timer.val
  | .off => 0
  | .post => 0

/-- LN_READ's reply (R124, R169). -/
def lnReadWords (lu : LineUnit) (n : LineId) : Words6 :=
  let x := lu.input n
  words
    (place 0 (BitVec.ofNat 3 n.val) ||| place 4 x.mode.code ||| place 6 x.edge.code ||| place 8 (queueBits x.queue) |||
      place 12 x.priority ||| placeBit 15 (levelBit x.level))
    x.tag x.further x.edgeCount (place 0 x.rounds) (place 0 lu.outputLevels ||| place 4 lu.pendingMarks)

/-- LN_READ's rule (R120, R124): it reads and changes nothing. -/
def lnRead (p : Words6) (lu : LineUnit) : Completion × LineUnit :=
  if !inRange p[0] unassignedLine then (.fail .badIndex, lu)
  else (.ok (lnReadWords lu (lineOf (field p[0] 0 3))), lu)

/-- LN_READ (R124). -/
def execLnRead (s : State) : Outcome := running s (takeCommand Config.codeLnRead (luCommand lnRead) s)

/-! ## Resets -/

/-- R126: configuration and level are kept, the counters 0. -/
def Input.warm (x : Input) : Input := { x with edgeCount := 0, rounds := 0 }

/-- R126: every output LOW with its mark clear. -/
def LineUnit.warm (lu : LineUnit) : LineUnit :=
  { inputs := mapBank Input.warm lu.inputs, outputs := Vector.replicate 4 Output.cold }

/-- The level that bit n of a byte of samples gives. -/
def sampledLevel (levels : BitVec 8) (n : LineId) : Level := if levels.getLsbD n.val then .high else .low

/-- The first sample of an input, if it is still to come (R125). -/
def LineUnit.firstSample (levels : BitVec 8) (lu : LineUnit) (n : LineId) : LineUnit :=
  if (lu.input n).firstSampleDue then lu.setInputLevel n (sampledLevel levels n) else lu

/-- The first samples of all inputs (R125). -/
def LineUnit.firstSamples (lu : LineUnit) (levels : BitVec 8) : LineUnit :=
  [0, 1, 2, 3, 4, 5, 6, 7].foldl (LineUnit.firstSample levels) lu

end Sys2Proof.Machine
end

