-- ==== Sys2Proof/Machine/TimeBase.lean ====
section
/-! DEFINITION. The events of the Time Base and the Deadline Unit: the rows TB_TICK to TAKE_RELOAD, the TB
commands and TBCLK_RISING_EDGE (spec/01). -/

namespace Sys2Proof.Machine

/-! ## Time Base -/

/-- The next rising edge brings the count to the divisor (R1). -/
def TimeBase.reaches (tb : TimeBase) : Bool := tb.prescaler + 1 == tb.divisor

/-- A rising edge counted while RUNNING (R1). -/
def TimeBase.count (tb : TimeBase) : TimeBase :=
  { tb with prescaler := if tb.reaches then 0 else tb.prescaler + 1 }

/-- One tick to the DU and one to the LU (R1). -/
def State.sendTick (s : State) : State :=
  s.withWires
    { s.wires with
      tbToDu := send s.resets.tb s.resets.du () s.wires.tbToDu
      tbToLu := send s.resets.tb s.resets.lu () s.wires.tbToLu }

/-- A rising edge of TBCLK (R1). -/
def State.risingEdge (s : State) : State :=
  if s.tb.running then
    if s.tb.reaches then (s.withTb s.tb.count).sendTick else s.withTb s.tb.count
  else s

/-- TBCLK_RISING_EDGE (R1). -/
def execTbclkRisingEdge (s : State) : Outcome := running s s.risingEdge

/-- TB_TICK (R1): the rising edge at which the count reaches the divisor; any other edge is no TB_TICK (log 6). -/
def execTbTick (s : State) : Outcome := running s (if s.tb.reaches then s.risingEdge else s)

/-- TB_SETUP's rule (R2). -/
def tbSetup (p : Words6) (s : State) : Completion × State :=
  if p[0] = 0 then (.fail .badValue, s)
  else (.ok, s.withTb { s.tb with divisor := p[0], prescaler := 0 })

/-- TB_SETUP (R2). -/
def execTbSetup (s : State) : Outcome := running s (takeCommand Config.codeTbSetup tbSetup s)

/-- TB_RUN's rule (R3). -/
def tbRun (_p : Words6) (s : State) : Completion × State := (.ok, s.withTb { s.tb with running := true })

/-- TB_RUN (R3). -/
def execTbRun (s : State) : Outcome := running s (takeCommand Config.codeTbRun tbRun s)

/-- TB_HALT's rule (R3). -/
def tbHalt (_p : Words6) (s : State) : Completion × State := (.ok, s.withTb { s.tb with running := false })

/-- TB_HALT (R3). -/
def execTbHalt (s : State) : Outcome := running s (takeCommand Config.codeTbHalt tbHalt s)

/-- TB_READ's reply (R30, R168). -/
def tbReadWords (tb : TimeBase) (du : DeadlineUnit) : Words6 :=
  words tb.divisor
    (placeBit 0 tb.running ||| placeBit 1 du.isWalking ||| place 4 (BitVec.ofNat 3 du.backlog) |||
      place 8 (BitVec.ofNat 7 du.list.length))
    (place 0 du.slip)

/-- TB_READ's rule (R30): it reads the TB and the DU as they stand and changes nothing. -/
def tbRead (_p : Words6) (s : State) : Completion × State :=
  (.ok (tbReadWords s.tb s.du), s)

/-- TB_READ (R30). -/
def execTbRead (s : State) : Outcome := running s (takeCommand Config.codeTbRead tbRead s)

/-! ## Arrivals at the Deadline Unit -/

/-- The DU takes a tick off its wire (R13). -/
def State.tickArrival (s : State) : State :=
  match receive s.resets.du s.wires.tbToDu with
  | none => s
  | some (_, rest) => (s.withWires { s.wires with tbToDu := rest }).commitDu s.du.tickArrives

/-- TICK_ARRIVAL (R13, R14). -/
def execTickArrival (s : State) : Outcome := running s s.tickArrival

/-- The requests of a sender on their way. -/
def Wires.requestsOf (w : Wires) : RequestSender → List (Sent LinkRequest)
  | .tt => w.ttToDu
  | .qe => w.qeToDu

/-- The requests of a sender on their way, replaced. -/
def Wires.setRequestsOf (w : Wires) : RequestSender → List (Sent LinkRequest) → Wires
  | .tt, x => { w with ttToDu := x }
  | .qe, x => { w with qeToDu := x }

/-- The next request of a sender reaches the DU (R23), if it is of the kind `isKind` says. -/
def State.requestArrival (s : State) (isKind : LinkRequest → Bool) (sender : RequestSender) : State :=
  match receive s.resets.du (s.wires.requestsOf sender) with
  | none => s
  | some (r, rest) =>
    if isKind r then (s.withWires (s.wires.setRequestsOf sender rest)).withDu (s.du.requestArrives r) else s

def LinkRequest.isLink : LinkRequest → Bool
  | .link _ _ _ _ => true
  | .unlink _ => false
  | .reload _ _ => false

def LinkRequest.isUnlink : LinkRequest → Bool
  | .link _ _ _ _ => false
  | .unlink _ => true
  | .reload _ _ => false

def LinkRequest.isReload : LinkRequest → Bool
  | .link _ _ _ _ => false
  | .unlink _ => false
  | .reload _ _ => true

/-- LINK_REQUEST (R23, R24). -/
def execLinkRequest (sender : RequestSender) (s : State) : Outcome :=
  running s (s.requestArrival LinkRequest.isLink sender)

/-- UNLINK_REQUEST (R23, R24). -/
def execUnlinkRequest (sender : RequestSender) (s : State) : Outcome :=
  running s (s.requestArrival LinkRequest.isUnlink sender)

/-- RELOAD_REQUEST (R23, R25). -/
def execReloadRequest (sender : RequestSender) (s : State) : Outcome :=
  running s (s.requestArrival LinkRequest.isReload sender)

/-! ## Steps of the Deadline Unit -/

/-- The DU applies the tick that it takes next (R12, R15). -/
def State.tickApplication (s : State) : State :=
  match s.du.claimTick with
  | none => s
  | some du => s.commitDu du.applyTick

/-- TICK_APPLICATION (R15). -/
def execTickApplication (s : State) : Outcome := running s s.tickApplication

/-- ENTRY_FALLS_DUE (R15): the tick application at which the head's delta reaches 0; any other is no
ENTRY_FALLS_DUE (log 6). -/
def execEntryFallsDue (s : State) : Outcome := running s (if s.du.headFallsDue then s.tickApplication else s)

/-- RELINK_WALK_START (R18, R22). -/
def execRelinkWalkStart (s : State) : Outcome := running s (s.withDu s.du.startRelink)

/-- WALK_END (R20). -/
def execWalkEnd (s : State) : Outcome := running s (s.withDu s.du.endWalk)

/-- The DU takes the request that it takes next (R12), if it is of the kind `isKind` says. -/
def DeadlineUnit.takeNext (du : DeadlineUnit) (isKind : LinkRequest → Bool) : DeadlineUnit :=
  match du.claimRequest with
  | none => du
  | some (r, du') => if isKind r then du'.takeRequest r else du

/-- TAKE_LINK (R26). -/
def execTakeLink (s : State) : Outcome := running s (s.withDu (s.du.takeNext LinkRequest.isLink))

/-- TAKE_UNLINK (R27). -/
def execTakeUnlink (s : State) : Outcome := running s (s.withDu (s.du.takeNext LinkRequest.isUnlink))

/-- TAKE_RELOAD (R28). -/
def execTakeReload (s : State) : Outcome := running s (s.withDu (s.du.takeNext LinkRequest.isReload))

end Sys2Proof.Machine
end

