-- ==== Sys2Proof/Machine/Timers.lean ====
section
/-! DEFINITION. The Timer Table (spec/02): expiry notices, retriggers and the timer commands. -/

namespace Sys2Proof.Machine

/-- The reload of a LINK for the timer: the period when PERIODIC, 0 when ONE_SHOT (R39, R48). -/
def Timer.reload (t : Timer) : Word :=
  match t.mode with
  | .periodic => t.period
  | .oneShot => 0

/-- The timer armed for a delay (R39, R48): a new arming number, ARMED. -/
def Timer.arm (t : Timer) : Timer := { t with state := .armed, arming := t.arming + 1 }

/-- The LINK request of a timer just armed (R39, R48). -/
def Timer.linkFor (t : Timer) (i : TimerId) (delay : Word) : LinkRequest :=
  .link (.timer i) delay t.reload t.arming

/-- A timer armed: the record changes and a LINK with the new arming number goes to the DU. -/
def TimerTable.armWith (tt : TimerTable) (i : TimerId) (delay : Word) : TtOut :=
  { tt := tt.setTimer i (tt.timer i).arm, requests := [(tt.timer i).arm.linkFor i delay] }

/-! ## Expiry notices -/

/-- A notice is current: ARMED, and the same arming number (R34, R44). -/
def Timer.current (t : Timer) (arming : BitVec 8) : Bool := t.state == .armed && t.arming == arming

/-- The timer after a current notice (R44): one more expiry, a ONE_SHOT timer IDLE. -/
def Timer.expire (t : Timer) : Timer :=
  { t with
    expiries := t.expiries + 1
    state := match t.mode with
      | .oneShot => .idle
      | .periodic => t.state }

/-- The message of an expiry (R45), `t` being the timer after the expiry was counted. -/
def Timer.draft (t : Timer) (i : TimerId) : Draft :=
  { kind := .timer, origin := BitVec.ofNat 6 i.val, tag := t.template.tag, priority := t.template.priority
    seq := t.expiries.setWidth 8, data := t.template.data }

/-- The post of an expiry, if the timer has a target (R44, R45). -/
def Timer.posts (t : Timer) (i : TimerId) : List Post :=
  match t.target with
  | none => []
  | some q => [{ queue := q, body := t.draft i }]

/-- The action of an expiry, if the timer has one (R46). -/
def Timer.actions (t : Timer) : List OutputAction := t.action.toList

/-- The TT takes an expiry notice (R44): current, or stale and discarded without effect. -/
def TimerTable.takeNotice (tt : TimerTable) (n : Notice TimerId) : TtOut :=
  if (tt.timer n.who).current n.arming then
    { tt := tt.setTimer n.who (tt.timer n.who).expire
      posts := (tt.timer n.who).expire.posts n.who
      actions := (tt.timer n.who).actions }
  else { tt := tt }

/-- The TT takes a notice off its wire. -/
def State.expiryNotice (s : State) : State :=
  match receive s.resets.tt s.wires.duToTt with
  | none => s
  | some (n, rest) => (s.withWires { s.wires with duToTt := rest }).commitTt (s.tt.takeNotice n)

/-- EXPIRY_NOTICE (R44). -/
def execExpiryNotice (s : State) : Outcome := running s s.expiryNotice

/-! ## Retriggers -/

/-- The TT takes a retrigger request (R48): a FREE timer ignores it. -/
def TimerTable.retrigger (tt : TimerTable) (i : TimerId) : TtOut :=
  match (tt.timer i).state with
  | .free => { tt := tt }
  | .idle => tt.armWith i (tt.timer i).period
  | .armed => tt.armWith i (tt.timer i).period

/-- The TT takes a retrigger request off its wire. -/
def State.retriggerRequest (s : State) : State :=
  match receive s.resets.tt s.wires.luToTt with
  | none => s
  | some (i, rest) => (s.withWires { s.wires with luToTt := rest }).commitTt (s.tt.retrigger i)

/-- RETRIGGER_REQUEST (R48). -/
def execRetriggerRequest (s : State) : Outcome := running s s.retriggerRequest

/-! ## Timer commands -/

/-- A timer command's rule lifted to State: its completion, and the TT's event. -/
def ttCommand (f : Words6 → TimerTable → Completion × TtOut) (p : Words6) (s : State) : Completion × State :=
  ((f p s.tt).1, s.commitTt (f p s.tt).2)

/-- The timer that TMR_DEFINE's parameters describe (R36, R37, R166), or `none` for BAD_VALUE: a period of 0, an
action kind of 5 to 7, a data count of 3. -/
def definitionOf (p : Words6) (arming : BitVec 8) : Option Timer :=
  match actionKindOf (field p[0] 13 3), dataOf (field p[3] 2 2) p[4] p[5] with
  | some kind, some data =>
    if p[1] = 0 then none
    else some {
      state := .idle
      mode := timerModeOf (bit p[0] 6)
      period := p[1]
      target := if bit p[0] 7 then some (queueOf (field p[0] 8 3)) else none
      template := { tag := p[2], priority := field p[3] 0 2, data := data }
      action := kind.map fun k => { output := outputOf (field p[0] 11 2), kind := k }
      arming := arming
      expiries := 0 }
  | some _, none => none
  | none, _ => none

/-- TMR_DEFINE's rule (R35, R36, R37). -/
def tmrDefine (p : Words6) (tt : TimerTable) : Completion × TtOut :=
  match timerOf (field p[0] 0 6).toNat with
  | none => (.fail .badIndex, { tt := tt })
  | some i =>
    match definitionOf p ((tt.timer i).arming + 1) with
    | none => (.fail .badValue, { tt := tt })
    | some t =>
      match (tt.timer i).state with
      | .armed => (.fail .wrongState, { tt := tt })
      | .free => (.ok (words (place 0 t.arming)), { tt := tt.setTimer i t })
      | .idle => (.ok (words (place 0 t.arming)), { tt := tt.setTimer i t })

/-- TMR_DEFINE (R37). -/
def execTmrDefine (s : State) : Outcome := running s (takeCommand Config.codeTmrDefine (ttCommand tmrDefine) s)

/-- The delay of TMR_ARM: 0 stands for the period (R39). -/
def Timer.resolve (t : Timer) (delay : Word) : Word := if delay = 0 then t.period else delay

/-- TMR_ARM's reply (R39, R168). -/
def tmrArmWords (t : Timer) (delay : Word) : Words6 := words (place 0 (t.arming + 1)) (t.resolve delay)

/-- TMR_ARM's rule (R35, R39). -/
def tmrArm (p : Words6) (tt : TimerTable) : Completion × TtOut :=
  match timerOf p[0].toNat with
  | none => (.fail .badIndex, { tt := tt })
  | some i =>
    match (tt.timer i).state with
    | .free => (.fail .wrongState, { tt := tt })
    | .idle => (.ok (tmrArmWords (tt.timer i) p[1]), tt.armWith i ((tt.timer i).resolve p[1]))
    | .armed => (.ok (tmrArmWords (tt.timer i) p[1]), tt.armWith i ((tt.timer i).resolve p[1]))

/-- TMR_ARM (R39). -/
def execTmrArm (s : State) : Outcome := running s (takeCommand Config.codeTmrArm (ttCommand tmrArm) s)

/-- TMR_DISARM's reply: the prior state and the arming number after the command (R41, R168). -/
def tmrDisarmWords (prior : TimerState) (arming : BitVec 8) : Words6 :=
  words (place 0 prior.code ||| place 8 arming)

/-- TMR_DISARM's rule (R35, R41). -/
def tmrDisarm (p : Words6) (tt : TimerTable) : Completion × TtOut :=
  match timerOf p[0].toNat with
  | none => (.fail .badIndex, { tt := tt })
  | some i =>
    match (tt.timer i).state with
    | .free => (.fail .wrongState, { tt := tt })
    | .idle => (.ok (tmrDisarmWords .idle (tt.timer i).arming), { tt := tt })
    | .armed =>
      (.ok (tmrDisarmWords .armed ((tt.timer i).arming + 1)),
        { tt := tt.setTimer i { tt.timer i with state := .idle, arming := (tt.timer i).arming + 1 }
          requests := [.unlink (.timer i)] })

/-- TMR_DISARM (R41). -/
def execTmrDisarm (s : State) : Outcome := running s (takeCommand Config.codeTmrDisarm (ttCommand tmrDisarm) s)

/-- A RELOAD goes with a retune: the timer is ARMED and PERIODIC (R42, R43). -/
def Timer.reloads (t : Timer) : Bool := t.state == .armed && t.mode == .periodic

/-- TMR_RETUNE's rule (R35, R42, R43). -/
def tmrRetune (p : Words6) (tt : TimerTable) : Completion × TtOut :=
  match timerOf p[0].toNat with
  | none => (.fail .badIndex, { tt := tt })
  | some i =>
    if p[1] = 0 then (.fail .badValue, { tt := tt })
    else if (tt.timer i).state = .free then (.fail .wrongState, { tt := tt })
    else
      (.ok (words (tt.timer i).period (placeBit 0 (tt.timer i).reloads)),
        { tt := tt.setTimer i { tt.timer i with period := p[1] }
          requests := if (tt.timer i).reloads then [.reload (.timer i) p[1]] else [] })

/-- TMR_RETUNE (R42). -/
def execTmrRetune (s : State) : Outcome := running s (takeCommand Config.codeTmrRetune (ttCommand tmrRetune) s)

/-- TMR_RELEASE's rule (R35, R38). -/
def tmrRelease (p : Words6) (tt : TimerTable) : Completion × TtOut :=
  match timerOf p[0].toNat with
  | none => (.fail .badIndex, { tt := tt })
  | some i =>
    match (tt.timer i).state with
    | .armed => (.fail .wrongState, { tt := tt })
    | .idle => (.ok (words (place 0 TimerState.idle.code)), { tt := tt.setTimer i { tt.timer i with state := .free } })
    | .free => (.ok (words (place 0 TimerState.free.code)), { tt := tt })

/-- TMR_RELEASE (R38). -/
def execTmrRelease (s : State) : Outcome := running s (takeCommand Config.codeTmrRelease (ttCommand tmrRelease) s)

/-- TMR_READ's reply (R51, R168). -/
def tmrReadWords (t : Timer) (link : LinkStatus × Word) : Words6 :=
  words (place 0 t.state.code ||| place 2 t.mode.code ||| place 4 link.1.code ||| place 8 t.arming)
    t.period t.expiries link.2

/-- TMR_READ's rule (R51): it reads the timer, and the DU as it stands (R29), and changes nothing. -/
def tmrRead (p : Words6) (s : State) : Completion × State :=
  match timerOf p[0].toNat with
  | none => (.fail .badIndex, s)
  | some i => (.ok (tmrReadWords (s.tt.timer i) (s.du.linkStatus (.timer i))), s)

/-- TMR_READ (R51). -/
def execTmrRead (s : State) : Outcome := running s (takeCommand Config.codeTmrRead tmrRead s)

/-! ## Warm reset -/

/-- R53: an ARMED timer becomes IDLE, the expiry count 0, the rest is kept. -/
def Timer.warm (t : Timer) : Timer :=
  { t with
    expiries := 0
    state := match t.state with
      | .armed => .idle
      | .idle => .idle
      | .free => .free }

/-- R53. -/
def TimerTable.warm (tt : TimerTable) : TimerTable := { timers := mapBank Timer.warm tt.timers }

end Sys2Proof.Machine
end

