-- ==== Sys2Proof/Machine/CommandPort.lean ====
section
/-! DEFINITION. The warm resets of the blocks, the Command Port with the host's register accesses, the
Notification Unit's events, and the cold reset (spec/06, spec/07, spec/09 section 9.5). -/

namespace Sys2Proof.Machine

/-! ## Warm resets of the blocks: each brings its block to `e` warm resets taken and discards what was sent to it
before its sender's (R172) -/

/-- R4. -/
def TimeBase.warm (tb : TimeBase) : TimeBase := { tb with prescaler := 0, running := false }

/-- TB: R4. Commands are the only items sent to it. -/
def State.warmTb (s : State) (e : Nat) : State := (s.withTb s.tb.warm).withResets { s.resets with tb := e }

/-- DU: R32. -/
def State.warmDu (s : State) (e : Nat) : State :=
  ((s.withDu s.du.warm).withWires
    { s.wires with
      tbToDu := boundary e s.wires.tbToDu
      ttToDu := boundary e s.wires.ttToDu
      qeToDu := boundary e s.wires.qeToDu }).withResets { s.resets with du := e }

/-- TT: R53. -/
def State.warmTt (s : State) (e : Nat) : State :=
  ((s.withTt s.tt.warm).withWires
    { s.wires with
      duToTt := boundary e s.wires.duToTt
      luToTt := boundary e s.wires.luToTt }).withResets { s.resets with tt := e }

/-- QE: R82, R107. -/
def State.warmQe (s : State) (e : Nat) : State :=
  ((s.withQe s.qe.warm).withWires
    { s.wires with
      duToQe := boundary e s.wires.duToQe
      ttToQe := boundary e s.wires.ttToQe
      luToQe := boundary e s.wires.luToQe }).withResets { s.resets with qe := e }

/-- LU: R126. -/
def State.warmLu (s : State) (e : Nat) : State :=
  ((s.withLu s.lu.warm).withWires
    { s.wires with
      tbToLu := boundary e s.wires.tbToLu
      ttToLu := boundary e s.wires.ttToLu }).withResets { s.resets with lu := e }

/-- NU: R139. -/
def State.warmNu (s : State) (e : Nat) : State :=
  ((s.withNu s.nu.warm).withWires
    { s.wires with
      duToNu := boundary e s.wires.duToNu
      qeToNu := boundary e s.wires.qeToNu
      cpToNu := boundary e s.wires.cpToNu }).withResets { s.resets with nu := e }

/-- TB_WARM_RESET (R4): the next warm reset that the CP sent and the TB has not taken. -/
def execTbWarmReset (s : State) : Outcome :=
  running s (if s.resets.tb < s.resets.cp then s.warmTb (s.resets.tb + 1) else s)

/-- DU_WARM_RESET (R32). -/
def execDuWarmReset (s : State) : Outcome :=
  running s (if s.resets.du < s.resets.cp then s.warmDu (s.resets.du + 1) else s)

/-- TT_WARM_RESET (R53). -/
def execTtWarmReset (s : State) : Outcome :=
  running s (if s.resets.tt < s.resets.cp then s.warmTt (s.resets.tt + 1) else s)

/-- QE_WARM_RESET (R82, R107). -/
def execQeWarmReset (s : State) : Outcome :=
  running s (if s.resets.qe < s.resets.cp then s.warmQe (s.resets.qe + 1) else s)

/-- LU_WARM_RESET (R126). -/
def execLuWarmReset (s : State) : Outcome :=
  running s (if s.resets.lu < s.resets.cp then s.warmLu (s.resets.lu + 1) else s)

/-- NU_WARM_RESET (R139). -/
def execNuWarmReset (s : State) : Outcome :=
  running s (if s.resets.nu < s.resets.cp then s.warmNu (s.resets.nu + 1) else s)

/-- The DU with every warm reset taken that the CP sent before an access of now (R156, log 7). -/
def State.duUpToDate (s : State) : State := if s.resets.du < s.resets.cp then s.warmDu s.resets.cp else s

/-- The QE with every warm reset taken that the CP sent before an access of now (R156, log 7). -/
def State.qeUpToDate (s : State) : State := if s.resets.qe < s.resets.cp then s.warmQe s.resets.cp else s

/-- The NU with every warm reset taken that the CP sent before an access of now (R156, log 7). -/
def State.nuUpToDate (s : State) : State := if s.resets.nu < s.resets.cp then s.warmNu s.resets.cp else s

/-! ## NOWLO -/

/-- A NOWLO read at the DU (R6): the low half of NOW is driven, the high half latched. -/
def State.readNowlo (s : State) : State :=
  (s.withCp { s.cp with nowLatch := s.du.now.extractLsb' 16 16 }).withBus (.read s.stampNow)

/-- A read access to NOWLO begins (R6, R160). The DU first takes the warm resets that the CP sent before the read (R156;
that it takes them in this same event is a DESIGN CHOICE, log 7). While RESETN is low it reads 0. -/
def State.nowloRead (s : State) : State := if s.resetnLow then s.withBus (.read 0) else s.duUpToDate.readNowlo

/-- NOWLO_READ (R6). -/
def execNowloRead (s : State) : Outcome := .next s.nowloRead

/-! ## LOGPOP -/

/-- The word of a LOGPOP read at the QE (R99, R162): the oldest entry; an empty log returns 0. -/
def QueueEngine.logpopWord (qe : QueueEngine) : Word :=
  match qe.log with
  | [] => 0
  | e :: rest => logWord e rest.length

/-- A LOGPOP read at the QE (R99): the oldest entry is returned and removed. -/
def State.logpop (s : State) : State :=
  (s.withQe { s.qe with log := s.qe.log.tail }).withBus (.read s.qe.logpopWord)

/-- A read access to LOGPOP begins (R99, R160). While RESETN is low it returns 0 and removes nothing. -/
def State.logpopRead (s : State) : State := if s.resetnLow then s.withBus (.read 0) else s.qeUpToDate.logpop

/-- LOGPOP_READ (R99). -/
def execLogpopRead (s : State) : Outcome := .next s.logpopRead

/-! ## Signals and flags at the NU -/

/-- The NU takes DONE off its wire (R128). -/
def State.takeDone (s : State) : State :=
  match receive s.resets.nu s.wires.cpToNu with
  | none => s
  | some (_, rest) => (s.withWires { s.wires with cpToNu := rest }).withNu { s.nu with done := true }

/-- DONE_SIGNAL (R128). -/
def execDoneSignal (s : State) : Outcome := running s s.takeDone

/-- The NU takes SLIP off its wire (R128). -/
def State.takeSlip (s : State) : State :=
  match receive s.resets.nu s.wires.duToNu with
  | none => s
  | some (_, rest) => (s.withWires { s.wires with duToNu := rest }).withNu { s.nu with slip := true }

/-- SLIP_SIGNAL (R128). -/
def execSlipSignal (s : State) : Outcome := running s s.takeSlip

def QueueSignal.isLevel : QueueSignal → Bool
  | .level _ => true
  | .drop _ => false

def QueueSignal.isDrop : QueueSignal → Bool
  | .level _ => false
  | .drop _ => true

/-- The NU takes the QE's next signal, if it is of the kind `isKind` says (R128). -/
def State.takeQueueSignal (s : State) (isKind : QueueSignal → Bool) : State :=
  match receive s.resets.nu s.wires.qeToNu with
  | none => s
  | some (x, rest) =>
    if isKind x then (s.withWires { s.wires with qeToNu := rest }).withNu (s.nu.takeQueueSignal x) else s

/-- LEVEL_SIGNAL (R128). -/
def execLevelSignal (s : State) : Outcome := running s (s.takeQueueSignal QueueSignal.isLevel)

/-- DROP_SIGNAL (R128). -/
def execDropSignal (s : State) : Outcome := running s (s.takeQueueSignal QueueSignal.isDrop)

/-- A clearing write at the NU (R130). -/
def NotifyUnit.writeFlags (nu : NotifyUnit) (reg : FlagReg) (w : Word) : NotifyUnit :=
  match reg with
  | .flaga => nu.writeFlagA w
  | .flagb => nu.writeFlagB w

/-- A host write to FLAGA or FLAGB (R130). -/
def State.flagWrite (s : State) (reg : FlagReg) (w : Word) : State :=
  s.nuUpToDate.withNu (s.nuUpToDate.nu.writeFlags reg w)

/-- FLAG_WRITE (R130). -/
def execFlagWrite (reg : FlagReg) (w : Word) (s : State) : Outcome := hostWrite s (s.flagWrite reg w)

/-- NT_LEVEL's reply (R133, R168). -/
def ntLevelWords (prior : BitVec 2) (flag : Bool) (l : BitVec 2) : Words6 :=
  words (place 0 prior ||| placeBit 4 flag ||| place 8 l)

/-- NT_LEVEL's rule (R133). -/
def ntLevel (p : Words6) (s : State) : Completion × State :=
  if !inRange p[0] unassignedNtLevel then (.fail .badIndex, s)
  else
    match sourceOf (field p[0] 0 5).toNat with
    | none => (.fail .badIndex, s)
    | some n =>
      (.ok (ntLevelWords (s.nu.levelOf n) ((s.nu.flags s.logFlag).getLsbD n.val) (field p[0] 8 2)),
        s.withNu (s.nu.setLevel n (field p[0] 8 2)))

/-- NT_LEVEL (R133). -/
def execNtLevel (s : State) : Outcome := running s (takeCommand Config.codeNtLevel ntLevel s)

/-! ## The slot -/

/-- A COMMAND write (R142, R149): accepted while the slot is FREE, else refused. -/
def CommandPort.writeCommand (cp : CommandPort) (w : Word) : CommandPort :=
  match cp.slot with
  | none =>
    { cp with
      slot := some { code := w, params := cp.params, owner := ownerOf w, stage := .handedOver }
      lastCode := w }
  | some _ => { cp with refused := true }

/-- COMMAND_WRITE (R142, R149). -/
def execCommandWrite (w : Word) (s : State) : Outcome := hostWrite s (s.withCp (s.cp.writeCommand w))

/-- The completion on its way to the CP. -/
def CommandPort.completion (cp : CommandPort) : Option Completion :=
  match cp.slot with
  | none => none
  | some r =>
    match r.stage with
    | .handedOver => none
    | .completing c => some c

/-- The CP takes the completion on its way (R146). -/
def State.takeCompletion (s : State) : State :=
  match s.cp.completion with
  | none => s
  | some c => s.complete c

/-- COMMAND_COMPLETION (R146). -/
def execCommandCompletion (s : State) : Outcome := running s s.takeCompletion

/-- The code of an accepted command that no block has taken. -/
def CommandPort.acceptedCode (cp : CommandPort) : Option Word :=
  match cp.slot with
  | none => none
  | some r => if r.stage = .handedOver then some r.code else none

/-- The CP takes and completes NOP as one event (R148). -/
def State.takeNop (s : State) : State :=
  match s.cp.acceptedCode with
  | none => s
  | some code => if code = Config.codeNop then s.complete .ok else s

/-- NOP (R148). -/
def execNop (s : State) : Outcome := running s s.takeNop

/-- The CP takes and completes an unknown code as one event (R148). -/
def State.takeUnknown (s : State) : State :=
  match s.cp.acceptedCode with
  | none => s
  | some code => if knownCode code then s else s.complete (.fail .unknown)

/-- UNKNOWN_CODE (R148). -/
def execUnknownCode (s : State) : Outcome := running s s.takeUnknown

/-! ## Register writes taken at the CP -/

/-- A STATUS write acts through the REFUSED position alone (R150, R161). -/
def CommandPort.writeStatus (cp : CommandPort) (w : Word) : CommandPort :=
  { cp with refused := cp.refused && !bit w 1 }

/-- STATUS_WRITE (R150). -/
def execStatusWrite (w : Word) (s : State) : Outcome := hostWrite s (s.withCp (s.cp.writeStatus w))

/-- A PARAM write (R152). -/
def CommandPort.writeParam (cp : CommandPort) (i : Fin 6) (w : Word) : CommandPort :=
  { cp with params := cp.params.set i.val w }

/-- PARAM_WRITE (R152). -/
def execParamWrite (i : Fin 6) (w : Word) (s : State) : Outcome := hostWrite s (s.withCp (s.cp.writeParam i w))

/-- The CP's own warm reset (R157). -/
def CommandPort.warm (cp : CommandPort) : CommandPort :=
  { cp with
    slot := none
    result := match cp.slot with
      | none => .ok
      | some _ => .aborted
    reply := words
    refused := false }

/-- INTEN set from its position (R135). -/
def CommandPort.writeInten (cp : CommandPort) (w : Word) : CommandPort := { cp with inten := bit w 0 }

/-- The part as the NU follows a write of INTEN (R135): a change is taken there as an item of the CP, so after the warm
resets that the CP sent before it (R156; that it is such an item, and that the NU takes them in this same event, is a
DESIGN CHOICE, log 7). An INTEN written with its own value sends the NU nothing. -/
def State.followInten (s : State) (w : Word) : State := if bit w 0 = s.cp.inten then s else s.nuUpToDate

/-- A CONTROL write (R135, R156): INTEN, and with SOFT the CP's warm reset, sent to every block. -/
def State.controlWrite (s : State) (w : Word) : State :=
  if bit w 1 then
    ((s.followInten w).withCp (s.cp.writeInten w).warm).withResets
      { (s.followInten w).resets with cp := s.resets.cp + 1 }
  else (s.followInten w).withCp (s.cp.writeInten w)

/-- INTEN_WRITE (R135): a CONTROL write with SOFT 0. A word with SOFT 1 acts as R156 says. -/
def execIntenWrite (w : Word) (s : State) : Outcome := hostWrite s (s.controlWrite w)

/-- WARM_RESET (R156): a CONTROL write with SOFT 1. A word with SOFT 0 starts no warm reset. -/
def execWarmReset (w : Word) (s : State) : Outcome := hostWrite s (s.controlWrite w)

/-- A host write to the register at an address (R141, R160). -/
def State.writeWord (s : State) (a : BitVec 4) (w : Word) : State :=
  match a.toNat with
  | 1 => s.withCp (s.cp.writeStatus w)
  | 2 => s.withCp (s.cp.writeCommand w)
  | 3 => s.withCp (s.cp.writeParam 0 w)
  | 4 => s.withCp (s.cp.writeParam 1 w)
  | 5 => s.withCp (s.cp.writeParam 2 w)
  | 6 => s.withCp (s.cp.writeParam 3 w)
  | 7 => s.withCp (s.cp.writeParam 4 w)
  | 8 => s.withCp (s.cp.writeParam 5 w)
  | 10 => s.flagWrite .flaga w
  | 11 => s.flagWrite .flagb w
  | 13 => s.controlWrite w
  | _ => s

/-- REGISTER_WRITE (R141): a write to a read-only address has no effect anywhere. A write to another address acts as
that register's write. -/
def execRegisterWrite (a : BitVec 4) (w : Word) (s : State) : Outcome := hostWrite s (s.writeWord a w)

/-! ## Cold reset -/

/-- The state that a cold reset holds while RESETN is low (R173); the events to come are not the part's. -/
def State.coldHeld (pending : List Instr) : State := { State.reset with resetnLow := true, pending := pending }

/-- COLD_RESET (R173). It ends a bus access in progress; a strobe held through it begins a new access at the next change
of the pins (DESIGN CHOICE, log 19). -/
def execColdReset (s : State) : Outcome := .next (State.coldHeld s.pending)

/-- RESETN_RISE (R125, R173): accesses are taken again, and the first sample of each input sets its level. A bus access
whose strobe was asserted while RESETN was low stays in progress, so such a write is taken if its strobe is deasserted
later (DESIGN CHOICE, log 19). -/
def execResetnRise (levels : BitVec 8) (s : State) : Outcome :=
  .next ((s.withLu (s.lu.firstSamples levels)).withResetnLow false)

/-! ## Register reads (R141, R154, R160 to R164) -/

/-- The flags as the host reads them (R127): those of the NU with every warm reset taken that the CP sent before. -/
def State.readFlags (s : State) : BitVec 19 := s.nuUpToDate.nu.flags s.logFlag

/-- What a read of an address returns. The reads of LOGPOP and NOWLO, which also have effects, are the events
LOGPOP_READ and NOWLO_READ; the word given here for them is the one they drive with RESETN high (log 11). -/
def State.readWord (s : State) (a : BitVec 4) : Word :=
  match a.toNat with
  | 0 => Config.ident
  | 1 => s.statusWord
  | 2 => s.cp.lastCode
  | 3 => s.cp.reply[0]
  | 4 => s.cp.reply[1]
  | 5 => s.cp.reply[2]
  | 6 => s.cp.reply[3]
  | 7 => s.cp.reply[4]
  | 8 => s.cp.reply[5]
  | 9 => s.qeUpToDate.qe.logpopWord
  | 10 => s.readFlags.extractLsb' 0 16
  | 11 => (s.readFlags.extractLsb' 16 3).setWidth 16
  | 12 => s.nuUpToDate.nu.vectorWord s.logFlag
  | 13 => placeBit 0 s.cp.inten
  | 14 => s.stampNow
  | _ => s.cp.nowLatch

/-! ## The bus pins (R160, R170). The table's bus events are the accesses as the CP takes them; a change of the pins that
is none of them (a strobe's other edge, a read without an effect) has no row, so it is a function of State (log 19) -/

/-- What chip select and the strobes assert (R160): while chip select is deasserted, strobes have no effect. -/
inductive BusStrobes where
  | off
  | read
  | write
  | both
deriving DecidableEq, Repr

/-- R160, R170: CSN, RDN and WRN are active low. -/
def BusPins.strobes (p : BusPins) : BusStrobes :=
  match p.csn, p.rdn, p.wrn with
  | true, _, _ => .off
  | false, true, true => .off
  | false, false, true => .read
  | false, true, false => .write
  | false, false, false => .both

/-- The word that the part drives on D15 to D0: driven only during a read access (R160, R170). -/
def State.dataBus (s : State) : Option Word :=
  match s.bus with
  | .read w => some w
  | .idle | .write | .neither => none

/-- A read of FLAGA, FLAGB or VECTOR is taken at the NU (R127, R136), which first takes the warm resets that the CP sent
before it (R156; in this same event: DESIGN CHOICE, log 7). -/
def State.notifyRead (s : State) (a : BitVec 4) : State :=
  (if s.resetnLow then s else s.nuUpToDate).withBus (.read (s.readWord a))

/-- A read access begins (R160): the register's side effect is made, and its word is driven. -/
def State.beginRead (s : State) (a : BitVec 4) : State :=
  match a.toNat with
  | 9 => s.logpopRead
  | 10 | 11 | 12 => s.notifyRead a
  | 14 => s.nowloRead
  | _ => s.withBus (.read (s.readWord a))

/-- A write access ends (R160): it is taken with the address and data standing on the bus. -/
def State.endWrite (s : State) (p : BusPins) : State := s.written (s.writeWord p.address p.data)

/-- The bus pins come to stand as `p` (R160). A read access is taken at the assertion of its strobe and once only; a
write access at the deassertion; both strobes together are taken as neither. DESIGN CHOICE, log 19:
- both strobes stay neither until both or chip select are deasserted, so a read in progress that the write strobe joins
  stops driving, keeps its side effect and is not resumed, and a write that the read strobe joins is not taken;
- a write whose strobe is deasserted together with chip select is taken, one whose chip select goes first is not;
- a strobe that takes the other's place ends one access and begins the other;
- a strobe still asserted after chip select or the cold reset ended its access begins a new access, with its side effect
  once more, at the next change of the pins that has chip select asserted;
- the word driven is that of the assertion, whatever changes while the strobe is held. -/
def State.busPins (s : State) (p : BusPins) : State :=
  match p.strobes, s.bus with
  | .off, .write => if p.wrn then s.endWrite p else s.withBus .idle
  | .off, _ => s.withBus .idle
  | .both, _ => s.withBus .neither
  | _, .neither => s
  | .read, .read _ => s
  | .read, .write => (s.endWrite p).beginRead p.address
  | .read, .idle => s.beginRead p.address
  | .write, _ => s.withBus .write

end Sys2Proof.Machine
end

