-- ==== Sys2Proof/Machine/Dispatch.lean ====
section
/-! DEFINITION. One arm per event: each calls its meaning. -/

namespace Sys2Proof.Machine

def exec (i : Instr) (s : State) : Host.Outcome State Fault Refusal :=
  match i with
  | .tbTick => Sys2Proof.Machine.execTbTick s
  | .tickArrival => Sys2Proof.Machine.execTickArrival s
  | .tickApplication => Sys2Proof.Machine.execTickApplication s
  | .entryFallsDue => Sys2Proof.Machine.execEntryFallsDue s
  | .relinkWalkStart => Sys2Proof.Machine.execRelinkWalkStart s
  | .walkEnd => Sys2Proof.Machine.execWalkEnd s
  | .linkRequest sender => Sys2Proof.Machine.execLinkRequest sender s
  | .unlinkRequest sender => Sys2Proof.Machine.execUnlinkRequest sender s
  | .reloadRequest sender => Sys2Proof.Machine.execReloadRequest sender s
  | .takeLink => Sys2Proof.Machine.execTakeLink s
  | .takeUnlink => Sys2Proof.Machine.execTakeUnlink s
  | .takeReload => Sys2Proof.Machine.execTakeReload s
  | .nowloRead => Sys2Proof.Machine.execNowloRead s
  | .expiryNotice => Sys2Proof.Machine.execExpiryNotice s
  | .retriggerRequest => Sys2Proof.Machine.execRetriggerRequest s
  | .post sender => Sys2Proof.Machine.execPost sender s
  | .timeoutNotice => Sys2Proof.Machine.execTimeoutNotice s
  | .logpopRead => Sys2Proof.Machine.execLogpopRead s
  | .edge line sample => Sys2Proof.Machine.execEdge line sample s
  | .round line sample => Sys2Proof.Machine.execRound line sample s
  | .outputAction => Sys2Proof.Machine.execOutputAction s
  | .luTick => Sys2Proof.Machine.execLuTick s
  | .doneSignal => Sys2Proof.Machine.execDoneSignal s
  | .slipSignal => Sys2Proof.Machine.execSlipSignal s
  | .levelSignal => Sys2Proof.Machine.execLevelSignal s
  | .dropSignal => Sys2Proof.Machine.execDropSignal s
  | .flagWrite reg value => Sys2Proof.Machine.execFlagWrite reg value s
  | .intenWrite value => Sys2Proof.Machine.execIntenWrite value s
  | .warmReset value => Sys2Proof.Machine.execWarmReset value s
  | .tbWarmReset => Sys2Proof.Machine.execTbWarmReset s
  | .duWarmReset => Sys2Proof.Machine.execDuWarmReset s
  | .ttWarmReset => Sys2Proof.Machine.execTtWarmReset s
  | .qeWarmReset => Sys2Proof.Machine.execQeWarmReset s
  | .luWarmReset => Sys2Proof.Machine.execLuWarmReset s
  | .nuWarmReset => Sys2Proof.Machine.execNuWarmReset s
  | .coldReset => Sys2Proof.Machine.execColdReset s
  | .resetnRise levels => Sys2Proof.Machine.execResetnRise levels s
  | .statusWrite value => Sys2Proof.Machine.execStatusWrite value s
  | .paramWrite index value => Sys2Proof.Machine.execParamWrite index value s
  | .registerWrite addr value => Sys2Proof.Machine.execRegisterWrite addr value s
  | .commandCompletion => Sys2Proof.Machine.execCommandCompletion s
  | .nop => Sys2Proof.Machine.execNop s
  | .unknownCode => Sys2Proof.Machine.execUnknownCode s
  | .tmrDefine => Sys2Proof.Machine.execTmrDefine s
  | .tmrArm => Sys2Proof.Machine.execTmrArm s
  | .tmrDisarm => Sys2Proof.Machine.execTmrDisarm s
  | .tmrRetune => Sys2Proof.Machine.execTmrRetune s
  | .tmrRelease => Sys2Proof.Machine.execTmrRelease s
  | .tmrRead => Sys2Proof.Machine.execTmrRead s
  | .qSetup => Sys2Proof.Machine.execQSetup s
  | .qSend => Sys2Proof.Machine.execQSend s
  | .qTake => Sys2Proof.Machine.execQTake s
  | .qPurge => Sys2Proof.Machine.execQPurge s
  | .qRead => Sys2Proof.Machine.execQRead s
  | .ctxSetup => Sys2Proof.Machine.execCtxSetup s
  | .ctxWait => Sys2Proof.Machine.execCtxWait s
  | .ctxAbandon => Sys2Proof.Machine.execCtxAbandon s
  | .ctxCollect => Sys2Proof.Machine.execCtxCollect s
  | .ctxRead => Sys2Proof.Machine.execCtxRead s
  | .lnSetup => Sys2Proof.Machine.execLnSetup s
  | .lnDrive => Sys2Proof.Machine.execLnDrive s
  | .lnRead => Sys2Proof.Machine.execLnRead s
  | .tbSetup => Sys2Proof.Machine.execTbSetup s
  | .tbRun => Sys2Proof.Machine.execTbRun s
  | .tbHalt => Sys2Proof.Machine.execTbHalt s
  | .tbRead => Sys2Proof.Machine.execTbRead s
  | .ntLevel => Sys2Proof.Machine.execNtLevel s
  | .commandWrite value => Sys2Proof.Machine.execCommandWrite value s
  | .tbclkRisingEdge => Sys2Proof.Machine.execTbclkRisingEdge s

end Sys2Proof.Machine
end

