-- ==== Sys2Proof/Machine/Step.lean ====
section
/-! DEFINITION. One step: the event at the front of the queue. -/

namespace Sys2Proof.Machine

/-- The queue replaced. -/
def State.withPending (s : State) (x : List Instr) : State := { s with pending := x }

/-- The event at the front of the queue happens. With no event the part stands still (DESIGN CHOICE, log 3): the
rising edges of TBCLK, which make it tick, are events of the queue themselves. -/
def step (s : State) : Host.Outcome State Fault Refusal :=
  match s.pending with
  | [] => .next s
  | c :: rest => exec c (s.withPending rest)

/-- The command that a word spells, put at the front of the queue. No row of the table gives bits, so no word
spells one (log 15). -/
def State.withFetchWord (s : State) (nbits w : Nat) : State :=
  match decodeTableWord nbits w with
  | none => s
  | some c => s.withPending (c :: s.pending)

end Sys2Proof.Machine
end

