-- ==== Sys2Proof/Safety.lean ====
section
/-! DEFINITION. The terms that claims use: what an event leaves alone, when an owner takes a command, and the
invariants of the part (R8 to R11, R13, R55, R57, R58, R83, R92, R98, R114, R172). -/

namespace Sys2Proof.Machine

/-! ## Frames -/

/-- Every block's record that is not in `bs` is as before, and so are RESETN, the counts of warm resets, the host's access
in progress and the events to come. (The items between blocks, State.wires, are said apart.) -/
def sameExcept (bs : List Block) (s t : State) : Prop :=
  (Block.tb ∈ bs ∨ t.tb = s.tb) ∧ (Block.du ∈ bs ∨ t.du = s.du) ∧ (Block.tt ∈ bs ∨ t.tt = s.tt) ∧
  (Block.qe ∈ bs ∨ t.qe = s.qe) ∧ (Block.lu ∈ bs ∨ t.lu = s.lu) ∧ (Block.nu ∈ bs ∨ t.nu = s.nu) ∧
  (Block.cp ∈ bs ∨ t.cp = s.cp) ∧ t.resetnLow = s.resetnLow ∧ t.resets = s.resets ∧ t.bus = s.bus ∧
  t.pending = s.pending

/-- The event is a write access of the host (R141, R160). -/
def isHostWrite : Instr → Bool
  | .commandWrite _ | .statusWrite _ | .paramWrite _ _ | .intenWrite _ | .warmReset _ | .flagWrite _ _
  | .registerWrite _ _ => true
  | _ => false

/-- The owning block can take the command of the given code now: RESETN is high, and the command is handed over with
the captured words `p` (R144). -/
abbrev Taken (code : Word) (p : Words6) (s : State) : Prop := s.resetnLow = false ∧ s.handedOver code = some p

/-- The owner has answered the command in flight with completion `c` (R146): in the CP only that command's stage changes,
and of the other blocks only the records of `bs`. -/
def Answered (c : Completion) (bs : List Block) (s t : State) : Prop :=
  t.cp = { s.cp with slot := s.cp.slot.map fun r => { r with stage := .completing c } } ∧ sameExcept (.cp :: bs) s t

/-- The command of the event is answered with a result code that reports no change: reply words all 0, nothing sent, no
record of any block changed (R146, R155). -/
def Fails (i : Instr) (r : ResultCode) (s : State) : Prop :=
  ∃ t, exec i s = .next t ∧ Answered { result := r, reply := words 0 0 0 0 0 0 } [] s t ∧ t.wires = s.wires

/-- Timer i is `r`; every other timer is as before. -/
def TimerTable.Only (i : TimerId) (r : Timer) (a b : TimerTable) : Prop :=
  b.timer i = r ∧ ∀ j, j ≠ i → b.timer j = a.timer j

/-- Queue q is `r`; every other queue is as before. -/
def QueueEngine.OnlyQueue (q : QueueId) (r : QueueRec) (a b : QueueEngine) : Prop :=
  b.queue q = r ∧ ∀ j, j ≠ q → b.queue j = a.queue j

/-- Context c is `x`; every other context is as before. -/
def QueueEngine.OnlyContext (c : ContextId) (x : Context) (a b : QueueEngine) : Prop :=
  b.context c = x ∧ ∀ j, j ≠ c → b.context j = a.context j

/-- Input n is `x`; every other input and every output is as before. -/
def LineUnit.OnlyInput (n : LineId) (x : Input) (a b : LineUnit) : Prop :=
  b.input n = x ∧ (∀ j, j ≠ n → b.input j = a.input j) ∧ ∀ o, b.output o = a.output o

/-- Output o is `x`; every other output and every input is as before. -/
def LineUnit.OnlyOutput (o : OutputId) (x : Output) (a b : LineUnit) : Prop :=
  b.output o = x ∧ (∀ j, j ≠ o → b.output j = a.output j) ∧ ∀ n, b.input n = a.input n

/-- No warm reset is under way: every block has taken all that the CP started. -/
def Resets.level (r : Resets) : Prop :=
  r.tb = r.cp ∧ r.du = r.cp ∧ r.tt = r.cp ∧ r.qe = r.cp ∧ r.lu = r.cp ∧ r.nu = r.cp

/-! ## Time Base, Line Unit, Command Port -/

/-- The prescaler count is below the divisor (section 1.1). -/
abbrev TimeBase.Ok (tb : TimeBase) : Prop := tb.prescaler < tb.divisor

/-- In COUNT mode the edge count stands below the compare value (R114). -/
abbrev LineUnit.Ok (lu : LineUnit) : Prop := ∀ n, (lu.input n).mode = .count → (lu.input n).edgeCount < (lu.input n).compare

/-- The in-flight record's owning block is the one of its code (R143). -/
abbrev CommandPort.Ok (cp : CommandPort) : Prop :=
  match cp.slot with
  | none => True
  | some r => r.owner = ownerOf r.code

/-! ## The pool and the queues -/

/-- One queue's configuration and counts (R55 to R58, R61, R68). -/
abbrev QueueRec.Ok (r : QueueRec) : Prop :=
  r.count ≤ r.quota ∧ r.reserve ≤ r.quota ∧ r.quota ≤ Config.cells ∧ r.count ≤ r.peak ∧ r.peak ≤ Config.cells ∧
  (r.enabled = true → 1 ≤ r.quota ∧ 1 ≤ r.threshold ∧ r.threshold ≤ r.quota) ∧
  (r.enabled = false → r.quota = 0 ∧ r.threshold = 0 ∧ r.waiters = []) ∧
  (r.msgs = [] ∨ r.waiters = []) ∧
  (r.msgOrder = .priority → r.msgs.Pairwise fun x y => y.rank ≤ x.rank)

/-- The pool (R54, R55): stored messages and free cells make 128, and the free cells cover the unmet reserves. -/
abbrev QueueEngine.PoolOk (qe : QueueEngine) : Prop :=
  qe.free + sumBank QueueRec.count qe.queues = Config.cells ∧ qe.unmetTotal ≤ qe.free ∧ ∀ q, (qe.queue q).Ok

/-! ## What becomes of a message taken for a queue -/

/-- A message joins a list by the message order (R61): at the tail, or after the last of the messages of its own or a
higher priority that head the list. -/
def Joins (o : Order) (m : Message) (before after : List Message) : Prop :=
  match o with
  | .fifo => after = before ++ [m]
  | .priority =>
    ∃ x y, before = x ++ y ∧ after = x ++ m :: y ∧ (∀ z ∈ x, m.rank ≤ z.rank) ∧ ∀ z ∈ y.head?, z.rank < m.rank

/-- The victim of a displacement and the list without it (R66). -/
def IsVictim (o : Order) (m v : Message) (before rest : List Message) : Prop :=
  match o with
  | .fifo => before = v :: rest
  | .priority =>
    ∃ x y, before = x ++ v :: y ∧ rest = x ++ y ∧ (∀ z ∈ before, v.rank ≤ z.rank) ∧ (∀ z ∈ x, v.rank < z.rank) ∧
      v.rank ≤ m.rank

/-- There is no victim (R66): nothing is stored, or the lowest priority present is higher than the message's. -/
def NoVictim (o : Order) (m : Message) (before : List Message) : Prop :=
  match o with
  | .fifo => before = []
  | .priority => ∀ z ∈ before, m.rank < z.rank

/-- The admission test (R63). -/
def Admitted (q : QueueId) (a : QueueEngine) : Prop :=
  (a.queue q).count < (a.queue q).quota ∧
    ((a.queue q).count < (a.queue q).reserve ∨ sumBank QueueRec.unmet a.queues < a.free)

/-- A saturating increase by 1 (R67). -/
def saturated (d : Word) : Word := if d = 65535 then 65535 else d + 1

/-- What taking the stamped message `m` for queue q does to the QE, with the requests and the signals sent, for each
fate (R62 to R71). -/
def PostTaken (q : QueueId) (m : Message) (fate : Fate) (a b : QueueEngine) (requests : List LinkRequest)
    (signals : List QueueSignal) : Prop :=
  match fate with
  | .disabled =>
    (a.queue q).enabled = false ∧
    a.OnlyQueue q { a.queue q with drops := saturated (a.queue q).drops } b ∧
    b.free = a.free ∧ b.contexts = a.contexts ∧ b.log = a.log ∧ requests = [] ∧ signals = [.drop q]
  | .delivered c =>
    (a.queue q).enabled = true ∧ ∃ rest, (a.queue q).waiters = c :: rest ∧
    a.OnlyQueue q { a.queue q with waiters := rest } b ∧
    a.OnlyContext c { a.context c with
      state := .complete, outcome := some .message, slot := some m, stamp := m.stamp
      arming := (a.context c).arming + 1 } b ∧
    b.free = a.free ∧ b.log = a.log ++ [{ context := c, outcome := .message, queue := (a.context c).queue }] ∧
    requests = (if (a.context c).timeout.isSome then [.unlink (.context c)] else []) ∧ signals = []
  | .stored =>
    (a.queue q).enabled = true ∧ (a.queue q).waiters = [] ∧ Admitted q a ∧
    (∃ l, Joins (a.queue q).msgOrder m (a.queue q).msgs l ∧
      a.OnlyQueue q { a.queue q with msgs := l, peak := max (a.queue q).peak ((a.queue q).count + 1) } b) ∧
    b.free = a.free - 1 ∧ b.contexts = a.contexts ∧ b.log = a.log ∧ requests = [] ∧
    signals = (if (a.queue q).count + 1 = (a.queue q).threshold then [.level q] else [])
  | .displaced v =>
    (a.queue q).enabled = true ∧ (a.queue q).waiters = [] ∧ ¬ Admitted q a ∧ (a.queue q).policy = .displace ∧
    (∃ rest l, IsVictim (a.queue q).msgOrder m v (a.queue q).msgs rest ∧ Joins (a.queue q).msgOrder m rest l ∧
      a.OnlyQueue q { a.queue q with msgs := l, drops := saturated (a.queue q).drops } b) ∧
    b.free = a.free ∧ b.contexts = a.contexts ∧ b.log = a.log ∧ requests = [] ∧ signals = [.drop q]
  | .dropped =>
    (a.queue q).enabled = true ∧ (a.queue q).waiters = [] ∧ ¬ Admitted q a ∧
    ((a.queue q).policy = .displace → NoVictim (a.queue q).msgOrder m (a.queue q).msgs) ∧
    a.OnlyQueue q { a.queue q with drops := saturated (a.queue q).drops } b ∧
    b.free = a.free ∧ b.contexts = a.contexts ∧ b.log = a.log ∧ requests = [] ∧ signals = [.drop q]

/-! ## Contexts, waiter lists and the log -/

/-- One context's fields agree (R83): an outcome exactly when COMPLETE, a message exactly with outcome MESSAGE. -/
abbrev Context.Ok (x : Context) : Prop :=
  (x.state = .complete ↔ x.outcome.isSome = true) ∧ (x.outcome = some .message ↔ x.slot.isSome = true)

/-- Waiter lists and log (R92, R98). -/
abbrev QueueEngine.WaitOk (qe : QueueEngine) : Prop :=
  (∀ c, (qe.context c).Ok) ∧
  (∀ q, (qe.queue q).waiters.Nodup) ∧
  (∀ q, (qe.queue q).waiterOrder = .priority → (qe.queue q).waiters.Pairwise fun c d => qe.waiterRank d ≤ qe.waiterRank c) ∧
  (∀ q c, c ∈ (qe.queue q).waiters ↔ (qe.context c).state = .waiting ∧ (qe.context c).queue = q) ∧
  (qe.log.map LogEntry.context).Nodup ∧
  (∀ e ∈ qe.log, (qe.context e.context).state = .complete ∧ (qe.context e.context).outcome = some e.outcome ∧
    (qe.context e.context).queue = e.queue)

/-! ## The deadline list -/

/-- The sum of the deltas: the remaining time of the last entry (R8). -/
def deltaSum (l : List LinkedEntry) : Nat := (l.map LinkedEntry.delta).sum

/-- Unlinking (R17): a linked entry leaves the list and its delta goes to its successor; an entry that is not linked
leaves the list as it is. -/
def Unlinked (e : EntryId) (before after : List LinkedEntry) : Prop :=
  (e ∉ before.map LinkedEntry.entry ∧ after = before) ∨
    ∃ l x r, before = l ++ x :: r ∧ x.entry = e ∧ e ∉ l.map LinkedEntry.entry ∧
      after = l ++ match r with
        | [] => []
        | y :: ys => { y with delta := y.delta + x.delta } :: ys

/-- Placement at the end of a walk (R20): `l` are the entries whose remaining time is at most the delay. -/
def Placed (w : WalkRecord) (before after : List LinkedEntry) : Prop :=
  ∃ l r, before = l ++ r ∧ deltaSum l ≤ w.delay.toNat ∧ (∀ y ∈ r.head?, w.delay.toNat < deltaSum l + y.delta) ∧
    after = l ++ { entry := w.entry, delta := w.delay.toNat - deltaSum l, reload := w.reload, arming := w.arming } ::
      match r with
      | [] => []
      | y :: ys => { y with delta := y.delta - (w.delay.toNat - deltaSum l) } :: ys

/-- The DU takes a tick next, and `d` is the DU with that tick in hand: a tick that arrived while it was IDLE, or by the
selection rule one of the backlog (R12, R13; log 5). -/
def DeadlineUnit.TickNext (du d : DeadlineUnit) : Prop :=
  (du.activity = .applying ∧ d = { du with activity := .quiet }) ∨
    (du.activity = .quiet ∧ du.relink = [] ∧ du.backlog ≠ 0 ∧ d = { du with backlog := du.backlog - 1 })

/-- The DU takes request `r` next, and `d` is the DU with that request in hand: a request that arrived while it was
IDLE, or by the selection rule the oldest of the table (R12, R23; log 5). -/
def DeadlineUnit.RequestNext (du : DeadlineUnit) (r : LinkRequest) (d : DeadlineUnit) : Prop :=
  (du.activity = .taking r ∧ d = { du with activity := .quiet }) ∨
    (du.activity = .quiet ∧ du.relink = [] ∧ du.backlog = 0 ∧ ∃ rest, du.table = r :: rest ∧ d = { du with table := rest })

/-- The entries of the list, of the relink list and of the walk. -/
def DeadlineUnit.entries (du : DeadlineUnit) : List EntryId :=
  du.list.map LinkedEntry.entry ++ du.relink.map RelinkEntry.entry ++
    match du.activity with
    | .walking w => [w.entry]
    | .quiet => []
    | .applying => []
    | .taking _ => []

/-- A LINK request's delay is 1 to 65535 (section 1.8). -/
abbrev LinkRequest.Ok (r : LinkRequest) : Prop :=
  match r with
  | .link _ d _ _ => d ≠ 0
  | .unlink _ => True
  | .reload _ _ => True

/-- What the DU is in the middle of: a delay of at least 1 (R11), and a step that began in IDLE found the relink list
empty (R12). -/
abbrev DuActivity.Ok (a : DuActivity) (relink : List RelinkEntry) : Prop :=
  match a with
  | .quiet => True
  | .applying => relink = []
  | .taking r => r.Ok ∧ relink = []
  | .walking w => w.delay ≠ 0

/-- The Deadline Unit (R8, R9, R10, R11, R13). -/
abbrev DeadlineUnit.Ok (du : DeadlineUnit) : Prop :=
  du.entries.Nodup ∧ (du.table.map LinkRequest.entry).Nodup ∧
  (∀ x ∈ du.list.head?, 1 ≤ x.delta) ∧ deltaSum du.list ≤ 65535 ∧
  (∀ x ∈ du.relink, x.reload ≠ 0) ∧ (∀ r ∈ du.table, r.Ok) ∧ du.backlog ≤ Config.maxBacklog ∧
  du.activity.Ok du.relink

/-- A timer that is not FREE has a period of at least 1 (R52). -/
abbrev TimerTable.Ok (tt : TimerTable) : Prop := ∀ t, (tt.timer t).state ≠ .free → (tt.timer t).period ≠ 0

/-- The deadlines as a whole: the DU, the timers, and the requests on their way. -/
abbrev State.DeadlinesOk (s : State) : Prop :=
  s.du.Ok ∧ s.tt.Ok ∧ (∀ x ∈ s.wires.ttToDu, x.item.Ok) ∧ (∀ x ∈ s.wires.qeToDu, x.item.Ok)

/-! ## Items between blocks -/

/-- A FIFO's items were sent in order, none before the receiver's last warm reset boundary, none after what the sender
has taken (R172). -/
abbrev flowOk {α : Type} (sender receiver : Nat) (w : List (Sent α)) : Prop :=
  (w.map Sent.epoch).Pairwise (· ≤ ·) ∧ ∀ x ∈ w, receiver ≤ x.epoch ∧ x.epoch ≤ sender

/-- Every FIFO between blocks, and no block ahead of the CP (R156, R172). -/
abbrev State.FlowOk (s : State) : Prop :=
  (s.resets.tb ≤ s.resets.cp ∧ s.resets.du ≤ s.resets.cp ∧ s.resets.tt ≤ s.resets.cp ∧
    s.resets.qe ≤ s.resets.cp ∧ s.resets.lu ≤ s.resets.cp ∧ s.resets.nu ≤ s.resets.cp) ∧
  flowOk s.resets.tb s.resets.du s.wires.tbToDu ∧ flowOk s.resets.tb s.resets.lu s.wires.tbToLu ∧
  flowOk s.resets.du s.resets.tt s.wires.duToTt ∧ flowOk s.resets.du s.resets.qe s.wires.duToQe ∧
  flowOk s.resets.du s.resets.nu s.wires.duToNu ∧ flowOk s.resets.tt s.resets.du s.wires.ttToDu ∧
  flowOk s.resets.qe s.resets.du s.wires.qeToDu ∧ flowOk s.resets.tt s.resets.qe s.wires.ttToQe ∧
  flowOk s.resets.lu s.resets.qe s.wires.luToQe ∧ flowOk s.resets.tt s.resets.lu s.wires.ttToLu ∧
  flowOk s.resets.lu s.resets.tt s.wires.luToTt ∧ flowOk s.resets.qe s.resets.nu s.wires.qeToNu ∧
  flowOk s.resets.cp s.resets.nu s.wires.cpToNu

end Sys2Proof.Machine
end

