-- ==== Sys2Proof/Certificates/Slice0/Obligations.lean ====
section
/-! DEFINITION. The statements for the provers: one Prop each, from the numbered rules of spec/. -/

open Sys2Proof Sys2Proof.Machine

/-! ## The machine as a whole -/

/-- A step of a state with event c at the front of its queue is exec of c at the state with the rest of the queue; with
no event the state stays (the idling is the model's choice, log 3). -/
def Obligations.StepTakesTheFrontEvent : Prop :=
  (∀ (c : Instr) (s : State), step (s.withPending (c :: s.pending)) = exec c s) ∧
    ∀ s : State, s.pending = [] → step s = .next s

/-- Every event leads to a next state, and none touches the events still to come. (That an event whose item is not there
leaves the state as it is, and is not refused, is the model's choice of log 2; that the cold reset keeps the events still
to come is that of log 17.) -/
def Obligations.EveryEventHasANextState : Prop :=
  ∀ (i : Instr) (s : State), ∃ t, exec i s = .next t ∧ t.pending = s.pending

/-- What the cold reset leaves in every block (R4, R31, R52, R81, R106, R125, R138, R159, R173); the first sample still due
is the model's reading of R125, and that RESETN has just risen its choice (log 4), as is that no access is in progress
(log 10); the counts of warm resets are the model's own (log 7). -/
def Obligations.ColdResetValues : Prop :=
  let s := State.reset
  s.resetnLow = false ∧ s.bus = .idle ∧ s.dataBus = none ∧
  s.resets = { cp := 0, tb := 0, du := 0, tt := 0, qe := 0, lu := 0, nu := 0 } ∧
  s.tb = { divisor := 1, prescaler := 0, running := false } ∧
  s.du = { now := 0, list := [], relink := [], table := [], backlog := 0, slip := 0, activity := .quiet } ∧
  (∀ i, s.tt.timer i =
    { state := .free, mode := .oneShot, period := 0, target := none
      template := { tag := 0, priority := 0, data := .none }, action := none, arming := 0, expiries := 0 }) ∧
  (∀ q, s.qe.queue q =
    { enabled := false, quota := 0, reserve := 0, threshold := 0, msgOrder := .fifo, waiterOrder := .fifo
      policy := .reject, msgs := [], waiters := [], peak := 0, drops := 0 }) ∧
  (∀ c, s.qe.context c =
    { state := .idle, priority := 0, queue := 0, timeout := none, arming := 0, outcome := none, slot := none
      stamp := 0 }) ∧
  s.qe.free = 128 ∧ s.qe.log = [] ∧
  (∀ n, s.lu.input n =
    { mode := .off, edge := .rise, queue := 0, tag := 0, priority := 0, compare := 0, timer := 0, edgeCount := 0
      rounds := 0, level := .low, firstSampleDue := true }) ∧
  (∀ o, s.lu.output o = { level := .low, pulsePending := false }) ∧
  (s.nu.done = false ∧ s.nu.slip = false ∧ s.nu.level = 0 ∧ s.nu.drop = 0 ∧ ∀ n, s.nu.levelOf n = 0) ∧
  s.cp =
    { slot := none, params := #v[0, 0, 0, 0, 0, 0], reply := #v[0, 0, 0, 0, 0, 0], result := .ok, refused := false
      lastCode := 0, inten := false, nowLatch := 0 } ∧
  s.wires = Wires.cold ∧ s.pending = [] ∧ s.statusWord = 0x0000 ∧ s.intnAsserted = false

/-- A cold reset gives every block its cold-reset state, discards every item and the command in flight, and holds the
part; while it is held every event but the rise of RESETN and the cold reset itself leaves every block as it is, a write
access ends without effect, and the reads of NOWLO and LOGPOP drive 0. At the rise of RESETN the first sample of an input, where it is still due, sets its
level and is no edge: no counter changes and nothing is sent. (The model's choices: the eight first samples are one event,
log 4; COLD_RESET is one event, it keeps the events still to come, and what is ignored while it is held, log 17; an access
in progress ends at it, log 19.) -/
def Obligations.ColdResetHoldsAndRiseReleases : Prop :=
  (∀ s : State, exec .coldReset s = .next { State.reset with resetnLow := true, pending := s.pending }) ∧
  (∀ (i : Instr) (s : State), s.resetnLow = true → i ≠ .coldReset → (∀ l, i ≠ .resetnRise l) → i ≠ .nowloRead →
    i ≠ .logpopRead → exec i s = .next (if isHostWrite i then { s with bus := .idle } else s)) ∧
  (∀ s : State, s.resetnLow = true →
    exec .nowloRead s = .next { s with bus := .read 0 } ∧ exec .logpopRead s = .next { s with bus := .read 0 }) ∧
  ∀ (levels : BitVec 8) (s : State), ∃ t, exec (.resetnRise levels) s = .next t ∧
    (∀ n, t.lu.input n =
      if (s.lu.input n).firstSampleDue then
        { s.lu.input n with level := if levels.getLsbD n.val then .high else .low, firstSampleDue := false }
      else s.lu.input n) ∧
    (∀ o, t.lu.output o = s.lu.output o) ∧
    t = { s with resetnLow := false, lu := t.lu }

/-! ## Time Base -/

/-- Rising edges of TBCLK are counted while RUNNING; the one that reaches the divisor returns the count to 0 and sends a
tick to the DU and one to the LU. TB_TICK names that edge (log 6). TB_SETUP sets a divisor of at least 1 and restarts the
count; TB_RUN and TB_HALT set the run state. -/
def Obligations.TimeBaseEdgesAndCommands : Prop :=
  (∀ s : State, s.resetnLow = false →
    (s.tb.running = false → exec .tbclkRisingEdge s = .next s) ∧
    (s.tb.running = true → s.tb.prescaler + 1 ≠ s.tb.divisor →
      ∃ t, exec .tbclkRisingEdge s = .next t ∧ t.tb = { s.tb with prescaler := s.tb.prescaler + 1 } ∧
        t.wires = s.wires ∧ sameExcept [.tb] s t) ∧
    (s.tb.running = true → s.tb.prescaler + 1 = s.tb.divisor → ∀ i ∈ [Instr.tbclkRisingEdge, Instr.tbTick],
      ∃ t, exec i s = .next t ∧ t.tb = { s.tb with prescaler := 0 } ∧
        t.wires = { s.wires with
          tbToDu := send s.resets.tb s.resets.du () s.wires.tbToDu
          tbToLu := send s.resets.tb s.resets.lu () s.wires.tbToLu } ∧
        sameExcept [.tb] s t)) ∧
  ∀ (p : Words6) (s : State),
    (Taken 0x0050 p s → p[0] ≠ 0 → ∃ t, exec .tbSetup s = .next t ∧ Answered (.ok (words)) [.tb] s t ∧
      t.tb = { s.tb with divisor := p[0], prescaler := 0 } ∧ t.wires = s.wires) ∧
    (Taken 0x0051 p s → ∃ t, exec .tbRun s = .next t ∧ Answered (.ok (words)) [.tb] s t ∧
      t.tb = { s.tb with running := true } ∧ t.wires = s.wires) ∧
    (Taken 0x0052 p s → ∃ t, exec .tbHalt s = .next t ∧ Answered (.ok (words)) [.tb] s t ∧
      t.tb = { s.tb with running := false } ∧ t.wires = s.wires)

/-! ## Deadline Unit -/

/-- A tick reaches the DU: taken at once when IDLE, into the backlog below 7, else lost with the slip count raised and
SLIP sent. (IDLE as the model holds the DU between short steps: log 5.) -/
def Obligations.TickArrival : Prop :=
  ∀ (rest : List (Sent Unit)) (s : State), s.resetnLow = false →
    receive s.resets.du s.wires.tbToDu = some ((), rest) → ∃ t, exec .tickArrival s = .next t ∧ sameExcept [.du] s t ∧
    (s.du.idle = true →
      t.du = { s.du with activity := .applying } ∧ t.wires = { s.wires with tbToDu := rest }) ∧
    (s.du.idle = false → s.du.backlog < 7 →
      t.du = { s.du with backlog := s.du.backlog + 1 } ∧ t.wires = { s.wires with tbToDu := rest }) ∧
    (s.du.idle = false → 7 ≤ s.du.backlog →
      t.du = { s.du with slip := if s.du.slip = 255 then 255 else s.du.slip + 1 } ∧
      t.wires = { s.wires with
        tbToDu := rest, duToNu := send s.resets.du s.resets.nu () s.wires.duToNu })

/-- Applying a tick: NOW increases by 1; the head's delta decreases by 1; when it reaches 0 the head and every entry after
it with delta 0 leave the list, each with its notice, in list order, and those with a reload join the relink list.
ENTRY_FALLS_DUE names the last case (log 6). (The tick in hand: log 5.) -/
def Obligations.TickApplication : Prop :=
  ∀ (d : DeadlineUnit) (s : State), s.resetnLow = false → s.du.TickNext d →
    (d.list = [] → ∃ t, exec .tickApplication s = .next t ∧ t.du = { d with now := d.now + 1 } ∧ t.wires = s.wires ∧
      sameExcept [.du] s t) ∧
    (∀ head rest, d.list = head :: rest → 2 ≤ head.delta → ∃ t, exec .tickApplication s = .next t ∧
      t.du = { d with now := d.now + 1, list := { head with delta := head.delta - 1 } :: rest } ∧
      t.wires = s.wires ∧ sameExcept [.du] s t) ∧
    (∀ head rest, d.list = head :: rest → head.delta ≤ 1 → ∀ i ∈ [Instr.tickApplication, Instr.entryFallsDue],
      let gone := head :: rest.takeWhile (fun x => x.delta == 0)
      ∃ t, exec i s = .next t ∧
        t.du = { d with
          now := d.now + 1
          list := rest.dropWhile (fun x => x.delta == 0)
          relink := d.relink ++ (gone.filter (fun x => x.reload != 0)).map fun x =>
            { entry := x.entry, reload := x.reload, arming := x.arming } } ∧
        t.wires = { s.wires with
          duToTt := sendAll s.resets.du s.resets.tt (gone.filterMap fun x => match x.entry with
            | .timer n => some { who := n, arming := x.arming }
            | .context _ => none) s.wires.duToTt
          duToQe := sendAll s.resets.du s.resets.qe (gone.filterMap fun x => match x.entry with
            | .timer _ => none
            | .context c => some { who := c, arming := x.arming }) s.wires.duToQe } ∧
        sameExcept [.du] s t)

/-- A relink walk begins with the first record of the relink list, delay equal to its reload; at the end of any walk
the entry is placed after the entries whose remaining time is at most the delay, and every other deadline stands. -/
def Obligations.WalksBeginAndEnd : Prop :=
  (∀ (r : RelinkEntry) (rest : List RelinkEntry) (s : State), s.resetnLow = false → s.du.activity = .quiet →
    s.du.relink = r :: rest → ∃ t, exec .relinkWalkStart s = .next t ∧
      t.du = { s.du with
        relink := rest
        activity := .walking
          { entry := r.entry, delay := r.reload, reload := r.reload, arming := r.arming, source := .relink } } ∧
      t.wires = s.wires ∧ sameExcept [.du] s t) ∧
  ∀ (w : WalkRecord) (s : State), s.resetnLow = false → s.du.activity = .walking w →
    ∃ t, exec .walkEnd s = .next t ∧ Placed w s.du.list t.du.list ∧
      t.du = { s.du with list := t.du.list, activity := .quiet } ∧ t.wires = s.wires ∧ sameExcept [.du] s t

/-- A request reaches the DU. IDLE: it is taken at once (in hand until its own event, log 5). Otherwise a LINK or UNLINK
discards a pending request for its entry and joins the tail; a RELOAD is treated by what is pending. -/
def Obligations.RequestArrival : Prop :=
  ∀ (sender : RequestSender) (r : LinkRequest) (rest : List (Sent LinkRequest)) (s : State), s.resetnLow = false →
    receive s.resets.du (match sender with
      | .tt => s.wires.ttToDu
      | .qe => s.wires.qeToDu) = some (r, rest) →
    ∃ t, exec (match r with
        | .link _ _ _ _ => .linkRequest sender
        | .unlink _ => .unlinkRequest sender
        | .reload _ _ => .reloadRequest sender) s = .next t ∧
      t.wires = (match sender with
        | .tt => { s.wires with ttToDu := rest }
        | .qe => { s.wires with qeToDu := rest }) ∧
      sameExcept [.du] s t ∧
      (s.du.idle = true → t.du = { s.du with activity := .taking r }) ∧
      (s.du.idle = false → t.du = { s.du with table := t.du.table } ∧
        ((∀ e v, r ≠ .reload e v) → t.du.table = s.du.table.filter (fun x => x.entry ≠ r.entry) ++ [r]) ∧
        (∀ e v, r = .reload e v →
          ((∀ x ∈ s.du.table, x.entry ≠ e) → t.du.table = s.du.table ++ [r]) ∧
          ((∃ x ∈ s.du.table, x.entry = e) → t.du.table = s.du.table.map fun x =>
            if x.entry = e then
              match x with
              | .link e' d _ a => .link e' d v a
              | .unlink e' => .unlink e'
              | .reload e' _ => .reload e' v
            else x)))

/-- The DU takes its next request: a LINK unlinks its entry and begins a walk, an UNLINK unlinks, a RELOAD sets the
reload of a linked entry. (The request in hand: log 5.) -/
def Obligations.RequestsAreTaken : Prop :=
  ∀ (d : DeadlineUnit) (s : State), s.resetnLow = false →
    (∀ e delay reload arming, s.du.RequestNext (.link e delay reload arming) d →
      ∃ t, exec .takeLink s = .next t ∧ Unlinked e d.list t.du.list ∧
        t.du = { d with
          list := t.du.list
          activity := .walking { entry := e, delay := delay, reload := reload, arming := arming, source := .link } } ∧
        t.wires = s.wires ∧ sameExcept [.du] s t) ∧
    (∀ e, s.du.RequestNext (.unlink e) d →
      ∃ t, exec .takeUnlink s = .next t ∧ Unlinked e d.list t.du.list ∧ t.du = { d with list := t.du.list } ∧
        t.wires = s.wires ∧ sameExcept [.du] s t) ∧
    (∀ e v, s.du.RequestNext (.reload e v) d →
      ∃ t, exec .takeReload s = .next t ∧
        t.du = { d with list := d.list.map fun x => if x.entry = e then { x with reload := v } else x } ∧
        t.wires = s.wires ∧ sameExcept [.du] s t)

/-- Deadlines stand: a tick applied takes 1 off the remaining time of every linked entry and removes those that reach 0;
a walk's end places its entry at its delay; and in every other event (the resets apart) an entry that stays linked
keeps its remaining time. (A NOWLO read before which the DU takes a warm reset unlinks every entry: log 7.) -/
def Obligations.DeadlinesStand : Prop :=
  ∀ (s : State), s.resetnLow = false → s.du.Ok →
    (∀ d, s.du.TickNext d → ∃ t, exec .tickApplication s = .next t ∧ ∀ e, remaining e t.du.list =
      match remaining e s.du.list with
      | none => none
      | some n => if n ≤ 1 then none else some (n - 1)) ∧
    (∀ w, s.du.activity = .walking w →
      ∃ t, exec .walkEnd s = .next t ∧ remaining w.entry t.du.list = some w.delay.toNat) ∧
    ∀ i t, exec i s = .next t → i ≠ .tickApplication → i ≠ .entryFallsDue → i ≠ .duWarmReset → i ≠ .coldReset →
      ∀ e n, remaining e s.du.list = some n →
        remaining e t.du.list = some n ∨
          (remaining e t.du.list = none ∧ ((i = .takeLink ∧ ∃ w, t.du.activity = .walking w ∧ w.entry = e) ∨
            i = .takeUnlink ∨ (i = .nowloRead ∧ s.resets.du < s.resets.cp)))

/-- A NOWLO read drives the low half of NOW and latches the high half; NOWHI reads the latch, which nothing but a NOWLO
read and the cold reset changes. While RESETN is low a NOWLO read drives 0 and leaves the latch as the cold reset left it,
0. A warm reset sent to the DU before the read is taken there first (R156); that it is taken in the read's own event is the
model's choice (log 7). -/
def Obligations.NowloRead : Prop :=
  (∀ s : State, s.resetnLow = false →
    let a := if s.resets.du < s.resets.cp then s.warmDu s.resets.cp else s
    exec .nowloRead s = .next { a with
      bus := .read (s.du.now.extractLsb' 0 16), cp := { s.cp with nowLatch := s.du.now.extractLsb' 16 16 } }) ∧
  (∀ s : State, s.warmDu s.resets.cp = { s with
    du := { now := s.du.now, list := [], relink := [], table := [], backlog := 0, slip := 0, activity := .quiet }
    resets := { s.resets with du := s.resets.cp }
    wires := { s.wires with
      tbToDu := s.wires.tbToDu.filter fun x => s.resets.cp ≤ x.epoch
      ttToDu := s.wires.ttToDu.filter fun x => s.resets.cp ≤ x.epoch
      qeToDu := s.wires.qeToDu.filter fun x => s.resets.cp ≤ x.epoch } }) ∧
  (∀ s : State, s.readWord 0xF = s.cp.nowLatch) ∧
  (∀ (i : Instr) (s t : State), exec i s = .next t → i ≠ .nowloRead → i ≠ .coldReset →
    t.cp.nowLatch = s.cp.nowLatch) ∧
  State.reset.cp.nowLatch = 0 ∧
  (∀ s : State, ∃ t, exec .coldReset s = .next t ∧ t.readWord 0xF = 0 ∧ t.readWord 0xE = 0) ∧
  ∀ s : State, s.resetnLow = true → exec .nowloRead s = .next { s with bus := .read 0 }

/-- NOW moves at tick applications alone, by 1 (the cold reset apart). An arming number moves by 1, at the events of R34
and R84 alone. -/
def Obligations.NowAndArmingNumbersMoveAtTheirEventsAlone : Prop :=
  ∀ (i : Instr) (s t : State), exec i s = .next t → i ≠ .coldReset → s.qe.WaitOk →
    (t.du.now = s.du.now ∨ (t.du.now = s.du.now + 1 ∧ (i = .tickApplication ∨ i = .entryFallsDue))) ∧
    (∀ n, (t.tt.timer n).arming = (s.tt.timer n).arming ∨
      ((t.tt.timer n).arming = (s.tt.timer n).arming + 1 ∧
        i ∈ [Instr.tmrDefine, .tmrArm, .tmrDisarm, .retriggerRequest])) ∧
    ∀ c, (t.qe.context c).arming = (s.qe.context c).arming ∨
      ((t.qe.context c).arming = (s.qe.context c).arming + 1 ∧
        i ∈ [Instr.ctxWait, .post .tt, .post .lu, .qSend, .qPurge, .ctxAbandon])

/-! ## Timer Table -/

/-- An expiry notice at the TT: current, with its count, post, action and state, or stale and without effect. -/
def Obligations.ExpiryNotice : Prop :=
  ∀ (n : Notice TimerId) (rest : List (Sent (Notice TimerId))) (s : State), s.resetnLow = false →
    receive s.resets.tt s.wires.duToTt = some (n, rest) →
    let T := s.tt.timer n.who
    (T.state = .armed → T.arming = n.arming → ∃ t, exec .expiryNotice s = .next t ∧
      s.tt.Only n.who { T with
        expiries := T.expiries + 1
        state := match T.mode with
          | .oneShot => .idle
          | .periodic => .armed } t.tt ∧
      t.wires = { s.wires with
        duToTt := rest
        ttToQe := sendAll s.resets.tt s.resets.qe (match T.target with
          | none => []
          | some q => [{ queue := q, body :=
            { kind := .timer, origin := BitVec.ofNat 6 n.who.val, tag := T.template.tag
              priority := T.template.priority, seq := (T.expiries + 1).extractLsb' 0 8, data := T.template.data } }])
          s.wires.ttToQe
        ttToLu := sendAll s.resets.tt s.resets.lu T.action.toList s.wires.ttToLu } ∧
      sameExcept [.tt] s t) ∧
    (¬ (T.state = .armed ∧ T.arming = n.arming) → ∃ t, exec .expiryNotice s = .next t ∧
      t.wires = { s.wires with duToTt := rest } ∧ sameExcept [] s t)

/-- A retrigger request at the TT: a FREE timer ignores it; an IDLE or ARMED one is armed for its period under a new
arming number, and a LINK goes to the DU. -/
def Obligations.RetriggerRequest : Prop :=
  ∀ (i : TimerId) (rest : List (Sent TimerId)) (s : State), s.resetnLow = false →
    receive s.resets.tt s.wires.luToTt = some (i, rest) →
    let T := s.tt.timer i
    (T.state = .free → ∃ t, exec .retriggerRequest s = .next t ∧ t.wires = { s.wires with luToTt := rest } ∧
      sameExcept [] s t) ∧
    (T.state ≠ .free → ∃ t, exec .retriggerRequest s = .next t ∧
      s.tt.Only i { T with state := .armed, arming := T.arming + 1 } t.tt ∧
      t.wires = { s.wires with
        luToTt := rest
        ttToDu := send s.resets.tt s.resets.du
          (.link (.timer i) T.period (if T.mode = .periodic then T.period else 0) (T.arming + 1)) s.wires.ttToDu } ∧
      sameExcept [.tt] s t)

/-- TMR_DEFINE with its values in range, in a FREE or IDLE timer. -/
def Obligations.TmrDefine : Prop :=
  ∀ (p : Words6) (i : TimerId) (kind : Option ActionKind) (data : MessageData) (s : State), Taken 0x0010 p s →
    (field p[0] 0 6).toNat = i.val → (s.tt.timer i).state ≠ .armed → p[1] ≠ 0 →
    actionKindOf (field p[0] 13 3) = some kind → dataOf (field p[3] 2 2) p[4] p[5] = some data →
    ∃ t, exec .tmrDefine s = .next t ∧
      Answered (.ok (words (((s.tt.timer i).arming + 1).setWidth 16))) [.tt] s t ∧
      s.tt.Only i
        { state := .idle
          mode := if p[0].getLsbD 6 then .periodic else .oneShot
          period := p[1]
          target := if p[0].getLsbD 7 then some (queueOf (field p[0] 8 3)) else none
          template := { tag := p[2], priority := field p[3] 0 2, data := data }
          action := kind.map fun k => { output := outputOf (field p[0] 11 2), kind := k }
          arming := (s.tt.timer i).arming + 1
          expiries := 0 } t.tt ∧
      t.wires = s.wires

/-- TMR_ARM in an IDLE or ARMED timer: a new arming number, ARMED, and a LINK with the resolved delay. -/
def Obligations.TmrArm : Prop :=
  ∀ (p : Words6) (i : TimerId) (s : State), Taken 0x0011 p s → p[0].toNat = i.val → (s.tt.timer i).state ≠ .free →
    let T := s.tt.timer i
    let delay := if p[1] = 0 then T.period else p[1]
    ∃ t, exec .tmrArm s = .next t ∧ Answered (.ok (words ((T.arming + 1).setWidth 16) delay)) [.tt] s t ∧
      s.tt.Only i { T with state := .armed, arming := T.arming + 1 } t.tt ∧
      t.wires = { s.wires with
        ttToDu := send s.resets.tt s.resets.du
          (.link (.timer i) delay (if T.mode = .periodic then T.period else 0) (T.arming + 1)) s.wires.ttToDu }

/-- TMR_DISARM and TMR_RELEASE, and TMR_RETUNE with a period of at least 1, which sends a RELOAD to the DU exactly when
the timer is ARMED and PERIODIC. -/
def Obligations.TmrDisarmReleaseAndRetune : Prop :=
  ∀ (p : Words6) (i : TimerId) (s : State), p[0].toNat = i.val →
    let T := s.tt.timer i
    (Taken 0x0012 p s → T.state = .armed → ∃ t, exec .tmrDisarm s = .next t ∧
      Answered (.ok (words (2 ||| ((T.arming + 1).setWidth 16 <<< 8)))) [.tt] s t ∧
      s.tt.Only i { T with state := .idle, arming := T.arming + 1 } t.tt ∧
      t.wires = { s.wires with
        ttToDu := send s.resets.tt s.resets.du (.unlink (.timer i)) s.wires.ttToDu }) ∧
    (Taken 0x0012 p s → T.state = .idle → ∃ t, exec .tmrDisarm s = .next t ∧
      Answered (.ok (words (1 ||| (T.arming.setWidth 16 <<< 8)))) [] s t ∧ t.wires = s.wires) ∧
    (Taken 0x0014 p s → T.state = .idle → ∃ t, exec .tmrRelease s = .next t ∧
      Answered (.ok (words 1)) [.tt] s t ∧ s.tt.Only i { T with state := .free } t.tt ∧ t.wires = s.wires) ∧
    (Taken 0x0014 p s → T.state = .free → ∃ t, exec .tmrRelease s = .next t ∧
      Answered (.ok (words 0)) [] s t ∧ t.wires = s.wires) ∧
    (Taken 0x0013 p s → p[1] ≠ 0 → T.state ≠ .free → ∃ t, exec .tmrRetune s = .next t ∧
      s.tt.Only i { T with period := p[1] } t.tt ∧
      (T.state = .armed ∧ T.mode = .periodic →
        Answered (.ok (words T.period 1)) [.tt] s t ∧
        t.wires = { s.wires with
          ttToDu := send s.resets.tt s.resets.du (.reload (.timer i) p[1]) s.wires.ttToDu }) ∧
      (¬ (T.state = .armed ∧ T.mode = .periodic) →
        Answered (.ok (words T.period 0)) [.tt] s t ∧ t.wires = s.wires))

/-! ## Commands that read -/

/-- TMR_READ, CTX_READ and TB_READ report and change nothing. The DU is read as it stands: a request still on its way to it
does not show (R91 read by R29, and a request in hand: log 9). -/
def Obligations.ReadsOfTimersContextsAndTime : Prop :=
  (∀ (p : Words6) (i : TimerId) (s : State), Taken 0x0015 p s → p[0].toNat = i.val →
    let T := s.tt.timer i
    let link := s.du.linkStatus (.timer i)
    ∃ t, exec .tmrRead s = .next t ∧ t.wires = s.wires ∧
      Answered (.ok (words
        (T.state.code.setWidth 16 ||| T.mode.code.setWidth 16 <<< 2 ||| link.1.code.setWidth 16 <<< 4 |||
          T.arming.setWidth 16 <<< 8)
        T.period T.expiries link.2)) [] s t) ∧
  (∀ (p : Words6) (s : State), Taken 0x0034 p s → p[0] &&& 0xFFF0 = 0 →
    let c := contextOf (field p[0] 0 4)
    let x := s.qe.context c
    let link := s.du.linkStatus (.context c)
    ∃ t, exec .ctxRead s = .next t ∧ t.wires = s.wires ∧
      Answered (.ok (words
        (x.state.code.setWidth 16 ||| x.priority.setWidth 16 <<< 4 ||| (BitVec.ofNat 3 x.queue.val).setWidth 16 <<< 8 |||
          (if x.timeout.isSome then (0x0800 : Word) else 0) ||| (if ∃ e ∈ s.qe.log, e.context = c then (0x1000 : Word) else 0) |||
          (outcomeCode x.outcome).setWidth 16 <<< 13)
        (x.timeout.getD 0) (x.arming.setWidth 16 ||| link.1.code.setWidth 16 <<< 8) link.2)) [] s t) ∧
  ∀ (p : Words6) (s : State), Taken 0x0053 p s →
    let du := s.du
    ∃ t, exec .tbRead s = .next t ∧ t.wires = s.wires ∧
      Answered (.ok (words s.tb.divisor
        ((if s.tb.running then (1 : Word) else 0) ||| (if du.isWalking then (2 : Word) else 0) |||
          (BitVec.ofNat 3 du.backlog).setWidth 16 <<< 4 ||| (BitVec.ofNat 7 du.list.length).setWidth 16 <<< 8)
        (du.slip.setWidth 16))) [] s t

/-- The link status of an entry by the first condition of R29 that holds, for a DU without a request in hand (for one in
hand see log 9). -/
def Obligations.LinkStatusByTheFirstCondition : Prop :=
  ∀ (du : DeadlineUnit) (e : EntryId), du.Ok → (∀ r, du.activity ≠ .taking r) →
    (∀ d rl a, .link e d rl a ∈ du.table → du.linkStatus e = (.linkPending, d)) ∧
    (.unlink e ∈ du.table → du.linkStatus e = (.notLinked, 0)) ∧
    ((∀ d rl a, .link e d rl a ∉ du.table) → .unlink e ∉ du.table →
      (∀ w, du.activity = .walking w → w.entry = e → w.source = .link → du.linkStatus e = (.linkPending, w.delay)) ∧
      (∀ w, du.activity = .walking w → w.entry = e → w.source = .relink →
        du.linkStatus e = (.relinkPending, w.reload)) ∧
      (∀ r ∈ du.relink, r.entry = e → du.linkStatus e = (.relinkPending, r.reload)) ∧
      (∀ n, remaining e du.list = some n → du.linkStatus e = (.linked, BitVec.ofNat 16 n)) ∧
      ((∀ w, du.activity = .walking w → w.entry ≠ e) → (∀ r ∈ du.relink, r.entry ≠ e) →
        (∀ x ∈ du.list, x.entry ≠ e) → du.linkStatus e = (.notLinked, 0)))

/-! ## Queue Engine: posts, notices and the log -/

/-- The QE takes a post of the TT or the LU: stamped with the low half of NOW, its fate by the first condition of R62. -/
def Obligations.PostIsTaken : Prop :=
  ∀ (sender : PostSender) (p : Post) (rest : List (Sent Post)) (s : State), s.resetnLow = false →
    receive s.resets.qe (match sender with
      | .tt => s.wires.ttToQe
      | .lu => s.wires.luToQe) = some (p, rest) →
    ∃ t fate requests signals, exec (.post sender) s = .next t ∧
      PostTaken p.queue { body := p.body, stamp := s.du.now.extractLsb' 0 16 } fate s.qe t.qe requests signals ∧
      t.wires = { s.wires with
        ttToQe := match sender with
          | .tt => rest
          | .lu => s.wires.ttToQe
        luToQe := match sender with
          | .tt => s.wires.luToQe
          | .lu => rest
        qeToDu := sendAll s.resets.qe s.resets.du requests s.wires.qeToDu
        qeToNu := sendAll s.resets.qe s.resets.nu signals s.wires.qeToNu } ∧
      sameExcept [.qe] s t

/-- A timeout notice at the QE: current, and the context completes with TIMEOUT, or stale and without effect. -/
def Obligations.TimeoutNotice : Prop :=
  ∀ (n : Notice ContextId) (rest : List (Sent (Notice ContextId))) (s : State), s.resetnLow = false →
    receive s.resets.qe s.wires.duToQe = some (n, rest) →
    let x := s.qe.context n.who
    (x.state = .waiting ∧ x.timeout ≠ none ∧ x.arming = n.arming → ∃ t, exec .timeoutNotice s = .next t ∧
      s.qe.OnlyContext n.who
        { x with state := .complete, outcome := some .timeout, slot := none, stamp := s.du.now.extractLsb' 0 16 }
        t.qe ∧
      s.qe.OnlyQueue x.queue
        { s.qe.queue x.queue with waiters := (s.qe.queue x.queue).waiters.erase n.who } t.qe ∧
      t.qe.free = s.qe.free ∧
      t.qe.log = s.qe.log ++ [{ context := n.who, outcome := .timeout, queue := x.queue }] ∧
      t.wires = { s.wires with duToQe := rest } ∧ sameExcept [.qe] s t) ∧
    (¬ (x.state = .waiting ∧ x.timeout ≠ none ∧ x.arming = n.arming) → ∃ t, exec .timeoutNotice s = .next t ∧
      t.wires = { s.wires with duToQe := rest } ∧ sameExcept [] s t)

/-- A LOGPOP read removes and drives the oldest entry, with the number that remain; an empty log drives 0, and so does a
read while RESETN is low. A warm reset sent to the QE before the read is taken there first (log 7). -/
def Obligations.LogpopRead : Prop :=
  (∀ s : State, s.resetnLow = true → exec .logpopRead s = .next { s with bus := .read 0 }) ∧
  ∀ s : State, s.resetnLow = false →
    (s.resets.cp ≤ s.resets.qe → s.qe.log = [] → exec .logpopRead s = .next { s with bus := .read 0 }) ∧
    (∀ e rest, s.resets.cp ≤ s.resets.qe → s.qe.log = e :: rest → ∃ word : Word,
      exec .logpopRead s = .next { s with bus := .read word, qe := { s.qe with log := rest } } ∧
      word.extractLsb' 0 2 = (match e.outcome with
        | .message => 1
        | .timeout => 2
        | .purged => 3) ∧
      word.extractLsb' 2 2 = 0 ∧
      word.extractLsb' 4 4 = BitVec.ofNat 4 e.context.val ∧
      word.extractLsb' 8 3 = BitVec.ofNat 3 e.queue.val ∧ word.extractLsb' 11 1 = 0 ∧
      word.extractLsb' 12 4 = BitVec.ofNat 4 rest.length) ∧
    (s.resets.qe < s.resets.cp → exec .logpopRead s = .next { s.warmQe s.resets.cp with bus := .read 0 })

/-! ## Queue Engine: queue commands -/

/-- Q_SETUP that passes its checks. -/
def Obligations.QSetup : Prop :=
  ∀ (p : Words6) (s : State), Taken 0x0020 p s → p[0] &&& 0xFF80 = 0 →
    let q := queueOf (field p[0] 0 3)
    let on := p[0].getLsbD 3
    (on = true → 1 ≤ p[1].toNat ∧ p[1].toNat ≤ 128 ∧ p[2].toNat ≤ p[1].toNat ∧ 1 ≤ p[3].toNat ∧
      p[3].toNat ≤ p[1].toNat) →
    (s.qe.queue q).msgs = [] → (s.qe.queue q).waiters = [] →
    (on = true → p[2].toNat + (sumBank QueueRec.unmet s.qe.queues - (s.qe.queue q).unmet) ≤ s.qe.free) →
    ∃ t, exec .qSetup s = .next t ∧
      Answered (.ok (words (BitVec.ofNat 16 t.qe.free) (BitVec.ofNat 16 (sumBank QueueRec.unmet t.qe.queues)))) [.qe]
        s t ∧
      s.qe.OnlyQueue q { s.qe.queue q with
        enabled := on
        msgOrder := if p[0].getLsbD 4 then .priority else .fifo
        waiterOrder := if p[0].getLsbD 5 then .priority else .fifo
        policy := if p[0].getLsbD 6 then .displace else .reject
        quota := if on then p[1].toNat else 0
        reserve := if on then p[2].toNat else 0
        threshold := if on then p[3].toNat else 0 } t.qe ∧
      t.qe.free = s.qe.free ∧ t.qe.contexts = s.qe.contexts ∧ t.qe.log = s.qe.log ∧ t.wires = s.wires

/-- Q_SEND to an enabled queue: the record it makes is taken as a post, and its fate decides the result and the reply. -/
def Obligations.QSend : Prop :=
  ∀ (p : Words6) (data : MessageData) (s : State), Taken 0x0022 p s → p[0] &&& 0xF008 = 0 →
    dataOf (field p[0] 6 2) p[3] p[4] = some data →
    let q := queueOf (field p[0] 0 3)
    let now := s.du.now.extractLsb' 0 16
    let m : Message := { body :=
      { kind := .sent, origin := (field p[0] 8 4).setWidth 6, tag := p[1], priority := field p[0] 4 2
        seq := field p[2] 0 8, data := data }, stamp := now }
    (s.qe.queue q).enabled = true → ∃ t fate requests signals, exec .qSend s = .next t ∧
      PostTaken q m fate s.qe t.qe requests signals ∧
      t.wires = { s.wires with
        qeToDu := sendAll s.resets.qe s.resets.du requests s.wires.qeToDu
        qeToNu := sendAll s.resets.qe s.resets.nu signals s.wires.qeToNu } ∧
      Answered (match fate with
        | .disabled => ⟨.disabled, words⟩
        | .delivered c => .ok (words (1 ||| (BitVec.ofNat 16 c.val <<< 4)) (BitVec.ofNat 16 (t.qe.queue q).count) now)
        | .stored => .ok (words 2 (BitVec.ofNat 16 (t.qe.queue q).count) now)
        | .displaced v => .ok (words 3 (BitVec.ofNat 16 (t.qe.queue q).count) now
            (v.body.kind.code.setWidth 16 ||| v.body.origin.setWidth 16 <<< 2) (v.body.seq.setWidth 16))
        | .dropped => ⟨.queueFull, words 0 (BitVec.ofNat 16 (t.qe.queue q).count) 0 0 0 (t.qe.queue q).drops⟩) [.qe]
        s t

/-- Q_TAKE of a queue that holds a message, and of one that holds none; Q_READ with and without clear statistics. -/
def Obligations.QTakeAndQRead : Prop :=
  ∀ (p : Words6) (s : State),
    let q := queueOf (field p[0] 0 3)
    let r := s.qe.queue q
    (∀ m rest, Taken 0x0023 p s → p[0] &&& 0xFFF8 = 0 → r.msgs = m :: rest → ∃ t, exec .qTake s = .next t ∧
      Answered (.ok (messageWords m none q)) [.qe] s t ∧ s.qe.OnlyQueue q { r with msgs := rest } t.qe ∧
      t.qe.free = s.qe.free + 1 ∧ t.qe.contexts = s.qe.contexts ∧ t.qe.log = s.qe.log ∧ t.wires = s.wires) ∧
    (Taken 0x0023 p s → p[0] &&& 0xFFF8 = 0 → r.msgs = [] → Fails .qTake .empty s) ∧
    (Taken 0x0025 p s → p[0] &&& 0xFEF8 = 0 → ∃ t, exec .qRead s = .next t ∧
      Answered (.ok (words
        ((BitVec.ofNat 3 q.val).setWidth 16 ||| (if r.enabled then (0x0008 : Word) else 0) |||
          (if r.msgOrder = .priority then (0x0010 : Word) else 0) ||| (if r.waiterOrder = .priority then (0x0020 : Word) else 0) |||
          (if r.policy = .displace then (0x0040 : Word) else 0) ||| (BitVec.ofNat 5 r.waiters.length).setWidth 16 <<< 8)
        ((BitVec.ofNat 8 r.quota).setWidth 16 ||| (BitVec.ofNat 8 r.reserve).setWidth 16 <<< 8)
        ((BitVec.ofNat 8 r.threshold).setWidth 16 ||| (BitVec.ofNat 8 r.count).setWidth 16 <<< 8)
        ((BitVec.ofNat 8 r.peak).setWidth 16)
        ((BitVec.ofNat 8 s.qe.free).setWidth 16 |||
          (BitVec.ofNat 8 (sumBank QueueRec.unmet s.qe.queues)).setWidth 16 <<< 8)
        r.drops)) [.qe] s t ∧
      s.qe.OnlyQueue q (if p[0].getLsbD 8 then { r with drops := 0, peak := r.count } else r) t.qe ∧
      t.qe.free = s.qe.free ∧ t.qe.contexts = s.qe.contexts ∧ t.qe.log = s.qe.log ∧ t.wires = s.wires)

/-- The message layout of the replies (R167), bit by bit, and the codes of R155, R165, R168 and R169, number by number.
(That a code which is no value of its field is BAD_VALUE shows as `none`; the commands are said at OutOfRangeParameters.) -/
def Obligations.MessageLayout : Prop :=
  ([ResultCode.ok, .unknown, .badIndex, .badValue, .wrongState, .noCells, .queueFull, .empty, .disabled, .aborted].map
    ResultCode.code = [0x0, 0x1, 0x2, 0x3, 0x4, 0x6, 0x7, 0x8, 0x9, 0xF]) ∧
  ([TimerState.free, .idle, .armed].map TimerState.code = [0, 1, 2]) ∧
  ([TimerMode.oneShot, .periodic].map TimerMode.code = [0, 1]) ∧
  ([ContextState.idle, .waiting, .complete].map ContextState.code = [0, 1, 2]) ∧
  ([none, some WaitOutcome.message, some .timeout, some .purged].map outcomeCode = [0, 1, 2, 3]) ∧
  ([LinkStatus.notLinked, .linked, .linkPending, .relinkPending].map LinkStatus.code = [0, 1, 2, 3]) ∧
  ([LineMode.off, .post, .count, .retrigger].map LineMode.code = [0, 1, 2, 3]) ∧
  ([EdgeSel.rise, .fall, .both].map EdgeSel.code = [0, 1, 2]) ∧
  ([0, 1, 2, 3].map lineModeOf = [.off, .post, .count, .retrigger]) ∧
  ([0, 1, 2, 3].map edgeSelOf = [some .rise, some .fall, some .both, none]) ∧
  ([0, 1, 2, 3, 4, 5, 6, 7].map actionKindOf =
    [some none, some (some .set), some (some .clear), some (some .toggle), some (some .pulse), none, none, none]) ∧
  (∀ d0 d1 : Word, [0, 1, 2, 3].map (fun n => dataOf n d0 d1) =
    [some .none, some (.one d0), some (.two d0 d1), none]) ∧
  (∀ ticks : Word, [0, 1, 2, 3].map (fun n => waitModeOf n ticks) =
    [some .untimed, some .poll, if ticks = 0 then none else some (.timed ticks), none]) ∧
  ∀ (m : Message) (o : Option WaitOutcome) (q : QueueId),
    let w := messageWords m o q
    w[0].extractLsb' 0 2 = (match m.body.kind with
      | .timer => 1
      | .line => 2
      | .sent => 3) ∧
    w[0].extractLsb' 2 6 = m.body.origin ∧ w[0].extractLsb' 8 2 = m.body.priority ∧
    w[0].extractLsb' 10 2 = (match m.body.data with
      | .none => 0
      | .one _ => 1
      | .two _ _ => 2) ∧
    w[0].extractLsb' 12 2 = (match o with
      | none => 0
      | some .message => 1
      | some .timeout => 2
      | some .purged => 3) ∧
    w[0].extractLsb' 14 2 = 0 ∧ w[1] = m.body.tag ∧ w[2].extractLsb' 0 8 = m.body.seq ∧
    w[2].extractLsb' 8 3 = BitVec.ofNat 3 q.val ∧ w[2].extractLsb' 11 5 = 0 ∧
    w[3] = (match m.body.data with
      | .none => 0
      | .one d => d
      | .two d _ => d) ∧
    w[4] = (match m.body.data with
      | .none => 0
      | .one _ => 0
      | .two _ d => d) ∧
    w[5] = m.stamp

/-- Q_PURGE discards every message and completes every waiter with PURGED, in waiter order. -/
def Obligations.QPurge : Prop :=
  ∀ (p : Words6) (s : State), Taken 0x0024 p s → p[0] &&& 0xFFF8 = 0 → s.qe.WaitOk →
    let q := queueOf (field p[0] 0 3)
    let r := s.qe.queue q
    ∃ t, exec .qPurge s = .next t ∧
      Answered (.ok (words (BitVec.ofNat 16 r.count) (BitVec.ofNat 16 r.waiters.length))) [.qe] s t ∧
      s.qe.OnlyQueue q { r with msgs := [], waiters := [] } t.qe ∧ t.qe.free = s.qe.free + r.count ∧
      (∀ c, c ∈ r.waiters → t.qe.context c = { s.qe.context c with
        state := .complete, outcome := some .purged, slot := none, stamp := s.du.now.extractLsb' 0 16
        arming := (s.qe.context c).arming + 1 }) ∧
      (∀ c, c ∉ r.waiters → t.qe.context c = s.qe.context c) ∧
      t.qe.log = s.qe.log ++ r.waiters.map (fun c => { context := c, outcome := .purged, queue := q }) ∧
      t.wires = { s.wires with
        qeToDu := sendAll s.resets.qe s.resets.du
          ((r.waiters.filter fun c => (s.qe.context c).timeout.isSome).map fun c => .unlink (.context c))
          s.wires.qeToDu }

/-! ## Queue Engine: context commands -/

/-- CTX_SETUP sets the priority of an IDLE or COMPLETE context, and completes with WRONG_STATE in a WAITING one. -/
def Obligations.CtxSetup : Prop :=
  ∀ (p : Words6) (s : State), Taken 0x0030 p s → p[0] &&& 0xFF80 = 0 →
    let c := contextOf (field p[0] 0 4)
    ((s.qe.context c).state ≠ .waiting → ∃ t, exec .ctxSetup s = .next t ∧
      Answered (.ok (words ((s.qe.context c).priority.setWidth 16))) [.qe] s t ∧
      s.qe.OnlyContext c { s.qe.context c with priority := field p[0] 4 3 } t.qe ∧
      t.qe.free = s.qe.free ∧ t.qe.queues = s.qe.queues ∧ t.qe.log = s.qe.log ∧ t.wires = s.wires) ∧
    ((s.qe.context c).state = .waiting → Fails .ctxSetup .wrongState s)

/-- CTX_WAIT by an IDLE context on an enabled queue that holds a message, whatever the timeout mode. -/
def Obligations.CtxWaitImmediate : Prop :=
  ∀ (p : Words6) (mode : WaitMode) (m : Message) (rest : List Message) (s : State), Taken 0x0031 p s →
    p[0] &&& 0xFC80 = 0 → waitModeOf (field p[0] 8 2) p[1] = some mode →
    let c := contextOf (field p[0] 0 4)
    let q := queueOf (field p[0] 4 3)
    (s.qe.context c).state = .idle → (s.qe.queue q).enabled = true → (s.qe.queue q).msgs = m :: rest →
    ∃ t, exec .ctxWait s = .next t ∧ Answered (.ok (messageWords m (some .message) q)) [.qe] s t ∧
      s.qe.OnlyQueue q { s.qe.queue q with msgs := rest } t.qe ∧ t.qe.free = s.qe.free + 1 ∧
      t.qe.contexts = s.qe.contexts ∧ t.qe.log = s.qe.log ∧ t.wires = s.wires

/-- CTX_WAIT with timeout mode poll on an empty queue completes with EMPTY, and nothing changes. -/
def Obligations.CtxWaitPoll : Prop :=
  ∀ (p : Words6) (s : State), Taken 0x0031 p s → p[0] &&& 0xFC80 = 0 → field p[0] 8 2 = 1 →
    (s.qe.context (contextOf (field p[0] 0 4))).state = .idle →
    (s.qe.queue (queueOf (field p[0] 4 3))).enabled = true → (s.qe.queue (queueOf (field p[0] 4 3))).msgs = [] →
    Fails .ctxWait .empty s

/-- CTX_WAIT with mode none or timed on an empty queue: the context begins a deferred wait. -/
def Obligations.CtxWaitDeferred : Prop :=
  ∀ (p : Words6) (s : State), Taken 0x0031 p s → p[0] &&& 0xFC80 = 0 →
    (field p[0] 8 2 = 0 ∨ (field p[0] 8 2 = 2 ∧ p[1] ≠ 0)) →
    let c := contextOf (field p[0] 0 4)
    let q := queueOf (field p[0] 4 3)
    let x := s.qe.context c
    let r := s.qe.queue q
    let timed := field p[0] 8 2 = 2
    let arming := if timed then x.arming + 1 else x.arming
    x.state = .idle → r.enabled = true → r.msgs = [] →
    ∃ t, exec .ctxWait s = .next t ∧
      Answered (.ok (words 0 0 ((BitVec.ofNat 3 q.val).setWidth 16 <<< 8) (arming.setWidth 16))) [.qe] s t ∧
      s.qe.OnlyContext c
        { x with state := .waiting, queue := q, timeout := if timed then some p[1] else none, arming := arming } t.qe ∧
      (∃ ws, s.qe.OnlyQueue q { r with waiters := ws } t.qe ∧
        (r.waiterOrder = .fifo → ws = r.waiters ++ [c]) ∧
        (r.waiterOrder = .priority → ∃ a b, r.waiters = a ++ b ∧ ws = a ++ c :: b ∧
          (∀ d ∈ a, x.priority ≤ (s.qe.context d).priority) ∧
          ∀ d ∈ b.head?, (s.qe.context d).priority < x.priority)) ∧
      t.qe.free = s.qe.free ∧ t.qe.log = s.qe.log ∧
      t.wires = { s.wires with
        qeToDu := sendAll s.resets.qe s.resets.du
          (if timed then [.link (.context c) p[1] 0 (x.arming + 1)] else []) s.wires.qeToDu }

/-- CTX_ABANDON in each context state. (The queue and arming items of the reply for an IDLE context: log 14.) -/
def Obligations.CtxAbandon : Prop :=
  ∀ (p : Words6) (s : State), Taken 0x0032 p s → p[0] &&& 0xFFF0 = 0 →
    let c := contextOf (field p[0] 0 4)
    let x := s.qe.context c
    let queue : Word := (BitVec.ofNat 3 x.queue.val).setWidth 16 <<< 8
    (x.state = .idle → ∃ t, exec .ctxAbandon s = .next t ∧
      Answered (.ok (words queue (x.arming.setWidth 16))) [] s t ∧ t.wires = s.wires) ∧
    (x.state = .waiting → ∃ t, exec .ctxAbandon s = .next t ∧
      Answered (.ok (words (1 ||| queue) ((x.arming + 1).setWidth 16))) [.qe] s t ∧
      s.qe.OnlyContext c { x with state := .idle, arming := x.arming + 1 } t.qe ∧
      s.qe.OnlyQueue x.queue { s.qe.queue x.queue with waiters := (s.qe.queue x.queue).waiters.erase c } t.qe ∧
      t.qe.free = s.qe.free ∧ t.qe.log = s.qe.log ∧
      t.wires = { s.wires with
        qeToDu := sendAll s.resets.qe s.resets.du (if x.timeout.isSome then [.unlink (.context c)] else [])
          s.wires.qeToDu }) ∧
    (x.state = .complete → ∃ t, exec .ctxAbandon s = .next t ∧
      Answered (.ok (words (2 ||| (outcomeCode x.outcome).setWidth 16 <<< 4 ||| queue) (x.arming.setWidth 16))) [.qe]
        s t ∧
      s.qe.OnlyContext c { x with state := .idle, outcome := none, slot := none } t.qe ∧
      t.qe.free = s.qe.free ∧ t.qe.queues = s.qe.queues ∧
      t.qe.log = s.qe.log.filter (fun e => e.context ≠ c) ∧ t.wires = s.wires)

/-- CTX_COLLECT of a COMPLETE context returns its outcome with its message or its completion stamp, and leaves it IDLE
with no log entry. -/
def Obligations.CtxCollect : Prop :=
  ∀ (p : Words6) (s : State), Taken 0x0033 p s → p[0] &&& 0xFFF0 = 0 →
    let c := contextOf (field p[0] 0 4)
    let x := s.qe.context c
    x.state = .complete → ∃ t, exec .ctxCollect s = .next t ∧
      Answered (.ok (match x.slot with
        | some m => messageWords m x.outcome x.queue
        | none => words ((outcomeCode x.outcome).setWidth 16 <<< 12) 0
            ((BitVec.ofNat 3 x.queue.val).setWidth 16 <<< 8) 0 0 x.stamp)) [.qe] s t ∧
      s.qe.OnlyContext c { x with state := .idle, outcome := none, slot := none } t.qe ∧
      t.qe.free = s.qe.free ∧ t.qe.queues = s.qe.queues ∧
      t.qe.log = s.qe.log.filter (fun e => e.context ≠ c) ∧ t.wires = s.wires

/-! ## Line Unit -/

/-- What a sample of an input does (R109 to R116, R125); ROUND names the edge that completes a round (log 6). -/
def Obligations.EdgesAndRounds : Prop :=
  ∀ (n : LineId) (l : Level) (s : State), s.resetnLow = false →
    let x := s.lu.input n
    let edge := x.firstSampleDue = false ∧ x.level ≠ l
    let qualifies := x.edge = .both ∨ (x.edge = .rise ∧ l = .high) ∨ (x.edge = .fall ∧ l = .low)
    let levels := fun (w : Word) (t : State) =>
      (∀ j : LineId, w.getLsbD j.val = decide ((t.lu.input j).level = .high)) ∧ ∀ k, 8 ≤ k → w.getLsbD k = false
    let draft := fun (seq : BitVec 8) (w : Word) => ({ queue := x.queue, body :=
      { kind := .line, origin := BitVec.ofNat 6 n.val, tag := x.tag, priority := x.priority, seq := seq
        data := .one w } } : Post)
    let posted := fun (seq : BitVec 8) (t : State) => ∃ w, levels w t ∧ t.wires = { s.wires with
      luToQe := send s.resets.lu s.resets.qe (draft seq w) s.wires.luToQe }
    let quiet := fun (i : Instr) (y : Input) => ∃ t, exec i s = .next t ∧ s.lu.OnlyInput n y t.lu ∧
      t.wires = s.wires ∧ sameExcept [.lu] s t
    (x.firstSampleDue = true → quiet (.edge n l) { x with level := l, firstSampleDue := false }) ∧
    (x.firstSampleDue = false → x.level = l → exec (.edge n l) s = .next s) ∧
    (edge → ¬ qualifies ∨ x.mode = .off → quiet (.edge n l) { x with level := l }) ∧
    (edge → qualifies → x.mode = .post → ∃ t, exec (.edge n l) s = .next t ∧
      s.lu.OnlyInput n { x with level := l, edgeCount := x.edgeCount + 1 } t.lu ∧
      posted ((x.edgeCount + 1).extractLsb' 0 8) t ∧ sameExcept [.lu] s t) ∧
    (edge → qualifies → x.mode = .count → x.edgeCount + 1 ≠ x.compare →
      quiet (.edge n l) { x with level := l, edgeCount := x.edgeCount + 1 }) ∧
    (edge → qualifies → x.mode = .count → x.edgeCount + 1 = x.compare → ∀ i ∈ [Instr.edge n l, Instr.round n l],
      ∃ t, exec i s = .next t ∧
        s.lu.OnlyInput n { x with level := l, edgeCount := 0, rounds := x.rounds + 1 } t.lu ∧
        posted (x.rounds + 1) t ∧ sameExcept [.lu] s t) ∧
    (edge → qualifies → x.mode = .retrigger → ∃ t, exec (.edge n l) s = .next t ∧
      s.lu.OnlyInput n { x with level := l, edgeCount := x.edgeCount + 1 } t.lu ∧
      t.wires = { s.wires with luToTt := send s.resets.lu s.resets.tt x.timer s.wires.luToTt } ∧
      sameExcept [.lu] s t)

/-- The four actions of R117, taken from the TT; a tick at the LU ends every pending pulse and changes no other output and
no input; the pin is driven to the output's level; the pulse-pending marks that LN_READ reports are the outputs'. -/
def Obligations.OutputActionsAndTicks : Prop :=
  (∀ (a : OutputAction) (rest : List (Sent OutputAction)) (s : State), s.resetnLow = false →
    receive s.resets.lu s.wires.ttToLu = some (a, rest) → ∃ t, exec .outputAction s = .next t ∧
      s.lu.OnlyOutput a.output (match a.kind with
        | .set => { level := .high, pulsePending := false }
        | .clear => { level := .low, pulsePending := false }
        | .toggle => { level := if (s.lu.output a.output).level = .low then .high else .low, pulsePending := false }
        | .pulse => { level := .high, pulsePending := true }) t.lu ∧
      t.wires = { s.wires with ttToLu := rest } ∧ sameExcept [.lu] s t) ∧
  (∀ (rest : List (Sent Unit)) (s : State), s.resetnLow = false →
    receive s.resets.lu s.wires.tbToLu = some ((), rest) → ∃ t, exec .luTick s = .next t ∧
      (∀ o, t.lu.output o = if (s.lu.output o).pulsePending then { level := .low, pulsePending := false }
        else s.lu.output o) ∧
      (∀ n, t.lu.input n = s.lu.input n) ∧ t.wires = { s.wires with tbToLu := rest } ∧ sameExcept [.lu] s t) ∧
  ∀ (lu : LineUnit) (o : OutputId), lu.outputLevels.getLsbD o.val = decide ((lu.output o).level = .high) ∧
    lu.pendingMarks.getLsbD o.val = (lu.output o).pulsePending

/-- LN_SETUP that passes its checks. -/
def Obligations.LnSetup : Prop :=
  ∀ (p : Words6) (edge : EdgeSel) (s : State), Taken 0x0040 p s → p[0] &&& 0xC808 = 0 →
    edgeSelOf (field p[0] 6 2) = some edge →
    let n := lineOf (field p[0] 0 3)
    let x := s.lu.input n
    let mode := lineModeOf (field p[0] 4 2)
    let set := fun (timer : TimerId) (compare : Word) => ∃ t, exec .lnSetup s = .next t ∧
      Answered (.ok (words x.edgeCount (x.rounds.setWidth 16 ||| if x.level = .high then 0x0100 else 0))) [.lu] s t ∧
      s.lu.OnlyInput n { x with
        mode := mode, edge := edge, queue := queueOf (field p[0] 8 3), tag := p[1], priority := field p[0] 12 2
        compare := compare, timer := timer, edgeCount := 0, rounds := 0 } t.lu ∧
      t.wires = s.wires
    (mode = .off ∨ mode = .post → set 0 0) ∧
    (mode = .count → p[2] ≠ 0 → set 0 p[2]) ∧
    ∀ timer : TimerId, mode = .retrigger → p[2].toNat = timer.val → set timer 0

/-- LN_DRIVE with an action code of 0 to 4, and LN_READ. -/
def Obligations.LnDriveAndRead : Prop :=
  (∀ (p : Words6) (kind : Option ActionKind) (s : State), Taken 0x0041 p s → p[0] &&& 0xFF8C = 0 →
    actionKindOf (field p[0] 4 3) = some kind →
    let o := outputOf (field p[0] 0 2)
    let before := s.lu.output o
    let after : Output := match kind with
      | none => before
      | some .set => { level := .high, pulsePending := false }
      | some .clear => { level := .low, pulsePending := false }
      | some .toggle => { level := if before.level = .low then .high else .low, pulsePending := false }
      | some .pulse => { level := .high, pulsePending := true }
    ∃ t, exec .lnDrive s = .next t ∧ s.lu.OnlyOutput o after t.lu ∧ t.wires = s.wires ∧
      Answered (.ok (words
        ((if before.level = .high then 1 else 0) ||| (if after.level = .high then 2 else 0) |||
          (if after.pulsePending then 4 else 0))
        (t.lu.outputLevels.setWidth 16))) [.lu] s t) ∧
  ∀ (p : Words6) (s : State), Taken 0x0042 p s → p[0] &&& 0xFFF8 = 0 →
    let n := lineOf (field p[0] 0 3)
    let x := s.lu.input n
    ∃ t, exec .lnRead s = .next t ∧ t.wires = s.wires ∧
      Answered (.ok (words
        ((BitVec.ofNat 3 n.val).setWidth 16 ||| x.mode.code.setWidth 16 <<< 4 ||| x.edge.code.setWidth 16 <<< 6 |||
          (BitVec.ofNat 3 x.queue.val).setWidth 16 <<< 8 ||| x.priority.setWidth 16 <<< 12 |||
          (if x.level = .high then 0x8000 else 0))
        x.tag (match x.mode with
          | .count => x.compare
          | .retrigger => BitVec.ofNat 16 x.timer.val
          | .off => 0
          | .post => 0)
        x.edgeCount (x.rounds.setWidth 16)
        (s.lu.outputLevels.setWidth 16 ||| s.lu.pendingMarks.setWidth 16 <<< 4))) [] s t

/-! ## Notification Unit -/

/-- The NU takes a signal: the flag of the source it names is set, every other flag and every level is as before. The flag
of source n is bit n: DONE 0, LOG 1, SLIP 2, LEVEL of queue q 3 + q, DROP of queue q 11 + q (R127, R163). -/
def Obligations.SignalsSetTheirFlags : Prop :=
  (∀ (nu : NotifyUnit) (log : Bool),
    (nu.flags log).getLsbD 0 = nu.done ∧ (nu.flags log).getLsbD 1 = log ∧ (nu.flags log).getLsbD 2 = nu.slip ∧
    ∀ q : QueueId, (nu.flags log).getLsbD (3 + q.val) = nu.level.getLsbD q.val ∧
      (nu.flags log).getLsbD (11 + q.val) = nu.drop.getLsbD q.val) ∧
  ∀ s : State, s.resetnLow = false →
    (∀ rest, receive s.resets.nu s.wires.cpToNu = some ((), rest) → ∃ t, exec .doneSignal s = .next t ∧
      t.nu = { s.nu with done := true } ∧ t.wires = { s.wires with cpToNu := rest } ∧ sameExcept [.nu] s t) ∧
    (∀ rest, receive s.resets.nu s.wires.duToNu = some ((), rest) → ∃ t, exec .slipSignal s = .next t ∧
      t.nu = { s.nu with slip := true } ∧ t.wires = { s.wires with duToNu := rest } ∧ sameExcept [.nu] s t) ∧
    (∀ q rest, receive s.resets.nu s.wires.qeToNu = some (.level q, rest) → ∃ t, exec .levelSignal s = .next t ∧
      t.nu = { s.nu with level := t.nu.level } ∧
      (∀ k, t.nu.level.getLsbD k = (s.nu.level.getLsbD k || decide (k = q.val))) ∧
      t.wires = { s.wires with qeToNu := rest } ∧ sameExcept [.nu] s t) ∧
    (∀ q rest, receive s.resets.nu s.wires.qeToNu = some (.drop q, rest) → ∃ t, exec .dropSignal s = .next t ∧
      t.nu = { s.nu with drop := t.nu.drop } ∧
      (∀ k, t.nu.drop.getLsbD k = (s.nu.drop.getLsbD k || decide (k = q.val))) ∧
      t.wires = { s.wires with qeToNu := rest } ∧ sameExcept [.nu] s t)

/-- A write to FLAGA or FLAGB clears the latched flags at the positions written as 1 and no other; it does not touch the
LOG flag or any level, and its access has ended (as it has after every write of the host). A warm reset sent to the NU before the write is taken there first (log 7). -/
def Obligations.FlagWriteClears : Prop :=
  ∀ (w : Word) (s : State), s.resetnLow = false →
    let a := if s.resets.nu < s.resets.cp then s.warmNu s.resets.cp else s
    (∃ t, exec (.flagWrite .flaga w) s = .next t ∧ t = { a with nu := t.nu, bus := .idle } ∧ t.nu.levels = a.nu.levels ∧
      ∀ (log : Bool) (k : Nat), (t.nu.flags log).getLsbD k =
        ((a.nu.flags log).getLsbD k && (!(decide (k < 16) && w.getLsbD k) || decide (k = 1)))) ∧
    ∃ t, exec (.flagWrite .flagb w) s = .next t ∧ t = { a with nu := t.nu, bus := .idle } ∧ t.nu.levels = a.nu.levels ∧
      ∀ (log : Bool) (k : Nat), (t.nu.flags log).getLsbD k =
        ((a.nu.flags log).getLsbD k && !(decide (16 ≤ k) && w.getLsbD (k - 16)))

/-- NT_LEVEL: a source number of 19 to 31 completes with BAD_INDEX; for a source of 0 to 18 the level becomes the given
value, and the reply gives the prior level, the flag and the new level. -/
def Obligations.NtLevel : Prop :=
  ∀ (p : Words6) (s : State), Taken 0x0060 p s → p[0] &&& 0xFCE0 = 0 →
    (19 ≤ (field p[0] 0 5).toNat → Fails .ntLevel .badIndex s) ∧
    ∀ n : SourceId, (field p[0] 0 5).toNat = n.val → ∃ t, exec .ntLevel s = .next t ∧
      Answered (.ok (words
        ((s.nu.levelOf n).setWidth 16 |||
          (if (s.nu.flags (decide (s.qe.log ≠ []))).getLsbD n.val then (0x0010 : Word) else 0) |||
          (field p[0] 8 2).setWidth 16 <<< 8))) [.nu] s t ∧
      t.nu.levelOf n = field p[0] 8 2 ∧ (∀ j, j ≠ n → t.nu.levelOf j = s.nu.levelOf j) ∧
      (∀ log, t.nu.flags log = s.nu.flags log) ∧ t.wires = s.wires

/-- A VECTOR read names the pending source of the highest level and, among those, of the lowest number, or returns 0; it
does not depend on CONTROL.INTEN. (A warm reset sent to the NU before the read is taken there first: log 7.) -/
def Obligations.VectorNamesTheHighestPendingSource : Prop :=
  (∀ (nu : NotifyUnit) (log : Bool),
    ((∀ n, nu.pending log n = false) → nu.vectorWord log = 0) ∧
    ∀ n : SourceId, nu.pending log n = true →
      (∀ j, nu.pending log j = true → nu.levelOf j ≤ nu.levelOf n) →
      (∀ j, nu.pending log j = true → nu.levelOf j = nu.levelOf n → n ≤ j) →
      nu.vectorWord log = BitVec.ofNat 16 (n.val + 1) ||| (nu.levelOf n).setWidth 16 <<< 8) ∧
  (∀ (nu : NotifyUnit) (log : Bool) (n : SourceId),
    nu.pending log n = ((nu.flags log).getLsbD n.val && decide (1 ≤ nu.levelOf n))) ∧
  (∀ s : State, s.readWord 0xC =
    (if s.resets.nu < s.resets.cp then s.warmNu s.resets.cp else s).nu.vectorWord (decide (s.qe.log ≠ []))) ∧
  ∀ (s : State) (b : Bool), (s.withCp { s.cp with inten := b }).readWord 0xC = s.readWord 0xC

/-- INTN, and what the reads of the registers return. (FLAGA and FLAGB are those of the NU with every warm reset taken that
the CP sent before: log 7.) -/
def Obligations.InterruptAndRegisterReads : Prop :=
  ∀ s : State,
    let condition := ∃ n, (s.nu.flags (decide (s.qe.log ≠ []))).getLsbD n.val = true ∧ 1 ≤ s.nu.levelOf n
    (s.intnAsserted = true ↔ s.cp.inten = true ∧ condition) ∧
    ((s.readWord 0x1).getLsbD 0 = s.cp.slot.isSome ∧ (s.readWord 0x1).getLsbD 1 = s.cp.refused ∧
      (s.readWord 0x1).getLsbD 2 = s.tb.running ∧ ((s.readWord 0x1).getLsbD 3 = true ↔ condition) ∧
      (s.readWord 0x1).extractLsb' 4 4 = s.cp.result.code ∧
      (s.readWord 0x1).extractLsb' 8 5 = BitVec.ofNat 5 s.qe.log.length ∧ (s.readWord 0x1).extractLsb' 13 3 = 0) ∧
    s.readWord 0x0 = 0x6410 ∧ s.readWord 0x2 = s.cp.lastCode ∧ s.readWord 0x3 = s.cp.reply[0] ∧
    s.readWord 0x4 = s.cp.reply[1] ∧ s.readWord 0x5 = s.cp.reply[2] ∧ s.readWord 0x6 = s.cp.reply[3] ∧
    s.readWord 0x7 = s.cp.reply[4] ∧ s.readWord 0x8 = s.cp.reply[5] ∧
    s.readWord 0xD = (if s.cp.inten then 1 else 0) ∧
    let a := if s.resets.nu < s.resets.cp then s.warmNu s.resets.cp else s
    ∀ k, k < 16 →
      (s.readWord 0xA).getLsbD k = (a.nu.flags (decide (s.qe.log ≠ []))).getLsbD k ∧
      (s.readWord 0xB).getLsbD k = (a.nu.flags (decide (s.qe.log ≠ []))).getLsbD (16 + k)

/-- The bus pins make the accesses: a read access is taken at the assertion of its strobe, once, and its word is driven
until the strobe is deasserted; a write access is taken at the deassertion with the address and data then on the bus; both
strobes are neither, and while chip select is deasserted strobes have no effect; D15 to D0 are driven in a read access only.
A read of FLAGA, FLAGB or VECTOR is taken at the NU after the warm resets sent to it before (R156), in the access's own event
(log 7), so a VECTOR read of 0 finds the interrupt condition false. (The model's choices: an access whose chip select is
deasserted before its strobe or together with it, a strobe still asserted when chip select comes back, strobes asserted
together, also in the middle of an access, one strobe that takes the other's place, and a word driven that does not change:
log 19. That the reads without an effect are no events: log 11. That a bus write of a writable address is
REGISTER_WRITE of it, and which row that is: log 12 and ParamAndRegisterWrites.) -/
def Obligations.BusPinsMakeTheAccesses : Prop :=
  (∀ (w : Word) (s : State), s.dataBus = some w ↔ s.bus = .read w) ∧
  ∀ (p : BusPins) (s : State),
    (p.csn = true →
      (s.bus = .write → p.wrn = true → exec (.registerWrite p.address p.data) s = .next (s.busPins p)) ∧
      (¬ (s.bus = .write ∧ p.wrn = true) → s.busPins p = { s with bus := .idle }) ∧ (s.busPins p).dataBus = none) ∧
    (p.csn = false → p.rdn = false → p.wrn = false →
      s.busPins p = { s with bus := .neither } ∧ (s.busPins p).dataBus = none) ∧
    (p.csn = false → p.rdn = false → p.wrn = true →
      (s.bus = .idle →
        (p.address = 0x9 → exec .logpopRead s = .next (s.busPins p)) ∧
        (p.address = 0xE → exec .nowloRead s = .next (s.busPins p)) ∧
        (p.address ∈ ([0xA, 0xB, 0xC] : List (BitVec 4)) →
          let a := if s.resetnLow = false ∧ s.resets.nu < s.resets.cp then s.warmNu s.resets.cp else s
          s.busPins p = { a with bus := .read (s.readWord p.address) }) ∧
        (p.address = 0xC → s.resetnLow = false → s.readWord 0xC = 0 →
          (s.busPins p).intnAsserted = false ∧ ((s.busPins p).readWord 0x1).getLsbD 3 = false) ∧
        (p.address ∉ ([0x9, 0xA, 0xB, 0xC, 0xE] : List (BitVec 4)) →
          s.busPins p = { s with bus := .read (s.readWord p.address) })) ∧
      (∀ w, s.bus = .read w → s.busPins p = s) ∧ (s.bus = .neither → s.busPins p = s) ∧
      (s.bus = .write → ∃ t, exec (.registerWrite p.address p.data) s = .next t ∧ s.busPins p = t.busPins p)) ∧
    (p.csn = false → p.rdn = true → p.wrn = false →
      (s.bus = .idle → s.busPins p = { s with bus := .write }) ∧ (s.bus = .write → s.busPins p = s) ∧
      (∀ w, s.bus = .read w → s.busPins p = { s with bus := .write }) ∧
      (s.bus = .neither → s.busPins p = s)) ∧
    (p.csn = false → p.rdn = true → p.wrn = true →
      (s.bus = .write → exec (.registerWrite p.address p.data) s = .next (s.busPins p)) ∧
      (s.bus ≠ .write → s.busPins p = { s with bus := .idle }) ∧ (s.busPins p).dataBus = none)

/-! ## Command Port -/

/-- A COMMAND write while the slot is FREE is accepted, whatever the word; the code decides the owning block. While the
slot stays BUSY no event changes the result or the REPLY registers. -/
def Obligations.CommandWriteAccepted : Prop :=
  (∀ (w : Word) (s : State), s.resetnLow = false → s.cp.slot = none → ∃ t, exec (.commandWrite w) s = .next t ∧
    t.cp = { s.cp with
      slot := some { code := w, params := s.cp.params, owner := ownerOf w, stage := .handedOver }
      lastCode := w } ∧ t.wires = s.wires ∧ sameExcept [.cp] { s with bus := .idle } t) ∧
  (∀ (i : Instr) (s t : State), exec i s = .next t → s.cp.slot ≠ none → t.cp.slot ≠ none →
    t.cp.result = s.cp.result ∧ t.cp.reply = s.cp.reply) ∧
  ∀ w : Word,
    (ownerOf w = .tt ↔ w ∈ [0x0010, 0x0011, 0x0012, 0x0013, 0x0014, 0x0015]) ∧
    (ownerOf w = .qe ↔
      w ∈ [0x0020, 0x0022, 0x0023, 0x0024, 0x0025, 0x0030, 0x0031, 0x0032, 0x0033, 0x0034]) ∧
    (ownerOf w = .lu ↔ w ∈ [0x0040, 0x0041, 0x0042]) ∧
    (ownerOf w = .tb ↔ w ∈ [0x0050, 0x0051, 0x0052, 0x0053]) ∧ (ownerOf w = .nu ↔ w = 0x0060) ∧
    ownerOf w ≠ .du

/-- A COMMAND write while the slot is BUSY is refused: only the refused flag changes. -/
def Obligations.CommandWriteRefused : Prop :=
  ∀ (w : Word) (r : InFlight) (s : State), s.resetnLow = false → s.cp.slot = some r →
    exec (.commandWrite w) s = .next { s with cp := { s.cp with refused := true }, bus := .idle }

/-- The CP takes a completion: result, REPLY registers, slot FREE, DONE sent; the rest of the CP is unchanged. -/
def Obligations.CommandCompletion : Prop :=
  ∀ (c : Completion) (r : InFlight) (s : State), s.resetnLow = false → s.cp.slot = some r →
    r.stage = .completing c → ∃ t, exec .commandCompletion s = .next t ∧
      t.cp = { s.cp with slot := none, result := c.result, reply := c.reply } ∧
      t.wires = { s.wires with cpToNu := send s.resets.cp s.resets.nu () s.wires.cpToNu } ∧ sameExcept [.cp] s t

/-- NOP completes with OK and an unknown code with UNKNOWN, taken and completed by the CP as one event. -/
def Obligations.NopAndUnknownCodes : Prop :=
  ∀ (r : InFlight) (s : State), s.resetnLow = false → s.cp.slot = some r → r.stage = .handedOver →
    let completes := fun (i : Instr) (code : ResultCode) => ∃ t, exec i s = .next t ∧
      t.cp = { s.cp with slot := none, result := code, reply := #v[0, 0, 0, 0, 0, 0] } ∧
      t.wires = { s.wires with cpToNu := send s.resets.cp s.resets.nu () s.wires.cpToNu } ∧ sameExcept [.cp] s t
    (r.code = 0x0000 → completes .nop .ok) ∧
    (r.code ∉ ([0x0000, 0x0010, 0x0011, 0x0012, 0x0013, 0x0014, 0x0015, 0x0020, 0x0022, 0x0023, 0x0024, 0x0025, 0x0030,
      0x0031, 0x0032, 0x0033, 0x0034, 0x0040, 0x0041, 0x0042, 0x0050, 0x0051, 0x0052, 0x0053, 0x0060] : List Word) →
      completes .unknownCode .unknown)

/-- A STATUS write acts through the REFUSED position alone; a refused COMMAND write after it sets the flag again, and one
before it is cleared by it. -/
def Obligations.StatusWriteClearsRefused : Prop :=
  ∀ (w : Word) (s : State), s.resetnLow = false → ∃ t, exec (.statusWrite w) s = .next t ∧
    t = { s with cp := { s.cp with refused := if w.getLsbD 1 then false else s.cp.refused }, bus := .idle } ∧
    ∀ code : Word, s.cp.slot ≠ none →
      (∃ u, exec (.commandWrite code) t = .next u ∧ u.cp.refused = true) ∧
      (w.getLsbD 1 = true → ∃ u v, exec (.commandWrite code) s = .next u ∧ exec (.statusWrite w) u = .next v ∧
        v.cp.refused = false)

/-- A PARAM write sets its register in every state of the slot and does not reach the command in flight; a write to a
read-only address has no effect anywhere; a write to a writable address is the write of the register that stands there.
(REGISTER_WRITE is the table's row for the read-only addresses: that it acts at another address as that register's row is
the model's reading, log 12.) -/
def Obligations.ParamAndRegisterWrites : Prop :=
  (∀ (i : Fin 6) (w : Word) (s : State), s.resetnLow = false → ∃ t, exec (.paramWrite i w) s = .next t ∧
    t = { s with cp := { s.cp with params := t.cp.params }, bus := .idle } ∧ t.cp.params[i] = w ∧
    ∀ j : Fin 6, j ≠ i → t.cp.params[j] = s.cp.params[j]) ∧
  (∀ (a : BitVec 4) (w : Word) (s : State), a ∈ ([0x0, 0x9, 0xC, 0xE, 0xF] : List (BitVec 4)) →
    exec (.registerWrite a w) s = .next { s with bus := .idle }) ∧
  ∀ (w : Word) (s : State),
    exec (.registerWrite 0x1 w) s = exec (.statusWrite w) s ∧ exec (.registerWrite 0x2 w) s = exec (.commandWrite w) s ∧
    exec (.registerWrite 0x3 w) s = exec (.paramWrite 0 w) s ∧ exec (.registerWrite 0x4 w) s = exec (.paramWrite 1 w) s ∧
    exec (.registerWrite 0x5 w) s = exec (.paramWrite 2 w) s ∧ exec (.registerWrite 0x6 w) s = exec (.paramWrite 3 w) s ∧
    exec (.registerWrite 0x7 w) s = exec (.paramWrite 4 w) s ∧ exec (.registerWrite 0x8 w) s = exec (.paramWrite 5 w) s ∧
    exec (.registerWrite 0xA w) s = exec (.flagWrite .flaga w) s ∧
    exec (.registerWrite 0xB w) s = exec (.flagWrite .flagb w) s ∧
    (w.getLsbD 1 = false → exec (.registerWrite 0xD w) s = exec (.intenWrite w) s) ∧
    (w.getLsbD 1 = true → exec (.registerWrite 0xD w) s = exec (.warmReset w) s)

/-- A CONTROL write sets INTEN. With SOFT it starts a warm reset: the CP takes its own at once, and every block has one
more to take (the count is the model's own, log 7). A change of INTEN is taken at the NU, which first takes the warm resets
that the CP sent before it (log 7). -/
def Obligations.ControlWrites : Prop :=
  ∀ (w : Word) (s : State), s.resetnLow = false →
    let a := if w.getLsbD 0 ≠ s.cp.inten ∧ s.resets.nu < s.resets.cp then s.warmNu s.resets.cp else s
    (w.getLsbD 1 = false → exec (.intenWrite w) s = .next { a with
      cp := { s.cp with inten := w.getLsbD 0 }, bus := .idle }) ∧
    (w.getLsbD 1 = true → exec (.warmReset w) s = .next { a with
      cp := { s.cp with
        inten := w.getLsbD 0, slot := none, result := if s.cp.slot = none then .ok else .aborted
        reply := #v[0, 0, 0, 0, 0, 0], refused := false }
      resets := { a.resets with cp := s.resets.cp + 1 }
      bus := .idle })

/-- The warm reset of each block that has one to take (R4, R32, R53, R82, R107, R126, R139), with the items discarded at it,
and the boundary it draws through what one block sends another (R172; the counts that draw it: log 7): an item of a sender
behind the receiver is discarded, every other joins the tail; a receiver takes the head of its own count, and one of a
sender that is ahead waits. (A tick or request in hand at the DU is discarded with the rest: log 18.) -/
def Obligations.BlockWarmResets : Prop :=
  (∀ (α : Type) (sender receiver : Nat) (x : α) (xs : List α) (w : List (Sent α)),
    (receiver ≤ sender → send sender receiver x w = w ++ [{ epoch := sender, item := x }] ∧
      sendAll sender receiver xs w = w ++ xs.map fun y => { epoch := sender, item := y }) ∧
    (sender < receiver → send sender receiver x w = w ∧ sendAll sender receiver xs w = w)) ∧
  (∀ (α : Type) (receiver epoch : Nat) (x : α) (rest : List (Sent α)),
    receive receiver ([] : List (Sent α)) = none ∧
    receive receiver ({ epoch := receiver, item := x } :: rest) = some (x, rest) ∧
    (epoch ≠ receiver → receive receiver ({ epoch := epoch, item := x } :: rest) = none)) ∧
  ∀ s : State, s.resetnLow = false →
    let r := s.resets
    (r.tb < r.cp → exec .tbWarmReset s = .next { s with
      tb := { s.tb with prescaler := 0, running := false }, resets := { r with tb := r.tb + 1 } }) ∧
    (r.du < r.cp → exec .duWarmReset s = .next { s with
      du := { now := s.du.now, list := [], relink := [], table := [], backlog := 0, slip := 0, activity := .quiet }
      resets := { r with du := r.du + 1 }
      wires := { s.wires with
        tbToDu := s.wires.tbToDu.filter fun x => r.du + 1 ≤ x.epoch
        ttToDu := s.wires.ttToDu.filter fun x => r.du + 1 ≤ x.epoch
        qeToDu := s.wires.qeToDu.filter fun x => r.du + 1 ≤ x.epoch } }) ∧
    (r.tt < r.cp → ∃ t, exec .ttWarmReset s = .next t ∧
      (∀ i, t.tt.timer i = { s.tt.timer i with
        expiries := 0, state := if (s.tt.timer i).state = .armed then .idle else (s.tt.timer i).state }) ∧
      t = { s with
        tt := t.tt
        resets := { r with tt := r.tt + 1 }
        wires := { s.wires with
          duToTt := s.wires.duToTt.filter fun x => r.tt + 1 ≤ x.epoch
          luToTt := s.wires.luToTt.filter fun x => r.tt + 1 ≤ x.epoch } }) ∧
    (r.qe < r.cp → ∃ t, exec .qeWarmReset s = .next t ∧
      (∀ q, t.qe.queue q = { s.qe.queue q with msgs := [], waiters := [], peak := 0, drops := 0 }) ∧
      (∀ c, t.qe.context c = { s.qe.context c with state := .idle, outcome := none, slot := none }) ∧
      t.qe.free = 128 ∧ t.qe.log = [] ∧
      t = { s with
        qe := t.qe
        resets := { r with qe := r.qe + 1 }
        wires := { s.wires with
          duToQe := s.wires.duToQe.filter fun x => r.qe + 1 ≤ x.epoch
          ttToQe := s.wires.ttToQe.filter fun x => r.qe + 1 ≤ x.epoch
          luToQe := s.wires.luToQe.filter fun x => r.qe + 1 ≤ x.epoch } }) ∧
    (r.lu < r.cp → ∃ t, exec .luWarmReset s = .next t ∧
      (∀ n, t.lu.input n = { s.lu.input n with edgeCount := 0, rounds := 0 }) ∧
      (∀ o, t.lu.output o = { level := .low, pulsePending := false }) ∧
      t = { s with
        lu := t.lu
        resets := { r with lu := r.lu + 1 }
        wires := { s.wires with
          tbToLu := s.wires.tbToLu.filter fun x => r.lu + 1 ≤ x.epoch
          ttToLu := s.wires.ttToLu.filter fun x => r.lu + 1 ≤ x.epoch } }) ∧
    (r.nu < r.cp → exec .nuWarmReset s = .next { s with
      nu := { s.nu with done := false, slip := false, level := 0, drop := 0 }
      resets := { r with nu := r.nu + 1 }
      wires := { s.wires with
        duToNu := s.wires.duToNu.filter fun x => r.nu + 1 ≤ x.epoch
        qeToNu := s.wires.qeToNu.filter fun x => r.nu + 1 ≤ x.epoch
        cpToNu := s.wires.cpToNu.filter fun x => r.nu + 1 ≤ x.epoch } })

/-- The end state after every block has taken the warm reset is the same, whichever order the blocks take it in. -/
def Obligations.WarmResetOrderDoesNotMatter : Prop :=
  ∀ (l : List Instr) (s : State),
    l.Perm [.tbWarmReset, .duWarmReset, .ttWarmReset, .qeWarmReset, .luWarmReset, .nuWarmReset] →
    ∃ t, Sys2Proof.core.run 6 (s.withPending (l ++ s.pending)) = .next t ∧
      Sys2Proof.core.run 6 (s.withPending
        ([.tbWarmReset, .duWarmReset, .ttWarmReset, .qeWarmReset, .luWarmReset, .nuWarmReset] ++ s.pending)) = .next t

/-! ## Failed checks -/

/-- An object number or a value parameter out of its range: BAD_INDEX first, then BAD_VALUE, and nothing changes. -/
def Obligations.OutOfRangeParameters : Prop :=
  ∀ (p : Words6) (s : State),
    (∀ x ∈ ([(0x0011, .tmrArm), (0x0012, .tmrDisarm), (0x0013, .tmrRetune), (0x0014, .tmrRelease),
        (0x0015, .tmrRead)] : List (Word × Instr)),
      Taken x.1 p s → 48 ≤ p[0].toNat → Fails x.2 .badIndex s) ∧
    (Taken 0x0010 p s → 48 ≤ (field p[0] 0 6).toNat → Fails .tmrDefine .badIndex s) ∧
    (∀ x ∈ ([(0x0020, 0xFF80, .qSetup), (0x0022, 0xF008, .qSend), (0x0023, 0xFFF8, .qTake), (0x0024, 0xFFF8, .qPurge),
        (0x0025, 0xFEF8, .qRead), (0x0030, 0xFF80, .ctxSetup), (0x0031, 0xFC80, .ctxWait), (0x0032, 0xFFF0, .ctxAbandon),
        (0x0033, 0xFFF0, .ctxCollect), (0x0034, 0xFFF0, .ctxRead), (0x0040, 0xC808, .lnSetup), (0x0041, 0xFF8C, .lnDrive),
        (0x0042, 0xFFF8, .lnRead), (0x0060, 0xFCE0, .ntLevel)] : List (Word × Word × Instr)),
      Taken x.1 p s → p[0] &&& x.2.1 ≠ 0 → Fails x.2.2 .badIndex s) ∧
    (Taken 0x0040 p s → p[0] &&& 0xC808 = 0 → field p[0] 4 2 = 3 → 48 ≤ p[2].toNat → Fails .lnSetup .badIndex s) ∧
    (Taken 0x0010 p s → (field p[0] 0 6).toNat < 48 → p[1] = 0 ∨ 5 ≤ (field p[0] 13 3).toNat ∨ field p[3] 2 2 = 3 →
      Fails .tmrDefine .badValue s) ∧
    (Taken 0x0013 p s → p[0].toNat < 48 → p[1] = 0 → Fails .tmrRetune .badValue s) ∧
    (Taken 0x0020 p s → p[0] &&& 0xFF80 = 0 → p[0].getLsbD 3 = true →
      p[1].toNat = 0 ∨ 128 < p[1].toNat ∨ p[1].toNat < p[2].toNat ∨ p[3].toNat = 0 ∨ p[1].toNat < p[3].toNat →
      Fails .qSetup .badValue s) ∧
    (Taken 0x0022 p s → p[0] &&& 0xF008 = 0 → field p[0] 6 2 = 3 → Fails .qSend .badValue s) ∧
    (Taken 0x0031 p s → p[0] &&& 0xFC80 = 0 → field p[0] 8 2 = 3 ∨ (field p[0] 8 2 = 2 ∧ p[1] = 0) →
      Fails .ctxWait .badValue s) ∧
    (Taken 0x0040 p s → p[0] &&& 0xC808 = 0 → (field p[0] 4 2 = 3 → p[2].toNat < 48) →
      field p[0] 6 2 = 3 ∨ (field p[0] 4 2 = 2 ∧ p[2] = 0) → Fails .lnSetup .badValue s) ∧
    (Taken 0x0041 p s → p[0] &&& 0xFF8C = 0 → 5 ≤ (field p[0] 4 3).toNat → Fails .lnDrive .badValue s) ∧
    (Taken 0x0050 p s → p[0] = 0 → Fails .tbSetup .badValue s)

/-- A command whose object is in a state that does not take it: WRONG_STATE, DISABLED or NO_CELLS, and nothing changes. -/
def Obligations.StatesThatDoNotTakeACommand : Prop :=
  ∀ (p : Words6) (s : State),
    (∀ i : TimerId, Taken 0x0010 p s → (field p[0] 0 6).toNat = i.val → p[1] ≠ 0 → (field p[0] 13 3).toNat < 5 →
      field p[3] 2 2 ≠ 3 → (s.tt.timer i).state = .armed → Fails .tmrDefine .wrongState s) ∧
    (∀ i : TimerId, p[0].toNat = i.val → (s.tt.timer i).state = .free →
      (Taken 0x0011 p s → Fails .tmrArm .wrongState s) ∧ (Taken 0x0012 p s → Fails .tmrDisarm .wrongState s) ∧
      (Taken 0x0013 p s → p[1] ≠ 0 → Fails .tmrRetune .wrongState s)) ∧
    (∀ i : TimerId, Taken 0x0014 p s → p[0].toNat = i.val → (s.tt.timer i).state = .armed →
      Fails .tmrRelease .wrongState s) ∧
    (Taken 0x0020 p s → p[0] &&& 0xFF80 = 0 →
      let q := queueOf (field p[0] 0 3)
      (p[0].getLsbD 3 = true → 1 ≤ p[1].toNat ∧ p[1].toNat ≤ 128 ∧ p[2].toNat ≤ p[1].toNat ∧ 1 ≤ p[3].toNat ∧
        p[3].toNat ≤ p[1].toNat) →
      ((s.qe.queue q).msgs ≠ [] ∨ (s.qe.queue q).waiters ≠ [] → Fails .qSetup .wrongState s) ∧
      ((s.qe.queue q).msgs = [] → (s.qe.queue q).waiters = [] → p[0].getLsbD 3 = true →
        s.qe.free < p[2].toNat + (sumBank QueueRec.unmet s.qe.queues - (s.qe.queue q).unmet) →
        Fails .qSetup .noCells s)) ∧
    (Taken 0x0022 p s → p[0] &&& 0xF008 = 0 → field p[0] 6 2 ≠ 3 →
      (s.qe.queue (queueOf (field p[0] 0 3))).enabled = false → Fails .qSend .disabled s) ∧
    (Taken 0x0031 p s → p[0] &&& 0xFC80 = 0 → field p[0] 8 2 ≠ 3 → (field p[0] 8 2 = 2 → p[1] ≠ 0) →
      ((s.qe.context (contextOf (field p[0] 0 4))).state ≠ .idle → Fails .ctxWait .wrongState s) ∧
      ((s.qe.context (contextOf (field p[0] 0 4))).state = .idle →
        (s.qe.queue (queueOf (field p[0] 4 3))).enabled = false → Fails .ctxWait .disabled s)) ∧
    (Taken 0x0033 p s → p[0] &&& 0xFFF0 = 0 → (s.qe.context (contextOf (field p[0] 0 4))).state ≠ .complete →
      Fails .ctxCollect .wrongState s)

/-! ## Invariants -/

/-- Every invariant of the part holds right after reset. (FlowOk speaks of the model's counts of warm resets, log 7.) -/
def Obligations.InvariantsHoldAtReset : Prop :=
  State.reset.qe.PoolOk ∧ State.reset.qe.WaitOk ∧ State.reset.DeadlinesOk ∧ State.reset.tb.Ok ∧ State.reset.lu.Ok ∧
    State.reset.cp.Ok ∧ State.reset.FlowOk

/-- Every step keeps the laws of the pool and the queues: stored messages and free cells make 128, the free cells cover
the unmet reserves, count is at most quota and peak at least count, and no queue holds a message and a waiter. -/
def Obligations.EveryStepKeepsThePool : Prop :=
  ∀ s t : State, s.qe.PoolOk → step s = .next t → t.qe.PoolOk

/-- Every step keeps the laws of contexts, waiter lists and the log: a context is in a waiter list exactly while it
waits, in one list, once; the log names COMPLETE contexts, none twice. -/
def Obligations.EveryStepKeepsTheWaits : Prop :=
  ∀ s t : State, s.qe.WaitOk → step s = .next t → t.qe.WaitOk

/-- Every step keeps the laws of the deadlines: each entry once, no linked entry due now, remaining times at most 65535,
a backlog of at most 7, at most one request per entry, and timers that are not FREE have a period. -/
def Obligations.EveryStepKeepsTheDeadlines : Prop :=
  ∀ s t : State, s.DeadlinesOk → step s = .next t → t.DeadlinesOk

/-- Every step keeps the prescaler below the divisor, the count of a COUNT input below its compare value, the owner of
the command in flight, and the order and the warm-reset boundary of the items between blocks (log 7). -/
def Obligations.EveryStepKeepsTheUnitsAndTheirItems : Prop :=
  ∀ s t : State, step s = .next t →
    (s.tb.Ok → t.tb.Ok) ∧ (s.lu.Ok → t.lu.Ok) ∧ (s.cp.Ok → t.cp.Ok) ∧ (s.FlowOk → t.FlowOk)
end

