-- ==== Sys2Proof/Laws/State.lean ====
section
/-! SUPPORT. One lemma per field per update of State, each true by rfl, so that no proof unfolds a record update. -/

namespace Sys2Proof.Machine

section withResetnLow
variable (s : State) (x : Bool)
@[simp] theorem State.withResetnLow_resetnLow : (s.withResetnLow x).resetnLow = x := rfl
@[simp] theorem State.withResetnLow_tb : (s.withResetnLow x).tb = s.tb := rfl
@[simp] theorem State.withResetnLow_du : (s.withResetnLow x).du = s.du := rfl
@[simp] theorem State.withResetnLow_tt : (s.withResetnLow x).tt = s.tt := rfl
@[simp] theorem State.withResetnLow_qe : (s.withResetnLow x).qe = s.qe := rfl
@[simp] theorem State.withResetnLow_lu : (s.withResetnLow x).lu = s.lu := rfl
@[simp] theorem State.withResetnLow_nu : (s.withResetnLow x).nu = s.nu := rfl
@[simp] theorem State.withResetnLow_cp : (s.withResetnLow x).cp = s.cp := rfl
@[simp] theorem State.withResetnLow_wires : (s.withResetnLow x).wires = s.wires := rfl
@[simp] theorem State.withResetnLow_resets : (s.withResetnLow x).resets = s.resets := rfl
@[simp] theorem State.withResetnLow_bus : (s.withResetnLow x).bus = s.bus := rfl
@[simp] theorem State.withResetnLow_pending : (s.withResetnLow x).pending = s.pending := rfl
end withResetnLow

section withTb
variable (s : State) (x : TimeBase)
@[simp] theorem State.withTb_resetnLow : (s.withTb x).resetnLow = s.resetnLow := rfl
@[simp] theorem State.withTb_tb : (s.withTb x).tb = x := rfl
@[simp] theorem State.withTb_du : (s.withTb x).du = s.du := rfl
@[simp] theorem State.withTb_tt : (s.withTb x).tt = s.tt := rfl
@[simp] theorem State.withTb_qe : (s.withTb x).qe = s.qe := rfl
@[simp] theorem State.withTb_lu : (s.withTb x).lu = s.lu := rfl
@[simp] theorem State.withTb_nu : (s.withTb x).nu = s.nu := rfl
@[simp] theorem State.withTb_cp : (s.withTb x).cp = s.cp := rfl
@[simp] theorem State.withTb_wires : (s.withTb x).wires = s.wires := rfl
@[simp] theorem State.withTb_resets : (s.withTb x).resets = s.resets := rfl
@[simp] theorem State.withTb_bus : (s.withTb x).bus = s.bus := rfl
@[simp] theorem State.withTb_pending : (s.withTb x).pending = s.pending := rfl
end withTb

section withDu
variable (s : State) (x : DeadlineUnit)
@[simp] theorem State.withDu_resetnLow : (s.withDu x).resetnLow = s.resetnLow := rfl
@[simp] theorem State.withDu_tb : (s.withDu x).tb = s.tb := rfl
@[simp] theorem State.withDu_du : (s.withDu x).du = x := rfl
@[simp] theorem State.withDu_tt : (s.withDu x).tt = s.tt := rfl
@[simp] theorem State.withDu_qe : (s.withDu x).qe = s.qe := rfl
@[simp] theorem State.withDu_lu : (s.withDu x).lu = s.lu := rfl
@[simp] theorem State.withDu_nu : (s.withDu x).nu = s.nu := rfl
@[simp] theorem State.withDu_cp : (s.withDu x).cp = s.cp := rfl
@[simp] theorem State.withDu_wires : (s.withDu x).wires = s.wires := rfl
@[simp] theorem State.withDu_resets : (s.withDu x).resets = s.resets := rfl
@[simp] theorem State.withDu_bus : (s.withDu x).bus = s.bus := rfl
@[simp] theorem State.withDu_pending : (s.withDu x).pending = s.pending := rfl
end withDu

section withTt
variable (s : State) (x : TimerTable)
@[simp] theorem State.withTt_resetnLow : (s.withTt x).resetnLow = s.resetnLow := rfl
@[simp] theorem State.withTt_tb : (s.withTt x).tb = s.tb := rfl
@[simp] theorem State.withTt_du : (s.withTt x).du = s.du := rfl
@[simp] theorem State.withTt_tt : (s.withTt x).tt = x := rfl
@[simp] theorem State.withTt_qe : (s.withTt x).qe = s.qe := rfl
@[simp] theorem State.withTt_lu : (s.withTt x).lu = s.lu := rfl
@[simp] theorem State.withTt_nu : (s.withTt x).nu = s.nu := rfl
@[simp] theorem State.withTt_cp : (s.withTt x).cp = s.cp := rfl
@[simp] theorem State.withTt_wires : (s.withTt x).wires = s.wires := rfl
@[simp] theorem State.withTt_resets : (s.withTt x).resets = s.resets := rfl
@[simp] theorem State.withTt_bus : (s.withTt x).bus = s.bus := rfl
@[simp] theorem State.withTt_pending : (s.withTt x).pending = s.pending := rfl
end withTt

section withQe
variable (s : State) (x : QueueEngine)
@[simp] theorem State.withQe_resetnLow : (s.withQe x).resetnLow = s.resetnLow := rfl
@[simp] theorem State.withQe_tb : (s.withQe x).tb = s.tb := rfl
@[simp] theorem State.withQe_du : (s.withQe x).du = s.du := rfl
@[simp] theorem State.withQe_tt : (s.withQe x).tt = s.tt := rfl
@[simp] theorem State.withQe_qe : (s.withQe x).qe = x := rfl
@[simp] theorem State.withQe_lu : (s.withQe x).lu = s.lu := rfl
@[simp] theorem State.withQe_nu : (s.withQe x).nu = s.nu := rfl
@[simp] theorem State.withQe_cp : (s.withQe x).cp = s.cp := rfl
@[simp] theorem State.withQe_wires : (s.withQe x).wires = s.wires := rfl
@[simp] theorem State.withQe_resets : (s.withQe x).resets = s.resets := rfl
@[simp] theorem State.withQe_bus : (s.withQe x).bus = s.bus := rfl
@[simp] theorem State.withQe_pending : (s.withQe x).pending = s.pending := rfl
end withQe

section withLu
variable (s : State) (x : LineUnit)
@[simp] theorem State.withLu_resetnLow : (s.withLu x).resetnLow = s.resetnLow := rfl
@[simp] theorem State.withLu_tb : (s.withLu x).tb = s.tb := rfl
@[simp] theorem State.withLu_du : (s.withLu x).du = s.du := rfl
@[simp] theorem State.withLu_tt : (s.withLu x).tt = s.tt := rfl
@[simp] theorem State.withLu_qe : (s.withLu x).qe = s.qe := rfl
@[simp] theorem State.withLu_lu : (s.withLu x).lu = x := rfl
@[simp] theorem State.withLu_nu : (s.withLu x).nu = s.nu := rfl
@[simp] theorem State.withLu_cp : (s.withLu x).cp = s.cp := rfl
@[simp] theorem State.withLu_wires : (s.withLu x).wires = s.wires := rfl
@[simp] theorem State.withLu_resets : (s.withLu x).resets = s.resets := rfl
@[simp] theorem State.withLu_bus : (s.withLu x).bus = s.bus := rfl
@[simp] theorem State.withLu_pending : (s.withLu x).pending = s.pending := rfl
end withLu

section withNu
variable (s : State) (x : NotifyUnit)
@[simp] theorem State.withNu_resetnLow : (s.withNu x).resetnLow = s.resetnLow := rfl
@[simp] theorem State.withNu_tb : (s.withNu x).tb = s.tb := rfl
@[simp] theorem State.withNu_du : (s.withNu x).du = s.du := rfl
@[simp] theorem State.withNu_tt : (s.withNu x).tt = s.tt := rfl
@[simp] theorem State.withNu_qe : (s.withNu x).qe = s.qe := rfl
@[simp] theorem State.withNu_lu : (s.withNu x).lu = s.lu := rfl
@[simp] theorem State.withNu_nu : (s.withNu x).nu = x := rfl
@[simp] theorem State.withNu_cp : (s.withNu x).cp = s.cp := rfl
@[simp] theorem State.withNu_wires : (s.withNu x).wires = s.wires := rfl
@[simp] theorem State.withNu_resets : (s.withNu x).resets = s.resets := rfl
@[simp] theorem State.withNu_bus : (s.withNu x).bus = s.bus := rfl
@[simp] theorem State.withNu_pending : (s.withNu x).pending = s.pending := rfl
end withNu

section withCp
variable (s : State) (x : CommandPort)
@[simp] theorem State.withCp_resetnLow : (s.withCp x).resetnLow = s.resetnLow := rfl
@[simp] theorem State.withCp_tb : (s.withCp x).tb = s.tb := rfl
@[simp] theorem State.withCp_du : (s.withCp x).du = s.du := rfl
@[simp] theorem State.withCp_tt : (s.withCp x).tt = s.tt := rfl
@[simp] theorem State.withCp_qe : (s.withCp x).qe = s.qe := rfl
@[simp] theorem State.withCp_lu : (s.withCp x).lu = s.lu := rfl
@[simp] theorem State.withCp_nu : (s.withCp x).nu = s.nu := rfl
@[simp] theorem State.withCp_cp : (s.withCp x).cp = x := rfl
@[simp] theorem State.withCp_wires : (s.withCp x).wires = s.wires := rfl
@[simp] theorem State.withCp_resets : (s.withCp x).resets = s.resets := rfl
@[simp] theorem State.withCp_bus : (s.withCp x).bus = s.bus := rfl
@[simp] theorem State.withCp_pending : (s.withCp x).pending = s.pending := rfl
end withCp

section withWires
variable (s : State) (x : Wires)
@[simp] theorem State.withWires_resetnLow : (s.withWires x).resetnLow = s.resetnLow := rfl
@[simp] theorem State.withWires_tb : (s.withWires x).tb = s.tb := rfl
@[simp] theorem State.withWires_du : (s.withWires x).du = s.du := rfl
@[simp] theorem State.withWires_tt : (s.withWires x).tt = s.tt := rfl
@[simp] theorem State.withWires_qe : (s.withWires x).qe = s.qe := rfl
@[simp] theorem State.withWires_lu : (s.withWires x).lu = s.lu := rfl
@[simp] theorem State.withWires_nu : (s.withWires x).nu = s.nu := rfl
@[simp] theorem State.withWires_cp : (s.withWires x).cp = s.cp := rfl
@[simp] theorem State.withWires_wires : (s.withWires x).wires = x := rfl
@[simp] theorem State.withWires_resets : (s.withWires x).resets = s.resets := rfl
@[simp] theorem State.withWires_bus : (s.withWires x).bus = s.bus := rfl
@[simp] theorem State.withWires_pending : (s.withWires x).pending = s.pending := rfl
end withWires

section withResets
variable (s : State) (x : Resets)
@[simp] theorem State.withResets_resetnLow : (s.withResets x).resetnLow = s.resetnLow := rfl
@[simp] theorem State.withResets_tb : (s.withResets x).tb = s.tb := rfl
@[simp] theorem State.withResets_du : (s.withResets x).du = s.du := rfl
@[simp] theorem State.withResets_tt : (s.withResets x).tt = s.tt := rfl
@[simp] theorem State.withResets_qe : (s.withResets x).qe = s.qe := rfl
@[simp] theorem State.withResets_lu : (s.withResets x).lu = s.lu := rfl
@[simp] theorem State.withResets_nu : (s.withResets x).nu = s.nu := rfl
@[simp] theorem State.withResets_cp : (s.withResets x).cp = s.cp := rfl
@[simp] theorem State.withResets_wires : (s.withResets x).wires = s.wires := rfl
@[simp] theorem State.withResets_resets : (s.withResets x).resets = x := rfl
@[simp] theorem State.withResets_bus : (s.withResets x).bus = s.bus := rfl
@[simp] theorem State.withResets_pending : (s.withResets x).pending = s.pending := rfl
end withResets

section withBus
variable (s : State) (x : BusAccess)
@[simp] theorem State.withBus_resetnLow : (s.withBus x).resetnLow = s.resetnLow := rfl
@[simp] theorem State.withBus_tb : (s.withBus x).tb = s.tb := rfl
@[simp] theorem State.withBus_du : (s.withBus x).du = s.du := rfl
@[simp] theorem State.withBus_tt : (s.withBus x).tt = s.tt := rfl
@[simp] theorem State.withBus_qe : (s.withBus x).qe = s.qe := rfl
@[simp] theorem State.withBus_lu : (s.withBus x).lu = s.lu := rfl
@[simp] theorem State.withBus_nu : (s.withBus x).nu = s.nu := rfl
@[simp] theorem State.withBus_cp : (s.withBus x).cp = s.cp := rfl
@[simp] theorem State.withBus_wires : (s.withBus x).wires = s.wires := rfl
@[simp] theorem State.withBus_resets : (s.withBus x).resets = s.resets := rfl
@[simp] theorem State.withBus_bus : (s.withBus x).bus = x := rfl
@[simp] theorem State.withBus_pending : (s.withBus x).pending = s.pending := rfl
end withBus

section withPending
variable (s : State) (x : List Instr)
@[simp] theorem State.withPending_resetnLow : (s.withPending x).resetnLow = s.resetnLow := rfl
@[simp] theorem State.withPending_tb : (s.withPending x).tb = s.tb := rfl
@[simp] theorem State.withPending_du : (s.withPending x).du = s.du := rfl
@[simp] theorem State.withPending_tt : (s.withPending x).tt = s.tt := rfl
@[simp] theorem State.withPending_qe : (s.withPending x).qe = s.qe := rfl
@[simp] theorem State.withPending_lu : (s.withPending x).lu = s.lu := rfl
@[simp] theorem State.withPending_nu : (s.withPending x).nu = s.nu := rfl
@[simp] theorem State.withPending_cp : (s.withPending x).cp = s.cp := rfl
@[simp] theorem State.withPending_wires : (s.withPending x).wires = s.wires := rfl
@[simp] theorem State.withPending_resets : (s.withPending x).resets = s.resets := rfl
@[simp] theorem State.withPending_bus : (s.withPending x).bus = s.bus := rfl
@[simp] theorem State.withPending_pending : (s.withPending x).pending = x := rfl
end withPending

section commitDu
variable (s : State) (o : DuOut)
@[simp] theorem State.commitDu_resetnLow : (s.commitDu o).resetnLow = s.resetnLow := rfl
@[simp] theorem State.commitDu_tb : (s.commitDu o).tb = s.tb := rfl
@[simp] theorem State.commitDu_du : (s.commitDu o).du = o.du := rfl
@[simp] theorem State.commitDu_tt : (s.commitDu o).tt = s.tt := rfl
@[simp] theorem State.commitDu_qe : (s.commitDu o).qe = s.qe := rfl
@[simp] theorem State.commitDu_lu : (s.commitDu o).lu = s.lu := rfl
@[simp] theorem State.commitDu_nu : (s.commitDu o).nu = s.nu := rfl
@[simp] theorem State.commitDu_cp : (s.commitDu o).cp = s.cp := rfl
@[simp] theorem State.commitDu_resets : (s.commitDu o).resets = s.resets := rfl
@[simp] theorem State.commitDu_bus : (s.commitDu o).bus = s.bus := rfl
@[simp] theorem State.commitDu_pending : (s.commitDu o).pending = s.pending := rfl
end commitDu

section commitTt
variable (s : State) (o : TtOut)
@[simp] theorem State.commitTt_resetnLow : (s.commitTt o).resetnLow = s.resetnLow := rfl
@[simp] theorem State.commitTt_tb : (s.commitTt o).tb = s.tb := rfl
@[simp] theorem State.commitTt_du : (s.commitTt o).du = s.du := rfl
@[simp] theorem State.commitTt_tt : (s.commitTt o).tt = o.tt := rfl
@[simp] theorem State.commitTt_qe : (s.commitTt o).qe = s.qe := rfl
@[simp] theorem State.commitTt_lu : (s.commitTt o).lu = s.lu := rfl
@[simp] theorem State.commitTt_nu : (s.commitTt o).nu = s.nu := rfl
@[simp] theorem State.commitTt_cp : (s.commitTt o).cp = s.cp := rfl
@[simp] theorem State.commitTt_resets : (s.commitTt o).resets = s.resets := rfl
@[simp] theorem State.commitTt_bus : (s.commitTt o).bus = s.bus := rfl
@[simp] theorem State.commitTt_pending : (s.commitTt o).pending = s.pending := rfl
end commitTt

section commitQe
variable (s : State) (o : QeOut)
@[simp] theorem State.commitQe_resetnLow : (s.commitQe o).resetnLow = s.resetnLow := rfl
@[simp] theorem State.commitQe_tb : (s.commitQe o).tb = s.tb := rfl
@[simp] theorem State.commitQe_du : (s.commitQe o).du = s.du := rfl
@[simp] theorem State.commitQe_tt : (s.commitQe o).tt = s.tt := rfl
@[simp] theorem State.commitQe_qe : (s.commitQe o).qe = o.qe := rfl
@[simp] theorem State.commitQe_lu : (s.commitQe o).lu = s.lu := rfl
@[simp] theorem State.commitQe_nu : (s.commitQe o).nu = s.nu := rfl
@[simp] theorem State.commitQe_cp : (s.commitQe o).cp = s.cp := rfl
@[simp] theorem State.commitQe_resets : (s.commitQe o).resets = s.resets := rfl
@[simp] theorem State.commitQe_bus : (s.commitQe o).bus = s.bus := rfl
@[simp] theorem State.commitQe_pending : (s.commitQe o).pending = s.pending := rfl
end commitQe

section commitLu
variable (s : State) (o : LuOut)
@[simp] theorem State.commitLu_resetnLow : (s.commitLu o).resetnLow = s.resetnLow := rfl
@[simp] theorem State.commitLu_tb : (s.commitLu o).tb = s.tb := rfl
@[simp] theorem State.commitLu_du : (s.commitLu o).du = s.du := rfl
@[simp] theorem State.commitLu_tt : (s.commitLu o).tt = s.tt := rfl
@[simp] theorem State.commitLu_qe : (s.commitLu o).qe = s.qe := rfl
@[simp] theorem State.commitLu_lu : (s.commitLu o).lu = o.lu := rfl
@[simp] theorem State.commitLu_nu : (s.commitLu o).nu = s.nu := rfl
@[simp] theorem State.commitLu_cp : (s.commitLu o).cp = s.cp := rfl
@[simp] theorem State.commitLu_resets : (s.commitLu o).resets = s.resets := rfl
@[simp] theorem State.commitLu_bus : (s.commitLu o).bus = s.bus := rfl
@[simp] theorem State.commitLu_pending : (s.commitLu o).pending = s.pending := rfl
end commitLu

section complete
variable (s : State) (c : Completion)
@[simp] theorem State.complete_resetnLow : (s.complete c).resetnLow = s.resetnLow := rfl
@[simp] theorem State.complete_tb : (s.complete c).tb = s.tb := rfl
@[simp] theorem State.complete_du : (s.complete c).du = s.du := rfl
@[simp] theorem State.complete_tt : (s.complete c).tt = s.tt := rfl
@[simp] theorem State.complete_qe : (s.complete c).qe = s.qe := rfl
@[simp] theorem State.complete_lu : (s.complete c).lu = s.lu := rfl
@[simp] theorem State.complete_nu : (s.complete c).nu = s.nu := rfl
@[simp] theorem State.complete_resets : (s.complete c).resets = s.resets := rfl
@[simp] theorem State.complete_bus : (s.complete c).bus = s.bus := rfl
@[simp] theorem State.complete_pending : (s.complete c).pending = s.pending := rfl
end complete

end Sys2Proof.Machine
end

