-- ==== Sys2Proof/Laws/Ops.lean ====
section
/-! SUPPORT. One lemma for each shared operation of Machine/Ops.lean: banks, FIFOs between blocks, the outcome of an
event, and the path of a command. -/

namespace Sys2Proof.Machine

/-! ## Banks -/

@[simp] theorem mapBank_getElem {α β : Type} {n : Nat} (f : α → β) (v : Vector α n) (i : Nat) (h : i < n) :
    (mapBank f v)[i] = f v[i] := by
  simp [mapBank]

theorem sum_map_set {α : Type} (f : α → Nat) (x : α) :
    ∀ (l : List α) (i : Nat) (h : i < l.length), ((l.set i x).map f).sum + f l[i] = (l.map f).sum + f x
  | [], i, h => by simp at h
  | y :: rest, 0, _ => by simp; omega
  | y :: rest, i + 1, h => by
    have := sum_map_set f x rest i (by simpa using h)
    simp only [List.set_cons_succ, List.map_cons, List.sum_cons, List.getElem_cons_succ]
    omega

/-- Replacing one record of a bank changes the sum by the difference of that record. -/
theorem sumBank_set {α : Type} {n : Nat} (f : α → Nat) (v : Vector α n) (i : Nat) (h : i < n) (x : α) :
    sumBank f (v.set i x) + f v[i] = sumBank f v + f x := by
  have := sum_map_set f x v.toArray.toList i (by simpa using h)
  simpa [sumBank] using this

theorem sum_map_map {α β : Type} (f : β → Nat) (g : α → β) (l : List α) :
    ((l.map g).map f).sum = (l.map fun x => f (g x)).sum := by
  simp [Function.comp_def]

theorem sumBank_mapBank {α β : Type} {n : Nat} (f : β → Nat) (g : α → β) (v : Vector α n) :
    sumBank f (mapBank g v) = sumBank (fun x => f (g x)) v := by
  simp [sumBank, mapBank, Function.comp_def]

theorem le_sumBank {α : Type} {n : Nat} (f : α → Nat) (v : Vector α n) (i : Nat) (h : i < n) :
    f v[i] ≤ sumBank f v := by
  have hm : f v[i] ∈ v.toArray.toList.map f :=
    List.mem_map.2 ⟨v[i], by simp, rfl⟩
  exact List.single_le_sum (fun _ _ => Nat.zero_le _) _ hm

theorem sumBank_le {α : Type} {n : Nat} (f g : α → Nat) (v : Vector α n) (h : ∀ x, f x ≤ g x) :
    sumBank f v ≤ sumBank g v :=
  List.sum_le_sum fun x _ => h x

theorem sumBank_add {α : Type} {n : Nat} (f g : α → Nat) (v : Vector α n) :
    sumBank (fun x => f x + g x) v = sumBank f v + sumBank g v := by
  simp [sumBank, List.sum_map_add]

theorem TimerTable.timer_setTimer (tt : TimerTable) (i j : TimerId) (r : Timer) :
    (tt.setTimer i r).timer j = if i = j then r else tt.timer j := by
  simp [TimerTable.timer, TimerTable.setTimer, Vector.getElem_set, Fin.ext_iff]

theorem QueueEngine.queue_setQueue (qe : QueueEngine) (i j : QueueId) (r : QueueRec) :
    (qe.setQueue i r).queue j = if i = j then r else qe.queue j := by
  simp [QueueEngine.queue, QueueEngine.setQueue, Vector.getElem_set, Fin.ext_iff]

theorem QueueEngine.context_setContext (qe : QueueEngine) (i j : ContextId) (r : Context) :
    (qe.setContext i r).context j = if i = j then r else qe.context j := by
  simp [QueueEngine.context, QueueEngine.setContext, Vector.getElem_set, Fin.ext_iff]

theorem LineUnit.input_setInput (lu : LineUnit) (i j : LineId) (r : Input) :
    (lu.setInput i r).input j = if i = j then r else lu.input j := by
  simp [LineUnit.input, LineUnit.setInput, Vector.getElem_set, Fin.ext_iff]

theorem LineUnit.output_setOutput (lu : LineUnit) (i j : OutputId) (r : Output) :
    (lu.setOutput i r).output j = if i = j then r else lu.output j := by
  simp [LineUnit.output, LineUnit.setOutput, Vector.getElem_set, Fin.ext_iff]

theorem NotifyUnit.levelOf_setLevel (nu : NotifyUnit) (i j : SourceId) (l : BitVec 2) :
    (nu.setLevel i l).levelOf j = if i = j then l else nu.levelOf j := by
  simp [NotifyUnit.levelOf, NotifyUnit.setLevel, Vector.getElem_set, Fin.ext_iff]

section setters
variable (tt : TimerTable) (qe : QueueEngine) (lu : LineUnit)

@[simp] theorem TimerTable.timer_setTimer_self (i : TimerId) (r : Timer) : (tt.setTimer i r).timer i = r := by
  simp [TimerTable.timer_setTimer]

@[simp] theorem QueueEngine.queue_setQueue_self (i : QueueId) (r : QueueRec) : (qe.setQueue i r).queue i = r := by
  simp [QueueEngine.queue_setQueue]

@[simp] theorem QueueEngine.context_setContext_self (i : ContextId) (r : Context) :
    (qe.setContext i r).context i = r := by
  simp [QueueEngine.context_setContext]

@[simp] theorem LineUnit.input_setInput_self (i : LineId) (r : Input) : (lu.setInput i r).input i = r := by
  simp [LineUnit.input_setInput]

@[simp] theorem LineUnit.output_setOutput_self (i : OutputId) (r : Output) : (lu.setOutput i r).output i = r := by
  simp [LineUnit.output_setOutput]

@[simp] theorem QueueEngine.setQueue_free (i : QueueId) (r : QueueRec) : (qe.setQueue i r).free = qe.free := rfl
@[simp] theorem QueueEngine.setQueue_log (i : QueueId) (r : QueueRec) : (qe.setQueue i r).log = qe.log := rfl
@[simp] theorem QueueEngine.setQueue_contexts (i : QueueId) (r : QueueRec) :
    (qe.setQueue i r).contexts = qe.contexts := rfl
@[simp] theorem QueueEngine.setQueue_context (i : QueueId) (r : QueueRec) (c : ContextId) :
    (qe.setQueue i r).context c = qe.context c := rfl
@[simp] theorem QueueEngine.setContext_free (i : ContextId) (r : Context) : (qe.setContext i r).free = qe.free := rfl
@[simp] theorem QueueEngine.setContext_log (i : ContextId) (r : Context) : (qe.setContext i r).log = qe.log := rfl
@[simp] theorem QueueEngine.setContext_queues (i : ContextId) (r : Context) :
    (qe.setContext i r).queues = qe.queues := rfl
@[simp] theorem QueueEngine.setContext_queue (i : ContextId) (r : Context) (q : QueueId) :
    (qe.setContext i r).queue q = qe.queue q := rfl
@[simp] theorem LineUnit.setInput_outputs (i : LineId) (r : Input) : (lu.setInput i r).outputs = lu.outputs := rfl
@[simp] theorem LineUnit.setOutput_inputs (i : OutputId) (r : Output) : (lu.setOutput i r).inputs = lu.inputs := rfl
@[simp] theorem LineUnit.setOutput_input (i : OutputId) (r : Output) (n : LineId) :
    (lu.setOutput i r).input n = lu.input n := rfl
@[simp] theorem LineUnit.setInput_output (i : LineId) (r : Input) (o : OutputId) :
    (lu.setInput i r).output o = lu.output o := rfl

/-! One record replaced, every other as before. -/

theorem TimerTable.only_setTimer (i : TimerId) (r : Timer) : tt.Only i r (tt.setTimer i r) :=
  ⟨tt.timer_setTimer_self i r, fun _ hj => (tt.timer_setTimer _ _ _).trans (if_neg (Ne.symm hj))⟩

theorem QueueEngine.onlyQueue_setQueue (i : QueueId) (r : QueueRec) : qe.OnlyQueue i r (qe.setQueue i r) :=
  ⟨qe.queue_setQueue_self i r, fun _ hj => (qe.queue_setQueue _ _ _).trans (if_neg (Ne.symm hj))⟩

theorem QueueEngine.onlyContext_setContext (i : ContextId) (r : Context) : qe.OnlyContext i r (qe.setContext i r) :=
  ⟨qe.context_setContext_self i r, fun _ hj => (qe.context_setContext _ _ _).trans (if_neg (Ne.symm hj))⟩

theorem LineUnit.onlyInput_setInput (i : LineId) (r : Input) : lu.OnlyInput i r (lu.setInput i r) :=
  ⟨lu.input_setInput_self i r, fun _ hj => (lu.input_setInput _ _ _).trans (if_neg (Ne.symm hj)), fun _ => rfl⟩

theorem LineUnit.onlyOutput_setOutput (i : OutputId) (r : Output) : lu.OnlyOutput i r (lu.setOutput i r) :=
  ⟨lu.output_setOutput_self i r, fun _ hj => (lu.output_setOutput _ _ _).trans (if_neg (Ne.symm hj)), fun _ => rfl⟩

end setters

/-! ## FIFOs between blocks -/

/-- What a receiver takes is the head, sent in the receiver's own warm-reset period. -/
theorem receive_eq_some {α : Type} {r : Nat} {w rest : List (Sent α)} {x : α} :
    receive r w = some (x, rest) ↔ w = { epoch := r, item := x } :: rest := by
  cases w with
  | nil => simp [receive]
  | cons y ys =>
    obtain ⟨e, i⟩ := y
    simp only [receive]
    split <;> simp_all

/-- With no item, or the head not yet to be taken, nothing is received. -/
@[simp] theorem receive_nil {α : Type} (r : Nat) : receive r ([] : List (Sent α)) = none := rfl

@[simp] theorem receive_cons_self {α : Type} (r : Nat) (x : α) (rest : List (Sent α)) :
    receive r ({ epoch := r, item := x } :: rest) = some (x, rest) := by
  simp [receive]

/-- An item sent when no warm reset separates sender and receiver joins the tail. -/
@[simp] theorem send_same {α : Type} (e : Nat) (x : α) (w : List (Sent α)) :
    send e e x w = w ++ [{ epoch := e, item := x }] := by
  simp [send]

@[simp] theorem sendAll_nil {α : Type} (a b : Nat) (w : List (Sent α)) : sendAll a b [] w = w := by
  simp [sendAll]

theorem sendAll_singleton {α : Type} (a b : Nat) (x : α) (w : List (Sent α)) : sendAll a b [x] w = send a b x w := by
  simp [sendAll, send]

@[simp] theorem sendAll_same {α : Type} (e : Nat) (xs : List α) (w : List (Sent α)) :
    sendAll e e xs w = w ++ xs.map fun x => { epoch := e, item := x } := by
  simp [sendAll]

/-- What is in a FIFO after a sending was there before or is one of the items sent. -/
theorem mem_sendAll {α : Type} {a b : Nat} {xs : List α} {w : List (Sent α)} {y : Sent α}
    (h : y ∈ sendAll a b xs w) : y ∈ w ∨ (b ≤ a ∧ y.epoch = a ∧ y.item ∈ xs) := by
  unfold sendAll at h
  split at h
  · exact .inl h
  · rcases List.mem_append.1 h with h | h
    · exact .inl h
    · obtain ⟨x, hx, rfl⟩ := List.mem_map.1 h
      exact .inr ⟨by omega, rfl, hx⟩

theorem mem_boundary {α : Type} {b : Nat} {w : List (Sent α)} {y : Sent α} :
    y ∈ boundary b w ↔ y ∈ w ∧ b ≤ y.epoch := by
  simp [boundary]

/-! ## Events and commands -/

@[simp] theorem running_high {s t : State} (h : s.resetnLow = false) : running s t = .next t := by
  simp [running, h]

@[simp] theorem running_low {s t : State} (h : s.resetnLow = true) : running s t = .next s := by
  simp [running, h]

@[simp] theorem hostWrite_high {s t : State} (h : s.resetnLow = false) : hostWrite s t = .next (t.withBus .idle) := by
  simp [hostWrite, State.written, h]

@[simp] theorem hostWrite_low {s t : State} (h : s.resetnLow = true) : hostWrite s t = .next (s.withBus .idle) := by
  simp [hostWrite, State.written, h]

/-- While RESETN is high an event leads where its meaning says. -/
theorem running_eq_next {s t u : State} (h : running s t = .next u) :
    (s.resetnLow = true ∧ u = s) ∨ (s.resetnLow = false ∧ u = t) := by
  unfold running at h
  cases hl : s.resetnLow <;> simp_all

/-- Everything a write access of the host can do. -/
theorem hostWrite_eq_next {s t u : State} (h : hostWrite s t = .next u) :
    (s.resetnLow = true ∧ u = s.withBus .idle) ∨ (s.resetnLow = false ∧ u = t.withBus .idle) := by
  have h := (Host.Outcome.next.inj h).symm
  unfold State.written at h
  cases hl : s.resetnLow <;> simp_all

/-- An owner that has a command to take answers with its rule. -/
theorem takeCommand_some {code : Word} {f : Words6 → State → Completion × State} {s : State} {p : Words6}
    (h : s.handedOver code = some p) :
    takeCommand code f s = (f p s).2.withCp ((f p s).2.cp.returned (f p s).1) := by
  simp [takeCommand, h]

theorem takeCommand_none {code : Word} {f : Words6 → State → Completion × State} {s : State}
    (h : s.handedOver code = none) : takeCommand code f s = s := by
  simp [takeCommand, h]

/-- The event of a command that its owner takes: the next state is the one its rule leaves, with the completion on its
way to the CP. -/
theorem command_next {code : Word} {p : Words6} {s u : State} {c : Completion}
    {f : Words6 → State → Completion × State} (h : Taken code p s) (hf : f p s = (c, u)) (hcp : u.cp = s.cp) :
    running s (takeCommand code f s) = .next (u.withCp (s.cp.returned c)) := by
  rw [running_high h.1, takeCommand_some h.2, hf, hcp]

/-- A command's next state answers it. -/
theorem answered_withCp {c : Completion} {bs : List Block} {s u : State} (h : sameExcept (.cp :: bs) s u) :
    Answered c bs s (u.withCp (s.cp.returned c)) :=
  ⟨rfl, by simpa [sameExcept] using h⟩

/-- Everything a command's taking can do: nothing, or its rule on the captured words. -/
theorem takeCommand_cases (code : Word) (f : Words6 → State → Completion × State) (s : State) :
    takeCommand code f s = s ∨
      ∃ p, s.handedOver code = some p ∧
        takeCommand code f s = (f p s).2.withCp ((f p s).2.cp.returned (f p s).1) := by
  cases h : s.handedOver code with
  | none => exact .inl (takeCommand_none h)
  | some p => exact .inr ⟨p, rfl, takeCommand_some h⟩

/-- What a command handed over says of the slot (R140, R144). -/
theorem handedOver_eq_some {s : State} {code : Word} {p : Words6} :
    s.handedOver code = some p ↔
      ∃ r, s.cp.slot = some r ∧ r.stage = .handedOver ∧ r.code = code ∧
        s.resets.taken r.owner = s.resets.cp ∧ r.params = p := by
  unfold State.handedOver
  cases s.cp.slot with
  | none => simp
  | some r =>
    simp only [Option.some.injEq, exists_eq_left']
    split <;> simp_all

section returned
variable (cp : CommandPort) (c : Completion)
@[simp] theorem CommandPort.returned_params : (cp.returned c).params = cp.params := rfl
@[simp] theorem CommandPort.returned_reply : (cp.returned c).reply = cp.reply := rfl
@[simp] theorem CommandPort.returned_result : (cp.returned c).result = cp.result := rfl
@[simp] theorem CommandPort.returned_refused : (cp.returned c).refused = cp.refused := rfl
@[simp] theorem CommandPort.returned_lastCode : (cp.returned c).lastCode = cp.lastCode := rfl
@[simp] theorem CommandPort.returned_inten : (cp.returned c).inten = cp.inten := rfl
@[simp] theorem CommandPort.returned_nowLatch : (cp.returned c).nowLatch = cp.nowLatch := rfl
@[simp] theorem CommandPort.returned_slot :
    (cp.returned c).slot = cp.slot.map fun r => { r with stage := .completing c } := rfl
end returned

end Sys2Proof.Machine
end

