-- ==== Sys2Proof/Laws/Blocks.lean ====
section
/-! SUPPORT. What the block-wide operations (warm resets, the tick and the first samples at the Line Unit) do to one
record of a bank. -/

namespace Sys2Proof.Machine

@[simp] theorem TimerTable.timer_warm (tt : TimerTable) (i : TimerId) : tt.warm.timer i = (tt.timer i).warm := by
  simp [TimerTable.timer, TimerTable.warm]

@[simp] theorem QueueEngine.queue_warm (qe : QueueEngine) (q : QueueId) : qe.warm.queue q = (qe.queue q).warm := by
  simp [QueueEngine.queue, QueueEngine.warm]

@[simp] theorem QueueEngine.context_warm (qe : QueueEngine) (c : ContextId) :
    qe.warm.context c = (qe.context c).toIdle := by
  simp [QueueEngine.context, QueueEngine.warm]

@[simp] theorem QueueEngine.warm_free (qe : QueueEngine) : qe.warm.free = Config.cells := rfl
@[simp] theorem QueueEngine.warm_log (qe : QueueEngine) : qe.warm.log = [] := rfl

@[simp] theorem LineUnit.input_warm (lu : LineUnit) (n : LineId) : lu.warm.input n = (lu.input n).warm := by
  simp [LineUnit.input, LineUnit.warm]

@[simp] theorem LineUnit.output_warm (lu : LineUnit) (o : OutputId) : lu.warm.output o = Output.cold := by
  simp [LineUnit.output, LineUnit.warm]

@[simp] theorem LineUnit.output_tick (lu : LineUnit) (o : OutputId) : lu.tick.output o = (lu.output o).tick := by
  simp [LineUnit.output, LineUnit.tick]

@[simp] theorem LineUnit.input_tick (lu : LineUnit) (n : LineId) : lu.tick.input n = lu.input n := rfl

/-- What the first samples of a list of inputs leave: the level of each whose first sample was due; no output changes. -/
theorem LineUnit.foldl_firstSample (levels : BitVec 8) (l : List LineId) (lu : LineUnit) (hl : l.Nodup) :
    (∀ n, (l.foldl (LineUnit.firstSample levels) lu).input n =
      if n ∈ l ∧ (lu.input n).firstSampleDue = true then
        { lu.input n with level := sampledLevel levels n, firstSampleDue := false }
      else lu.input n) ∧
    ∀ o, (l.foldl (LineUnit.firstSample levels) lu).output o = lu.output o := by
  induction l generalizing lu with
  | nil => simp
  | cons a l ih =>
    obtain ⟨ha, hl⟩ := List.nodup_cons.1 hl
    obtain ⟨h1, h2⟩ := ih (LineUnit.firstSample levels lu a) hl
    refine ⟨fun n => ?_, fun o => ?_⟩
    · rw [List.foldl_cons, h1]
      by_cases hd : (lu.input a).firstSampleDue = true
      · by_cases han : a = n
        · subst han; simp [LineUnit.firstSample, LineUnit.setInputLevel, hd, ha]
        · have hna : n ≠ a := Ne.symm han
          simp [LineUnit.firstSample, LineUnit.setInputLevel, LineUnit.input_setInput, hd, han, hna]
      · by_cases han : a = n
        · subst han; simp [LineUnit.firstSample, hd]
        · have hna : n ≠ a := Ne.symm han
          simp [LineUnit.firstSample, hd, hna]
    · rw [List.foldl_cons, h2]
      unfold LineUnit.firstSample LineUnit.setInputLevel
      split <;> rfl

theorem LineUnit.input_firstSamples (lu : LineUnit) (levels : BitVec 8) (n : LineId) :
    (lu.firstSamples levels).input n =
      if (lu.input n).firstSampleDue = true then
        { lu.input n with level := sampledLevel levels n, firstSampleDue := false }
      else lu.input n := by
  have hmem : ∀ n : LineId, n ∈ ([0, 1, 2, 3, 4, 5, 6, 7] : List LineId) := by decide
  rw [LineUnit.firstSamples, (LineUnit.foldl_firstSample levels _ lu (by decide)).1]
  simp only [hmem, true_and]

theorem LineUnit.output_firstSamples (lu : LineUnit) (levels : BitVec 8) (o : OutputId) :
    (lu.firstSamples levels).output o = lu.output o :=
  (LineUnit.foldl_firstSample levels _ lu (by decide)).2 o

/-! ## The level words -/

/-- A bit of the word that a bank of records gives, record n in bit n. -/
theorem getLsbD_bank {α : Type} {n : Nat} (f : α → Bool) (v : Vector α n) (m k : Nat) (hn : n ≤ m) :
    ((BitVec.ofBoolListLE (v.toArray.toList.map f)).setWidth m).getLsbD k = if h : k < n then f v[k] else false := by
  rw [BitVec.getLsbD_setWidth, BitVec.getLsbD_ofBoolListLE]
  by_cases h : k < n
  · simp [h, show k < m by omega]
  · simp [h]

theorem LineUnit.outputLevels_getLsbD (lu : LineUnit) (o : OutputId) :
    lu.outputLevels.getLsbD o.val = levelBit (lu.output o).level := by
  rw [LineUnit.outputLevels, getLsbD_bank _ _ _ _ (Nat.le_refl 4)]
  simp [LineUnit.output]

theorem LineUnit.pendingMarks_getLsbD (lu : LineUnit) (o : OutputId) :
    lu.pendingMarks.getLsbD o.val = (lu.output o).pulsePending := by
  rw [LineUnit.pendingMarks, getLsbD_bank _ _ _ _ (Nat.le_refl 4)]
  simp [LineUnit.output]

theorem LineUnit.inputLevels_getLsbD (lu : LineUnit) (n : LineId) :
    lu.inputLevels.getLsbD n.val = levelBit (lu.input n).level := by
  rw [LineUnit.inputLevels, getLsbD_bank _ _ _ _ (Nat.le_refl 8)]
  simp [LineUnit.input]

end Sys2Proof.Machine
end

