-- ==== Sys2Proof/Laws/Exec.lean ====
section
/-! SUPPORT. Which blocks' records each event can change, said once for all events: a property of one block's record need
only be looked at in the events that touch that block. -/

-- One theorem at a time keeps the number of threads low.
set_option Elab.async false

namespace Sys2Proof.Machine

/-- Only the records of the blocks `bs` differ (the items between blocks, the counts of warm resets and the pins apart). -/
def Touches (bs : List Block) (s t : State) : Prop :=
  (Block.tb ∈ bs ∨ t.tb = s.tb) ∧ (Block.du ∈ bs ∨ t.du = s.du) ∧ (Block.tt ∈ bs ∨ t.tt = s.tt) ∧
  (Block.qe ∈ bs ∨ t.qe = s.qe) ∧ (Block.lu ∈ bs ∨ t.lu = s.lu) ∧ (Block.nu ∈ bs ∨ t.nu = s.nu) ∧
  (Block.cp ∈ bs ∨ t.cp = s.cp)

theorem Touches.refl (bs : List Block) (s : State) : Touches bs s s := by
  simp [Touches]

theorem Touches.trans {bs : List Block} {s t u : State} (h : Touches bs s t) (k : Touches bs t u) : Touches bs s u := by
  obtain ⟨h1, h2, h3, h4, h5, h6, h7⟩ := h
  obtain ⟨k1, k2, k3, k4, k5, k6, k7⟩ := k
  refine ⟨?_, ?_, ?_, ?_, ?_, ?_, ?_⟩
  · exact h1.elim .inl fun h => k1.imp_right fun k => k.trans h
  · exact h2.elim .inl fun h => k2.imp_right fun k => k.trans h
  · exact h3.elim .inl fun h => k3.imp_right fun k => k.trans h
  · exact h4.elim .inl fun h => k4.imp_right fun k => k.trans h
  · exact h5.elim .inl fun h => k5.imp_right fun k => k.trans h
  · exact h6.elim .inl fun h => k6.imp_right fun k => k.trans h
  · exact h7.elim .inl fun h => k7.imp_right fun k => k.trans h

theorem Touches.mono {bs cs : List Block} {s t : State} (h : Touches bs s t) (hs : ∀ b ∈ bs, b ∈ cs) : Touches cs s t := by
  obtain ⟨h1, h2, h3, h4, h5, h6, h7⟩ := h
  exact ⟨h1.imp_left (hs _), h2.imp_left (hs _), h3.imp_left (hs _), h4.imp_left (hs _), h5.imp_left (hs _),
    h6.imp_left (hs _), h7.imp_left (hs _)⟩

section setters
variable (s : State)
theorem touches_withWires (w : Wires) : Touches [] s (s.withWires w) := Touches.refl _ _
theorem touches_withBus (x : BusAccess) {bs : List Block} : Touches bs s (s.withBus x) := Touches.refl _ _
theorem touches_withResetnLow (b : Bool) {bs : List Block} : Touches bs s (s.withResetnLow b) := Touches.refl _ _
theorem touches_withTb (x : TimeBase) : Touches [.tb] s (s.withTb x) := by simp [Touches]
theorem touches_withDu (x : DeadlineUnit) : Touches [.du] s (s.withDu x) := by simp [Touches]
theorem touches_withTt (x : TimerTable) : Touches [.tt] s (s.withTt x) := by simp [Touches]
theorem touches_withQe (x : QueueEngine) : Touches [.qe] s (s.withQe x) := by simp [Touches]
theorem touches_withLu (x : LineUnit) : Touches [.lu] s (s.withLu x) := by simp [Touches]
theorem touches_withNu (x : NotifyUnit) : Touches [.nu] s (s.withNu x) := by simp [Touches]
theorem touches_withCp (x : CommandPort) : Touches [.cp] s (s.withCp x) := by simp [Touches]
theorem touches_commitDu (o : DuOut) : Touches [.du] s (s.commitDu o) := touches_withDu s o.du
theorem touches_commitTt (o : TtOut) : Touches [.tt] s (s.commitTt o) := touches_withTt s o.tt
theorem touches_commitQe (o : QeOut) : Touches [.qe] s (s.commitQe o) := touches_withQe s o.qe
theorem touches_commitLu (o : LuOut) : Touches [.lu] s (s.commitLu o) := touches_withLu s o.lu
theorem touches_complete (c : Completion) : Touches [.cp] s (s.complete c) := touches_withCp s _
theorem touches_warmTb (e : Nat) : Touches [.tb] s (s.warmTb e) := touches_withTb s _
theorem touches_warmDu (e : Nat) : Touches [.du] s (s.warmDu e) := touches_withDu s _
theorem touches_warmTt (e : Nat) : Touches [.tt] s (s.warmTt e) := touches_withTt s _
theorem touches_warmQe (e : Nat) : Touches [.qe] s (s.warmQe e) := touches_withQe s _
theorem touches_warmLu (e : Nat) : Touches [.lu] s (s.warmLu e) := touches_withLu s _
theorem touches_warmNu (e : Nat) : Touches [.nu] s (s.warmNu e) := touches_withNu s _
end setters

theorem touches_ite {bs : List Block} {s a b : State} {c : Prop} [Decidable c] (ha : Touches bs s a) (hb : Touches bs s b) :
    Touches bs s (if c then a else b) := by
  split
  · exact ha
  · exact hb

/-- A command touches the CP and what its rule touches. -/
theorem touches_takeCommand {bs : List Block} {code : Word} {f : Words6 → State → Completion × State} {s : State}
    (h : ∀ p, Touches bs s (f p s).2) : Touches (.cp :: bs) s (takeCommand code f s) := by
  rcases takeCommand_cases code f s with e | ⟨p, _, e⟩
  · rw [e]; exact Touches.refl _ _
  · rw [e]
    exact ((h p).mono fun _ => List.mem_cons_of_mem _).trans ((touches_withCp _ _).mono (by simp))

theorem touches_ttCommand (f : Words6 → TimerTable → Completion × TtOut) (p : Words6) (s : State) :
    Touches [.tt] s (ttCommand f p s).2 := touches_commitTt s _
theorem touches_qeCommand (f : Words6 → Word → QueueEngine → Completion × QeOut) (p : Words6) (s : State) :
    Touches [.qe] s (qeCommand f p s).2 := touches_commitQe s _
theorem touches_luCommand (f : Words6 → LineUnit → Completion × LineUnit) (p : Words6) (s : State) :
    Touches [.lu] s (luCommand f p s).2 := touches_withLu s _

theorem touches_risingEdge (s : State) : Touches [.tb] s s.risingEdge :=
  touches_ite (touches_ite (touches_withTb s _) (touches_withTb s _)) (Touches.refl _ _)

theorem touches_tickApplication (s : State) : Touches [.du] s s.tickApplication := by
  unfold State.tickApplication
  split
  · exact Touches.refl _ _
  · exact touches_commitDu s _

theorem touches_requestArrival (s : State) (k : LinkRequest → Bool) (x : RequestSender) :
    Touches [.du] s (s.requestArrival k x) := by
  unfold State.requestArrival
  split
  · exact Touches.refl _ _
  · exact touches_ite (touches_withDu s _) (Touches.refl _ _)

theorem touches_takePost (s : State) (x : PostSender) : Touches [.qe] s (s.takePost x) := by
  unfold State.takePost
  split
  · exact Touches.refl _ _
  · exact touches_commitQe s _

theorem touches_takeQueueSignal (s : State) (k : QueueSignal → Bool) : Touches [.nu] s (s.takeQueueSignal k) := by
  unfold State.takeQueueSignal
  split
  · exact Touches.refl _ _
  · exact touches_ite (touches_withNu s _) (Touches.refl _ _)

theorem touches_logpop (s : State) : Touches [.qe] s s.logpop := touches_withQe s _

theorem touches_duUpToDate (s : State) : Touches [.du, .cp] s s.duUpToDate :=
  touches_ite ((touches_warmDu s _).mono (by simp)) (Touches.refl _ _)

theorem touches_readNowlo (s : State) : Touches [.du, .cp] s s.readNowlo := (touches_withCp s _).mono (by simp)

theorem touches_qeUpToDate (s : State) : Touches [.qe] s s.qeUpToDate :=
  touches_ite (touches_warmQe s _) (Touches.refl _ _)

theorem touches_nuUpToDate (s : State) : Touches [.nu] s s.nuUpToDate :=
  touches_ite (touches_warmNu s _) (Touches.refl _ _)

theorem touches_flagWrite (s : State) (r : FlagReg) (w : Word) : Touches [.nu] s (s.flagWrite r w) :=
  (touches_nuUpToDate s).trans (touches_withNu _ _)

theorem touches_controlWrite (s : State) (w : Word) : Touches [.cp, .nu] s (s.controlWrite w) := by
  have hf : Touches [.cp, .nu] s (s.followInten w) :=
    (touches_ite (Touches.refl _ _) (touches_nuUpToDate s)).mono (by simp)
  have hc : ∀ x, Touches [.cp, .nu] s ((s.followInten w).withCp x) := fun x =>
    hf.trans ((touches_withCp _ x).mono (by simp))
  exact touches_ite (hc _) (hc _)

theorem touches_takeNop (s : State) : Touches [.cp] s s.takeNop := by
  unfold State.takeNop
  split
  · exact Touches.refl _ _
  · exact touches_ite (touches_complete s _) (Touches.refl _ _)

theorem touches_takeUnknown (s : State) : Touches [.cp] s s.takeUnknown := by
  unfold State.takeUnknown
  split
  · exact Touches.refl _ _
  · exact touches_ite (Touches.refl _ _) (touches_complete s _)

theorem touches_takeCompletion (s : State) : Touches [.cp] s s.takeCompletion := by
  unfold State.takeCompletion
  split
  · exact Touches.refl _ _
  · exact touches_complete s _

theorem touches_writeWord (s : State) (a : BitVec 4) (w : Word) : Touches [.cp, .nu] s (s.writeWord a w) := by
  have hc : ∀ x, Touches [.cp, .nu] s (s.withCp x) := fun x => (touches_withCp s x).mono (by simp)
  have hf : ∀ r, Touches [.cp, .nu] s (s.flagWrite r w) := fun r => (touches_flagWrite s r w).mono (by simp)
  have hw : Touches [.cp, .nu] s (s.controlWrite w) := touches_controlWrite s w
  unfold State.writeWord
  split <;> first | exact hc _ | exact hf _ | exact hw

/-- The blocks whose records an event can change. -/
def touchedBy : Instr → List Block
  | .tbTick | .tbclkRisingEdge | .tbWarmReset => [.tb]
  | .tickArrival | .tickApplication | .entryFallsDue | .relinkWalkStart | .walkEnd | .linkRequest _
  | .unlinkRequest _ | .reloadRequest _ | .takeLink | .takeUnlink | .takeReload | .duWarmReset => [.du]
  | .expiryNotice | .retriggerRequest | .ttWarmReset => [.tt]
  | .post _ | .timeoutNotice | .logpopRead | .qeWarmReset => [.qe]
  | .edge _ _ | .round _ _ | .outputAction | .luTick | .luWarmReset | .resetnRise _ => [.lu]
  | .doneSignal | .slipSignal | .levelSignal | .dropSignal | .flagWrite _ _ | .nuWarmReset => [.nu]
  | .nowloRead => [.du, .cp]
  | .commandWrite _ | .commandCompletion | .nop | .unknownCode | .statusWrite _ | .paramWrite _ _
  | .tmrRead | .ctxRead | .tbRead => [.cp]
  | .intenWrite _ | .warmReset _ | .registerWrite _ _ => [.cp, .nu]
  | .tbSetup | .tbRun | .tbHalt => [.cp, .tb]
  | .tmrDefine | .tmrArm | .tmrDisarm | .tmrRetune | .tmrRelease => [.cp, .tt]
  | .qSetup | .qSend | .qTake | .qPurge | .qRead | .ctxSetup | .ctxWait | .ctxAbandon | .ctxCollect => [.cp, .qe]
  | .lnSetup | .lnDrive | .lnRead => [.cp, .lu]
  | .ntLevel => [.cp, .nu]
  | .coldReset => [.tb, .du, .tt, .qe, .lu, .nu, .cp]

theorem touches_running {bs : List Block} {s u t : State} (h : Touches bs s u) (e : running s u = .next t) :
    Touches bs s t := by
  rcases running_eq_next e with ⟨_, rfl⟩ | ⟨_, rfl⟩
  · exact Touches.refl _ _
  · exact h

theorem touches_hostWrite {bs : List Block} {s u t : State} (h : Touches bs s u) (e : hostWrite s u = .next t) :
    Touches bs s t := by
  rw [← Host.Outcome.next.inj e]
  exact (touches_ite (Touches.refl _ _) h).trans (touches_withBus _ _)

/-- Every event changes the records of the blocks that `touchedBy` names, and no other. -/
theorem exec_touches {i : Instr} {s t : State} (e : exec i s = .next t) : Touches (touchedBy i) s t := by
  cases i with
  | tbTick => exact touches_running (touches_ite (touches_risingEdge s) (Touches.refl _ _)) e
  | tbclkRisingEdge => exact touches_running (touches_risingEdge s) e
  | tbWarmReset => exact touches_running (touches_ite (touches_warmTb s _) (Touches.refl _ _)) e
  | tickArrival =>
    refine touches_running ?_ e
    unfold State.tickArrival
    split
    · exact Touches.refl _ _
    · exact touches_commitDu s _
  | tickApplication => exact touches_running (touches_tickApplication s) e
  | entryFallsDue => exact touches_running (touches_ite (touches_tickApplication s) (Touches.refl _ _)) e
  | relinkWalkStart => exact touches_running (touches_withDu s _) e
  | walkEnd => exact touches_running (touches_withDu s _) e
  | linkRequest x => exact touches_running (touches_requestArrival s _ x) e
  | unlinkRequest x => exact touches_running (touches_requestArrival s _ x) e
  | reloadRequest x => exact touches_running (touches_requestArrival s _ x) e
  | takeLink => exact touches_running (touches_withDu s _) e
  | takeUnlink => exact touches_running (touches_withDu s _) e
  | takeReload => exact touches_running (touches_withDu s _) e
  | duWarmReset => exact touches_running (touches_ite (touches_warmDu s _) (Touches.refl _ _)) e
  | expiryNotice =>
    refine touches_running ?_ e
    unfold State.expiryNotice
    split
    · exact Touches.refl _ _
    · exact touches_commitTt s _
  | retriggerRequest =>
    refine touches_running ?_ e
    unfold State.retriggerRequest
    split
    · exact Touches.refl _ _
    · exact touches_commitTt s _
  | ttWarmReset => exact touches_running (touches_ite (touches_warmTt s _) (Touches.refl _ _)) e
  | post x => exact touches_running (touches_takePost s x) e
  | timeoutNotice =>
    refine touches_running ?_ e
    unfold State.timeoutNotice
    split
    · exact Touches.refl _ _
    · exact touches_commitQe s _
  | logpopRead =>
    have e := Host.Outcome.next.inj e
    rw [← e]
    exact touches_ite (Touches.refl _ _) ((touches_qeUpToDate s).trans (touches_logpop _))
  | qeWarmReset => exact touches_running (touches_ite (touches_warmQe s _) (Touches.refl _ _)) e
  | edge n l => exact touches_running (touches_commitLu s _) e
  | round n l => exact touches_running (touches_ite (touches_commitLu s _) (Touches.refl _ _)) e
  | outputAction =>
    refine touches_running ?_ e
    unfold State.outputAction
    split
    · exact Touches.refl _ _
    · exact touches_withLu s _
  | luTick =>
    refine touches_running ?_ e
    unfold State.luTick
    split
    · exact Touches.refl _ _
    · exact touches_withLu s _
  | luWarmReset => exact touches_running (touches_ite (touches_warmLu s _) (Touches.refl _ _)) e
  | resetnRise levels =>
    have e := Host.Outcome.next.inj e
    rw [← e]
    exact (touches_withLu s _).trans (touches_withResetnLow _ false)
  | doneSignal =>
    refine touches_running ?_ e
    unfold State.takeDone
    split
    · exact Touches.refl _ _
    · exact touches_withNu s _
  | slipSignal =>
    refine touches_running ?_ e
    unfold State.takeSlip
    split
    · exact Touches.refl _ _
    · exact touches_withNu s _
  | levelSignal => exact touches_running (touches_takeQueueSignal s _) e
  | dropSignal => exact touches_running (touches_takeQueueSignal s _) e
  | flagWrite r w => exact touches_hostWrite (touches_flagWrite s r w) e
  | nuWarmReset => exact touches_running (touches_ite (touches_warmNu s _) (Touches.refl _ _)) e
  | nowloRead =>
    have e := Host.Outcome.next.inj e
    rw [← e]
    exact touches_ite (Touches.refl _ _) ((touches_duUpToDate s).trans (touches_readNowlo _))
  | commandWrite w => exact touches_hostWrite (touches_withCp s _) e
  | commandCompletion => exact touches_running (touches_takeCompletion s) e
  | nop => exact touches_running (touches_takeNop s) e
  | unknownCode => exact touches_running (touches_takeUnknown s) e
  | statusWrite w => exact touches_hostWrite (touches_withCp s _) e
  | paramWrite i w => exact touches_hostWrite (touches_withCp s _) e
  | intenWrite w => exact touches_hostWrite (touches_controlWrite s w) e
  | warmReset w => exact touches_hostWrite (touches_controlWrite s w) e
  | registerWrite a w => exact touches_hostWrite (touches_writeWord s a w) e
  | coldReset => simp [touchedBy, Touches]
  | tmrDefine => exact touches_running (touches_takeCommand fun p => touches_ttCommand _ p s) e
  | tmrArm => exact touches_running (touches_takeCommand fun p => touches_ttCommand _ p s) e
  | tmrDisarm => exact touches_running (touches_takeCommand fun p => touches_ttCommand _ p s) e
  | tmrRetune => exact touches_running (touches_takeCommand fun p => touches_ttCommand _ p s) e
  | tmrRelease => exact touches_running (touches_takeCommand fun p => touches_ttCommand _ p s) e
  | tmrRead =>
    refine touches_running (touches_takeCommand (bs := []) fun p => ?_) e
    unfold tmrRead
    split <;> exact Touches.refl _ _
  | qSetup => exact touches_running (touches_takeCommand fun p => touches_qeCommand _ p s) e
  | qSend => exact touches_running (touches_takeCommand fun p => touches_qeCommand _ p s) e
  | qTake => exact touches_running (touches_takeCommand fun p => touches_qeCommand _ p s) e
  | qPurge => exact touches_running (touches_takeCommand fun p => touches_qeCommand _ p s) e
  | qRead => exact touches_running (touches_takeCommand fun p => touches_qeCommand _ p s) e
  | ctxSetup => exact touches_running (touches_takeCommand fun p => touches_qeCommand _ p s) e
  | ctxWait => exact touches_running (touches_takeCommand fun p => touches_qeCommand _ p s) e
  | ctxAbandon => exact touches_running (touches_takeCommand fun p => touches_qeCommand _ p s) e
  | ctxCollect => exact touches_running (touches_takeCommand fun p => touches_qeCommand _ p s) e
  | ctxRead =>
    refine touches_running (touches_takeCommand (bs := []) fun p => ?_) e
    unfold ctxRead
    split <;> exact Touches.refl _ _
  | lnSetup => exact touches_running (touches_takeCommand fun p => touches_luCommand _ p s) e
  | lnDrive => exact touches_running (touches_takeCommand fun p => touches_luCommand _ p s) e
  | lnRead => exact touches_running (touches_takeCommand fun p => touches_luCommand _ p s) e
  | tbSetup =>
    refine touches_running (touches_takeCommand (bs := [.tb]) fun p => ?_) e
    unfold tbSetup
    split
    · exact Touches.refl _ _
    · exact touches_withTb s _
  | tbRun => exact touches_running (touches_takeCommand fun p => touches_withTb s _) e
  | tbHalt => exact touches_running (touches_takeCommand fun p => touches_withTb s _) e
  | tbRead => exact touches_running (touches_takeCommand fun p => Touches.refl _ _) e
  | ntLevel =>
    refine touches_running (touches_takeCommand (bs := [.nu]) fun p => ?_) e
    unfold ntLevel
    split
    · exact Touches.refl _ _
    · split
      · exact Touches.refl _ _
      · exact touches_withNu s _

end Sys2Proof.Machine
end

