-- ==== Sys2Proof/Laws/Flags.lean ====
section
/-! SUPPORT. The notification flags bit by bit (R127, R163), and the source that the vector names (R136). -/

namespace Sys2Proof.Machine

/-- Flag k: DONE, LOG, SLIP, then the LEVEL flags, then the DROP flags. -/
theorem NotifyUnit.flags_getLsbD (nu : NotifyUnit) (log : Bool) (k : Nat) :
    (nu.flags log).getLsbD k =
      if k = 0 then nu.done
      else if k = 1 then log
      else if k = 2 then nu.slip
      else if k < 11 then nu.level.getLsbD (k - 3)
      else nu.drop.getLsbD (k - 11) := by
  unfold NotifyUnit.flags
  simp only [BitVec.getLsbD_append, BitVec.getLsbD_ofBool]
  grind

theorem State.logFlag_eq (s : State) : s.logFlag = decide (s.qe.log ≠ []) := by
  unfold State.logFlag QueueEngine.logNotEmpty
  cases s.qe.log <;> simp

theorem mem_allSources (n : SourceId) : n ∈ allSources := by
  revert n; decide

/-- A search of the sources finds the lowest that qualifies. -/
theorem find_allSources {P : SourceId → Bool} {n : SourceId} (h : P n = true) (hmin : ∀ j, P j = true → n ≤ j) :
    allSources.find? P = some n := by
  have hs : allSources.Pairwise (· < ·) := by decide
  have hm := mem_allSources n
  generalize allSources = l at hs hm
  induction l with
  | nil => simp at hm
  | cons a l ih =>
    obtain ⟨hs1, hs2⟩ := List.pairwise_cons.1 hs
    rw [List.find?_cons]
    cases hP : P a with
    | true =>
      have ha := hmin a hP
      rcases List.mem_cons.1 hm with rfl | h2
      · rfl
      · exact absurd (hs1 n h2) (not_lt.2 ha)
    | false =>
      rcases List.mem_cons.1 hm with rfl | h2
      · rw [h] at hP; cases hP
      · exact ih hs2 h2

theorem find_allSources_none {P : SourceId → Bool} (h : ∀ j, P j = false) : allSources.find? P = none := by
  simp [List.find?_eq_none, h]

theorem NotifyUnit.firstAt_ne_none {nu : NotifyUnit} {log : Bool} {n : SourceId} (h : nu.pending log n = true) :
    nu.firstAt log (nu.levelOf n) ≠ none := by
  intro hc
  have := List.find?_eq_none.1 hc n (mem_allSources n)
  simp [h] at this

/-- The vector names a source whenever one is pending. -/
theorem NotifyUnit.vector_ne_none {nu : NotifyUnit} {log : Bool} {n : SourceId} (h : nu.pending log n = true) :
    nu.vector log ≠ none := by
  have hf := nu.firstAt_ne_none h
  have hl : ∀ l : BitVec 2, (l != 0) = true → l = 1 ∨ l = 2 ∨ l = 3 := by decide
  simp only [NotifyUnit.pending, Bool.and_eq_true] at h
  unfold NotifyUnit.vector
  rcases hl _ h.2 with hl | hl | hl <;> rw [hl] at hf <;> simp_all

theorem vectorWord_ne_zero : ∀ (n : SourceId) (l : BitVec 2), place 0 (BitVec.ofNat 5 (n.val + 1)) ||| place 8 l ≠ 0 := by
  decide

/-- VECTOR reads 0 only while the interrupt condition is false (R137). -/
theorem NotifyUnit.condition_of_vectorWord {nu : NotifyUnit} {log : Bool} (h : nu.vectorWord log = 0) :
    nu.condition log = false := by
  have hv : nu.vector log = none := by
    unfold NotifyUnit.vectorWord at h
    cases hv : nu.vector log with
    | none => rfl
    | some n => rw [hv] at h; exact absurd h (vectorWord_ne_zero n _)
  refine List.any_eq_false.2 fun n _ hp => ?_
  exact nu.vector_ne_none hp hv

/-- With no warm reset still to be taken at the DU, the QE or the NU, accesses find the block as it stands. -/
theorem State.duUpToDate_eq {s : State} (h : s.resets.cp ≤ s.resets.du) : s.duUpToDate = s := by
  simp [State.duUpToDate, Nat.not_lt.2 h]

theorem State.nuUpToDate_eq {s : State} (h : s.resets.cp ≤ s.resets.nu) : s.nuUpToDate = s := by
  simp [State.nuUpToDate, Nat.not_lt.2 h]

theorem State.qeUpToDate_eq {s : State} (h : s.resets.cp ≤ s.resets.qe) : s.qeUpToDate = s := by
  simp [State.qeUpToDate, Nat.not_lt.2 h]

end Sys2Proof.Machine
end

