-- ==== Sys2Proof/Laws/Bus.lean ====
section
/-! SUPPORT. What a change of the bus pins can do, and when the part drives D15 to D0 (R160, R170). -/

namespace Sys2Proof.Machine

variable {s : State} {p : BusPins}

/-- The data bus is driven only during a read access, with that access's word. -/
theorem State.dataBus_eq_some {w : Word} : s.dataBus = some w ↔ s.bus = .read w := by
  unfold State.dataBus
  cases s.bus <;> simp

/-- While chip select is deasserted strobes have no effect: a write whose strobe is deasserted together with chip select is
taken, any other access in progress ends. -/
theorem State.busPins_of_csn (h : p.csn = true) :
    s.busPins p = if p.wrn = true ∧ s.bus = .write then s.endWrite p else s.withBus .idle := by
  have hp : p.strobes = .off := by simp only [BusPins.strobes, h]
  unfold State.busPins
  rw [hp]
  cases s.bus <;> simp

/-- Both strobes together are neither a read nor a write. -/
theorem State.busPins_of_both (hc : p.csn = false) (hr : p.rdn = false) (hw : p.wrn = false) :
    s.busPins p = s.withBus .neither := by
  have hp : p.strobes = .both := by simp only [BusPins.strobes, hc, hr, hw]
  unfold State.busPins
  rw [hp]

/-- The read strobe alone, in each state of the access. -/
theorem State.busPins_of_read (hc : p.csn = false) (hr : p.rdn = false) (hw : p.wrn = true) :
    s.busPins p = match s.bus with
      | .idle => s.beginRead p.address
      | .read _ => s
      | .write => (s.endWrite p).beginRead p.address
      | .neither => s := by
  have hp : p.strobes = .read := by simp only [BusPins.strobes, hc, hr, hw]
  unfold State.busPins
  rw [hp]
  cases s.bus <;> rfl

/-- The write strobe alone, in each state of the access. -/
theorem State.busPins_of_write (hc : p.csn = false) (hr : p.rdn = true) (hw : p.wrn = false) :
    s.busPins p = match s.bus with
      | .neither => s
      | .idle | .read _ | .write => s.withBus .write := by
  have hp : p.strobes = .write := by simp only [BusPins.strobes, hc, hr, hw]
  unfold State.busPins
  rw [hp]
  cases s.bus <;> rfl

/-- No strobe, with chip select asserted: a write access is taken, any other ends. -/
theorem State.busPins_of_off (hc : p.csn = false) (hr : p.rdn = true) (hw : p.wrn = true) :
    s.busPins p = match s.bus with
      | .write => s.endWrite p
      | .idle | .read _ | .neither => s.withBus .idle := by
  have hp : p.strobes = .off := by simp only [BusPins.strobes, hc, hr, hw]
  unfold State.busPins
  rw [hp]
  cases s.bus <;> simp [hw]

/-- A read access begins as its event: the CP takes the reads of LOGPOP and NOWLO as LOGPOP_READ and NOWLO_READ. -/
theorem exec_logpopRead (s : State) : exec .logpopRead s = .next (s.beginRead 0x9) := rfl
theorem exec_nowloRead (s : State) : exec .nowloRead s = .next (s.beginRead 0xE) := rfl

/-- A read of VECTOR that returns 0 leaves the interrupt condition false: the NU's warm resets are taken in it (R137). -/
theorem State.interruptCondition_of_readVector (hr : s.resetnLow = false) (hw : s.readWord 0xC = 0) :
    (s.beginRead 0xC).interruptCondition = false := by
  have e : s.beginRead 0xC = s.nuUpToDate.withBus (.read (s.readWord 0xC)) := by
    show (if s.resetnLow then s else s.nuUpToDate).withBus _ = _
    rw [hr]
    rfl
  have hq : s.nuUpToDate.logFlag = s.logFlag := by
    unfold State.nuUpToDate
    split <;> rfl
  rw [e]
  show s.nuUpToDate.nu.condition s.nuUpToDate.logFlag = false
  rw [hq]
  exact NotifyUnit.condition_of_vectorWord hw

/-- A write access ends as its event. -/
theorem exec_registerWrite (s : State) (p : BusPins) : exec (.registerWrite p.address p.data) s = .next (s.endWrite p) := rfl

end Sys2Proof.Machine
end

