-- ==== Sys2Proof/Laws/Commands.lean ====
section
/-! SUPPORT. A command taken by its owner, once for each block: the next state from what the block's rule gives, a failed
check, and how the operand words are read. -/

namespace Sys2Proof.Machine

/-! ## Operand words (R165, R166) -/

theorem inRange_of_zero {w u : Word} (h : w &&& u = 0) : inRange w u = true := by
  simpa only [inRange, beq_iff_eq] using h

theorem inRange_of_ne_zero {w u : Word} (h : w &&& u ≠ 0) : inRange w u = false := by
  simpa only [inRange, beq_eq_false_iff_ne] using h

theorem timerOf_eq_some {n : Nat} {i : TimerId} (h : n = i.val) : timerOf n = some i := by
  simp [timerOf, h]

theorem timerOf_eq_none {n : Nat} (h : 48 ≤ n) : timerOf n = none := by
  simp [timerOf, Nat.not_lt.2 h]

theorem sourceOf_eq_some {n : Nat} {i : SourceId} (h : n = i.val) : sourceOf n = some i := by
  simp [sourceOf, h]

theorem sourceOf_eq_none {n : Nat} (h : 19 ≤ n) : sourceOf n = none := by
  simp [sourceOf, Nat.not_lt.2 h]

theorem setupInRange_eq_true {a b c : Nat} :
    setupInRange a b c = true ↔ 1 ≤ a ∧ a ≤ 128 ∧ b ≤ a ∧ 1 ≤ c ∧ c ≤ a :=
  decide_eq_true_iff

/-- The stamp is the low half of NOW (R5). -/
theorem State.stampNow_eq (s : State) : s.stampNow = s.du.now.extractLsb' 0 16 := by
  apply BitVec.eq_of_toNat_eq
  simp [State.stampNow, BitVec.extractLsb'_toNat]

theorem place_zero {n : Nat} (b : BitVec n) : place 0 b = b.setWidth 16 := by
  simp [place]

/-- A bit of a value placed in a word. -/
theorem place_getLsbD {n : Nat} (lo : Nat) (b : BitVec n) (k : Nat) :
    (place lo b).getLsbD k = (decide (k < 16) && decide (lo ≤ k) && b.getLsbD (k - lo)) := by
  simp only [place, BitVec.getLsbD_shiftLeft, BitVec.getLsbD_setWidth]
  by_cases h1 : k < 16 <;> by_cases h2 : lo ≤ k <;> simp [h1, h2, Nat.not_lt.2, Nat.not_le.1]
  · intro _; omega

theorem placeBit_getLsbD (lo : Nat) (b : Bool) (k : Nat) :
    (placeBit lo b).getLsbD k = (decide (k < 16) && decide (k = lo) && b) := by
  rw [placeBit, place_getLsbD, BitVec.getLsbD_ofBool]
  by_cases h1 : k < 16 <;> by_cases h2 : k = lo <;> simp [h1, h2]
  intro _; omega

/-! ## The next state of a command -/

section next
variable {code : Word} {p : Words6} {s : State} {c : Completion} (ht : Taken code p s)
include ht

theorem ttCommand_next {f : Words6 → TimerTable → Completion × TtOut} {o : TtOut} (hf : f p s.tt = (c, o)) :
    running s (takeCommand code (ttCommand f) s) = .next ((s.commitTt o).withCp (s.cp.returned c)) :=
  command_next ht (by simp [ttCommand, hf]) rfl

theorem qeCommand_next {f : Words6 → Word → QueueEngine → Completion × QeOut} {o : QeOut}
    (hf : f p s.stampNow s.qe = (c, o)) :
    running s (takeCommand code (qeCommand f) s) = .next ((s.commitQe o).withCp (s.cp.returned c)) :=
  command_next ht (by simp [qeCommand, hf]) rfl

theorem luCommand_next {f : Words6 → LineUnit → Completion × LineUnit} {lu : LineUnit} (hf : f p s.lu = (c, lu)) :
    running s (takeCommand code (luCommand f) s) = .next ((s.withLu lu).withCp (s.cp.returned c)) :=
  command_next ht (by simp [luCommand, hf]) rfl

end next

section answered
variable (s : State) (c : Completion)

theorem answered_commitTt (o : TtOut) : Answered c [.tt] s ((s.commitTt o).withCp (s.cp.returned c)) :=
  answered_withCp (by simp [sameExcept, State.commitTt])

theorem answered_commitQe (o : QeOut) : Answered c [.qe] s ((s.commitQe o).withCp (s.cp.returned c)) :=
  answered_withCp (by simp [sameExcept, State.commitQe])

theorem answered_withLu (lu : LineUnit) : Answered c [.lu] s ((s.withLu lu).withCp (s.cp.returned c)) :=
  answered_withCp (by simp [sameExcept])

theorem answered_self : Answered c [] s (s.withCp (s.cp.returned c)) :=
  answered_withCp (by simp [sameExcept])

@[simp] theorem commitTt_nothing : s.commitTt { tt := s.tt } = s := by
  simp only [State.commitTt, sendAll_nil]; rfl

@[simp] theorem commitQe_nothing : s.commitQe { qe := s.qe } = s := by
  simp only [State.commitQe, sendAll_nil]; rfl

end answered

/-! ## A failed check -/

theorem fails_of {i : Instr} {code : Word} {p : Words6} {s : State} {r : ResultCode}
    {f : Words6 → State → Completion × State} (hi : exec i s = running s (takeCommand code f s)) (ht : Taken code p s)
    (hf : f p s = (.fail r, s)) : Fails i r s :=
  ⟨_, hi.trans (command_next ht hf rfl), answered_self s _, rfl⟩

theorem ttCommand_fails {f : Words6 → TimerTable → Completion × TtOut} {p : Words6} {s : State} {r : ResultCode}
    (h : f p s.tt = (.fail r, { tt := s.tt })) : ttCommand f p s = (.fail r, s) := by
  simp [ttCommand, h]

theorem qeCommand_fails {f : Words6 → Word → QueueEngine → Completion × QeOut} {p : Words6} {s : State}
    {r : ResultCode} (h : f p s.stampNow s.qe = (.fail r, { qe := s.qe })) : qeCommand f p s = (.fail r, s) := by
  simp [qeCommand, h]

theorem luCommand_fails {f : Words6 → LineUnit → Completion × LineUnit} {p : Words6} {s : State} {r : ResultCode}
    (h : f p s.lu = (.fail r, s.lu)) : luCommand f p s = (.fail r, s) := by
  simp only [luCommand, h]; rfl

end Sys2Proof.Machine
end

