-- ==== Sys2Proof/Laws/Deadlines.lean ====
section
/-! SUPPORT. Everything the operations on the delta list, the request table and the Deadline Unit's record do: which
entries stay, their remaining times, and DeadlineUnit.Ok. -/

namespace Sys2Proof.Machine

/-! ## Unlinking (R17) -/

theorem map_entry_unlinkEntry (e : EntryId) :
    ∀ l : List LinkedEntry, (unlinkEntry e l).map LinkedEntry.entry = (l.map LinkedEntry.entry).erase e
  | [] => rfl
  | x :: rest => by
    unfold unlinkEntry
    split
    · next h => cases rest <;> simp [h]
    · next h => simp [map_entry_unlinkEntry e rest, h]

theorem deltaSum_unlinkEntry_le (e : EntryId) :
    ∀ l : List LinkedEntry, deltaSum (unlinkEntry e l) ≤ deltaSum l
  | [] => Nat.le_refl _
  | x :: rest => by
    unfold unlinkEntry
    split
    · cases rest <;> simp [deltaSum]; omega
    · have := deltaSum_unlinkEntry_le e rest
      simp only [deltaSum, List.map_cons, List.sum_cons] at this ⊢
      omega

theorem head_unlinkEntry {e : EntryId} {l : List LinkedEntry} (h : ∀ x ∈ l.head?, 1 ≤ x.delta) :
    ∀ x ∈ (unlinkEntry e l).head?, 1 ≤ x.delta := by
  cases l with
  | nil => simp [unlinkEntry]
  | cons a rest =>
    have ha : 1 ≤ a.delta := h a (by simp)
    unfold unlinkEntry
    split
    · cases rest <;> simp; omega
    · simpa using ha

theorem unlinkEntry_of_not_mem {e : EntryId} :
    ∀ {l : List LinkedEntry}, e ∉ l.map LinkedEntry.entry → unlinkEntry e l = l
  | [], _ => rfl
  | x :: rest, h => by
    simp only [List.map_cons, List.mem_cons, not_or] at h
    unfold unlinkEntry
    rw [if_neg (Ne.symm h.1), unlinkEntry_of_not_mem h.2]

theorem unlinked_unlinkEntry (e : EntryId) : ∀ l : List LinkedEntry, Unlinked e l (unlinkEntry e l)
  | [] => .inl ⟨by simp, rfl⟩
  | x :: rest => by
    unfold unlinkEntry
    split
    · next h => exact .inr ⟨[], x, rest, rfl, h, by simp, by cases rest <;> rfl⟩
    · next h =>
      rcases unlinked_unlinkEntry e rest with ⟨hm, he⟩ | ⟨l, y, r, h1, h2, h3, h4⟩
      · exact .inl ⟨by simpa [Ne.symm h] using hm, by rw [he]⟩
      · exact .inr ⟨x :: l, y, r, by rw [h1]; rfl, h2, by simpa [Ne.symm h] using h3, by rw [h4]; rfl⟩

theorem remainingFrom_eq_none {e : EntryId} :
    ∀ {l : List LinkedEntry} {b : Nat}, remainingFrom b e l = none ↔ e ∉ l.map LinkedEntry.entry
  | [], b => by simp [remainingFrom]
  | x :: rest, b => by
    unfold remainingFrom
    split
    · next h => simp [h]
    · next h => rw [remainingFrom_eq_none]; simp [Ne.symm h]

/-- An entry is linked exactly when it has a remaining time. -/
theorem remaining_eq_none {e : EntryId} {l : List LinkedEntry} :
    remaining e l = none ↔ e ∉ l.map LinkedEntry.entry := remainingFrom_eq_none

theorem remainingFrom_unlinkEntry {e f : EntryId} (h : f ≠ e) :
    ∀ (l : List LinkedEntry) (b : Nat), remainingFrom b f (unlinkEntry e l) = remainingFrom b f l
  | [], b => rfl
  | x :: rest, b => by
    unfold unlinkEntry
    split
    · next hx =>
      have hf : ¬ x.entry = f := fun c => h (c ▸ hx)
      cases rest with
      | nil => simp [remainingFrom, hf]
      | cons y ys => simp [remainingFrom, hf, Nat.add_comm, Nat.add_left_comm]
    · simp only [remainingFrom]
      split
      · rfl
      · exact remainingFrom_unlinkEntry h rest _

/-- Unlinking changes no other entry's remaining time (R17). -/
theorem remaining_unlinkEntry {e f : EntryId} (h : f ≠ e) (l : List LinkedEntry) :
    remaining f (unlinkEntry e l) = remaining f l := remainingFrom_unlinkEntry h l 0

theorem remaining_unlinkEntry_self {e : EntryId} {l : List LinkedEntry} (h : (l.map LinkedEntry.entry).Nodup) :
    remaining e (unlinkEntry e l) = none := by
  rw [remaining_eq_none, map_entry_unlinkEntry]
  exact h.not_mem_erase

/-! ## Placement (R20) -/

theorem map_entry_placeEntry (e : EntryId) (rl : Word) (a : BitVec 8) :
    ∀ (l : List LinkedEntry) (d : Nat),
      ((placeEntry e d rl a l).map LinkedEntry.entry).Perm (e :: l.map LinkedEntry.entry)
  | [], d => by simp [placeEntry]
  | x :: rest, d => by
    unfold placeEntry
    split
    · exact ((map_entry_placeEntry e rl a rest _).cons x.entry).trans (List.Perm.swap _ _ _)
    · simp

theorem deltaSum_placeEntry_le (e : EntryId) (rl : Word) (a : BitVec 8) :
    ∀ (l : List LinkedEntry) (d : Nat), deltaSum (placeEntry e d rl a l) ≤ max d (deltaSum l)
  | [], d => by simp [placeEntry, deltaSum]
  | x :: rest, d => by
    unfold placeEntry
    split
    · have := deltaSum_placeEntry_le e rl a rest (d - x.delta)
      simp only [deltaSum, List.map_cons, List.sum_cons] at this ⊢
      omega
    · simp only [deltaSum, List.map_cons, List.sum_cons]
      omega

theorem head_placeEntry {e : EntryId} {rl : Word} {a : BitVec 8} {l : List LinkedEntry} {d : Nat} (hd : 1 ≤ d)
    (h : ∀ x ∈ l.head?, 1 ≤ x.delta) : ∀ x ∈ (placeEntry e d rl a l).head?, 1 ≤ x.delta := by
  cases l with
  | nil => simpa [placeEntry] using hd
  | cons x rest =>
    unfold placeEntry
    split
    · simpa using h
    · simpa using hd

theorem remainingFrom_shift (e : EntryId) :
    ∀ (l : List LinkedEntry) (b c : Nat), remainingFrom (b + c) e l = (remainingFrom b e l).map (· + c)
  | [], b, c => rfl
  | x :: rest, b, c => by
    unfold remainingFrom
    split
    · simp; omega
    · rw [show b + c + x.delta = b + x.delta + c by omega, remainingFrom_shift e rest]

theorem remainingFrom_placeEntry {e f : EntryId} (rl : Word) (a : BitVec 8) :
    ∀ (l : List LinkedEntry) (d b : Nat), e ∉ l.map LinkedEntry.entry →
      remainingFrom b f (placeEntry e d rl a l) = if f = e then some (b + d) else remainingFrom b f l
  | [], d, b, _ => by
    by_cases h : e = f <;> simp [placeEntry, remainingFrom, h, eq_comm]
  | x :: rest, d, b, hm => by
    simp only [List.map_cons, List.mem_cons, not_or] at hm
    unfold placeEntry
    split
    · next hx =>
      simp only [remainingFrom]
      by_cases hf : x.entry = f
      · have : ¬ f = e := fun c => hm.1 (hf.trans c).symm
        simp [hf, this]
      · rw [if_neg hf, if_neg hf, remainingFrom_placeEntry rl a rest _ _ hm.2]
        simp only [show b + x.delta + (d - x.delta) = b + d by omega]
    · next hx =>
      simp only [remainingFrom]
      by_cases hf : f = e
      · simp [hf]
      · rw [if_neg (Ne.symm hf), if_neg hf]
        simp only [show b + d + (x.delta - d) = b + x.delta by omega]

/-- Placement gives its entry the delay as remaining time and changes no other entry's (R20). -/
theorem remaining_placeEntry {e f : EntryId} (rl : Word) (a : BitVec 8) {l : List LinkedEntry} (d : Nat)
    (h : e ∉ l.map LinkedEntry.entry) :
    remaining f (placeEntry e d rl a l) = if f = e then some d else remaining f l := by
  simp [remaining, remainingFrom_placeEntry rl a l d 0 h]

theorem placed_placeEntry_aux (e : EntryId) (rl : Word) (a : BitVec 8) :
    ∀ (before : List LinkedEntry) (d : Nat), ∃ l r, before = l ++ r ∧ deltaSum l ≤ d ∧
      (∀ y ∈ r.head?, d < deltaSum l + y.delta) ∧
      placeEntry e d rl a before = l ++ { entry := e, delta := d - deltaSum l, reload := rl, arming := a } ::
        match r with
        | [] => []
        | y :: ys => { y with delta := y.delta - (d - deltaSum l) } :: ys
  | [], d => ⟨[], [], rfl, by simp [deltaSum], by simp, by simp [placeEntry, deltaSum]⟩
  | x :: rest, d => by
    unfold placeEntry
    split
    · next h =>
      obtain ⟨l, r, h1, h2, h3, h4⟩ := placed_placeEntry_aux e rl a rest (d - x.delta)
      have hs : deltaSum (x :: l) = x.delta + deltaSum l := by simp [deltaSum]
      have he : d - (x.delta + deltaSum l) = d - x.delta - deltaSum l := by omega
      refine ⟨x :: l, r, by rw [h1]; rfl, by omega, fun y hy => ?_, ?_⟩
      · have := h3 y hy
        omega
      · rw [hs, he, h4]; rfl
    · next h => exact ⟨[], x :: rest, rfl, by simp [deltaSum], by simp [deltaSum]; omega, by simp [deltaSum]⟩

theorem placed_placeEntry (w : WalkRecord) (before : List LinkedEntry) :
    Placed w before (placeEntry w.entry w.delay.toNat w.reload w.arming before) :=
  placed_placeEntry_aux w.entry w.reload w.arming before w.delay.toNat

/-! ## RELOAD (R28) -/

@[simp] theorem map_entry_reloadEntry (e : EntryId) (v : Word) (l : List LinkedEntry) :
    (reloadEntry e v l).map LinkedEntry.entry = l.map LinkedEntry.entry := by
  simp only [reloadEntry, List.map_map]
  exact List.map_congr_left fun x _ => by simp only [Function.comp]; split <;> rfl

@[simp] theorem map_delta_reloadEntry (e : EntryId) (v : Word) (l : List LinkedEntry) :
    (reloadEntry e v l).map LinkedEntry.delta = l.map LinkedEntry.delta := by
  simp only [reloadEntry, List.map_map]
  exact List.map_congr_left fun x _ => by simp only [Function.comp]; split <;> rfl

@[simp] theorem deltaSum_reloadEntry (e : EntryId) (v : Word) (l : List LinkedEntry) :
    deltaSum (reloadEntry e v l) = deltaSum l := by
  simp [deltaSum]

theorem head_reloadEntry {e : EntryId} {v : Word} {l : List LinkedEntry} (h : ∀ x ∈ l.head?, 1 ≤ x.delta) :
    ∀ x ∈ (reloadEntry e v l).head?, 1 ≤ x.delta := by
  cases l with
  | nil => simp [reloadEntry]
  | cons a rest =>
    have ha : 1 ≤ a.delta := h a (by simp)
    simp only [reloadEntry, List.map_cons, List.head?_cons, Option.mem_def, Option.some.injEq]
    rintro x rfl
    split <;> exact ha

theorem remainingFrom_reloadEntry (e f : EntryId) (v : Word) :
    ∀ (l : List LinkedEntry) (b : Nat), remainingFrom b f (reloadEntry e v l) = remainingFrom b f l
  | [], b => rfl
  | x :: rest, b => by
    have ih := remainingFrom_reloadEntry e f v rest
    simp only [reloadEntry] at ih
    simp only [reloadEntry, List.map_cons, remainingFrom]
    by_cases h : x.entry = e <;> simp [h, ih]

@[simp] theorem remaining_reloadEntry (e f : EntryId) (v : Word) (l : List LinkedEntry) :
    remaining f (reloadEntry e v l) = remaining f l := remainingFrom_reloadEntry e f v l 0

/-! ## A tick (R15) -/

theorem dueWith_eq_takeWhile : ∀ l : List LinkedEntry, dueWith l = l.takeWhile fun x => x.delta == 0
  | [] => rfl
  | x :: rest => by
    rw [dueWith, List.takeWhile_cons, dueWith_eq_takeWhile rest]
    by_cases h : x.delta = 0 <;> simp [h]

theorem notDue_eq_dropWhile : ∀ l : List LinkedEntry, notDue l = l.dropWhile fun x => x.delta == 0
  | [] => rfl
  | x :: rest => by
    rw [notDue, List.dropWhile_cons, notDue_eq_dropWhile rest]
    by_cases h : x.delta = 0 <;> simp [h]

theorem dueWith_append_notDue (l : List LinkedEntry) : dueWith l ++ notDue l = l := by
  rw [dueWith_eq_takeWhile, notDue_eq_dropWhile, List.takeWhile_append_dropWhile]

theorem head_notDue : ∀ l : List LinkedEntry, ∀ x ∈ (notDue l).head?, 1 ≤ x.delta
  | [] => by simp [notDue]
  | x :: rest => by
    unfold notDue
    split
    · exact head_notDue rest
    · next h => simp; omega

theorem deltaSum_notDue : ∀ l : List LinkedEntry, deltaSum (notDue l) = deltaSum l
  | [] => rfl
  | x :: rest => by
    unfold notDue
    split
    · next h => rw [deltaSum_notDue rest]; simp [deltaSum, h]
    · rfl

theorem relinksOf_eq_map_filter : ∀ l : List LinkedEntry,
    relinksOf l = (l.filter fun x => x.reload != 0).map fun x =>
      { entry := x.entry, reload := x.reload, arming := x.arming }
  | [] => rfl
  | x :: rest => by
    have ih := relinksOf_eq_map_filter rest
    unfold relinksOf at ih ⊢
    by_cases h : x.reload = 0
    · rw [List.filterMap_cons_none (by simp [h]), ih, List.filter_cons_of_neg (by simp [h])]
    · rw [List.filterMap_cons_some (b := { entry := x.entry, reload := x.reload, arming := x.arming })
        (by simp only [h, if_false]), ih]
      have hb : (x.reload != 0) = true := bne_iff_ne.2 h
      simp only [List.filter_cons, hb, if_true, List.map_cons]

theorem remainingFrom_ge (e : EntryId) :
    ∀ (l : List LinkedEntry) (b n : Nat), remainingFrom b e l = some n → b ≤ n
  | [], b, n, h => by simp [remainingFrom] at h
  | x :: rest, b, n, h => by
    unfold remainingFrom at h
    split at h
    · simp at h; omega
    · have := remainingFrom_ge e rest _ _ h
      omega

theorem remainingFrom_le (e : EntryId) :
    ∀ (l : List LinkedEntry) (b n : Nat), remainingFrom b e l = some n → n ≤ b + deltaSum l
  | [], b, n, h => by simp [remainingFrom] at h
  | x :: rest, b, n, h => by
    unfold remainingFrom at h
    have hs : deltaSum (x :: rest) = x.delta + deltaSum rest := by simp [deltaSum]
    split at h
    · simp at h; omega
    · have := remainingFrom_le e rest _ _ h
      omega

/-- No remaining time is above the sum of the deltas (R8). -/
theorem remaining_le {e : EntryId} {l : List LinkedEntry} {n : Nat} (h : remaining e l = some n) :
    n ≤ deltaSum l := by
  simpa using remainingFrom_le e l 0 n h

theorem remainingFrom_notDue {e : EntryId} :
    ∀ {l : List LinkedEntry}, (l.map LinkedEntry.entry).Nodup →
      remainingFrom 0 e (notDue l) = match remainingFrom 0 e l with
        | none => none
        | some n => if n = 0 then none else some n
  | [], _ => rfl
  | x :: rest, hn => by
    simp only [List.map_cons, List.nodup_cons] at hn
    unfold notDue
    split
    · next h =>
      rw [remainingFrom_notDue hn.2]
      simp only [remainingFrom, h, Nat.add_zero]
      by_cases hx : x.entry = e
      · subst hx
        simp [remainingFrom_eq_none.2 hn.1]
      · simp only [hx, if_false]
    · next h =>
      cases hr : remainingFrom 0 e (x :: rest) with
      | none => rfl
      | some n =>
        have : n ≠ 0 := by
          unfold remainingFrom at hr
          split at hr
          · simp at hr; omega
          · have := remainingFrom_ge e _ _ _ hr
            omega
        simp [this]

/-- A tick applied takes 1 off every remaining time and removes the entries that reach 0 (R9, R15). -/
theorem remaining_applyTick {du : DeadlineUnit} (hn : (du.list.map LinkedEntry.entry).Nodup)
    (hh : ∀ x ∈ du.list.head?, 1 ≤ x.delta) (e : EntryId) :
    remaining e du.applyTick.du.list = match remaining e du.list with
      | none => none
      | some n => if n ≤ 1 then none else some (n - 1) := by
  unfold DeadlineUnit.applyTick
  cases hl : du.list with
  | nil => rfl
  | cons head rest =>
    rw [hl] at hn hh
    have h1 : 1 ≤ head.delta := hh head (by simp)
    simp only [List.map_cons, List.nodup_cons] at hn
    simp only []
    split
    · next h2 =>
      simp only [remaining, remainingFrom, Nat.zero_add]
      split
      · simp [show ¬ head.delta ≤ 1 by omega]
      · have hs := remainingFrom_shift e rest (head.delta - 1) 1
        rw [show head.delta - 1 + 1 = head.delta by omega] at hs
        rw [hs]
        cases hr : remainingFrom (head.delta - 1) e rest with
        | none => rfl
        | some n =>
          have := remainingFrom_ge e _ _ _ hr
          simp; omega
    · next h2 =>
      have hd : head.delta = 1 := by omega
      simp only [remaining, remainingFrom, Nat.zero_add, hd]
      rw [remainingFrom_notDue hn.2]
      by_cases he : head.entry = e
      · subst he
        simp [remainingFrom_eq_none.2 hn.1]
      · have hs := remainingFrom_shift e rest 0 1
        rw [Nat.zero_add] at hs
        simp only [he, if_false]
        rw [hs]
        cases remainingFrom 0 e rest with
        | none => rfl
        | some n => by_cases h0 : n = 0 <;> simp [h0]

end Sys2Proof.Machine
end

