-- ==== Sys2Proof/Laws/DeadlineUnit.lean ====
section
/-! SUPPORT. Every operation of the Deadline Unit keeps DeadlineUnit.Ok; the request table and the selection rule. -/

namespace Sys2Proof.Machine

/-! ## The request table (R23 to R25) -/

@[simp] theorem LinkRequest.entry_meetReload (v : Word) (r : LinkRequest) : (r.meetReload v).entry = r.entry := by
  cases r <;> rfl

theorem LinkRequest.ok_meetReload {v : Word} {r : LinkRequest} (h : r.Ok) : (r.meetReload v).Ok := by
  cases r <;> exact h

theorem enterReplacing_ok {r : LinkRequest} {table : List LinkRequest} (hr : r.Ok)
    (hn : (table.map LinkRequest.entry).Nodup) (hok : ∀ x ∈ table, x.Ok) :
    ((enterReplacing r table).map LinkRequest.entry).Nodup ∧ ∀ x ∈ enterReplacing r table, x.Ok := by
  unfold enterReplacing
  constructor
  · rw [List.map_append, List.nodup_append]
    refine ⟨hn.sublist (List.filter_sublist.map _), by simp, ?_⟩
    intro a ha b hb hab
    simp only [List.map_cons, List.map_nil, List.mem_singleton] at hb
    obtain ⟨x, hx, rfl⟩ := List.mem_map.1 ha
    have := (List.mem_filter.1 hx).2
    simp only [ne_eq, decide_eq_true_eq] at this
    exact this (hab.trans hb)
  · intro x hx
    rcases List.mem_append.1 hx with hx | hx
    · exact hok x (List.mem_filter.1 hx).1
    · simp only [List.mem_singleton] at hx
      exact hx ▸ hr

theorem enterReload_ok {e : EntryId} {v : Word} {table : List LinkRequest}
    (hn : (table.map LinkRequest.entry).Nodup) (hok : ∀ x ∈ table, x.Ok) :
    ((enterReload e v table).map LinkRequest.entry).Nodup ∧ ∀ x ∈ enterReload e v table, x.Ok := by
  unfold enterReload
  split
  · constructor
    · have : (table.map fun x => if x.entry = e then x.meetReload v else x).map LinkRequest.entry =
          table.map LinkRequest.entry := by
        rw [List.map_map]
        exact List.map_congr_left fun x _ => by simp only [Function.comp]; split <;> simp
      rwa [this]
    · intro x hx
      obtain ⟨y, hy, rfl⟩ := List.mem_map.1 hx
      split
      · exact LinkRequest.ok_meetReload (hok y hy)
      · exact hok y hy
  · next h =>
    constructor
    · rw [List.map_append, List.nodup_append]
      refine ⟨hn, by simp, ?_⟩
      intro a ha b hb hab
      simp only [List.map_cons, List.map_nil, List.mem_singleton] at hb
      obtain ⟨x, hx, rfl⟩ := List.mem_map.1 ha
      exact h (List.any_eq_true.2 ⟨x, hx, decide_eq_true (show x.entry = e from hab.trans hb)⟩)
    · intro x hx
      rcases List.mem_append.1 hx with hx | hx
      · exact hok x hx
      · simp only [List.mem_singleton] at hx
        exact hx ▸ trivial

theorem enterRequest_ok {r : LinkRequest} {table : List LinkRequest} (hr : r.Ok)
    (hn : (table.map LinkRequest.entry).Nodup) (hok : ∀ x ∈ table, x.Ok) :
    ((enterRequest r table).map LinkRequest.entry).Nodup ∧ ∀ x ∈ enterRequest r table, x.Ok := by
  cases r with
  | link e d rl a => exact enterReplacing_ok hr hn hok
  | unlink e => exact enterReplacing_ok hr hn hok
  | reload e v => exact enterReload_ok hn hok

/-! ## IDLE and the selection rule -/

theorem DeadlineUnit.idle_eq_true {du : DeadlineUnit} :
    du.idle = true ↔ du.activity = .quiet ∧ du.relink = [] ∧ du.backlog = 0 ∧ du.table = [] := by
  simp [DeadlineUnit.idle, and_assoc]

/-- The tick that the DU takes next, as TickNext says it. -/
theorem DeadlineUnit.claimTick_eq_some {du d : DeadlineUnit} : du.claimTick = some d ↔ du.TickNext d := by
  unfold DeadlineUnit.claimTick DeadlineUnit.TickNext
  cases ha : du.activity with
  | quiet =>
    cases hr : du.relink with
    | nil => by_cases hb : du.backlog = 0 <;> simp [hb, eq_comm]
    | cons x l => simp
  | applying => simp [eq_comm]
  | taking r => simp
  | walking w => simp

/-- The request that the DU takes next, as RequestNext says it. -/
theorem DeadlineUnit.claimRequest_eq_some {du d : DeadlineUnit} {r : LinkRequest} :
    du.claimRequest = some (r, d) ↔ du.RequestNext r d := by
  unfold DeadlineUnit.claimRequest DeadlineUnit.RequestNext
  cases ha : du.activity with
  | quiet =>
    cases hr : du.relink with
    | nil =>
      cases ht : du.table with
      | nil => simp
      | cons x l =>
        by_cases hb : du.backlog = 0 <;> simp [hb, and_comm, eq_comm]
    | cons x l => cases du.table <;> simp
  | applying => simp
  | taking r => simp [eq_comm]
  | walking w => simp

/-! ## DeadlineUnit.Ok -/

theorem DeadlineUnit.ok_cold : DeadlineUnit.cold.Ok := by
  simp [DeadlineUnit.cold, DeadlineUnit.Ok, DeadlineUnit.entries, deltaSum, DuActivity.Ok]

theorem DeadlineUnit.ok_warm (du : DeadlineUnit) : du.warm.Ok := by
  simp [DeadlineUnit.warm, DeadlineUnit.Ok, DeadlineUnit.entries, deltaSum, DuActivity.Ok]

theorem DeadlineUnit.nodup_list {du : DeadlineUnit} (h : du.Ok) : (du.list.map LinkedEntry.entry).Nodup :=
  h.1.sublist ((List.sublist_append_left _ _).trans (List.sublist_append_left _ _))

/-- The entry of the walk is not linked (R9, R11). -/
theorem DeadlineUnit.walking_not_linked {du : DeadlineUnit} {w : WalkRecord} (h : du.Ok)
    (hw : du.activity = .walking w) : w.entry ∉ du.list.map LinkedEntry.entry := by
  have hn := h.1
  unfold DeadlineUnit.entries at hn
  rw [hw, List.nodup_append] at hn
  intro hm
  exact hn.2.2 _ (List.mem_append_left _ hm) w.entry (by simp) rfl

theorem DeadlineUnit.ok_tickArrives {du : DeadlineUnit} (h : du.Ok) : du.tickArrives.du.Ok := by
  obtain ⟨h1, h2, h3, h4, h5, h6, h7, h8⟩ := h
  unfold DeadlineUnit.tickArrives
  split
  · next hi =>
    obtain ⟨ha, hr, hb, ht⟩ := DeadlineUnit.idle_eq_true.1 hi
    refine ⟨?_, h2, h3, h4, h5, h6, h7, hr⟩
    simpa [DeadlineUnit.entries, ha] using h1
  · split
    · next hb => exact ⟨h1, h2, h3, h4, h5, h6, hb, h8⟩
    · exact ⟨h1, h2, h3, h4, h5, h6, h7, h8⟩

theorem DeadlineUnit.ok_requestArrives {du : DeadlineUnit} {r : LinkRequest} (h : du.Ok) (hr : r.Ok) :
    (du.requestArrives r).Ok := by
  obtain ⟨h1, h2, h3, h4, h5, h6, h7, h8⟩ := h
  unfold DeadlineUnit.requestArrives
  split
  · next hi =>
    obtain ⟨ha, hrl, hb, ht⟩ := DeadlineUnit.idle_eq_true.1 hi
    refine ⟨?_, h2, h3, h4, h5, h6, h7, hr, hrl⟩
    simpa [DeadlineUnit.entries, ha] using h1
  · obtain ⟨t1, t2⟩ := enterRequest_ok hr h2 h6
    exact ⟨h1, t1, h3, h4, h5, t2, h7, h8⟩

/-- With a tick or a request in hand the DU is between steps: no walk, and no entry waiting to be relinked. -/
theorem DeadlineUnit.tickNext_ok {du d : DeadlineUnit} (h : du.Ok) (ht : du.TickNext d) :
    d.Ok ∧ d.activity = .quiet ∧ d.relink = [] ∧ d.list = du.list ∧ d.now = du.now := by
  obtain ⟨h1, h2, h3, h4, h5, h6, h7, h8⟩ := h
  rcases ht with ⟨ha, rfl⟩ | ⟨ha, hr, hb, rfl⟩
  · refine ⟨⟨?_, h2, h3, h4, h5, h6, h7, trivial⟩, rfl, ?_, rfl, rfl⟩
    · simpa [DeadlineUnit.entries, ha] using h1
    · rw [ha] at h8; exact h8
  · exact ⟨⟨by simpa [DeadlineUnit.entries] using h1, h2, h3, h4, h5, h6, by simp only; omega, by simp [ha, DuActivity.Ok]⟩,
      ha, hr, rfl, rfl⟩

theorem DeadlineUnit.requestNext_ok {du d : DeadlineUnit} {r : LinkRequest} (h : du.Ok) (ht : du.RequestNext r d) :
    d.Ok ∧ r.Ok ∧ d.activity = .quiet ∧ d.relink = [] ∧ d.list = du.list ∧ d.now = du.now := by
  obtain ⟨h1, h2, h3, h4, h5, h6, h7, h8⟩ := h
  rcases ht with ⟨ha, rfl⟩ | ⟨ha, hr, hb, rest, htab, rfl⟩
  · rw [ha] at h8
    refine ⟨⟨?_, h2, h3, h4, h5, h6, h7, trivial⟩, h8.1, rfl, h8.2, rfl, rfl⟩
    simpa [DeadlineUnit.entries, ha] using h1
  · rw [htab] at h2 h6
    refine ⟨⟨by simpa [DeadlineUnit.entries] using h1, ?_, h3, h4, h5, fun x hx => h6 x (by simp [hx]), h7,
      by simp [ha, DuActivity.Ok]⟩, h6 r (by simp), ha, hr, rfl, rfl⟩
    simp only [List.map_cons, List.nodup_cons] at h2
    exact h2.2

theorem relinksOf_entries_sublist : ∀ l : List LinkedEntry,
    ((relinksOf l).map RelinkEntry.entry).Sublist (l.map LinkedEntry.entry)
  | [] => by simp [relinksOf]
  | x :: rest => by
    have ih := relinksOf_entries_sublist rest
    unfold relinksOf at ih ⊢
    by_cases h : x.reload = 0
    · rw [List.filterMap_cons_none (by simp [h])]
      exact ih.cons x.entry
    · rw [List.filterMap_cons_some (b := { entry := x.entry, reload := x.reload, arming := x.arming })
        (by simp only [h, if_false])]
      exact ih.cons_cons x.entry

theorem DeadlineUnit.ok_applyTick {d : DeadlineUnit} (h : d.Ok) (ha : d.activity = .quiet) (hr : d.relink = []) :
    d.applyTick.du.Ok := by
  obtain ⟨h1, h2, h3, h4, h5, h6, h7, h8⟩ := h
  simp only [DeadlineUnit.entries, ha, hr, List.map_nil, List.append_nil] at h1
  unfold DeadlineUnit.applyTick
  cases hl : d.list with
  | nil =>
    refine ⟨?_, h2, by simp, by simp [deltaSum], h5, h6, h7, h8⟩
    simp [DeadlineUnit.entries, ha, hr]
  | cons head rest =>
    rw [hl] at h1 h3 h4
    have hd : deltaSum (head :: rest) = head.delta + deltaSum rest := by simp [deltaSum]
    simp only []
    split
    · next hlt =>
      refine ⟨?_, h2, by simp; omega, ?_, h5, h6, h7, h8⟩
      · simpa [DeadlineUnit.entries, ha, hr] using h1
      · simp only [deltaSum, List.map_cons, List.sum_cons] at hd h4 ⊢; omega
    · have hsplit : (head :: rest) = (head :: dueWith rest) ++ notDue rest := by
        rw [List.cons_append, dueWith_append_notDue]
      refine ⟨?_, h2, head_notDue rest, ?_, ?_, h6, h7, by simp only [ha]; trivial⟩
      · simp only [DeadlineUnit.entries, ha, hr, List.nil_append, List.append_nil]
        rw [hsplit, List.map_append] at h1
        have hs := (relinksOf_entries_sublist (head :: dueWith rest)).append_right
          ((notDue rest).map LinkedEntry.entry)
        exact (List.perm_append_comm.nodup_iff).1 (h1.sublist hs)
      · rw [deltaSum_notDue]; omega
      · intro x hx
        simp only [hr, List.nil_append] at hx
        unfold relinksOf at hx
        obtain ⟨y, hy, hxy⟩ := List.mem_filterMap.1 hx
        split at hxy
        · simp at hxy
        · next hne =>
          simp only [Option.some.injEq] at hxy
          rw [← hxy]; exact hne

theorem DeadlineUnit.ok_startRelink {du : DeadlineUnit} (h : du.Ok) : du.startRelink.Ok := by
  obtain ⟨h1, h2, h3, h4, h5, h6, h7, h8⟩ := h
  cases ha : du.activity with
  | quiet =>
    cases hr : du.relink with
    | nil => simp only [DeadlineUnit.startRelink, ha, hr]; exact ⟨h1, h2, h3, h4, h5, h6, h7, h8⟩
    | cons r rest =>
      simp only [DeadlineUnit.startRelink, ha, hr]
      rw [hr] at h5
      refine ⟨?_, h2, h3, h4, fun x hx => h5 x (by simp [hx]), h6, h7, h5 r (by simp)⟩
      simp only [DeadlineUnit.entries, ha, hr, List.map_cons, List.append_nil] at h1 ⊢
      refine (List.Perm.nodup_iff ?_).1 h1
      rw [List.append_assoc]
      exact (List.perm_append_singleton _ _).symm.append_left _
  | applying => simp only [DeadlineUnit.startRelink, ha]; exact ⟨h1, h2, h3, h4, h5, h6, h7, h8⟩
  | taking r => simp only [DeadlineUnit.startRelink, ha]; exact ⟨h1, h2, h3, h4, h5, h6, h7, h8⟩
  | walking w => simp only [DeadlineUnit.startRelink, ha]; exact ⟨h1, h2, h3, h4, h5, h6, h7, h8⟩

theorem DeadlineUnit.ok_endWalk {du : DeadlineUnit} (h : du.Ok) : du.endWalk.Ok := by
  have h0 := h
  obtain ⟨h1, h2, h3, h4, h5, h6, h7, h8⟩ := h
  cases ha : du.activity with
  | quiet => simp only [DeadlineUnit.endWalk, ha]; exact h0
  | applying => simp only [DeadlineUnit.endWalk, ha]; exact h0
  | taking r => simp only [DeadlineUnit.endWalk, ha]; exact h0
  | walking w =>
    simp only [DeadlineUnit.endWalk, ha]
    rw [ha] at h8
    have hw : 1 ≤ w.delay.toNat := Nat.pos_of_ne_zero fun c => h8 (BitVec.eq_of_toNat_eq c)
    refine ⟨?_, h2, head_placeEntry hw h3, ?_, h5, h6, h7, trivial⟩
    · simp only [DeadlineUnit.entries, ha, List.append_nil] at h1 ⊢
      have hp := (map_entry_placeEntry w.entry w.reload w.arming du.list w.delay.toNat).append_right
        (du.relink.map RelinkEntry.entry)
      exact (List.Perm.nodup_iff ((List.perm_append_singleton _ _).trans hp.symm)).1 h1
    · have := deltaSum_placeEntry_le w.entry w.reload w.arming du.list w.delay.toNat
      have := w.delay.isLt
      simp only
      omega

theorem DeadlineUnit.ok_takeRequest {d : DeadlineUnit} {r : LinkRequest} (h : d.Ok) (hr : r.Ok)
    (ha : d.activity = .quiet) (hrl : d.relink = []) : (d.takeRequest r).Ok := by
  obtain ⟨h1, h2, h3, h4, h5, h6, h7, h8⟩ := h
  simp only [DeadlineUnit.entries, ha, hrl, List.map_nil, List.append_nil] at h1
  cases r with
  | link e dl rl a =>
    refine ⟨?_, h2, head_unlinkEntry h3, (deltaSum_unlinkEntry_le e d.list).trans h4, h5, h6, h7, hr⟩
    simp only [DeadlineUnit.entries, DeadlineUnit.takeRequest, hrl, List.map_nil, List.append_nil,
      map_entry_unlinkEntry]
    rw [List.nodup_append]
    refine ⟨h1.sublist List.erase_sublist, by simp, ?_⟩
    intro a ha b hb hab
    simp only [List.mem_singleton] at hb
    rw [hab, hb] at ha
    exact h1.not_mem_erase ha
  | unlink e =>
    refine ⟨?_, h2, head_unlinkEntry h3, (deltaSum_unlinkEntry_le e d.list).trans h4, h5, h6, h7, h8⟩
    simp only [DeadlineUnit.entries, DeadlineUnit.takeRequest, ha, hrl, List.map_nil, List.append_nil,
      map_entry_unlinkEntry]
    exact h1.sublist List.erase_sublist
  | reload e v =>
    refine ⟨?_, h2, head_reloadEntry h3, ?_, h5, h6, h7, h8⟩
    · simpa [DeadlineUnit.entries, DeadlineUnit.takeRequest, ha, hrl] using h1
    · simpa [DeadlineUnit.takeRequest] using h4

/-- Everything that taking the next request of a kind can do. -/
theorem DeadlineUnit.takeNext_cases (du : DeadlineUnit) (isKind : LinkRequest → Bool) :
    du.takeNext isKind = du ∨
      ∃ r d, du.RequestNext r d ∧ isKind r = true ∧ du.takeNext isKind = d.takeRequest r := by
  unfold DeadlineUnit.takeNext
  cases h : du.claimRequest with
  | none => exact .inl rfl
  | some x =>
    obtain ⟨r, d⟩ := x
    cases hk : isKind r with
    | false => exact .inl (by simp [hk])
    | true => exact .inr ⟨r, d, DeadlineUnit.claimRequest_eq_some.1 h, hk, by simp [hk]⟩

theorem DeadlineUnit.ok_takeNext {du : DeadlineUnit} {isKind : LinkRequest → Bool} (h : du.Ok) :
    (du.takeNext isKind).Ok := by
  rcases du.takeNext_cases isKind with e | ⟨r, d, hn, _, e⟩
  · rw [e]; exact h
  · obtain ⟨h1, h2, h3, h4, _⟩ := DeadlineUnit.requestNext_ok h hn
    rw [e]; exact DeadlineUnit.ok_takeRequest h1 h2 h3 h4

/-! ## Link status (R29) -/

/-- A pending LINK gives its delay. -/
theorem linkDelay_of_mem {e : EntryId} {d rl : Word} {a : BitVec 8} :
    ∀ {table : List LinkRequest}, (table.map LinkRequest.entry).Nodup → .link e d rl a ∈ table →
      linkDelay e table = some d
  | [], _, h => by simp at h
  | x :: t, hn, h => by
    simp only [List.map_cons, List.nodup_cons] at hn
    unfold linkDelay
    rw [List.findSome?_cons]
    rcases List.mem_cons.1 h with rfl | h'
    · simp
    · have hx : x.entry ≠ e := fun c => hn.1 (by rw [c]; exact List.mem_map.2 ⟨_, h', rfl⟩)
      have ih := linkDelay_of_mem hn.2 h'
      unfold linkDelay at ih
      cases x <;> simp only [LinkRequest.entry, ne_eq] at hx <;> simp [hx, ih]

theorem linkDelay_eq_none {e : EntryId} {table : List LinkRequest} (h : ∀ d rl a, .link e d rl a ∉ table) :
    linkDelay e table = none := by
  unfold linkDelay
  rw [List.findSome?_eq_none_iff]
  intro x hx
  cases x with
  | link e' d rl a =>
    by_cases c : e' = e
    · subst c; exact absurd hx (h d rl a)
    · simp [c]
  | unlink => rfl
  | reload => rfl

theorem unlinkPending_eq_true {e : EntryId} {table : List LinkRequest} :
    unlinkPending e table = true ↔ .unlink e ∈ table := by
  unfold unlinkPending
  rw [List.any_eq_true]
  constructor
  · rintro ⟨x, hx, h⟩
    cases x with
    | unlink e' =>
      simp only [decide_eq_true_eq] at h
      rw [← h]; exact hx
    | link e' d rl a => cases h
    | reload e' v => cases h
  · exact fun h => ⟨_, h, by simp⟩

/-- An entry of the relink list gives its reload. -/
theorem relinkReload_of_mem {e : EntryId} {r : RelinkEntry} (he : r.entry = e) :
    ∀ {l : List RelinkEntry}, (l.map RelinkEntry.entry).Nodup → r ∈ l → relinkReload e l = some r.reload
  | [], _, h => by simp at h
  | x :: t, hn, h => by
    simp only [List.map_cons, List.nodup_cons] at hn
    unfold relinkReload
    rw [List.findSome?_cons]
    rcases List.mem_cons.1 h with rfl | h'
    · simp [he]
    · have hx : x.entry ≠ e := fun c => hn.1 (by rw [c, ← he]; exact List.mem_map.2 ⟨_, h', rfl⟩)
      have ih := relinkReload_of_mem he hn.2 h'
      unfold relinkReload at ih
      simp [hx, ih]

theorem relinkReload_eq_none {e : EntryId} {l : List RelinkEntry} (h : ∀ r ∈ l, r.entry ≠ e) :
    relinkReload e l = none := by
  unfold relinkReload
  rw [List.findSome?_eq_none_iff]
  intro x hx
  simp [h x hx]

/-! ## Before a NOWLO read -/

/-- Everything that bringing the DU up to date does to it: nothing, or its warm reset. -/
theorem State.duUpToDate_cases (s : State) :
    (s.resets.cp ≤ s.resets.du ∧ s.duUpToDate = s) ∨
      (s.resets.du < s.resets.cp ∧ s.duUpToDate = s.warmDu s.resets.cp) := by
  unfold State.duUpToDate
  split
  · exact .inr ⟨‹_›, rfl⟩
  · exact .inl ⟨Nat.le_of_not_lt ‹_›, rfl⟩

/-- A warm reset keeps NOW (R32), so the read returns NOW as it stood. -/
@[simp] theorem State.duUpToDate_now (s : State) : s.duUpToDate.du.now = s.du.now := by
  rcases s.duUpToDate_cases with ⟨_, h⟩ | ⟨_, h⟩
  · rw [h]
  · rw [h]; rfl

/-- The read itself touches no deadline. -/
@[simp] theorem State.readNowlo_du (s : State) : s.readNowlo.du = s.du := rfl
@[simp] theorem State.readNowlo_wires (s : State) : s.readNowlo.wires = s.wires := rfl
@[simp] theorem State.readNowlo_tt (s : State) : s.readNowlo.tt = s.tt := rfl

theorem State.deadlinesOk_duUpToDate {s : State} (h : s.DeadlinesOk) : s.duUpToDate.DeadlinesOk := by
  rcases s.duUpToDate_cases with ⟨_, e⟩ | ⟨_, e⟩
  · rw [e]; exact h
  · rw [e]
    obtain ⟨_, h2, h3, h4⟩ := h
    exact ⟨DeadlineUnit.ok_warm _, h2, fun x hx => h3 x (mem_boundary.1 hx).1, fun x hx => h4 x (mem_boundary.1 hx).1⟩

/-! ## The next request -/

/-- The request that the DU takes next, when it is of the kind asked for. -/
theorem DeadlineUnit.takeNext_eq {du d : DeadlineUnit} {r : LinkRequest} {isKind : LinkRequest → Bool}
    (h : du.RequestNext r d) (hk : isKind r = true) : du.takeNext isKind = d.takeRequest r := by
  simp [DeadlineUnit.takeNext, DeadlineUnit.claimRequest_eq_some.2 h, hk]

end Sys2Proof.Machine
end

