-- ==== Sys2Proof/Laws/Flow.lean ====
section
/-! SUPPORT. The items between blocks (R172): every operation on a FIFO, every block's sending and every warm reset keeps
State.FlowOk. -/

namespace Sys2Proof.Machine

/-! ## One FIFO -/

section fifo
variable {α : Type} {a b : Nat} {w : List (Sent α)}

theorem flowOk_nil : flowOk a b ([] : List (Sent α)) := by simp [flowOk]

theorem flowOk_sendAll (xs : List α) (h : flowOk a b w) : flowOk a b (sendAll a b xs w) := by
  obtain ⟨h1, h2⟩ := h
  unfold sendAll
  split
  · exact ⟨h1, h2⟩
  · next hab =>
    have hnew : ∀ y ∈ xs.map (fun x => ({ epoch := a, item := x } : Sent α)), y.epoch = a := fun y hy => by
      obtain ⟨x, _, rfl⟩ := List.mem_map.1 hy
      rfl
    refine ⟨?_, fun y hy => ?_⟩
    · rw [List.map_append, List.pairwise_append]
      refine ⟨h1, ?_, fun e he f hf => ?_⟩
      · rw [List.map_map, List.pairwise_map]
        exact List.pairwise_of_forall_mem_list fun _ _ _ _ => Nat.le_refl _
      · obtain ⟨y, hy, rfl⟩ := List.mem_map.1 he
        obtain ⟨z, hz, rfl⟩ := List.mem_map.1 hf
        rw [hnew z hz]
        exact (h2 y hy).2
    · rcases List.mem_append.1 hy with hy | hy
      · exact h2 y hy
      · rw [hnew y hy]
        omega

theorem flowOk_send (x : α) (h : flowOk a b w) : flowOk a b (send a b x w) := by
  rw [← sendAll_singleton]; exact flowOk_sendAll [x] h

theorem flowOk_receive {n : Nat} {x : α} {rest : List (Sent α)} (h : flowOk a b w) (hr : receive n w = some (x, rest)) :
    flowOk a b rest := by
  rw [receive_eq_some.1 hr] at h
  exact ⟨(List.pairwise_cons.1 h.1).2, fun y hy => h.2 y (List.mem_cons_of_mem _ hy)⟩

theorem flowOk_boundary (c : Nat) (h : flowOk a b w) : flowOk a c (boundary c w) :=
  ⟨h.1.sublist (List.filter_sublist.map _), fun _ hy => ⟨(mem_boundary.1 hy).2, (h.2 _ (mem_boundary.1 hy).1).2⟩⟩

theorem flowOk_mono {c : Nat} (hc : a ≤ c) (h : flowOk a b w) : flowOk c b w :=
  ⟨h.1, fun y hy => ⟨(h.2 y hy).1, (h.2 y hy).2.trans hc⟩⟩

end fifo

/-! ## The part -/

/-- FlowOk speaks of the FIFOs and the counts of warm resets alone. -/
theorem State.flowOk_congr {s t : State} (h : s.FlowOk) (hw : t.wires = s.wires) (hr : t.resets = s.resets) :
    t.FlowOk := by
  unfold State.FlowOk at *
  rw [hw, hr]; exact h

theorem State.flowOk_commitDu {s : State} (o : DuOut) (h : s.FlowOk) : (s.commitDu o).FlowOk := by
  obtain ⟨h0, h1, h2, h3, h4, h5, h6, h7, h8, h9, h10, h11, h12, h13⟩ := h
  exact ⟨h0, h1, h2, flowOk_sendAll _ h3, flowOk_sendAll _ h4, flowOk_sendAll _ h5, h6, h7, h8, h9, h10, h11, h12, h13⟩

theorem State.flowOk_commitTt {s : State} (o : TtOut) (h : s.FlowOk) : (s.commitTt o).FlowOk := by
  obtain ⟨h0, h1, h2, h3, h4, h5, h6, h7, h8, h9, h10, h11, h12, h13⟩ := h
  exact ⟨h0, h1, h2, h3, h4, h5, flowOk_sendAll _ h6, h7, flowOk_sendAll _ h8, h9, flowOk_sendAll _ h10, h11, h12, h13⟩

theorem State.flowOk_commitQe {s : State} (o : QeOut) (h : s.FlowOk) : (s.commitQe o).FlowOk := by
  obtain ⟨h0, h1, h2, h3, h4, h5, h6, h7, h8, h9, h10, h11, h12, h13⟩ := h
  exact ⟨h0, h1, h2, h3, h4, h5, h6, flowOk_sendAll _ h7, h8, h9, h10, h11, flowOk_sendAll _ h12, h13⟩

theorem State.flowOk_commitLu {s : State} (o : LuOut) (h : s.FlowOk) : (s.commitLu o).FlowOk := by
  obtain ⟨h0, h1, h2, h3, h4, h5, h6, h7, h8, h9, h10, h11, h12, h13⟩ := h
  exact ⟨h0, h1, h2, h3, h4, h5, h6, h7, h8, flowOk_sendAll _ h9, h10, flowOk_sendAll _ h11, h12, h13⟩

theorem State.flowOk_sendTick {s : State} (h : s.FlowOk) : s.sendTick.FlowOk := by
  obtain ⟨h0, h1, h2, h⟩ := h
  exact ⟨h0, flowOk_send _ h1, flowOk_send _ h2, h⟩

theorem State.flowOk_complete {s : State} (c : Completion) (h : s.FlowOk) : (s.complete c).FlowOk := by
  obtain ⟨h0, h1, h2, h3, h4, h5, h6, h7, h8, h9, h10, h11, h12, h13⟩ := h
  exact ⟨h0, h1, h2, h3, h4, h5, h6, h7, h8, h9, h10, h11, h12, flowOk_send _ h13⟩

section warm
variable {s : State} {e : Nat} (h : s.FlowOk) (hc : e ≤ s.resets.cp)
include h hc

theorem State.flowOk_warmTb (he : s.resets.tb ≤ e) : (s.warmTb e).FlowOk := by
  obtain ⟨⟨c1, c2, c3, c4, c5, c6⟩, h1, h2, h⟩ := h
  exact ⟨⟨hc, c2, c3, c4, c5, c6⟩, flowOk_mono he h1, flowOk_mono he h2, h⟩

theorem State.flowOk_warmDu (he : s.resets.du ≤ e) : (s.warmDu e).FlowOk := by
  obtain ⟨⟨c1, c2, c3, c4, c5, c6⟩, h1, h2, h3, h4, h5, h6, h7, h⟩ := h
  exact ⟨⟨c1, hc, c3, c4, c5, c6⟩, flowOk_boundary e h1, h2, flowOk_mono he h3, flowOk_mono he h4, flowOk_mono he h5,
    flowOk_boundary e h6, flowOk_boundary e h7, h⟩

theorem State.flowOk_warmTt (he : s.resets.tt ≤ e) : (s.warmTt e).FlowOk := by
  obtain ⟨⟨c1, c2, c3, c4, c5, c6⟩, h1, h2, h3, h4, h5, h6, h7, h8, h9, h10, h11, h12, h13⟩ := h
  exact ⟨⟨c1, c2, hc, c4, c5, c6⟩, h1, h2, flowOk_boundary e h3, h4, h5, flowOk_mono he h6, h7, flowOk_mono he h8, h9,
    flowOk_mono he h10, flowOk_boundary e h11, h12, h13⟩

theorem State.flowOk_warmQe (he : s.resets.qe ≤ e) : (s.warmQe e).FlowOk := by
  obtain ⟨⟨c1, c2, c3, c4, c5, c6⟩, h1, h2, h3, h4, h5, h6, h7, h8, h9, h10, h11, h12, h13⟩ := h
  exact ⟨⟨c1, c2, c3, hc, c5, c6⟩, h1, h2, h3, flowOk_boundary e h4, h5, h6, flowOk_mono he h7, flowOk_boundary e h8,
    flowOk_boundary e h9, h10, h11, flowOk_mono he h12, h13⟩

theorem State.flowOk_warmLu (he : s.resets.lu ≤ e) : (s.warmLu e).FlowOk := by
  obtain ⟨⟨c1, c2, c3, c4, c5, c6⟩, h1, h2, h3, h4, h5, h6, h7, h8, h9, h10, h11, h12, h13⟩ := h
  exact ⟨⟨c1, c2, c3, c4, hc, c6⟩, h1, flowOk_boundary e h2, h3, h4, h5, h6, h7, h8, flowOk_mono he h9,
    flowOk_boundary e h10, flowOk_mono he h11, h12, h13⟩

theorem State.flowOk_warmNu : (s.warmNu e).FlowOk := by
  obtain ⟨⟨c1, c2, c3, c4, c5, c6⟩, h1, h2, h3, h4, h5, h6, h7, h8, h9, h10, h11, h12, h13⟩ := h
  exact ⟨⟨c1, c2, c3, c4, c5, hc⟩, h1, h2, h3, h4, flowOk_boundary e h5, h6, h7, h8, h9, h10, h11, flowOk_boundary e h12,
    flowOk_boundary e h13⟩

end warm

theorem State.flowOk_duUpToDate {s : State} (h : s.FlowOk) : s.duUpToDate.FlowOk := by
  unfold State.duUpToDate
  split
  · exact State.flowOk_warmDu h (Nat.le_refl _) (Nat.le_of_lt ‹_›)
  · exact h

theorem State.flowOk_readNowlo {s : State} (h : s.FlowOk) : s.readNowlo.FlowOk := State.flowOk_congr h rfl rfl

theorem State.flowOk_qeUpToDate {s : State} (h : s.FlowOk) : s.qeUpToDate.FlowOk := by
  unfold State.qeUpToDate
  split
  · exact State.flowOk_warmQe h (Nat.le_refl _) (Nat.le_of_lt ‹_›)
  · exact h

theorem State.flowOk_nuUpToDate {s : State} (h : s.FlowOk) : s.nuUpToDate.FlowOk := by
  unfold State.nuUpToDate
  split
  · exact State.flowOk_warmNu h (Nat.le_refl _)
  · exact h

theorem State.flowOk_followInten {s : State} (w : Word) (h : s.FlowOk) : (s.followInten w).FlowOk := by
  unfold State.followInten
  split
  · exact h
  · exact State.flowOk_nuUpToDate h

theorem State.flowOk_controlWrite {s : State} (w : Word) (h : s.FlowOk) : (s.controlWrite w).FlowOk := by
  have hcp : (s.followInten w).resets.cp = s.resets.cp := by
    unfold State.followInten State.nuUpToDate
    split
    · rfl
    · split <;> rfl
  replace h := State.flowOk_followInten w h
  unfold State.controlWrite
  split
  · obtain ⟨⟨c1, c2, c3, c4, c5, c6⟩, h1, h2, h3, h4, h5, h6, h7, h8, h9, h10, h11, h12, h13⟩ := h
    refine ⟨⟨?_, ?_, ?_, ?_, ?_, ?_⟩, h1, h2, h3, h4, h5, h6, h7, h8, h9, h10, h11, h12, flowOk_mono ?_ h13⟩ <;>
      simp only [State.withResets_resets] <;> omega
  · exact State.flowOk_congr h rfl rfl

theorem State.flowOk_flagWrite {s : State} (r : FlagReg) (w : Word) (h : s.FlowOk) : (s.flagWrite r w).FlowOk :=
  State.flowOk_congr (State.flowOk_nuUpToDate h) rfl rfl

theorem State.flowOk_reset : State.reset.FlowOk := by decide

end Sys2Proof.Machine
end

