-- ==== Sys2Proof/Laws/Pool.lean ====
section
/-! SUPPORT. Everything the queue operations do to the pool: the orders, admission, and QueueEngine.PoolOk. -/

namespace Sys2Proof.Machine

/-! ## Orders (R61, R92) -/

theorem insertRanked_perm {α : Type} (rank : α → Nat) (x : α) : ∀ l : List α, (insertRanked rank x l).Perm (x :: l)
  | [] => .refl _
  | y :: rest => by
    unfold insertRanked
    split
    · exact ((insertRanked_perm rank x rest).cons y).trans (.swap _ _ _)
    · exact .refl _

/-- An item joins a list after the last of the items of its own or a higher rank that head it. -/
theorem insertRanked_split {α : Type} (rank : α → Nat) (x : α) : ∀ l : List α, ∃ a b, l = a ++ b ∧
    insertRanked rank x l = a ++ x :: b ∧ (∀ z ∈ a, rank x ≤ rank z) ∧ ∀ z ∈ b.head?, rank z < rank x
  | [] => ⟨[], [], rfl, rfl, by simp, by simp⟩
  | y :: rest => by
    unfold insertRanked
    split
    · next h =>
      obtain ⟨a, b, h1, h2, h3, h4⟩ := insertRanked_split rank x rest
      exact ⟨y :: a, b, by rw [h1]; rfl, by rw [h2]; rfl, by simpa [h] using h3, h4⟩
    · next h => exact ⟨[], y :: rest, rfl, rfl, by simp, by simp; omega⟩

theorem insertRanked_sorted {α : Type} (rank : α → Nat) (x : α) :
    ∀ l : List α, l.Pairwise (fun a b => rank b ≤ rank a) → (insertRanked rank x l).Pairwise fun a b => rank b ≤ rank a
  | [], _ => by simp [insertRanked]
  | y :: rest, h => by
    obtain ⟨h1, h2⟩ := List.pairwise_cons.1 h
    unfold insertRanked
    split
    · next hxy =>
      refine List.pairwise_cons.2 ⟨fun z hz => ?_, insertRanked_sorted rank x rest h2⟩
      rcases List.mem_cons.1 ((insertRanked_perm rank x rest).mem_iff.1 hz) with rfl | hz
      · exact hxy
      · exact h1 z hz
    · next hxy =>
      refine List.pairwise_cons.2 ⟨fun z hz => ?_, h⟩
      rcases List.mem_cons.1 hz with rfl | hz
      · omega
      · have := h1 z hz; omega

theorem insertOrdered_perm {α : Type} (o : Order) (rank : α → Nat) (x : α) (l : List α) :
    (insertOrdered o rank x l).Perm (x :: l) := by
  cases o with
  | fifo => exact List.perm_append_singleton x l
  | priority => exact insertRanked_perm rank x l

@[simp] theorem length_insertOrdered {α : Type} (o : Order) (rank : α → Nat) (x : α) (l : List α) :
    (insertOrdered o rank x l).length = l.length + 1 := by
  simpa using (insertOrdered_perm o rank x l).length_eq

theorem insertOrdered_sorted {α : Type} {o : Order} (rank : α → Nat) (x : α) {l : List α}
    (h : o = .priority → l.Pairwise fun a b => rank b ≤ rank a) :
    o = .priority → (insertOrdered o rank x l).Pairwise fun a b => rank b ≤ rank a := by
  rintro rfl
  exact insertRanked_sorted rank x l (h rfl)

theorem joins_insertOrdered (o : Order) (m : Message) (l : List Message) :
    Joins o m l (insertOrdered o Message.rank m l) := by
  cases o with
  | fifo => rfl
  | priority => exact insertRanked_split Message.rank m l

/-! ## The victim (R66) -/

theorem lowestRank_le (x : Message) : ∀ l : List Message, ∀ y ∈ x :: l, lowestRank x l ≤ y.rank
  | [], y, hy => by simp at hy; simp [lowestRank, hy]
  | z :: rest, y, hy => by
    unfold lowestRank
    rcases List.mem_cons.1 hy with rfl | hy
    · exact Nat.min_le_left _ _
    · exact (Nat.min_le_right _ _).trans (lowestRank_le z rest y hy)

theorem exists_lowestRank (x : Message) : ∀ l : List Message, ∃ y ∈ x :: l, y.rank = lowestRank x l
  | [] => ⟨x, by simp, rfl⟩
  | z :: rest => by
    obtain ⟨y, hy, h⟩ := exists_lowestRank z rest
    unfold lowestRank
    by_cases hm : x.rank ≤ lowestRank z rest
    · exact ⟨x, by simp, (Nat.min_eq_left hm).symm⟩
    · exact ⟨y, List.mem_cons_of_mem _ hy, by rw [h, Nat.min_eq_right (by omega)]⟩

theorem find_split {α : Type} (p : α → Bool) : ∀ (l : List α) (v : α), l.find? p = some v →
    ∃ a b, l = a ++ v :: b ∧ l.eraseP p = a ++ b ∧ p v = true ∧ ∀ z ∈ a, p z = false
  | [], v, h => by simp at h
  | x :: rest, v, h => by
    rw [List.find?_cons] at h
    cases hp : p x with
    | true =>
      simp only [hp, Option.some.injEq] at h
      subst h
      exact ⟨[], rest, rfl, by simp [hp], hp, by simp⟩
    | false =>
      simp only [hp] at h
      obtain ⟨a, b, h1, h2, h3, h4⟩ := find_split p rest v h
      exact ⟨x :: a, b, by rw [h1]; rfl, by simp [hp, h2], h3, by simpa [hp] using h4⟩

/-- The victim as R66 says it. -/
theorem QueueRec.victim_eq_some {r : QueueRec} {m v : Message} {rest : List Message}
    (h : r.victim m = some (v, rest)) : IsVictim r.msgOrder m v r.msgs rest := by
  unfold QueueRec.victim at h
  cases hm : r.msgs with
  | nil => simp [hm] at h
  | cons x l =>
    rw [hm] at h
    cases ho : r.msgOrder with
    | fifo =>
      simp only [ho, Option.some.injEq, Prod.mk.injEq] at h
      rw [h.1, h.2]; rfl
    | priority =>
      simp only [ho] at h
      split at h
      · next hle =>
        split at h
        · simp at h
        · next y hy =>
          simp only [Option.some.injEq, Prod.mk.injEq] at h
          obtain ⟨a, b, h1, h2, h3, h4⟩ := find_split _ _ _ hy
          rw [← h.1, ← h.2]
          have hr : y.rank = lowestRank x l := by simpa using h3
          refine ⟨a, b, h1, h2, fun z hz => ?_, fun z hz => ?_, by omega⟩
          · rw [hr]; exact lowestRank_le x l z hz
          · have hz1 := lowestRank_le x l z (by rw [h1]; simp [hz])
            have hz2 : z.rank ≠ lowestRank x l := by simpa using h4 z hz
            omega
      · simp at h

theorem QueueRec.victim_eq_none {r : QueueRec} {m : Message} (h : r.victim m = none) :
    NoVictim r.msgOrder m r.msgs := by
  unfold QueueRec.victim at h
  cases hm : r.msgs with
  | nil => cases r.msgOrder <;> simp [NoVictim]
  | cons x l =>
    rw [hm] at h
    cases ho : r.msgOrder with
    | fifo => simp [ho] at h
    | priority =>
      simp only [ho] at h
      split at h
      · next hle =>
        split at h
        · next hy =>
          obtain ⟨y, hy1, hy2⟩ := exists_lowestRank x l
          have := List.find?_eq_none.1 hy y hy1
          simp [hy2] at this
        · simp at h
      · next hle =>
        intro z hz
        have := lowestRank_le x l z hz
        omega

/-- Displacing keeps the number of messages and the order. -/
theorem isVictim_length {o : Order} {m v : Message} {before rest : List Message} (h : IsVictim o m v before rest) :
    before.length = rest.length + 1 := by
  cases o with
  | fifo => rw [show before = v :: rest from h]; rfl
  | priority =>
    obtain ⟨x, y, rfl, rfl, _⟩ := h
    simp; omega

theorem isVictim_sublist {o : Order} {m v : Message} {before rest : List Message} (h : IsVictim o m v before rest) :
    rest.Sublist before := by
  cases o with
  | fifo => rw [show before = v :: rest from h]; exact List.sublist_cons_self _ _
  | priority =>
    obtain ⟨x, y, rfl, rfl, _⟩ := h
    exact (List.Sublist.refl x).append (List.sublist_cons_self _ _)

/-! ## The pool -/

theorem QueueEngine.onlyQueue_removeHead (qe : QueueEngine) (q : QueueId) (rest : List Message) :
    qe.OnlyQueue q { qe.queue q with msgs := rest } (qe.removeHead q rest) := qe.onlyQueue_setQueue q _

theorem QueueEngine.onlyQueue_discardAll (qe : QueueEngine) (q : QueueId) :
    qe.OnlyQueue q { qe.queue q with msgs := [] } (qe.discardAll q) := qe.onlyQueue_setQueue q _

/-- One queue replaced and the free cells changed with it. -/
theorem QueueEngine.poolOk_setQueue {qe : QueueEngine} {q : QueueId} {r : QueueRec} {f : Nat} (h : qe.PoolOk) (hr : r.Ok)
    (hc : f + r.count = qe.free + (qe.queue q).count) (hu : qe.unmetTotal + r.unmet ≤ f + (qe.queue q).unmet) :
    ({ qe.setQueue q r with free := f } : QueueEngine).PoolOk := by
  obtain ⟨h1, h2, h3⟩ := h
  have e1 := sumBank_set QueueRec.count qe.queues q.val q.isLt r
  have e2 := sumBank_set QueueRec.unmet qe.queues q.val q.isLt r
  change _ + (qe.queue q).count = _ at e1
  change _ + (qe.queue q).unmet = _ at e2
  refine ⟨?_, ?_, fun j => ?_⟩
  · change f + sumBank QueueRec.count (qe.queues.set q.val r) = _
    omega
  · change sumBank QueueRec.unmet (qe.queues.set q.val r) ≤ f
    unfold QueueEngine.unmetTotal at hu
    omega
  · change ((qe.setQueue q r).queue j).Ok
    rw [QueueEngine.queue_setQueue]
    split
    · exact hr
    · exact h3 j

/-- One queue replaced by one with as many messages and the same reserve. -/
theorem QueueEngine.poolOk_setQueue_same {qe : QueueEngine} {q : QueueId} {r : QueueRec} (h : qe.PoolOk) (hr : r.Ok)
    (hc : r.count = (qe.queue q).count) (hu : r.reserve = (qe.queue q).reserve) : (qe.setQueue q r).PoolOk := by
  refine QueueEngine.poolOk_setQueue (f := qe.free) h hr (by omega) ?_
  have := h.2.1
  unfold QueueRec.unmet
  rw [hc, hu]
  omega

/-- The pool does not depend on contexts and log. -/
theorem QueueEngine.poolOk_congr {a b : QueueEngine} (h : a.PoolOk) (hf : b.free = a.free) (hq : b.queues = a.queues) :
    b.PoolOk := by
  unfold QueueEngine.PoolOk QueueEngine.unmetTotal QueueEngine.queue at *
  rw [hf, hq]; exact h

theorem QueueEngine.unmet_le_total (qe : QueueEngine) (q : QueueId) : (qe.queue q).unmet ≤ qe.unmetTotal :=
  le_sumBank QueueRec.unmet qe.queues q.val q.isLt

theorem QueueEngine.admits_eq {qe : QueueEngine} {q : QueueId} : qe.admits q = true ↔ Admitted q qe := by
  change _ ↔ _ ∧ (_ ∨ qe.unmetTotal < qe.free)
  simp only [QueueEngine.admits, Bool.and_eq_true, Bool.or_eq_true, decide_eq_true_eq]

theorem QueueEngine.poolOk_store {qe : QueueEngine} {q : QueueId} (m : Message) (h : qe.PoolOk)
    (hw : (qe.queue q).waiters = []) (ha : qe.admits q = true) : (qe.store q m).qe.PoolOk := by
  obtain ⟨a1, a2⟩ := QueueEngine.admits_eq.1 ha
  change _ ∨ qe.unmetTotal < qe.free at a2
  obtain ⟨k1, k2, k3, k4, k5, k6, k7, k8, k9⟩ := h.2.2 q
  have hu := qe.unmet_le_total q
  have hf := h.2.1
  have hlen : (qe.queue q).count = (qe.queue q).msgs.length := rfl
  have hun : (qe.queue q).unmet = (qe.queue q).reserve - (qe.queue q).count := rfl
  refine QueueEngine.poolOk_setQueue h ?_ ?_ ?_
  · refine ⟨?_, k2, k3, ?_, ?_, k6, k7, .inr hw, ?_⟩
    · simp only [QueueRec.count, QueueRec.insert, length_insertOrdered]; omega
    · simp only [QueueRec.count, QueueRec.insert, length_insertOrdered]; omega
    · simp only; omega
    · exact insertOrdered_sorted Message.rank m k9
  · simp only [QueueRec.count, QueueRec.insert, length_insertOrdered]; omega
  · simp only [QueueRec.unmet, QueueRec.count, QueueRec.insert, length_insertOrdered] at *; omega

theorem QueueEngine.poolOk_lose {qe : QueueEngine} {q : QueueId} (h : qe.PoolOk) :
    (qe.lose q (qe.queue q).msgs).qe.PoolOk :=
  QueueEngine.poolOk_setQueue_same h (h.2.2 q) rfl rfl

theorem QueueEngine.poolOk_displace {qe : QueueEngine} {q : QueueId} {m v : Message} {rest : List Message}
    (h : qe.PoolOk) (hw : (qe.queue q).waiters = []) (hv : (qe.queue q).victim m = some (v, rest)) :
    (qe.lose q (insertOrdered (qe.queue q).msgOrder Message.rank m rest)).qe.PoolOk := by
  have hv := QueueRec.victim_eq_some hv
  have hl := isVictim_length hv
  obtain ⟨k1, k2, k3, k4, k5, k6, k7, k8, k9⟩ := h.2.2 q
  have hlen : (insertOrdered (qe.queue q).msgOrder Message.rank m rest).length = (qe.queue q).msgs.length := by
    rw [length_insertOrdered, hl]
  refine QueueEngine.poolOk_setQueue_same h ⟨?_, k2, k3, ?_, k5, k6, k7, .inr hw, ?_⟩ hlen rfl
  · simpa only [QueueRec.count, hlen] using k1
  · simpa only [QueueRec.count, hlen] using k4
  · exact insertOrdered_sorted Message.rank m fun ho => (k9 ho).sublist (isVictim_sublist hv)

/-- A waiter that leaves its list changes nothing in the pool. -/
theorem QueueEngine.poolOk_dropWaiter {qe : QueueEngine} (q : QueueId) (c : ContextId) (h : qe.PoolOk) :
    (qe.dropWaiter q c).PoolOk := by
  obtain ⟨k1, k2, k3, k4, k5, k6, k7, k8, k9⟩ := h.2.2 q
  refine QueueEngine.poolOk_setQueue_same h ⟨k1, k2, k3, k4, k5, k6, fun he => ?_, ?_, k9⟩ rfl rfl
  · obtain ⟨a, b, c⟩ := k7 he
    exact ⟨a, b, by simp [c]⟩
  · exact k8.imp_right fun hw => by simp [hw]

theorem QueueEngine.poolOk_finishWait {qe : QueueEngine} (q : QueueId) (c : ContextId) (o : WaitOutcome)
    (slot : Option Message) (now : Word) (b : Bool) (h : qe.PoolOk) : (qe.finishWait q c o slot now b).PoolOk :=
  QueueEngine.poolOk_congr (QueueEngine.poolOk_dropWaiter q c h) rfl rfl

/-- Whatever becomes of a post, the pool's laws hold. -/
theorem QueueEngine.poolOk_takeEnabled {qe : QueueEngine} (q : QueueId) (m : Message) (h : qe.PoolOk) :
    (qe.takeEnabled q m).2.qe.PoolOk := by
  unfold QueueEngine.takeEnabled
  cases hw : (qe.queue q).waiters with
  | cons c l => exact QueueEngine.poolOk_finishWait _ _ _ _ _ _ h
  | nil =>
    simp only
    split
    · next ha => exact QueueEngine.poolOk_store m h hw ha
    · unfold QueueEngine.overflow
      split
      · exact QueueEngine.poolOk_lose h
      · split
        · exact QueueEngine.poolOk_lose h
        · next hv => exact QueueEngine.poolOk_displace h hw hv

theorem QueueEngine.poolOk_takePost {qe : QueueEngine} (q : QueueId) (m : Message) (h : qe.PoolOk) :
    (qe.takePost q m).2.qe.PoolOk := by
  unfold QueueEngine.takePost
  split
  · exact QueueEngine.poolOk_takeEnabled q m h
  · exact QueueEngine.poolOk_lose h

theorem QueueEngine.poolOk_removeHead {qe : QueueEngine} {q : QueueId} {m : Message} {rest : List Message}
    (h : qe.PoolOk) (hm : (qe.queue q).msgs = m :: rest) : (qe.removeHead q rest).PoolOk := by
  obtain ⟨k1, k2, k3, k4, k5, k6, k7, k8, k9⟩ := h.2.2 q
  have hlen : (qe.queue q).count = rest.length + 1 := by simp [QueueRec.count, hm]
  have hf := h.2.1
  refine QueueEngine.poolOk_setQueue h ⟨?_, k2, k3, ?_, k5, k6, k7, ?_, fun ho => ?_⟩ ?_ ?_
  · simp only [QueueRec.count] at *; omega
  · simp only [QueueRec.count] at *; omega
  · rw [hm] at k8
    exact .inr (k8.resolve_left (by simp))
  · exact (List.pairwise_cons.1 (hm ▸ k9 ho)).2
  · simp only [QueueRec.count] at *; omega
  · simp only [QueueRec.unmet, QueueRec.count] at *; omega

theorem QueueEngine.poolOk_discardAll {qe : QueueEngine} (q : QueueId) (h : qe.PoolOk) : (qe.discardAll q).PoolOk := by
  obtain ⟨k1, k2, k3, k4, k5, k6, k7, k8, k9⟩ := h.2.2 q
  have hf := h.2.1
  refine QueueEngine.poolOk_setQueue h ⟨?_, k2, k3, ?_, k5, k6, k7, .inl rfl, fun _ => .nil⟩ ?_ ?_
  · simp [QueueRec.count]
  · simp [QueueRec.count]
  · simp [QueueRec.count]
  · simp only [QueueRec.unmet, QueueRec.count, List.length_nil] at *; omega

theorem QueueEngine.poolOk_purgeWaiters (q : QueueId) (now : Word) :
    ∀ (l : List ContextId) (qe : QueueEngine), qe.PoolOk → (QueueEngine.purgeWaiters q now l qe).PoolOk
  | [], _, h => h
  | _ :: rest, _, h => QueueEngine.poolOk_purgeWaiters q now rest _ (QueueEngine.poolOk_finishWait _ _ _ _ _ _ h)

theorem QueueEngine.poolOk_beginWait {qe : QueueEngine} (c : ContextId) {q : QueueId} (t : Option Word) (h : qe.PoolOk)
    (he : (qe.queue q).enabled = true) (hm : (qe.queue q).msgs = []) : (qe.beginWait c q t).PoolOk := by
  obtain ⟨k1, k2, k3, k4, k5, k6, k7, k8, k9⟩ := h.2.2 q
  refine QueueEngine.poolOk_congr (a := qe.setQueue q { qe.queue q with
      waiters := insertOrdered (qe.queue q).waiterOrder qe.waiterRank c (qe.queue q).waiters })
    (QueueEngine.poolOk_setQueue_same h ⟨k1, k2, k3, k4, k5, k6, fun hd => ?_, .inl hm, k9⟩ rfl rfl) rfl rfl
  simp [he] at hd

/-- Clearing the statistics keeps the laws. -/
theorem QueueEngine.poolOk_cleared {qe : QueueEngine} (q : QueueId) (h : qe.PoolOk) :
    (qe.setQueue q (qe.queue q).cleared).PoolOk := by
  obtain ⟨k1, k2, k3, k4, k5, k6, k7, k8, k9⟩ := h.2.2 q
  exact QueueEngine.poolOk_setQueue_same h ⟨k1, k2, k3, Nat.le_refl _, k4.trans k5, k6, k7, k8, k9⟩ rfl rfl

/-- An empty queue configured within the checks of R74 keeps the laws. -/
theorem QueueEngine.poolOk_configured {qe : QueueEngine} {q : QueueId} {p : Words6} (h : qe.PoolOk)
    (hm : (qe.queue q).msgs = []) (hw : (qe.queue q).waiters = [])
    (hr : bit p[0] 3 = true → setupInRange p[1].toNat p[2].toNat p[3].toNat = true)
    (hc : bit p[0] 3 = true → p[2].toNat + qe.unmetOthers q ≤ qe.free) :
    (qe.setQueue q ((qe.queue q).configured p)).PoolOk := by
  obtain ⟨k1, k2, k3, k4, k5, k6, k7, k8, k9⟩ := h.2.2 q
  have hu := qe.unmet_le_total q
  have hf := h.2.1
  have hcount : (qe.queue q).count = 0 := by simp [QueueRec.count, hm]
  refine QueueEngine.poolOk_setQueue (f := qe.free) h ?_ rfl ?_
  · cases hb : bit p[0] 3 with
    | true =>
      have hr := hr hb
      simp only [setupInRange, decide_eq_true_eq] at hr
      simp only [QueueRec.configured, QueueRec.Ok, QueueRec.count, hm, hw, hb, if_true]
      refine ⟨by simp, by omega, by omega, by simp, k5, fun _ => by omega, by simp, by simp, by simp⟩
    | false =>
      simp only [QueueRec.configured, QueueRec.Ok, QueueRec.count, hm, hw, hb]
      refine ⟨by simp, by simp, by simp, by simp, k5, by simp, by simp, by simp, by simp⟩
  · cases hb : bit p[0] 3 with
    | true =>
      have hc := hc hb
      unfold QueueEngine.unmetOthers at hc
      simp only [QueueRec.configured, QueueRec.unmet, QueueRec.count, hb, if_true] at *
      omega
    | false =>
      simp only [QueueRec.configured, QueueRec.unmet, QueueRec.count, hb] at *
      simp; omega

theorem QueueEngine.poolOk_warm {qe : QueueEngine} (h : qe.PoolOk) : qe.warm.PoolOk := by
  obtain ⟨h1, h2, h3⟩ := h
  refine ⟨?_, ?_, fun q => ?_⟩
  · change Config.cells + sumBank QueueRec.count (mapBank QueueRec.warm qe.queues) = _
    rw [sumBank_mapBank]
    simp [sumBank, QueueRec.warm, QueueRec.count]
  · change sumBank QueueRec.unmet (mapBank QueueRec.warm qe.queues) ≤ Config.cells
    rw [sumBank_mapBank]
    have hle : sumBank (fun x : QueueRec => x.warm.unmet) qe.queues ≤
        sumBank (fun x => x.count + x.unmet) qe.queues :=
      sumBank_le _ _ _ fun x => by simp [QueueRec.warm, QueueRec.unmet, QueueRec.count]; omega
    rw [sumBank_add] at hle
    unfold QueueEngine.unmetTotal at h2
    omega
  · rw [QueueEngine.queue_warm]
    obtain ⟨k1, k2, k3, k4, k5, k6, k7, k8, k9⟩ := h3 q
    exact ⟨by simp [QueueRec.warm, QueueRec.count], k2, k3, by simp [QueueRec.warm, QueueRec.count],
      by simp [QueueRec.warm], k6, fun he => ⟨(k7 he).1, (k7 he).2.1, rfl⟩, .inl rfl, fun _ => .nil⟩

theorem QueueEngine.poolOk_cold : QueueEngine.cold.PoolOk := by decide

end Sys2Proof.Machine
end

