-- ==== Sys2Proof/Laws/Waits.lean ====
section
/-! SUPPORT. Everything that happens to contexts, waiter lists and the completion log, and QueueEngine.WaitOk: a wait
begins, a waiter leaves, a COMPLETE context returns to IDLE, or nothing of these changes. -/

namespace Sys2Proof.Machine

/-- Sortedness of a waiter list depends on its members' ranks alone. -/
theorem sorted_congr {l : List ContextId} {f g : ContextId → Nat} (h : l.Pairwise fun c d => f d ≤ f c)
    (hfg : ∀ c ∈ l, g c = f c) : l.Pairwise fun c d => g d ≤ g c :=
  h.imp_of_mem fun hc hd hle => by rw [hfg _ hc, hfg _ hd]; exact hle

/-- Waiters, waiter orders and contexts as before, the log as before or with entries removed. -/
theorem QueueEngine.waitOk_quiet {a b : QueueEngine} (h : a.WaitOk)
    (hq : ∀ q, (b.queue q).waiters = (a.queue q).waiters)
    (ho : ∀ q, (b.queue q).waiterOrder = (a.queue q).waiterOrder ∨ (a.queue q).waiters = [])
    (hc : b.contexts = a.contexts) (hl : b.log.Sublist a.log) : b.WaitOk := by
  obtain ⟨h1, h2, h3, h4, h5, h6⟩ := h
  have hctx : ∀ c, b.context c = a.context c := fun c => by simp only [QueueEngine.context, hc]
  refine ⟨fun c => hctx c ▸ h1 c, fun q => hq q ▸ h2 q, fun q hp => ?_, fun q c => ?_, ?_, fun e he => ?_⟩
  · rw [hq q]
    rcases ho q with ho | ho
    · refine sorted_congr (h3 q (ho ▸ hp)) fun c _ => ?_
      simp only [QueueEngine.waiterRank, hctx]
    · rw [ho]; exact .nil
  · rw [hq q, hctx]; exact h4 q c
  · exact h5.sublist (hl.map _)
  · rw [hctx]; exact h6 e (hl.subset he)

/-- A waiter leaves its list: it returns to IDLE with no log entry, or completes with one. -/
theorem QueueEngine.waitOk_leave {a b : QueueEngine} {q : QueueId} {c : ContextId} {x : Context} {r : QueueRec}
    (h : a.WaitOk) (hc : c ∈ (a.queue q).waiters) (hq : a.OnlyQueue q r b)
    (hw : r.waiters = (a.queue q).waiters.erase c) (hr : r.waiterOrder = (a.queue q).waiterOrder)
    (hx : a.OnlyContext c x b) (hok : x.Ok) (hne : x.state ≠ .waiting)
    (hl : b.log = a.log ∨ ∃ o, x.outcome = some o ∧ b.log = a.log ++ [{ context := c, outcome := o, queue := x.queue }]) :
    b.WaitOk := by
  obtain ⟨h1, h2, h3, h4, h5, h6⟩ := h
  obtain ⟨hq1, hq2⟩ := hq
  obtain ⟨hx1, hx2⟩ := hx
  obtain ⟨hcw, hcq⟩ := (h4 q c).1 hc
  have hnl : c ∉ a.log.map LogEntry.context := fun hm => by
    obtain ⟨e, he, rfl⟩ := List.mem_map.1 hm
    have := (h6 e he).1
    rw [hcw] at this
    exact absurd this (by simp)
  have hwait : ∀ j, c ∉ (b.queue j).waiters := fun j hj => by
    by_cases hjq : j = q
    · subst hjq
      rw [hq1, hw] at hj
      exact (h2 j).not_mem_erase hj
    · rw [hq2 j hjq] at hj
      exact hjq (((h4 j c).1 hj).2.symm.trans hcq)
  have hmem : ∀ j d, d ≠ c → (d ∈ (b.queue j).waiters ↔ d ∈ (a.queue j).waiters) := fun j d hd => by
    by_cases hjq : j = q
    · subst hjq
      rw [hq1, hw]
      exact List.mem_erase_of_ne hd
    · rw [hq2 j hjq]
  refine ⟨fun d => ?_, fun j => ?_, fun j hp => ?_, fun j d => ?_, ?_, fun e he => ?_⟩
  · by_cases hd : d = c
    · rw [hd, hx1]; exact hok
    · rw [hx2 d hd]; exact h1 d
  · by_cases hjq : j = q
    · subst hjq
      rw [hq1, hw]
      exact (h2 j).sublist List.erase_sublist
    · rw [hq2 j hjq]; exact h2 j
  · have hs : (b.queue j).waiters.Pairwise fun c d => a.waiterRank d ≤ a.waiterRank c := by
      by_cases hjq : j = q
      · subst hjq
        rw [hq1] at hp
        rw [hq1, hw]
        exact (h3 j (hr ▸ hp)).sublist List.erase_sublist
      · rw [hq2 j hjq] at hp ⊢
        exact h3 j hp
    refine sorted_congr hs fun d hd => ?_
    have hdc : d ≠ c := fun hdc => hwait j (hdc ▸ hd)
    simp only [QueueEngine.waiterRank, hx2 d hdc]
  · by_cases hd : d = c
    · subst hd
      simp only [hwait j, hx1, hne, false_and]
    · rw [hmem j d hd, hx2 d hd]; exact h4 j d
  · rcases hl with hl | ⟨o, _, hl⟩
    · rw [hl]; exact h5
    · rw [hl, List.map_append, List.nodup_append]
      refine ⟨h5, by simp, ?_⟩
      intro d hd e he hde
      simp only [List.map_cons, List.map_nil, List.mem_singleton] at he
      exact hnl (he ▸ hde ▸ hd)
  · have hold : e ∈ a.log → (b.context e.context).state = .complete ∧ (b.context e.context).outcome = some e.outcome ∧
        (b.context e.context).queue = e.queue := fun hm => by
      have hec : e.context ≠ c := fun hec => hnl (hec ▸ List.mem_map_of_mem hm)
      rw [hx2 _ hec]; exact h6 e hm
    rcases hl with hl | ⟨o, ho, hl⟩
    · exact hold (hl ▸ he)
    · rw [hl] at he
      rcases List.mem_append.1 he with he | he
      · exact hold he
      · simp only [List.mem_singleton] at he
        subst he
        refine ⟨?_, by simp only [hx1, ho], by simp only [hx1]⟩
        simp only [hx1]
        exact hok.1.2 (by simp [ho])

/-- An IDLE context joins a waiter list. -/
theorem QueueEngine.waitOk_enter {a b : QueueEngine} {q : QueueId} {c : ContextId} {x : Context} {r : QueueRec}
    (h : a.WaitOk) (hidle : (a.context c).state = .idle) (hq : a.OnlyQueue q r b)
    (hw : r.waiters = insertOrdered (a.queue q).waiterOrder a.waiterRank c (a.queue q).waiters)
    (hr : r.waiterOrder = (a.queue q).waiterOrder) (hx : a.OnlyContext c x b) (hok : x.Ok) (hs : x.state = .waiting)
    (hxq : x.queue = q) (hp : x.priority = (a.context c).priority) (hl : b.log = a.log) : b.WaitOk := by
  obtain ⟨h1, h2, h3, h4, h5, h6⟩ := h
  obtain ⟨hq1, hq2⟩ := hq
  obtain ⟨hx1, hx2⟩ := hx
  have hno : ∀ j, c ∉ (a.queue j).waiters := fun j hj => by
    have := ((h4 j c).1 hj).1
    rw [hidle] at this
    exact absurd this (by simp)
  have hmq : ∀ d, d ∈ (b.queue q).waiters ↔ d = c ∨ d ∈ (a.queue q).waiters := fun d => by
    rw [hq1, hw, (insertOrdered_perm _ _ _ _).mem_iff, List.mem_cons]
  have hrank : ∀ d, b.waiterRank d = a.waiterRank d := fun d => by
    unfold QueueEngine.waiterRank
    by_cases hd : d = c
    · rw [hd, hx1, hp]
    · rw [hx2 d hd]
  refine ⟨fun d => ?_, fun j => ?_, fun j hpj => ?_, fun j d => ?_, hl ▸ h5, fun e he => ?_⟩
  · by_cases hd : d = c
    · rw [hd, hx1]; exact hok
    · rw [hx2 d hd]; exact h1 d
  · by_cases hjq : j = q
    · subst hjq
      rw [hq1, hw, (insertOrdered_perm _ _ _ _).nodup_iff]
      exact List.nodup_cons.2 ⟨hno j, h2 j⟩
    · rw [hq2 j hjq]; exact h2 j
  · have hs : (b.queue j).waiters.Pairwise fun c d => a.waiterRank d ≤ a.waiterRank c := by
      by_cases hjq : j = q
      · subst hjq
        rw [hq1] at hpj
        rw [hq1, hw]
        exact insertOrdered_sorted _ _ (h3 j) (hr ▸ hpj)
      · rw [hq2 j hjq] at hpj ⊢
        exact h3 j hpj
    exact sorted_congr hs fun d _ => hrank d
  · by_cases hd : d = c
    · subst hd
      rw [hx1]
      by_cases hjq : j = q
      · subst hjq; simp [hmq, hs, hxq]
      · rw [hq2 j hjq]
        simp only [hno j, false_iff, not_and]
        exact fun _ he => hjq (he.symm.trans hxq)
    · rw [hx2 d hd]
      by_cases hjq : j = q
      · subst hjq; rw [hmq, ← h4 j d]; simp [hd]
      · rw [hq2 j hjq]; exact h4 j d
  · have hm : e ∈ a.log := hl ▸ he
    have hec : e.context ≠ c := fun hec => by
      have := (h6 e hm).1
      rw [hec, hidle] at this
      exact absurd this (by simp)
    rw [hx2 _ hec]; exact h6 e hm

/-- A context that is not WAITING changes to another record that is not WAITING, its log entry removed or its outcome and
queue kept. -/
theorem QueueEngine.waitOk_setContext {a b : QueueEngine} {c : ContextId} {x : Context}
    (h : a.WaitOk) (hn : (a.context c).state ≠ .waiting) (hq : b.queues = a.queues) (hx : a.OnlyContext c x b)
    (hok : x.Ok) (hne : x.state ≠ .waiting) (hl : b.log.Sublist a.log)
    (hkeep : c ∉ b.log.map LogEntry.context ∨
      (x.state = (a.context c).state ∧ x.outcome = (a.context c).outcome ∧ x.queue = (a.context c).queue)) :
    b.WaitOk := by
  obtain ⟨h1, h2, h3, h4, h5, h6⟩ := h
  obtain ⟨hx1, hx2⟩ := hx
  have hqq : ∀ q, b.queue q = a.queue q := fun q => by simp only [QueueEngine.queue, hq]
  have hno : ∀ j, c ∉ (a.queue j).waiters := fun j hj => hn ((h4 j c).1 hj).1
  refine ⟨fun d => ?_, fun j => hqq j ▸ h2 j, fun j hp => ?_, fun j d => ?_, h5.sublist (hl.map _), fun e he => ?_⟩
  · by_cases hd : d = c
    · rw [hd, hx1]; exact hok
    · rw [hx2 d hd]; exact h1 d
  · rw [hqq] at hp ⊢
    refine sorted_congr (h3 j hp) fun d hd => ?_
    have hdc : d ≠ c := fun hdc => hno j (hdc ▸ hd)
    simp only [QueueEngine.waiterRank, hx2 d hdc]
  · rw [hqq]
    by_cases hd : d = c
    · subst hd; simp only [hno j, hx1, hne, false_and]
    · rw [hx2 d hd]; exact h4 j d
  · have hm := h6 e (hl.subset he)
    by_cases hec : e.context = c
    · rcases hkeep with hk | ⟨k1, k2, k3⟩
      · exact absurd (hec ▸ List.mem_map_of_mem he) hk
      · rw [hec] at hm ⊢
        rw [hx1, k1, k2, k3]; exact hm
    · rw [hx2 _ hec]; exact hm

/-! ## The operations -/

section shapes
variable (qe : QueueEngine) (q : QueueId) (c : ContextId)

theorem QueueEngine.onlyQueue_finishWait (o : WaitOutcome) (slot : Option Message) (now : Word) (b : Bool) :
    qe.OnlyQueue q { qe.queue q with waiters := (qe.queue q).waiters.erase c } (qe.finishWait q c o slot now b) :=
  qe.onlyQueue_setQueue q _

theorem QueueEngine.onlyContext_finishWait (o : WaitOutcome) (slot : Option Message) (now : Word) (b : Bool) :
    qe.OnlyContext c ((qe.context c).completed o slot now b) (qe.finishWait q c o slot now b) :=
  QueueEngine.onlyContext_setContext (qe.dropWaiter q c) c _

@[simp] theorem QueueEngine.finishWait_free (o : WaitOutcome) (slot : Option Message) (now : Word) (b : Bool) :
    (qe.finishWait q c o slot now b).free = qe.free := rfl

theorem QueueEngine.finishWait_log (o : WaitOutcome) (slot : Option Message) (now : Word) (b : Bool) :
    (qe.finishWait q c o slot now b).log =
      qe.log ++ [{ context := c, outcome := o, queue := (qe.context c).queue }] := rfl

end shapes

/-- A deferred completion keeps the laws (R93). -/
theorem QueueEngine.waitOk_finishWait {qe : QueueEngine} {q : QueueId} {c : ContextId} {o : WaitOutcome}
    {slot : Option Message} (now : Word) (b : Bool) (h : qe.WaitOk) (hc : c ∈ (qe.queue q).waiters)
    (hs : o = .message ↔ slot.isSome = true) : (qe.finishWait q c o slot now b).WaitOk :=
  QueueEngine.waitOk_leave h hc (qe.onlyQueue_finishWait q c o slot now b) rfl rfl
    (qe.onlyContext_finishWait q c o slot now b) ⟨by simp [Context.completed], by simpa [Context.completed] using hs⟩
    (by simp [Context.completed]) (.inr ⟨o, rfl, rfl⟩)

theorem QueueEngine.waitOk_beginWait {qe : QueueEngine} {q : QueueId} {c : ContextId} (t : Option Word) (h : qe.WaitOk)
    (hidle : (qe.context c).state = .idle) : (qe.beginWait c q t).WaitOk := by
  have hk := h.1 c
  simp only [Context.Ok, hidle] at hk
  refine QueueEngine.waitOk_enter (q := q) (c := c) h hidle
    (qe.onlyQueue_setQueue q _) rfl rfl (QueueEngine.onlyContext_setContext (qe.setQueue q _) c _) ?_ rfl rfl rfl rfl
  refine ⟨?_, hk.2⟩
  simpa using hk.1

/-- Queue q replaced by a record with the same waiters and waiter order. -/
theorem QueueEngine.waitOk_setQueue {qe : QueueEngine} {q : QueueId} {r : QueueRec} (f : Nat) (h : qe.WaitOk)
    (hw : r.waiters = (qe.queue q).waiters)
    (ho : r.waiterOrder = (qe.queue q).waiterOrder ∨ (qe.queue q).waiters = []) :
    ({ qe.setQueue q r with free := f } : QueueEngine).WaitOk := by
  have hq : ∀ j, ({ qe.setQueue q r with free := f } : QueueEngine).queue j = if q = j then r else qe.queue j :=
    fun j => QueueEngine.queue_setQueue _ _ _ _
  refine QueueEngine.waitOk_quiet h (fun j => ?_) (fun j => ?_) rfl (.refl _)
  · rw [hq]; split
    · next e => rw [← e]; exact hw
    · rfl
  · rw [hq]; split
    · next e => rw [← e]; exact ho
    · exact .inl rfl

/-- Whatever becomes of a post, the laws of the waits hold. -/
theorem QueueEngine.waitOk_takeEnabled {qe : QueueEngine} (q : QueueId) (m : Message) (h : qe.WaitOk) :
    (qe.takeEnabled q m).2.qe.WaitOk := by
  unfold QueueEngine.takeEnabled
  cases hw : (qe.queue q).waiters with
  | cons c l => exact QueueEngine.waitOk_finishWait _ _ h (by simp [hw]) (by simp)
  | nil =>
    simp only
    split
    · exact QueueEngine.waitOk_setQueue _ h rfl (.inl rfl)
    · unfold QueueEngine.overflow
      split
      · exact QueueEngine.waitOk_setQueue _ h rfl (.inl rfl)
      · split <;> exact QueueEngine.waitOk_setQueue _ h rfl (.inl rfl)

theorem QueueEngine.waitOk_takePost {qe : QueueEngine} (q : QueueId) (m : Message) (h : qe.WaitOk) :
    (qe.takePost q m).2.qe.WaitOk := by
  unfold QueueEngine.takePost
  split
  · exact QueueEngine.waitOk_takeEnabled q m h
  · exact QueueEngine.waitOk_setQueue _ h rfl (.inl rfl)

theorem QueueEngine.waitOk_takeTimeout {qe : QueueEngine} (n : Notice ContextId) (now : Word) (h : qe.WaitOk) :
    (qe.takeTimeout n now).WaitOk := by
  unfold QueueEngine.takeTimeout
  split
  · next hc =>
    simp only [Context.current, Bool.and_eq_true, beq_iff_eq] at hc
    exact QueueEngine.waitOk_finishWait _ _ h ((h.2.2.2.1 _ _).2 ⟨hc.1.1, rfl⟩) (by simp)
  · exact h

/-- A purge completes the waiters one after the other (R96): what it leaves of queue q, the contexts and the log. -/
theorem QueueEngine.purgeWaiters_spec (q : QueueId) (now : Word) :
    ∀ (l : List ContextId) (qe : QueueEngine), qe.WaitOk → (qe.queue q).waiters = l →
      (QueueEngine.purgeWaiters q now l qe).WaitOk ∧
      qe.OnlyQueue q { qe.queue q with waiters := [] } (QueueEngine.purgeWaiters q now l qe) ∧
      (∀ c, c ∈ l → (QueueEngine.purgeWaiters q now l qe).context c = (qe.context c).completed .purged none now false) ∧
      (∀ c, c ∉ l → (QueueEngine.purgeWaiters q now l qe).context c = qe.context c) ∧
      (QueueEngine.purgeWaiters q now l qe).log =
        qe.log ++ l.map (fun c => { context := c, outcome := .purged, queue := q }) ∧
      (QueueEngine.purgeWaiters q now l qe).free = qe.free
  | [], qe, h, hl => by
    refine ⟨h, ⟨?_, fun _ _ => rfl⟩, by simp, fun _ _ => rfl, by simp [QueueEngine.purgeWaiters], rfl⟩
    change qe.queue q = _
    rw [← hl]
  | c :: rest, qe, h, hl => by
    have hmem : c ∈ (qe.queue q).waiters := by simp [hl]
    have hnd : c ∉ rest ∧ rest.Nodup := List.nodup_cons.1 (hl ▸ h.2.1 q)
    have hcq : (qe.context c).queue = q := ((h.2.2.2.1 q c).1 hmem).2
    have h' := QueueEngine.waitOk_finishWait (o := .purged) (slot := none) now false h hmem (by simp)
    obtain ⟨f1, f2⟩ := qe.onlyQueue_finishWait q c .purged none now false
    obtain ⟨g1, g2⟩ := qe.onlyContext_finishWait q c .purged none now false
    have hw : ((qe.finishWait q c .purged none now false).queue q).waiters = rest := by
      rw [f1]; simp [hl]
    obtain ⟨r1, ⟨r2, r3⟩, r4, r5, r6, r7⟩ := QueueEngine.purgeWaiters_spec q now rest _ h' hw
    refine ⟨r1, ⟨r2.trans (by rw [f1]), fun j hj => (r3 j hj).trans (f2 j hj)⟩, fun d hd => ?_, fun d hd => ?_, ?_, r7⟩
    · change (QueueEngine.purgeWaiters q now rest _).context d = _
      rcases List.mem_cons.1 hd with rfl | hd
      · rw [r5 d hnd.1, g1]
      · rw [r4 d hd, g2 d fun e => hnd.1 (e ▸ hd)]
    · change (QueueEngine.purgeWaiters q now rest _).context d = _
      simp only [List.mem_cons, not_or] at hd
      rw [r5 d hd.2, g2 d hd.1]
    · change (QueueEngine.purgeWaiters q now rest _).log = _
      rw [r6, QueueEngine.finishWait_log, hcq]; simp

/-- A COMPLETE context returns to IDLE and its log entry goes (R101, R103). -/
theorem QueueEngine.waitOk_toIdle {qe : QueueEngine} {c : ContextId} (h : qe.WaitOk)
    (hs : (qe.context c).state = .complete) : ((qe.unlog c).setContext c (qe.context c).toIdle).WaitOk := by
  refine QueueEngine.waitOk_setContext (c := c) h (by simp [hs]) rfl
    (QueueEngine.onlyContext_setContext (qe.unlog c) c _) (by simp [Context.toIdle, Context.Ok])
    (by simp [Context.toIdle]) List.filter_sublist (.inl ?_)
  simp [QueueEngine.unlog]

theorem QueueEngine.waitOk_warm (qe : QueueEngine) : qe.warm.WaitOk := by
  refine ⟨fun c => ?_, fun q => ?_, fun q _ => ?_, fun q c => ?_, by simp, by simp⟩
  · rw [QueueEngine.context_warm]; simp [Context.toIdle, Context.Ok]
  · rw [QueueEngine.queue_warm]; simp [QueueRec.warm]
  · rw [QueueEngine.queue_warm]; simp [QueueRec.warm]
  · rw [QueueEngine.queue_warm, QueueEngine.context_warm]; simp [QueueRec.warm, Context.toIdle]

theorem QueueEngine.waitOk_cold : QueueEngine.cold.WaitOk := by
  refine ⟨fun c => ?_, fun q => ?_, fun q _ => ?_, fun q c => ?_, by simp [QueueEngine.cold], by simp [QueueEngine.cold]⟩ <;>
    simp [QueueEngine.cold, QueueEngine.context, QueueEngine.queue, QueueRec.cold, Context.cold, Context.Ok]

end Sys2Proof.Machine
end

