-- ==== Sys2Proof/Laws/Posts.lean ====
section
/-! SUPPORT. What taking a post can do, said once for the posts of the TT, of the LU and of Q_SEND (R62 to R71), and the
shapes of the other queue and context operations. -/

namespace Sys2Proof.Machine

theorem saturated_eq (d : Word) : saturated d = bumpDrops d := rfl

theorem Context.unlinkIfTimed_eq (x : Context) (c : ContextId) :
    x.unlinkIfTimed c = if x.timeout.isSome then [.unlink (.context c)] else [] := by
  unfold Context.unlinkIfTimed
  cases x.timeout <;> rfl

/-- A post taken by an enabled queue, in every fate it can have. -/
theorem QueueEngine.takeEnabled_postTaken {qe : QueueEngine} {q : QueueId} (m : Message)
    (he : (qe.queue q).enabled = true) :
    PostTaken q m (qe.takeEnabled q m).1 qe (qe.takeEnabled q m).2.qe (qe.takeEnabled q m).2.requests
      (qe.takeEnabled q m).2.signals := by
  unfold QueueEngine.takeEnabled
  cases hw : (qe.queue q).waiters with
  | cons c rest =>
    refine ⟨he, rest, hw, ?_, qe.onlyContext_finishWait q c .message (some m) m.stamp false, rfl, rfl, ?_, rfl⟩
    · have h := qe.onlyQueue_finishWait q c .message (some m) m.stamp false
      rw [hw, List.erase_cons_head] at h
      exact h
    · exact (qe.context c).unlinkIfTimed_eq c
  | nil =>
    by_cases ha : qe.admits q = true
    · simp only [ha, if_true]
      exact ⟨he, hw, QueueEngine.admits_eq.1 ha, ⟨_, joins_insertOrdered _ _ _, qe.onlyQueue_setQueue q _⟩, rfl, rfl, rfl,
        rfl, rfl⟩
    · simp only [ha]
      have hna : ¬ Admitted q qe := fun h => ha (QueueEngine.admits_eq.2 h)
      unfold QueueEngine.overflow
      cases hp : (qe.queue q).policy with
      | reject => exact ⟨he, hw, hna, by simp [hp], qe.onlyQueue_setQueue q _, rfl, rfl, rfl, rfl, rfl⟩
      | displace =>
        cases hv : (qe.queue q).victim m with
        | none =>
          exact ⟨he, hw, hna, fun _ => QueueRec.victim_eq_none hv, qe.onlyQueue_setQueue q _, rfl, rfl, rfl, rfl, rfl⟩
        | some x =>
          exact ⟨he, hw, hna, hp, ⟨x.2, _, QueueRec.victim_eq_some hv, joins_insertOrdered _ _ _,
            qe.onlyQueue_setQueue q _⟩, rfl, rfl, rfl, rfl, rfl⟩

/-- A post of the TT or the LU taken, in every fate it can have. -/
theorem QueueEngine.takePost_postTaken (qe : QueueEngine) (q : QueueId) (m : Message) :
    PostTaken q m (qe.takePost q m).1 qe (qe.takePost q m).2.qe (qe.takePost q m).2.requests
      (qe.takePost q m).2.signals := by
  unfold QueueEngine.takePost
  by_cases he : (qe.queue q).enabled = true
  · simp only [he, if_true]
    exact QueueEngine.takeEnabled_postTaken m he
  · simp only [he]
    exact ⟨by simpa using he, qe.onlyQueue_setQueue q _, rfl, rfl, rfl, rfl, rfl⟩

/-- A deferred wait begins: the context's and the queue's records. -/
theorem QueueEngine.onlyQueue_beginWait (qe : QueueEngine) (c : ContextId) (q : QueueId) (t : Option Word) :
    qe.OnlyQueue q { qe.queue q with
      waiters := insertOrdered (qe.queue q).waiterOrder qe.waiterRank c (qe.queue q).waiters } (qe.beginWait c q t) :=
  qe.onlyQueue_setQueue q _

theorem QueueEngine.onlyContext_beginWait (qe : QueueEngine) (c : ContextId) (q : QueueId) (t : Option Word) :
    qe.OnlyContext c { qe.context c with
      state := .waiting, queue := q, timeout := t
      arming := if t.isSome then (qe.context c).arming + 1 else (qe.context c).arming } (qe.beginWait c q t) :=
  QueueEngine.onlyContext_setContext (qe.setQueue q _) c _

end Sys2Proof.Machine
end

