-- ==== Sys2Proof/Laws/Requests.lean ====
section
/-! SUPPORT. What every block sends to the Deadline Unit is in range (a LINK's delay is 1 to 65535, section 1.8), and every
operation of the Timer Table keeps TimerTable.Ok. -/

namespace Sys2Proof.Machine

/-! ## A property of the items of a FIFO -/

section items
variable {α : Type} {P : α → Prop} {w : List (Sent α)}

theorem items_sendAll {a b : Nat} {xs : List α} (h : ∀ x ∈ w, P x.item) (hx : ∀ x ∈ xs, P x) :
    ∀ x ∈ sendAll a b xs w, P x.item := by
  intro x hm
  rcases mem_sendAll hm with h' | ⟨_, _, h'⟩
  · exact h _ h'
  · exact hx _ h'

theorem items_receive {n : Nat} {rest : List (Sent α)} {x : α} (h : ∀ x ∈ w, P x.item)
    (hr : receive n w = some (x, rest)) : P x ∧ ∀ y ∈ rest, P y.item := by
  have hw := receive_eq_some.1 hr
  subst hw
  exact ⟨h { epoch := n, item := x } (by simp), fun y hy => h y (by simp [hy])⟩

theorem items_boundary {n : Nat} (h : ∀ x ∈ w, P x.item) : ∀ x ∈ boundary n w, P x.item :=
  fun x hx => h x (mem_boundary.1 hx).1

end items

/-! ## Timer Table -/

/-- A TT event leaves the table and its requests in range. -/
abbrev TtOut.Ok (o : TtOut) : Prop := o.tt.Ok ∧ ∀ r ∈ o.requests, r.Ok

section timers
variable {tt : TimerTable} (h : tt.Ok)
include h

theorem TimerTable.ok_setTimer {i : TimerId} {r : Timer} (hr : r.state ≠ .free → r.period ≠ 0) : (tt.setTimer i r).Ok := by
  intro j
  rw [TimerTable.timer_setTimer]
  split
  · exact hr
  · exact h j

theorem ok_armWith {i : TimerId} {d : Word} (hi : (tt.timer i).state ≠ .free) (hd : d ≠ 0) : (tt.armWith i d).Ok := by
  refine ⟨TimerTable.ok_setTimer h fun _ => h i hi, ?_⟩
  intro r hr
  simp only [TimerTable.armWith, List.mem_singleton] at hr
  subst hr
  exact hd

theorem ok_takeNotice (n : Notice TimerId) : (tt.takeNotice n).Ok := by
  unfold TimerTable.takeNotice
  split
  · next hc =>
    simp only [Timer.current, Bool.and_eq_true, beq_iff_eq] at hc
    exact ⟨TimerTable.ok_setTimer h fun _ => h n.who (by simp [hc.1]), by simp⟩
  · exact ⟨h, by simp⟩

theorem ok_retrigger (i : TimerId) : (tt.retrigger i).Ok := by
  unfold TimerTable.retrigger
  cases hs : (tt.timer i).state with
  | free => exact ⟨h, by simp⟩
  | idle => exact ok_armWith h (by simp [hs]) (h i (by simp [hs]))
  | armed => exact ok_armWith h (by simp [hs]) (h i (by simp [hs]))

theorem ok_tmrDefine (p : Words6) : (tmrDefine p tt).2.Ok := by
  unfold tmrDefine
  split
  · exact ⟨h, by simp⟩
  · split
    · exact ⟨h, by simp⟩
    · next i t ht =>
      have hp : t.period ≠ 0 := by
        unfold definitionOf at ht
        split at ht
        · split at ht
          · simp at ht
          · next hne =>
            simp only [Option.some.injEq] at ht
            rw [← ht]; exact hne
        · simp at ht
        · simp at ht
      split
      · exact ⟨h, by simp⟩
      · exact ⟨TimerTable.ok_setTimer h fun _ => hp, by simp⟩
      · exact ⟨TimerTable.ok_setTimer h fun _ => hp, by simp⟩

theorem ok_tmrArm (p : Words6) : (tmrArm p tt).2.Ok := by
  unfold tmrArm
  split
  · exact ⟨h, by simp⟩
  · next i _ =>
    have hd : (tt.timer i).state ≠ .free → (tt.timer i).resolve p[1] ≠ 0 := by
      intro hs
      unfold Timer.resolve
      split
      · exact h i hs
      · next hne => exact hne
    split
    · exact ⟨h, by simp⟩
    · next hs => exact ok_armWith h (by simp [hs]) (hd (by simp [hs]))
    · next hs => exact ok_armWith h (by simp [hs]) (hd (by simp [hs]))

theorem ok_tmrDisarm (p : Words6) : (tmrDisarm p tt).2.Ok := by
  unfold tmrDisarm
  split
  · exact ⟨h, by simp⟩
  · next i _ =>
    split
    · exact ⟨h, by simp⟩
    · exact ⟨h, by simp⟩
    · next hs => exact ⟨TimerTable.ok_setTimer h fun _ => h i (by simp [hs]), by simp [LinkRequest.Ok]⟩

theorem ok_tmrRetune (p : Words6) : (tmrRetune p tt).2.Ok := by
  unfold tmrRetune
  split
  · exact ⟨h, by simp⟩
  · split
    · exact ⟨h, by simp⟩
    · next hp =>
      split
      · exact ⟨h, by simp⟩
      · refine ⟨TimerTable.ok_setTimer h fun _ => hp, ?_⟩
        simp only
        split <;> simp [LinkRequest.Ok]

theorem ok_tmrRelease (p : Words6) : (tmrRelease p tt).2.Ok := by
  unfold tmrRelease
  split
  · exact ⟨h, by simp⟩
  · split
    · exact ⟨h, by simp⟩
    · exact ⟨TimerTable.ok_setTimer h fun hs => absurd rfl hs, by simp⟩
    · exact ⟨h, by simp⟩

end timers

/-! ## Queue Engine -/

theorem Context.requestsOk_unlinkIfTimed (x : Context) (c : ContextId) : ∀ r ∈ x.unlinkIfTimed c, r.Ok := by
  unfold Context.unlinkIfTimed
  cases x.timeout <;> simp [LinkRequest.Ok]

section queues
variable (qe : QueueEngine) (q : QueueId) (m : Message) (p : Words6) (now : Word)

theorem requestsOk_takeEnabled : ∀ r ∈ (qe.takeEnabled q m).2.requests, r.Ok := by
  unfold QueueEngine.takeEnabled
  split
  · exact Context.requestsOk_unlinkIfTimed _ _
  · split
    · simp [QueueEngine.store]
    · unfold QueueEngine.overflow
      split
      · simp [QueueEngine.lose]
      · split <;> simp [QueueEngine.lose]

theorem requestsOk_takePost : ∀ r ∈ (qe.takePost q m).2.requests, r.Ok := by
  unfold QueueEngine.takePost
  split
  · exact requestsOk_takeEnabled _ _ _
  · simp [QueueEngine.lose]

theorem requestsOk_qSend : ∀ r ∈ (qSend p now qe).2.requests, r.Ok := by
  unfold qSend
  split
  · simp
  · split
    · simp
    · simp only
      split
      · exact requestsOk_takeEnabled _ _ _
      · simp

theorem requests_qSetup : (qSetup p now qe).2.requests = [] := by
  unfold qSetup
  simp only
  repeat' split
  all_goals rfl

theorem requests_qTake : (qTake p now qe).2.requests = [] := by
  unfold qTake
  simp only
  repeat' split
  all_goals rfl

theorem requests_qRead : (qRead p now qe).2.requests = [] := by
  unfold qRead
  simp only
  repeat' split
  all_goals rfl

theorem requests_ctxSetup : (ctxSetup p now qe).2.requests = [] := by
  unfold ctxSetup
  simp only
  repeat' split
  all_goals rfl

theorem requests_ctxCollect : (ctxCollect p now qe).2.requests = [] := by
  unfold ctxCollect
  simp only
  repeat' split
  all_goals rfl

theorem requestsOk_qPurge : ∀ r ∈ (qPurge p now qe).2.requests, r.Ok := by
  unfold qPurge
  simp only
  split
  · simp
  · intro r hr
    simp only [QueueEngine.purgeUnlinks, List.mem_flatMap] at hr
    obtain ⟨c, _, h⟩ := hr
    exact Context.requestsOk_unlinkIfTimed _ _ _ h

theorem requestsOk_ctxAbandon : ∀ r ∈ (ctxAbandon p now qe).2.requests, r.Ok := by
  unfold ctxAbandon
  simp only
  split
  · simp
  · split
    · simp
    · exact Context.requestsOk_unlinkIfTimed _ _
    · simp

theorem requestsOk_ctxWait : ∀ r ∈ (ctxWait p now qe).2.requests, r.Ok := by
  unfold ctxWait
  simp only
  split
  · simp
  · split
    · simp
    · next mode hm =>
      split
      · simp
      · split
        · simp
        · split
          · simp
          · split
            · simp
            · simp [waitOnEmpty, waitLink]
            · next ticks =>
              simp only [waitOnEmpty, waitLink, List.mem_singleton, forall_eq, LinkRequest.Ok]
              unfold waitModeOf at hm
              split at hm
              · simp at hm
              · simp at hm
              · split at hm
                · simp at hm
                · next hne =>
                  simp only [Option.some.injEq, WaitMode.timed.injEq] at hm
                  rw [← hm]; exact hne
              · simp at hm

end queues

end Sys2Proof.Machine
end

