-- ==== Sys2Proof/WellFormed.lean ====
section
/-! DEFINITION. Which events name the row they stand for. The three checks are those of rows that say which
host write they are: INTEN_WRITE and WARM_RESET are told apart by the SOFT position of the written word
(R156, R161), and REGISTER_WRITE is a write to one of the five read-only addresses (R141). Every other
constructor's operands are in range by their types. -/

namespace Sys2Proof

/-- The addresses that a write does not change (R141: IDENT, LOGPOP, VECTOR, NOWLO, NOWHI). -/
def readOnlyAddr (a : BitVec 4) : Bool :=
  a == Config.addrIdent || a == Config.addrLogpop || a == Config.addrVector ||
    a == Config.addrNowlo || a == Config.addrNowhi

/-- The event is the one its constructor names. -/
def Instr.wellFormed : Instr → Bool
  | .intenWrite w => !w.getLsbD 1
  | .warmReset w => w.getLsbD 1
  | .registerWrite a _ => readOnlyAddr a
  | .tbTick | .tickArrival | .tickApplication | .entryFallsDue | .relinkWalkStart | .walkEnd
  | .linkRequest _ | .unlinkRequest _ | .reloadRequest _ | .takeLink | .takeUnlink | .takeReload
  | .nowloRead | .expiryNotice | .retriggerRequest | .post _ | .timeoutNotice | .logpopRead
  | .edge _ _ | .round _ _ | .outputAction | .luTick | .doneSignal | .slipSignal | .levelSignal
  | .dropSignal | .flagWrite _ _ | .tbWarmReset | .duWarmReset | .ttWarmReset | .qeWarmReset
  | .luWarmReset | .nuWarmReset | .coldReset | .resetnRise _ | .statusWrite _ | .paramWrite _ _
  | .commandCompletion | .nop | .unknownCode | .tmrDefine | .tmrArm | .tmrDisarm | .tmrRetune
  | .tmrRelease | .tmrRead | .qSetup | .qSend | .qTake | .qPurge | .qRead | .ctxSetup | .ctxWait
  | .ctxAbandon | .ctxCollect | .ctxRead | .lnSetup | .lnDrive | .lnRead | .tbSetup | .tbRun
  | .tbHalt | .tbRead | .ntLevel | .commandWrite _ | .tbclkRisingEdge => true

end Sys2Proof
end

