-- ==== Sys2Proof/Tests/Slice0.lean ====
section
/-! SUPPORT. Our own tests: the well-formedness smoke test, values from the manual's worked examples, and for every
obligation with hypotheses a concrete state and operands that meet them. -/

-- One theorem at a time keeps the number of threads low.
set_option Elab.async false

namespace Sys2Proof.Machine.Tests

/-! ## Small states -/

/-- The state an outcome leads to (no outcome of this model is anything else). -/
def after : Outcome → State
  | .next t => t
  | .fault f => nomatch f
  | .refused _ => State.reset

/-- `s` with a command handed over to its owner. -/
def cmd (code : Word) (p : Words6) (s : State := State.reset) : State :=
  s.withCp { s.cp with slot := some { code := code, params := p, owner := ownerOf code, stage := .handedOver } }

/-- Parameter words with P0 alone. -/
def p0 (w : Word) : Words6 := #v[w, 0, 0, 0, 0, 0]

/-- Reset with one timer. -/
def withTimer (i : TimerId) (t : Timer) (s : State := State.reset) : State := s.withTt (s.tt.setTimer i t)

/-- Reset with one queue. -/
def withQueue (q : QueueId) (r : QueueRec) (s : State := State.reset) : State := s.withQe (s.qe.setQueue q r)

/-- Reset with one context. -/
def withContext (c : ContextId) (x : Context) (s : State := State.reset) : State := s.withQe (s.qe.setContext c x)

/-- Reset with one input. -/
def withInput (n : LineId) (x : Input) (s : State := State.reset) : State := s.withLu (s.lu.setInput n x)

/-- Reset with the DU as given. -/
def withDu (du : DeadlineUnit) : State := State.reset.withDu du

/-- Reset with the items on their way as given. -/
def withWires (w : Wires) (s : State := State.reset) : State := s.withWires w

/-- Reset with the completion log as given. -/
def withLog (l : List LogEntry) (s : State := State.reset) : State := s.withQe { s.qe with log := l }

/-- Reset with one warm reset started by the CP and taken by no other block. -/
def resetStarted : State := State.reset.withResets { Resets.cold with cp := 1 }

def idleTimer : Timer := { Timer.cold with state := .idle, period := 20 }
def armedTimer : Timer := { idleTimer with state := .armed, mode := .periodic, arming := 40 }
def openQueue : QueueRec := { QueueRec.cold with enabled := true, quota := 1, threshold := 1 }
def message : Message :=
  { body := { kind := .sent, origin := 0, tag := 0, priority := 0, seq := 0, data := .none }, stamp := 0 }
def fullQueue : QueueRec := { openQueue with msgs := [message], peak := 1 }
def waitingContext : Context := { Context.cold with state := .waiting, timeout := some 1, arming := 1 }
def completeContext : Context := { Context.cold with state := .complete, outcome := some .timeout }
def linked (e : EntryId) (d : Nat) : LinkedEntry := { entry := e, delta := d, reload := 0, arming := 0 }
def busyDu : DeadlineUnit := { DeadlineUnit.cold with activity := .applying }
def walk (e : EntryId) (d : Word) (src : WalkSource) : WalkRecord :=
  { entry := e, delay := d, reload := d, arming := 0, source := src }
def openInput : Input := { Input.cold with mode := .count, edge := .both, compare := 2, firstSampleDue := false }

/-- DeadlineUnit.Ok in parts that can be decided. -/
theorem duOk {du : DeadlineUnit}
    (h : du.entries.Nodup ∧ (du.table.map LinkRequest.entry).Nodup ∧ (∀ x ∈ du.list.head?, 1 ≤ x.delta) ∧
      deltaSum du.list ≤ 65535 ∧ (∀ x ∈ du.relink, x.reload ≠ 0) ∧ du.backlog ≤ Config.maxBacklog)
    (ht : ∀ r ∈ du.table, r.Ok) (ha : du.activity.Ok du.relink) : du.Ok :=
  ⟨h.1, h.2.1, h.2.2.1, h.2.2.2.1, h.2.2.2.2.1, ht, h.2.2.2.2.2, ha⟩

/-- The pins with chip select asserted; true is high. -/
def pins (rdn wrn : Bool) (address : BitVec 4) (data : Word := 0) : BusPins :=
  { csn := false, rdn := rdn, wrn := wrn, address := address, data := data }
def logged : LogEntry := { context := 5, outcome := .message, queue := 3 }

/-! ## Well-formedness: each check refuses an ill-formed event -/

theorem test_wellFormed_intenWrite : (Instr.intenWrite 0x0002).wellFormed = false := by decide
theorem test_wellFormed_warmReset : (Instr.warmReset 0x0001).wellFormed = false := by decide
theorem test_wellFormed_registerWrite : (Instr.registerWrite 0xD 0).wellFormed = false := by decide
theorem test_wellFormed_accepts : (Instr.intenWrite 0x0001).wellFormed = true ∧ (Instr.warmReset 0x0003).wellFormed = true ∧
    (Instr.registerWrite 0xF 0).wellFormed = true := by decide

/-! ## Values of the manual -/

/-- Section 9.1: the words of LOGPOP and of CTX_COLLECT. -/
theorem test_manual_logWord : logWord { context := 5, outcome := .message, queue := 3 } 0 = 0x0351 := by decide
theorem test_manual_logWord_timeout : logWord { context := 6, outcome := .timeout, queue := 1 } 3 = 0x3162 := by decide
theorem test_manual_collect :
    messageWords { body := { kind := .timer, origin := 2, tag := 0x0A00, priority := 2, seq := 8, data := .none }
                   stamp := 0x2724 } (some .message) 3 = #v[0x1209, 0x0A00, 0x0308, 0, 0, 0x2724] := by decide
theorem test_manual_collect_timeout :
    noMessageWords (some .timeout) 3 0x2724 = #v[0x2000, 0, 0x0300, 0, 0, 0x2724] := by decide

/-- Section 9.2: TB_READ. -/
theorem test_manual_tbRead :
    tbReadWords { divisor := 1, prescaler := 0, running := false }
      { DeadlineUnit.cold with
        list := [linked (.timer 0) 1, linked (.timer 1) 1, linked (.timer 2) 1], backlog := 7, slip := 1
        activity := .walking (walk (.timer 11) 5 .relink) } = #v[0x0001, 0x0372, 0x0001, 0, 0, 0] := by decide

/-- Section 9.3: Q_READ. -/
theorem test_manual_qRead : (qReadWords
    ({ QueueEngine.cold with free := 0 }.setQueue 6 { QueueRec.cold with
      enabled := true, msgOrder := .priority, policy := .displace, quota := 124, threshold := 120
      msgs := List.replicate 120 message, peak := 120, drops := 2 }) 6) =
    #v[0x005E, 0x007C, 0x7878, 0x0078, 0x0000, 0x0002] := by decide +kernel

/-- Section 9.5: STATUS after a warm reset that abandons a command; TMR_READ of the timer it left. -/
theorem test_manual_status : (after (exec (.warmReset 0x0003) (cmd 0x0011 (p0 7)))).statusWord = 0x00F0 := by decide
theorem test_manual_tmrRead : tmrReadWords
    { idleTimer with mode := .periodic, period := 25, arming := 14 } (.notLinked, 0) = #v[0x0E05, 25, 0, 0, 0, 0] := by
  decide

/-- Chapter 6: VECTOR for source 1 at level 3. -/
theorem test_manual_vector :
    (NotifyUnit.cold.setLevel 1 3).vectorWord true = 0x0302 ∧ NotifyUnit.cold.vectorWord true = 0 := by decide

/-! ## One step of each kind, on small states -/

theorem test_step_idles : (after (step State.reset)) = State.reset := by decide
theorem test_step_commandWrite :
    (after (step (State.reset.withPending [.commandWrite 0x0050]))).cp.slot.map InFlight.owner = some .tb := by decide
theorem test_step_tick : (after (exec .tbclkRisingEdge (after (exec .tbRun (cmd 0x0051 (p0 0)))))).wires.tbToDu =
    [{ epoch := 0, item := () }] := by decide
theorem test_step_tmrArm : (after (exec .tmrArm (cmd 0x0011 (p0 47) (withTimer 47 idleTimer)))).wires.ttToDu =
    [{ epoch := 0, item := .link (.timer 47) 20 0 1 }] := by decide
/-- R29: a LINK on its way does not show, of a timer or of a context; one that the DU holds reads LINK PENDING. -/
theorem test_step_linkOnItsWay :
    (let s := after (exec .ctxWait (cmd 0x0031 #v[0x0203, 200, 0, 0, 0, 0] (withQueue 0 openQueue)))
     s.wires.qeToDu = [{ epoch := 0, item := .link (.context 3) 200 0 1 }] ∧
       (after (exec .ctxRead (cmd 0x0034 (p0 3) s))).cp.completion.map (fun c => c.reply[2]) = some 0x0001 ∧
       (after (exec .ctxRead (cmd 0x0034 (p0 3) (after (exec (.linkRequest .qe) s))))).cp.completion.map
         (fun c => (c.reply[2], c.reply[3])) = some (0x0201, 200)) ∧
    (let s := after (exec .tmrRead (cmd 0x0015 (p0 47) (withTimer 47 armedTimer
       (withWires { Wires.cold with ttToDu := [{ epoch := 0, item := .link (.timer 47) 1 0 40 }] }))))
     s.cp.completion.map (fun c => c.reply[3]) = some 0) := by decide +kernel
/-- R160: a held read strobe reads once; a write is taken when its strobe is deasserted; both strobes are neither. -/
theorem test_step_busPins :
    (let s := (withLog [logged]).busPins (pins false true 0x9)
     s.dataBus = some 0x0351 ∧ s.qe.log = [] ∧ s.busPins (pins false true 0x9) = s ∧
       (s.busPins (pins true true 0x9)).dataBus = none) ∧
    (let s := State.reset.busPins (pins true false 0x3 7)
     s.cp = CommandPort.cold ∧ s.dataBus = none ∧ (s.busPins (pins true true 0x3 7)).cp.params[0] = 7 ∧
       (s.busPins { pins true true 0x3 7 with csn := true }).cp.params[0] = 7 ∧
       (s.busPins { pins true false 0x3 7 with csn := true }).cp.params[0] = 0) ∧
    (let s := (withLog [logged]).busPins (pins false false 0x9)
     s.dataBus = none ∧ s.qe.log = [logged] ∧ (s.busPins (pins false true 0x9)).qe.log = [logged]) ∧
    (State.reset.busPins (pins false true 0x0)).dataBus = some 0x6410 := by decide +kernel
/-- R156, R135, R137: with a warm reset on its way to the NU, a VECTOR read and a change of INTEN first bring it there. -/
theorem test_step_notifyAfterReset :
    let nu := { NotifyUnit.cold.setLevel 0 1 with done := true }
    let s := after (exec (.warmReset 2) (State.reset.withNu nu))
    s.interruptCondition = true ∧ (s.busPins (pins false true 0xC)).dataBus = some 0 ∧
      (s.busPins (pins false true 0xC)).interruptCondition = false ∧
      (after (exec (.intenWrite 1) s)).intnAsserted = false ∧
      (after (exec (.intenWrite 1) (State.reset.withNu nu))).intnAsserted = true := by decide +kernel
/-- R156: a NOWLO read after a CONTROL write with SOFT finds the DU after its warm reset, and no held tick follows it. -/
theorem test_step_nowloAfterReset :
    let s := after (exec (.warmReset 2) (withDu { DeadlineUnit.cold with now := 0x10000, backlog := 3 }))
    let t := after (exec .tickApplication (after (exec .nowloRead s)))
    t.du = { DeadlineUnit.cold with now := 0x10000 } ∧ t.dataBus = some 0 ∧ t.cp.nowLatch = 1 ∧ t.resets.du = 1 := by
  decide +kernel
theorem test_step_badIndex : (after (exec .tmrArm (cmd 0x0011 (p0 48)))).cp.completion = some (.fail .badIndex) := by
  decide
theorem test_step_entryFallsDue :
    (after (exec .entryFallsDue (withDu { busyDu with list := [linked (.timer 3) 1, linked (.context 2) 0] }))).wires.duToQe
      = [{ epoch := 0, item := { who := 2, arming := 0 } }] := by decide
theorem test_step_round : (after (exec (.round 3 .high)
    (withInput 3 { openInput with edgeCount := 1 }))).wires.luToQe.length = 1 := by decide

/-! ## A state and operands for the hypotheses of every obligation -/

theorem test_witness_StepTakesTheFrontEvent : State.reset.pending = [] := by decide +kernel

theorem test_witness_ColdResetHoldsAndRiseReleases :
    (State.reset.withResetnLow true).resetnLow = true ∧ Instr.tbRun ≠ .coldReset ∧ (∀ l, Instr.tbRun ≠ .resetnRise l) ∧
      Instr.tbRun ≠ .nowloRead ∧ Instr.tbRun ≠ .logpopRead := by
  simp [State.withResetnLow]

/-- A halted part, a count below the divisor, and the counts that reach a divisor of 1 and of 65535. -/
theorem test_witness_TimeBaseEdges :
    (State.reset.resetnLow = false ∧ State.reset.tb.running = false) ∧
    (let tb : TimeBase := { divisor := 2, prescaler := 0, running := true }
     tb.running = true ∧ tb.prescaler + 1 ≠ tb.divisor) ∧
    (∀ d ∈ ([1, 65535] : List Word), let tb : TimeBase := { divisor := d, prescaler := d - 1, running := true }
      tb.running = true ∧ tb.prescaler + 1 = tb.divisor) := by
  simp only [List.forall_mem_cons, List.not_mem_nil, false_implies, implies_true]
  decide +kernel

theorem test_witness_TbCommands :
    (∀ d ∈ ([1, 65535] : List Word), Taken 0x0050 (p0 d) (cmd 0x0050 (p0 d)) ∧ (p0 d)[0] ≠ 0) ∧
    Taken 0x0051 (p0 0) (cmd 0x0051 (p0 0)) ∧ Taken 0x0052 (p0 0) (cmd 0x0052 (p0 0)) := by
  simp only [List.forall_mem_cons, List.not_mem_nil, false_implies, implies_true]
  decide +kernel

/-- IDLE, a backlog of 6, and one of 7. -/
theorem test_witness_TickArrival :
    (let s := withWires { Wires.cold with tbToDu := [{ epoch := 0, item := () }] }
     s.resetnLow = false ∧ receive s.resets.du s.wires.tbToDu = some ((), []) ∧ s.du.idle = true) ∧
    (let du := { busyDu with backlog := 6 }
     du.idle = false ∧ du.backlog < 7) ∧
    (let du := { busyDu with backlog := 7 }
     du.idle = false ∧ 7 ≤ du.backlog) := by decide +kernel

/-- A tick in hand, and a tick of the backlog. -/
theorem test_witness_TickNext :
    busyDu.TickNext DeadlineUnit.cold ∧ { DeadlineUnit.cold with backlog := 1 }.TickNext DeadlineUnit.cold :=
  ⟨.inl ⟨rfl, rfl⟩, .inr ⟨rfl, rfl, by decide +kernel, rfl⟩⟩

/-- Lists for the three clauses: empty, a head of 2, a head of 1 with a follower of 0. -/
theorem test_witness_TickApplication :
    (let s := withDu busyDu
     s.resetnLow = false ∧ s.du.TickNext DeadlineUnit.cold ∧ DeadlineUnit.cold.list = []) ∧
    (let l := [linked (.timer 0) 2]
     { busyDu with list := l }.TickNext { DeadlineUnit.cold with list := l } ∧ 2 ≤ (linked (.timer 0) 2).delta) ∧
    (let l := [linked (.timer 47) 1, linked (.context 15) 0]
     { busyDu with list := l }.TickNext { DeadlineUnit.cold with list := l } ∧ (linked (.timer 47) 1).delta ≤ 1) :=
  ⟨⟨rfl, .inl ⟨rfl, rfl⟩, rfl⟩, ⟨.inl ⟨rfl, rfl⟩, by decide +kernel⟩, .inl ⟨rfl, rfl⟩, by decide +kernel⟩

theorem test_witness_WalksBeginAndEnd :
    (let s := withDu { DeadlineUnit.cold with relink := [{ entry := .timer 0, reload := 1, arming := 0 }] }
     s.resetnLow = false ∧ s.du.activity = .quiet ∧
       s.du.relink = { entry := .timer 0, reload := 1, arming := 0 } :: []) ∧
    (withDu { DeadlineUnit.cold with activity := .walking (walk (.timer 0) 65535 .link) }).du.activity =
      .walking (walk (.timer 0) 65535 .link) := by decide +kernel

/-- A request of either sender, at an IDLE DU, at a busy one, and a RELOAD with and without a pending request. -/
theorem test_witness_RequestArrival :
    (let s := withWires { Wires.cold with ttToDu := [{ epoch := 0, item := .link (.timer 0) 1 0 0 }] }
     s.resetnLow = false ∧ receive s.resets.du s.wires.ttToDu = some (.link (.timer 0) 1 0 0, []) ∧ s.du.idle = true) ∧
    (let s := withWires { Wires.cold with qeToDu := [{ epoch := 0, item := .unlink (.context 15) }] }
     receive s.resets.du s.wires.qeToDu = some (.unlink (.context 15), [])) ∧
    busyDu.idle = false ∧ (∀ x ∈ busyDu.table, x.entry ≠ .timer 0) ∧
    (∃ x ∈ { busyDu with table := [.link (.timer 0) 1 0 0] }.table, x.entry = .timer 0) := by decide +kernel

/-- A request in hand, and the oldest of the table. -/
theorem test_witness_RequestsAreTaken :
    { DeadlineUnit.cold with activity := .taking (.link (.timer 0) 1 0 0) }.RequestNext (.link (.timer 0) 1 0 0)
      DeadlineUnit.cold ∧
    { DeadlineUnit.cold with table := [.unlink (.timer 0)] }.RequestNext (.unlink (.timer 0)) DeadlineUnit.cold ∧
    { DeadlineUnit.cold with activity := .taking (.reload (.timer 0) 1) }.RequestNext (.reload (.timer 0) 1)
      DeadlineUnit.cold :=
  ⟨.inl ⟨rfl, rfl⟩, .inr ⟨rfl, rfl, rfl, [], rfl, rfl⟩, .inl ⟨rfl, rfl⟩⟩

/-- A DU within its laws, with remaining times of 1 and of 65535, before a tick, a walk's end and another event. -/
theorem test_witness_DeadlinesStand :
    (let l := [linked (.timer 0) 1, linked (.context 0) 65534]
     let du := { DeadlineUnit.cold with list := l }
     { du with activity := .applying }.Ok ∧ { du with activity := .applying }.TickNext du ∧
     remaining (.timer 0) l = some 1 ∧ remaining (.context 0) l = some 65535 ∧
     { du with activity := .walking (walk (.timer 1) 65535 .link) }.Ok) ∧
    (∃ t, exec .walkEnd (withDu { DeadlineUnit.cold with list := [linked (.timer 0) 1] }) = .next t) ∧
    Instr.walkEnd ≠ .tickApplication ∧ Instr.walkEnd ≠ .entryFallsDue ∧ Instr.walkEnd ≠ .duWarmReset ∧
    Instr.walkEnd ≠ .coldReset :=
  ⟨⟨duOk (by decide +kernel) (by simp [DeadlineUnit.cold]) rfl, .inl ⟨rfl, rfl⟩, by decide +kernel, by decide +kernel,
    duOk (by decide +kernel) (by simp [DeadlineUnit.cold]) (by simp [walk, DuActivity.Ok])⟩, ⟨_, rfl⟩, by simp, by simp,
    by simp, by simp⟩

theorem test_witness_NowloRead : State.reset.resetnLow = false ∧ (∃ t, exec .tbRun State.reset = .next t) ∧
    Instr.tbRun ≠ .nowloRead ∧ Instr.tbRun ≠ .coldReset ∧ (State.reset.withResetnLow true).resetnLow = true ∧
    resetStarted.resets.du < resetStarted.resets.cp :=
  ⟨by decide +kernel, ⟨_, rfl⟩, by decide +kernel, by decide +kernel, rfl, by decide +kernel⟩

theorem test_witness_NowAndArmingNumbers : (∃ t, exec .tickApplication State.reset = .next t) ∧
    Instr.tickApplication ≠ .coldReset ∧ State.reset.qe.WaitOk :=
  ⟨⟨_, rfl⟩, by decide +kernel, by decide +kernel⟩

/-- A current notice for timer 47, and a stale one. -/
theorem test_witness_ExpiryNotice :
    let w : Wires := { Wires.cold with duToTt := [{ epoch := 0, item := { who := 47, arming := 40 } }] }
    let s := withTimer 47 armedTimer (withWires w)
    s.resetnLow = false ∧ receive s.resets.tt s.wires.duToTt = some ({ who := 47, arming := 40 }, []) ∧
    (s.tt.timer 47).state = .armed ∧ (s.tt.timer 47).arming = 40 ∧
    ¬ ((withTimer 47 idleTimer s).tt.timer 47).state = .armed := by decide +kernel

theorem test_witness_RetriggerRequest :
    let s := withWires { Wires.cold with luToTt := [{ epoch := 0, item := 47 }] }
    s.resetnLow = false ∧ receive s.resets.tt s.wires.luToTt = some (47, []) ∧ (s.tt.timer 47).state = .free ∧
    ((withTimer 47 idleTimer s).tt.timer 47).state ≠ .free := by decide +kernel

/-- Timer 47, the shortest period, the highest action code and data count in range. -/
theorem test_witness_TmrDefine :
    let p : Words6 := #v[0x802F, 1, 0, 0x0008, 0, 0]
    let s := cmd 0x0010 p
    Taken 0x0010 p s ∧ (field p[0] 0 6).toNat = (47 : TimerId).val ∧ (s.tt.timer 47).state ≠ .armed ∧ p[1] ≠ 0 ∧
    actionKindOf (field p[0] 13 3) = some (some .pulse) ∧ dataOf (field p[3] 2 2) p[4] p[5] = some (.two 0 0) := by decide +kernel

theorem test_witness_TmrArm :
    let s := cmd 0x0011 (p0 47) (withTimer 47 idleTimer)
    Taken 0x0011 (p0 47) s ∧ (p0 47)[0].toNat = (47 : TimerId).val ∧ (s.tt.timer 47).state ≠ .free := by decide +kernel

theorem test_witness_TmrDisarmReleaseAndRetune :
    (p0 47)[0].toNat = (47 : TimerId).val ∧
    (let s := cmd 0x0012 (p0 47) (withTimer 47 armedTimer)
     Taken 0x0012 (p0 47) s ∧ (s.tt.timer 47).state = .armed) ∧
    (let s := cmd 0x0012 (p0 47) (withTimer 47 idleTimer)
     Taken 0x0012 (p0 47) s ∧ (s.tt.timer 47).state = .idle) ∧
    (let s := cmd 0x0014 (p0 47) (withTimer 47 idleTimer)
     Taken 0x0014 (p0 47) s ∧ (s.tt.timer 47).state = .idle) ∧
    (let s := cmd 0x0014 (p0 47)
     Taken 0x0014 (p0 47) s ∧ (s.tt.timer 47).state = .free) ∧
    (let p : Words6 := #v[47, 1, 0, 0, 0, 0]
     let s := cmd 0x0013 p (withTimer 47 armedTimer)
     Taken 0x0013 p s ∧ p[1] ≠ 0 ∧ (s.tt.timer 47).state = .armed ∧ (s.tt.timer 47).mode = .periodic) ∧
    (let s := cmd 0x0013 #v[47, 1, 0, 0, 0, 0] (withTimer 47 idleTimer)
     (s.tt.timer 47).state ≠ .free ∧ ¬ ((s.tt.timer 47).state = .armed ∧ (s.tt.timer 47).mode = .periodic)) := by decide +kernel

theorem test_witness_Reads :
    (Taken 0x0015 (p0 47) (cmd 0x0015 (p0 47)) ∧ (p0 47)[0].toNat = (47 : TimerId).val) ∧
    (Taken 0x0034 (p0 15) (cmd 0x0034 (p0 15)) ∧ (p0 15)[0] &&& 0xFFF0 = 0) ∧ Taken 0x0053 (p0 0) (cmd 0x0053 (p0 0)) := by decide +kernel

/-- One DU within its laws for each condition of R29. -/
theorem test_witness_LinkStatus_table :
    let du := { busyDu with table := [.link (.timer 0) 1 0 0, .unlink (.timer 1)] }
    du.Ok ∧ .link (.timer 0) 1 0 0 ∈ du.table ∧ .unlink (.timer 1) ∈ du.table :=
  ⟨duOk (by decide +kernel) (by simp [LinkRequest.Ok]) rfl, by simp, by simp⟩

theorem test_witness_LinkStatus_walk : ∀ src ∈ [WalkSource.link, .relink], let w := walk (.context 15) 65535 src
    { DeadlineUnit.cold with activity := .walking w }.Ok ∧ w.source = src ∧ w.entry = .context 15 := by
  intro src _
  exact ⟨duOk (by simp [DeadlineUnit.cold, DeadlineUnit.entries, deltaSum]) (by simp [DeadlineUnit.cold])
    (by simp [walk, DuActivity.Ok]), rfl, rfl⟩

theorem test_witness_LinkStatus_lists :
    (let r : RelinkEntry := { entry := .timer 47, reload := 1, arming := 0 }
     let du := { DeadlineUnit.cold with relink := [r] }
     du.Ok ∧ r ∈ du.relink ∧ r.entry = .timer 47) ∧
    (let du := { DeadlineUnit.cold with list := [linked (.timer 0) 65535] }
     du.Ok ∧ remaining (.timer 0) du.list = some 65535) ∧ DeadlineUnit.cold.Ok :=
  ⟨⟨duOk (by decide +kernel) (by simp [DeadlineUnit.cold]) trivial, by simp, rfl⟩,
    ⟨duOk (by decide +kernel) (by simp [DeadlineUnit.cold]) trivial, by decide +kernel⟩, DeadlineUnit.ok_cold⟩

theorem test_witness_PostIsTaken :
    let x : Post := { queue := 7, body := message.body }
    let s := withWires { Wires.cold with ttToQe := [{ epoch := 0, item := x }], luToQe := [{ epoch := 0, item := x }] }
    s.resetnLow = false ∧ receive s.resets.qe s.wires.ttToQe = some (x, []) ∧
    receive s.resets.qe s.wires.luToQe = some (x, []) := by decide +kernel

/-- A current notice for context 15, and a stale one. -/
theorem test_witness_TimeoutNotice :
    let w : Wires := { Wires.cold with duToQe := [{ epoch := 0, item := { who := 15, arming := 1 } }] }
    let s := withContext 15 waitingContext (withWires w)
    s.resetnLow = false ∧ receive s.resets.qe s.wires.duToQe = some ({ who := 15, arming := 1 }, []) ∧
    ((s.qe.context 15).state = .waiting ∧ (s.qe.context 15).timeout ≠ none ∧ (s.qe.context 15).arming = 1) ∧
    ¬ ((withContext 15 completeContext s).qe.context 15).state = .waiting := by decide +kernel

theorem test_witness_LogpopRead :
    (State.reset.resetnLow = false ∧ State.reset.resets.cp ≤ State.reset.resets.qe ∧ State.reset.qe.log = []) ∧
    (let e : LogEntry := { context := 15, outcome := .purged, queue := 7 }
     (withLog [e]).qe.log = e :: []) ∧ resetStarted.resets.qe < resetStarted.resets.cp ∧
    (State.reset.withResetnLow true).resetnLow = true := by decide +kernel

/-- Q_SETUP: disabled, the smallest and the largest configuration. -/
theorem test_witness_QSetup :
    ∀ x ∈ ([(0x0007, 0, 0, 0), (0x000F, 1, 0, 1), (0x000F, 128, 128, 128)] : List (Word × Word × Word × Word)),
      let p : Words6 := #v[x.1, x.2.1, x.2.2.1, x.2.2.2, 0, 0]
      let s := cmd 0x0020 p
      Taken 0x0020 p s ∧ p[0] &&& 0xFF80 = 0 ∧
      (p[0].getLsbD 3 = true → 1 ≤ p[1].toNat ∧ p[1].toNat ≤ 128 ∧ p[2].toNat ≤ p[1].toNat ∧ 1 ≤ p[3].toNat ∧
        p[3].toNat ≤ p[1].toNat) ∧ (s.qe.queue 7).msgs = [] ∧ (s.qe.queue 7).waiters = [] ∧
      (p[0].getLsbD 3 = true →
        p[2].toNat + (sumBank QueueRec.unmet s.qe.queues - (s.qe.queue 7).unmet) ≤ s.qe.free) := by
  simp only [List.forall_mem_cons, List.not_mem_nil, false_implies, implies_true]
  decide +kernel

theorem test_witness_QSend :
    let p := p0 0x0FB7
    let s := cmd 0x0022 p (withQueue 7 openQueue)
    Taken 0x0022 p s ∧ p[0] &&& 0xF008 = 0 ∧ dataOf (field p[0] 6 2) p[3] p[4] = some (.two 0 0) ∧
    (s.qe.queue (queueOf (field p[0] 0 3))).enabled = true := by decide +kernel

theorem test_witness_QTakeAndQRead :
    (let s := cmd 0x0023 (p0 7) (withQueue 7 fullQueue)
     Taken 0x0023 (p0 7) s ∧ (p0 7)[0] &&& 0xFFF8 = 0 ∧ (s.qe.queue 7).msgs = message :: []) ∧
    (let s := cmd 0x0023 (p0 7)
     Taken 0x0023 (p0 7) s ∧ (s.qe.queue 7).msgs = []) ∧
    (Taken 0x0025 (p0 0x0107) (cmd 0x0025 (p0 0x0107)) ∧ (p0 0x0107)[0] &&& 0xFEF8 = 0) := by decide +kernel

theorem test_witness_QPurge :
    let s := cmd 0x0024 (p0 7) (withQueue 7 fullQueue)
    Taken 0x0024 (p0 7) s ∧ (p0 7)[0] &&& 0xFFF8 = 0 ∧ s.qe.WaitOk := by decide +kernel

theorem test_witness_CtxSetup :
    (let s := cmd 0x0030 (p0 0x007F) (withContext 15 completeContext)
     Taken 0x0030 (p0 0x007F) s ∧ (p0 0x007F)[0] &&& 0xFF80 = 0 ∧ (s.qe.context 15).state ≠ .waiting) ∧
    (let s := cmd 0x0030 (p0 0x007F) (withContext 15 waitingContext)
     Taken 0x0030 (p0 0x007F) s ∧ (s.qe.context 15).state = .waiting) := by decide +kernel

/-- CTX_WAIT of context 15 on queue 7: with a message, poll on the empty queue, none and the shortest timed wait. -/
theorem test_witness_CtxWait :
    (let s := cmd 0x0031 (p0 0x007F) (withQueue 7 fullQueue)
     Taken 0x0031 (p0 0x007F) s ∧ (p0 0x007F)[0] &&& 0xFC80 = 0 ∧
     waitModeOf (field (p0 0x007F)[0] 8 2) (p0 0x007F)[1] = some .untimed ∧ (s.qe.context 15).state = .idle ∧
     (s.qe.queue 7).enabled = true ∧ (s.qe.queue 7).msgs = message :: []) ∧
    (let s := cmd 0x0031 (p0 0x017F) (withQueue 7 openQueue)
     Taken 0x0031 (p0 0x017F) s ∧ (p0 0x017F)[0] &&& 0xFC80 = 0 ∧ field (p0 0x017F)[0] 8 2 = 1 ∧
     (s.qe.context 15).state = .idle ∧ (s.qe.queue 7).enabled = true ∧ (s.qe.queue 7).msgs = []) ∧
    (field (p0 0x007F)[0] 8 2 = 0) ∧
    (let p : Words6 := #v[0x027F, 1, 0, 0, 0, 0]
     let s := cmd 0x0031 p (withQueue 7 openQueue)
     Taken 0x0031 p s ∧ p[0] &&& 0xFC80 = 0 ∧ field p[0] 8 2 = 2 ∧ p[1] ≠ 0 ∧ (s.qe.context 15).state = .idle ∧
     (s.qe.queue 7).enabled = true ∧ (s.qe.queue 7).msgs = []) := by decide +kernel

theorem test_witness_CtxAbandonAndCollect :
    (let s := cmd 0x0032 (p0 15)
     Taken 0x0032 (p0 15) s ∧ (p0 15)[0] &&& 0xFFF0 = 0 ∧ (s.qe.context 15).state = .idle) ∧
    (let s := cmd 0x0032 (p0 15) (withContext 15 waitingContext)
     Taken 0x0032 (p0 15) s ∧ (s.qe.context 15).state = .waiting) ∧
    (let s := cmd 0x0032 (p0 15) (withContext 15 completeContext)
     Taken 0x0032 (p0 15) s ∧ (s.qe.context 15).state = .complete) ∧
    (let s := cmd 0x0033 (p0 15) (withContext 15 completeContext)
     Taken 0x0033 (p0 15) s ∧ (p0 15)[0] &&& 0xFFF0 = 0 ∧ (s.qe.context 15).state = .complete) := by decide +kernel

/-- One input for each clause: first sample due, no edge, an edge that does not qualify, POST, COUNT below and at the
compare value, RETRIGGER. -/
theorem test_witness_EdgesAndRounds :
    (State.reset.lu.input 7).firstSampleDue = true ∧
    (let x := (withInput 7 openInput).lu.input 7
     x.firstSampleDue = false ∧ x.level = .low) ∧
    (let x : Input := { openInput with edge := .fall }
     (x.firstSampleDue = false ∧ x.level ≠ .high) ∧
       ¬ (x.edge = .both ∨ (x.edge = .rise ∧ Level.high = .high) ∨ (x.edge = .fall ∧ Level.high = .low))) ∧
    ({ openInput with mode := .off }.mode = .off ∧ { openInput with mode := .post }.mode = .post ∧
      { openInput with mode := .retrigger }.mode = .retrigger ∧ openInput.edge = .both) ∧
    (openInput.mode = .count ∧ openInput.edgeCount + 1 ≠ openInput.compare) ∧
    (let x : Input := { openInput with edgeCount := 65534, compare := 65535 }
     x.mode = .count ∧ x.edgeCount + 1 = x.compare) := by decide +kernel

theorem test_witness_OutputActionsAndTicks :
    let a : OutputAction := { output := 3, kind := .pulse }
    let s := withWires { Wires.cold with ttToLu := [{ epoch := 0, item := a }], tbToLu := [{ epoch := 0, item := () }] }
    s.resetnLow = false ∧ receive s.resets.lu s.wires.ttToLu = some (a, []) ∧
    receive s.resets.lu s.wires.tbToLu = some ((), []) := by decide +kernel

theorem test_witness_LnSetup :
    ∀ x ∈ ([(0x0007, 0, .off), (0x0097, 0, .post), (0x00A7, 1, .count), (0x37B7, 47, .retrigger)] :
      List (Word × Word × LineMode)),
      let p : Words6 := #v[x.1, 0, x.2.1, 0, 0, 0]
      Taken 0x0040 p (cmd 0x0040 p) ∧ p[0] &&& 0xC808 = 0 ∧ (∃ e ∈ [EdgeSel.rise, .both], edgeSelOf (field p[0] 6 2) = some e) ∧
      lineModeOf (field p[0] 4 2) = x.2.2 := by
  simp only [List.forall_mem_cons, List.not_mem_nil, false_implies, implies_true]
  decide +kernel

theorem test_witness_LnDriveAndRead :
    (∀ w ∈ ([0x0003, 0x0043] : List Word), Taken 0x0041 (p0 w) (cmd 0x0041 (p0 w)) ∧ (p0 w)[0] &&& 0xFF8C = 0 ∧
      (actionKindOf (field (p0 w)[0] 4 3)).isSome = true) ∧
    Taken 0x0042 (p0 7) (cmd 0x0042 (p0 7)) ∧ (p0 7)[0] &&& 0xFFF8 = 0 := by
  simp only [List.forall_mem_cons, List.not_mem_nil, false_implies, implies_true]
  decide +kernel

theorem test_witness_Signals :
    (let s := withWires { Wires.cold with cpToNu := [{ epoch := 0, item := () }], duToNu := [{ epoch := 0, item := () }]
                                          qeToNu := [{ epoch := 0, item := .level 7 }] }
     s.resetnLow = false ∧ receive s.resets.nu s.wires.cpToNu = some ((), []) ∧
     receive s.resets.nu s.wires.duToNu = some ((), []) ∧ receive s.resets.nu s.wires.qeToNu = some (.level 7, [])) ∧
    (let s := withWires { Wires.cold with qeToNu := [{ epoch := 0, item := .drop 7 }] }
     receive s.resets.nu s.wires.qeToNu = some (.drop 7, [])) := by decide +kernel

theorem test_witness_FlagWrite : State.reset.resetnLow = false := by decide +kernel

/-- NT_LEVEL: sources 18, 19 and 31. -/
theorem test_witness_NtLevel :
    (∀ w ∈ ([0x0013, 0x031F] : List Word), Taken 0x0060 (p0 w) (cmd 0x0060 (p0 w)) ∧ (p0 w)[0] &&& 0xFCE0 = 0 ∧
      19 ≤ (field (p0 w)[0] 0 5).toNat) ∧
    (let p := p0 0x0312
     Taken 0x0060 p (cmd 0x0060 p) ∧ p[0] &&& 0xFCE0 = 0 ∧ (field p[0] 0 5).toNat = (18 : SourceId).val) := by
  simp only [List.forall_mem_cons, List.not_mem_nil, false_implies, implies_true]
  decide +kernel

/-- No source pending; source 18 pending alone at level 1. -/
theorem test_witness_Vector :
    (∀ n, NotifyUnit.cold.pending false n = false) ∧
    (let nu := { NotifyUnit.cold.setLevel 18 1 with drop := 0x80 }
     nu.pending false 18 = true ∧ (∀ j, nu.pending false j = true → nu.levelOf j ≤ nu.levelOf 18) ∧
     ∀ j, nu.pending false j = true → nu.levelOf j = nu.levelOf 18 → 18 ≤ j) ∧
    ¬ State.reset.resets.nu < State.reset.resets.cp ∧ resetStarted.resets.nu < resetStarted.resets.cp := by decide +kernel

/-- Pins for each clause, at the first, the last and the two effectful addresses, and an access in each state. -/
theorem test_witness_BusPins :
    (∀ a ∈ ([0x0, 0x9, 0xE, 0xF] : List (BitVec 4)),
      (pins false true a).csn = false ∧ (pins false true a).rdn = false ∧ (pins false true a).wrn = true) ∧
    State.reset.resetnLow = false ∧ State.reset.readWord 0xC = 0 ∧ resetStarted.resets.nu < resetStarted.resets.cp ∧
    (0xA : BitVec 4) ∈ ([0xA, 0xB, 0xC] : List (BitVec 4)) ∧ (0xF : BitVec 4) ∉ ([0x9, 0xA, 0xB, 0xC, 0xE] : List (BitVec 4)) ∧
    { pins false true 0 with csn := true }.csn = true ∧ { pins true true 0 with csn := true }.wrn = true ∧ State.reset.bus = .idle ∧
    (State.reset.busPins (pins false true 0xF)).bus = .read 0 ∧
    (State.reset.busPins (pins true false 0xF)).bus = .write ∧ (State.reset.busPins (pins false false 0xF)).bus = .neither := by
  simp only [List.forall_mem_cons, List.not_mem_nil, false_implies, implies_true]
  decide +kernel

theorem test_witness_CommandWrite :
    State.reset.resetnLow = false ∧ State.reset.cp.slot = none ∧ (cmd 0 (p0 0)).resetnLow = false ∧
    (cmd 0 (p0 0)).cp.slot.isSome = true := by decide +kernel

/-- An event during which the slot stays BUSY; a STATUS write that clears REFUSED while a command is in flight. -/
theorem test_witness_CommandWrite_busy :
    (∃ t, exec (.commandWrite 0) (cmd 0 (p0 0)) = .next t ∧ (cmd 0 (p0 0)).cp.slot ≠ none ∧ t.cp.slot ≠ none) ∧
    (cmd 0 (p0 0)).resetnLow = false ∧ (0x0002 : Word).getLsbD 1 = true :=
  ⟨⟨_, rfl, by decide +kernel, by decide +kernel⟩, by decide +kernel, by decide +kernel⟩

theorem test_witness_CommandCompletion :
    let s := State.reset.withCp { (cmd 0x0050 (p0 0)).cp.returned .ok with params := p0 0 }
    s.cp.slot = some { code := 0x0050, params := p0 0, owner := .tb, stage := .completing .ok } := by decide +kernel

/-- NOP, and the unknown code next to a known one. -/
theorem test_witness_NopAndUnknownCodes :
    (cmd 0x0000 (p0 0)).cp.slot = some { code := 0x0000, params := p0 0, owner := .cp, stage := .handedOver } ∧
    (cmd 0x0110 (p0 0)).cp.slot = some { code := 0x0110, params := p0 0, owner := .cp, stage := .handedOver } ∧
    (0x0110 : Word) ∉ ([0x0000, 0x0010, 0x0011, 0x0012, 0x0013, 0x0014, 0x0015, 0x0020, 0x0022, 0x0023, 0x0024, 0x0025,
      0x0030, 0x0031, 0x0032, 0x0033, 0x0034, 0x0040, 0x0041, 0x0042, 0x0050, 0x0051, 0x0052, 0x0053, 0x0060] :
      List Word) := by decide +kernel

theorem test_witness_ControlAndOtherWrites :
    (5 : Fin 6) ≠ 0 ∧ (0xF : BitVec 4) ∈ ([0x0, 0x9, 0xC, 0xE, 0xF] : List (BitVec 4)) ∧
    (0x0001 : Word).getLsbD 1 = false ∧ (0x0002 : Word).getLsbD 1 = true ∧
    (0x0001 : Word).getLsbD 0 ≠ resetStarted.cp.inten ∧ resetStarted.resets.nu < resetStarted.resets.cp := by decide +kernel

/-- Sender and receiver level, the sender ahead, and the sender behind. -/
theorem test_witness_boundary : (0 ≤ 0 ∧ 1 ≤ 2) ∧ 0 < 1 ∧ (2 : Nat) ≠ 1 := by decide

theorem test_witness_BlockWarmResets :
    let r := resetStarted.resets
    resetStarted.resetnLow = false ∧ r.tb < r.cp ∧ r.du < r.cp ∧ r.tt < r.cp ∧ r.qe < r.cp ∧ r.lu < r.cp ∧ r.nu < r.cp := by
  decide +kernel

theorem test_witness_WarmResetOrder :
    [Instr.nuWarmReset, .duWarmReset, .ttWarmReset, .qeWarmReset, .luWarmReset, .tbWarmReset].Perm
      [.tbWarmReset, .duWarmReset, .ttWarmReset, .qeWarmReset, .luWarmReset, .nuWarmReset] := by decide +kernel

theorem test_witness_OutOfRange_numbers :
    (∀ code ∈ ([0x0011, 0x0012, 0x0013, 0x0014, 0x0015] : List Word),
      Taken code (p0 48) (cmd code (p0 48)) ∧ 48 ≤ (p0 48)[0].toNat) ∧
    (Taken 0x0010 (p0 48) (cmd 0x0010 (p0 48)) ∧ 48 ≤ (field (p0 48)[0] 0 6).toNat) ∧
    (∀ x ∈ ([(0x0020, 0xFF80, 0x80), (0x0022, 0xF008, 8), (0x0023, 0xFFF8, 8), (0x0024, 0xFFF8, 8), (0x0025, 0xFEF8, 8),
        (0x0030, 0xFF80, 0x80), (0x0031, 0xFC80, 0x80), (0x0032, 0xFFF0, 16), (0x0033, 0xFFF0, 16), (0x0034, 0xFFF0, 16),
        (0x0040, 0xC808, 8), (0x0041, 0xFF8C, 4), (0x0042, 0xFFF8, 8), (0x0060, 0xFCE0, 0x20)] :
        List (Word × Word × Word)),
      Taken x.1 (p0 x.2.2) (cmd x.1 (p0 x.2.2)) ∧ (p0 x.2.2)[0] &&& x.2.1 ≠ 0) ∧
    (let p : Words6 := #v[0x0030, 0, 48, 0, 0, 0]
     Taken 0x0040 p (cmd 0x0040 p) ∧ p[0] &&& 0xC808 = 0 ∧ field p[0] 4 2 = 3 ∧ 48 ≤ p[2].toNat) := by
  simp only [List.forall_mem_cons, List.not_mem_nil, false_implies, implies_true]
  and_intros <;> decide +kernel

/-- TMR_DEFINE with a period of 0, an action code of 5, a data count of 3. -/
theorem test_witness_OutOfRange_timers :
    (∀ p ∈ ([#v[47, 0, 0, 0, 0, 0], #v[0xA02F, 1, 0, 0, 0, 0], #v[47, 1, 0, 0x000C, 0, 0]] : List Words6),
      Taken 0x0010 p (cmd 0x0010 p) ∧ (field p[0] 0 6).toNat < 48 ∧
      (p[1] = 0 ∨ 5 ≤ (field p[0] 13 3).toNat ∨ field p[3] 2 2 = 3)) ∧
    (let p : Words6 := #v[47, 0, 0, 0, 0, 0]
     Taken 0x0013 p (cmd 0x0013 p) ∧ p[0].toNat < 48 ∧ p[1] = 0) := by
  simp only [List.forall_mem_cons, List.not_mem_nil, false_implies, implies_true]
  decide +kernel

theorem test_witness_OutOfRange_qSetup :
    ∀ p ∈ ([#v[0x000F, 0, 0, 0, 0, 0], #v[0x000F, 129, 0, 1, 0, 0], #v[0x000F, 1, 2, 1, 0, 0], #v[0x000F, 1, 0, 0, 0, 0],
        #v[0x000F, 1, 0, 2, 0, 0]] : List Words6),
      Taken 0x0020 p (cmd 0x0020 p) ∧ p[0] &&& 0xFF80 = 0 ∧ p[0].getLsbD 3 = true ∧
      (p[1].toNat = 0 ∨ 128 < p[1].toNat ∨ p[1].toNat < p[2].toNat ∨ p[3].toNat = 0 ∨ p[1].toNat < p[3].toNat) := by
  simp only [List.forall_mem_cons, List.not_mem_nil, false_implies, implies_true]
  decide +kernel

theorem test_witness_OutOfRange_queueEngine :
    (let p := p0 0x00C7
     Taken 0x0022 p (cmd 0x0022 p) ∧ p[0] &&& 0xF008 = 0 ∧ field p[0] 6 2 = 3) ∧
    (∀ w ∈ ([0x0300, 0x0200] : List Word), Taken 0x0031 (p0 w) (cmd 0x0031 (p0 w)) ∧ (p0 w)[0] &&& 0xFC80 = 0 ∧
      (field (p0 w)[0] 8 2 = 3 ∨ (field (p0 w)[0] 8 2 = 2 ∧ (p0 w)[1] = 0))) := by
  simp only [List.forall_mem_cons, List.not_mem_nil, false_implies, implies_true]
  decide +kernel

theorem test_witness_OutOfRange_lines :
    (∀ w ∈ ([0x00C7, 0x0027] : List Word), Taken 0x0040 (p0 w) (cmd 0x0040 (p0 w)) ∧ (p0 w)[0] &&& 0xC808 = 0 ∧
      (field (p0 w)[0] 4 2 = 3 → (p0 w)[2].toNat < 48) ∧
      (field (p0 w)[0] 6 2 = 3 ∨ (field (p0 w)[0] 4 2 = 2 ∧ (p0 w)[2] = 0))) ∧
    (let p := p0 0x0053
     Taken 0x0041 p (cmd 0x0041 p) ∧ p[0] &&& 0xFF8C = 0 ∧ 5 ≤ (field p[0] 4 3).toNat) ∧
    Taken 0x0050 (p0 0) (cmd 0x0050 (p0 0)) ∧ (p0 0)[0] = 0 := by
  simp only [List.forall_mem_cons, List.not_mem_nil, false_implies, implies_true]
  decide +kernel

theorem test_witness_States_timers :
    (let p : Words6 := #v[47, 1, 0, 0, 0, 0]
     let s := cmd 0x0010 p (withTimer 47 armedTimer)
     Taken 0x0010 p s ∧ (field p[0] 0 6).toNat = (47 : TimerId).val ∧ p[1] ≠ 0 ∧ (field p[0] 13 3).toNat < 5 ∧
     field p[3] 2 2 ≠ 3 ∧ (s.tt.timer 47).state = .armed) ∧
    (∀ code ∈ ([0x0011, 0x0012, 0x0013] : List Word), let p : Words6 := #v[47, 1, 0, 0, 0, 0]
      Taken code p (cmd code p) ∧ p[0].toNat = (47 : TimerId).val ∧ p[1] ≠ 0 ∧
      ((cmd code p).tt.timer 47).state = .free) ∧
    (let s := cmd 0x0014 (p0 47) (withTimer 47 armedTimer)
     Taken 0x0014 (p0 47) s ∧ (s.tt.timer 47).state = .armed) := by
  simp only [List.forall_mem_cons, List.not_mem_nil, false_implies, implies_true]
  decide +kernel

theorem test_witness_States_queues :
    (let s := cmd 0x0020 (p0 7) (withQueue 7 fullQueue)
     Taken 0x0020 (p0 7) s ∧ (p0 7)[0] &&& 0xFF80 = 0 ∧ (p0 7)[0].getLsbD 3 = false ∧ (s.qe.queue 7).msgs ≠ []) ∧
    (let p : Words6 := #v[0x000F, 1, 1, 1, 0, 0]
     let s := cmd 0x0020 p (State.reset.withQe { QueueEngine.cold with free := 0 })
     Taken 0x0020 p s ∧ p[0].getLsbD 3 = true ∧ (s.qe.queue 7).msgs = [] ∧ (s.qe.queue 7).waiters = [] ∧
     s.qe.free < p[2].toNat + (sumBank QueueRec.unmet s.qe.queues - (s.qe.queue 7).unmet)) ∧
    (let s := cmd 0x0022 (p0 7)
     Taken 0x0022 (p0 7) s ∧ (p0 7)[0] &&& 0xF008 = 0 ∧ field (p0 7)[0] 6 2 ≠ 3 ∧ (s.qe.queue 7).enabled = false) := by
  decide +kernel

theorem test_witness_States_contexts :
    (let s := cmd 0x0031 (p0 0x007F) (withContext 15 completeContext)
     Taken 0x0031 (p0 0x007F) s ∧ (p0 0x007F)[0] &&& 0xFC80 = 0 ∧ field (p0 0x007F)[0] 8 2 = 0 ∧
     (s.qe.context 15).state ≠ .idle) ∧
    (let s := cmd 0x0031 (p0 0x007F)
     (s.qe.context 15).state = .idle ∧ (s.qe.queue 7).enabled = false) ∧
    (let s := cmd 0x0033 (p0 15)
     Taken 0x0033 (p0 15) s ∧ (p0 15)[0] &&& 0xFFF0 = 0 ∧ (s.qe.context 15).state ≠ .complete) := by decide +kernel

/-- The states that the invariants speak of exist: the one right after reset, which idles. -/
theorem test_witness_invariants :
    State.reset.qe.PoolOk ∧ State.reset.qe.WaitOk ∧ State.reset.DeadlinesOk ∧ State.reset.tb.Ok ∧ State.reset.lu.Ok ∧
    State.reset.cp.Ok ∧ State.reset.FlowOk ∧ step State.reset = .next State.reset :=
  ⟨QueueEngine.poolOk_cold, QueueEngine.waitOk_cold, ⟨DeadlineUnit.ok_cold, by decide +kernel, by simp [State.reset, Wires.cold],
    by simp [State.reset, Wires.cold]⟩, by decide +kernel, by decide +kernel, trivial, State.flowOk_reset, rfl⟩

end Sys2Proof.Machine.Tests
end

section
/-! The context commands that complete at once and enter nothing in the log: CTX_SETUP (R86), and CTX_WAIT polling an
empty queue (R89). First what each rule answers, then the statements. -/

namespace Sys2Proof.Machine

/-! ## What the rules answer -/

section rules
variable {p : Words6} {now : Word} {qe : QueueEngine}

/-- R86 in an IDLE or COMPLETE context. -/
theorem ctxSetup_of_not_waiting (hr : p[0] &&& unassignedCtxSetup = 0)
    (hs : (qe.context (contextOf (field p[0] 0 4))).state ≠ .waiting) :
    ctxSetup p now qe =
      (.ok (words ((qe.context (contextOf (field p[0] 0 4))).priority.setWidth 16)),
        { qe := qe.setContext (contextOf (field p[0] 0 4))
            { qe.context (contextOf (field p[0] 0 4)) with priority := field p[0] 4 3 } }) := by
  simp [ctxSetup, inRange_of_zero hr, hs, place_zero]

/-- R86 in a WAITING context: its place in a PRIORITY waiter list stays fixed. -/
theorem ctxSetup_of_waiting (hr : p[0] &&& unassignedCtxSetup = 0)
    (hs : (qe.context (contextOf (field p[0] 0 4))).state = .waiting) :
    ctxSetup p now qe = (.fail .wrongState, { qe := qe }) := by
  simp [ctxSetup, inRange_of_zero hr, hs]

/-- Mode 1 is poll, whatever the tick count (R87). -/
theorem waitModeOf_one (ticks : Word) : waitModeOf 1 ticks = some .poll := rfl

/-- R89: the checks of R87 pass, the message list is empty and the mode is poll. -/
theorem ctxWait_poll_of_empty (hr : p[0] &&& unassignedCtxWait = 0) (hm : waitModeOf (field p[0] 8 2) p[1] = some .poll)
    (hs : (qe.context (contextOf (field p[0] 0 4))).state = .idle)
    (he : (qe.queue (queueOf (field p[0] 4 3))).enabled = true)
    (hq : (qe.queue (queueOf (field p[0] 4 3))).msgs = []) :
    ctxWait p now qe = (.fail .empty, { qe := qe }) := by
  simp [ctxWait, inRange_of_zero hr, hm, hs, he, hq]

end rules

/-! ## The events -/

theorem exec_ctxSetup (s : State) :
    exec .ctxSetup s = running s (takeCommand Config.codeCtxSetup (qeCommand ctxSetup) s) := rfl

theorem exec_ctxWait (s : State) :
    exec .ctxWait s = running s (takeCommand Config.codeCtxWait (qeCommand ctxWait) s) := rfl

/-- A QE event that sends nothing leaves every FIFO as it was. -/
theorem commitQe_wires_of_silent (s : State) (qe : QueueEngine) : (s.commitQe { qe := qe }).wires = s.wires := by
  simp only [State.commitQe, State.withWires_wires, sendAll_nil]

end Sys2Proof.Machine

/-! ## The statements -/

namespace Sys2Proof.Machine.ContextCommands

/-- Settles O29: the rule's answer by the context's state, put into State by the QE's one command path. -/
theorem ctxSetup : Obligations.CtxSetup := by
  intro p s ht hr c
  refine ⟨fun hs => ?notWaiting, fun hs => ?waiting⟩
  case notWaiting =>
    have hnext := qeCommand_next ht (ctxSetup_of_not_waiting hr hs)
    exact ⟨_, (exec_ctxSetup s).trans hnext, answered_commitQe s _ _, s.qe.onlyContext_setContext c _, rfl, rfl, rfl,
      commitQe_wires_of_silent s _⟩
  case waiting =>
    exact fails_of (exec_ctxSetup s) ht (qeCommand_fails (ctxSetup_of_waiting hr hs))

/-- Settles O31: mode 1 is poll, and its answer on an empty queue leaves the QE as it is. -/
theorem ctxWaitPoll : Obligations.CtxWaitPoll := by
  intro p s ht hr hmode hidle henabled hempty
  have hpoll : waitModeOf (field p[0] 8 2) p[1] = some .poll := hmode ▸ waitModeOf_one p[1]
  exact fails_of (exec_ctxWait s) ht (qeCommand_fails (ctxWait_poll_of_empty hr hpoll hidle henabled hempty))

end Sys2Proof.Machine.ContextCommands
end

section
/-! The Command Port's record: how each write of the host changes it, everything an event can do to it, and which block
owns a command code. Then the statements on the writes of COMMAND (R142, R149) and STATUS (R150). -/

namespace Sys2Proof.Machine

/-! ## The writes of COMMAND and STATUS -/

section writes
variable {cp : CommandPort} (w : Word)

/-- R142: acceptance. -/
theorem CommandPort.writeCommand_of_free (h : cp.slot = none) :
    cp.writeCommand w = { cp with
      slot := some { code := w, params := cp.params, owner := ownerOf w, stage := .handedOver }
      lastCode := w } := by
  simp only [CommandPort.writeCommand, h]

/-- R149: refusal. -/
theorem CommandPort.writeCommand_of_busy {r : InFlight} (h : cp.slot = some r) :
    cp.writeCommand w = { cp with refused := true } := by
  simp only [CommandPort.writeCommand, h]

/-- Neither acceptance nor refusal changes the result or the REPLY registers. -/
theorem CommandPort.writeCommand_answer :
    (cp.writeCommand w).result = cp.result ∧ (cp.writeCommand w).reply = cp.reply := by
  cases h : cp.slot with
  | none => rw [cp.writeCommand_of_free w h]; exact ⟨rfl, rfl⟩
  | some r => rw [cp.writeCommand_of_busy w h]; exact ⟨rfl, rfl⟩

/-- R150: writing REFUSED as 1 clears it. -/
theorem CommandPort.writeStatus_eq :
    cp.writeStatus w = { cp with refused := if w.getLsbD 1 then false else cp.refused } := by
  unfold CommandPort.writeStatus bit
  cases w.getLsbD 1 <;> simp

variable {s : State} (hr : s.resetnLow = false)
include hr

theorem exec_commandWrite_high :
    exec (.commandWrite w) s = .next ((s.withCp (s.cp.writeCommand w)).withBus .idle) :=
  hostWrite_high hr

theorem exec_statusWrite_high :
    exec (.statusWrite w) s = .next ((s.withCp (s.cp.writeStatus w)).withBus .idle) :=
  hostWrite_high hr

end writes

/-! ## Everything an event can do to the Command Port -/

/-- One event's change of the CP's record: a register write, the latch of a NOWLO read, a completion on its way or taken,
or a reset. -/
inductive CommandPort.Moves (cp : CommandPort) : CommandPort → Prop where
  | stays : Moves cp cp
  | command (w : Word) : Moves cp (cp.writeCommand w)
  | status (w : Word) : Moves cp (cp.writeStatus w)
  | param (i : Fin 6) (w : Word) : Moves cp (cp.writeParam i w)
  | inten (w : Word) : Moves cp (cp.writeInten w)
  | soft (w : Word) : Moves cp (cp.writeInten w).warm
  | latch (high : Word) : Moves cp { cp with nowLatch := high }
  | returned (c : Completion) : Moves cp (cp.returned c)
  | completed (c : Completion) : Moves cp { cp with slot := none, result := c.result, reply := c.reply }
  | cold : Moves cp .cold

theorem CommandPort.Moves.of_eq {a b : CommandPort} (h : b = a) : a.Moves b := h ▸ .stays

section moves
variable {s t u : State} {bs : List Block}

theorem Touches.cp_eq (h : Touches bs s t) (hn : Block.cp ∉ bs) : t.cp = s.cp := by
  obtain ⟨-, -, -, -, -, -, hcp⟩ := h
  exact hcp.resolve_left hn

theorem moves_running (e : running s u = .next t) (h : s.cp.Moves u.cp) : s.cp.Moves t.cp := by
  rcases running_eq_next e with ⟨_, rfl⟩ | ⟨_, rfl⟩
  · exact .stays
  · exact h

theorem moves_hostWrite (e : hostWrite s u = .next t) (h : s.cp.Moves u.cp) : s.cp.Moves t.cp := by
  rcases hostWrite_eq_next e with ⟨_, rfl⟩ | ⟨_, rfl⟩
  · exact .stays
  · exact h

/-- An owner's rule leaves the CP alone; its completion is on its way (R146). -/
theorem moves_takeCommand {code : Word} {f : Words6 → State → Completion × State} (h : ∀ p, (f p s).2.cp = s.cp) :
    s.cp.Moves (takeCommand code f s).cp := by
  rcases takeCommand_cases code f s with e | ⟨p, _, e⟩
  · rw [e]; exact .stays
  · rw [e, State.withCp_cp, h p]; exact .returned _

theorem moves_takeCompletion : s.cp.Moves s.takeCompletion.cp := by
  unfold State.takeCompletion
  split
  · exact .stays
  · exact .completed _

theorem moves_takeNop : s.cp.Moves s.takeNop.cp := by
  unfold State.takeNop
  split
  · exact .stays
  · split
    · exact .completed _
    · exact .stays

theorem moves_takeUnknown : s.cp.Moves s.takeUnknown.cp := by
  unfold State.takeUnknown
  split
  · exact .stays
  · split
    · exact .stays
    · exact .completed _

theorem moves_nowloRead : s.cp.Moves s.nowloRead.cp := by
  have hdu : s.duUpToDate.cp = s.cp := by
    unfold State.duUpToDate
    split <;> rfl
  unfold State.nowloRead
  split
  · exact .stays
  · rw [State.readNowlo, State.withBus_cp, State.withCp_cp, hdu]
    exact .latch _

theorem moves_flagWrite (r : FlagReg) (w : Word) : s.cp.Moves (s.flagWrite r w).cp :=
  .of_eq ((touches_flagWrite s r w).cp_eq (by decide))

theorem moves_controlWrite (w : Word) : s.cp.Moves (s.controlWrite w).cp := by
  unfold State.controlWrite
  split
  · exact .soft w
  · exact .inten w

theorem moves_writeWord (a : BitVec 4) (w : Word) : s.cp.Moves (s.writeWord a w).cp := by
  unfold State.writeWord
  split
  · exact .status w
  · exact .command w
  · exact .param 0 w
  · exact .param 1 w
  · exact .param 2 w
  · exact .param 3 w
  · exact .param 4 w
  · exact .param 5 w
  · exact moves_flagWrite .flaga w
  · exact moves_flagWrite .flagb w
  · exact moves_controlWrite w
  · exact .stays

end moves

/-! The commands whose rules are written over the whole State leave the CP alone too. -/

theorem tmrRead_cp (p : Words6) (s : State) : (tmrRead p s).2.cp = s.cp := by
  unfold tmrRead
  split <;> rfl

theorem ctxRead_cp (p : Words6) (s : State) : (ctxRead p s).2.cp = s.cp := by
  unfold ctxRead
  split <;> rfl

theorem tbSetup_cp (p : Words6) (s : State) : (tbSetup p s).2.cp = s.cp := by
  unfold tbSetup
  split <;> rfl

theorem ntLevel_cp (p : Words6) (s : State) : (ntLevel p s).2.cp = s.cp := by
  unfold ntLevel
  split
  · rfl
  · split <;> rfl

/-- Every event changes the CP's record by one of the moves. -/
theorem exec_moves {i : Instr} {s t : State} (e : exec i s = .next t) : s.cp.Moves t.cp := by
  by_cases hcp : Block.cp ∈ touchedBy i
  case neg => exact .of_eq ((exec_touches e).cp_eq hcp)
  cases i with
  | nowloRead => exact Host.Outcome.next.inj e ▸ moves_nowloRead
  | commandWrite w => exact moves_hostWrite e (.command w)
  | statusWrite w => exact moves_hostWrite e (.status w)
  | paramWrite i w => exact moves_hostWrite e (.param i w)
  | intenWrite w => exact moves_hostWrite e (moves_controlWrite w)
  | warmReset w => exact moves_hostWrite e (moves_controlWrite w)
  | registerWrite a w => exact moves_hostWrite e (moves_writeWord a w)
  | commandCompletion => exact moves_running e moves_takeCompletion
  | nop => exact moves_running e moves_takeNop
  | unknownCode => exact moves_running e moves_takeUnknown
  | tmrDefine | tmrArm | tmrDisarm | tmrRetune | tmrRelease
  | qSetup | qSend | qTake | qPurge | qRead | ctxSetup | ctxWait | ctxAbandon | ctxCollect
  | lnSetup | lnDrive | lnRead | tbRun | tbHalt | tbRead =>
    exact moves_running e (moves_takeCommand fun _ => rfl)
  | tmrRead => exact moves_running e (moves_takeCommand fun p => tmrRead_cp p s)
  | ctxRead => exact moves_running e (moves_takeCommand fun p => ctxRead_cp p s)
  | tbSetup => exact moves_running e (moves_takeCommand fun p => tbSetup_cp p s)
  | ntLevel => exact moves_running e (moves_takeCommand fun p => ntLevel_cp p s)
  | coldReset => exact Host.Outcome.next.inj e ▸ .cold
  | _ => simp [touchedBy] at hcp

/-- A move that leaves the slot BUSY leaves the host's last answer standing: the completion and the resets, which replace
it, free the slot. -/
theorem CommandPort.Moves.answer_stands {a b : CommandPort} (h : a.Moves b) (hb : b.slot ≠ none) :
    b.result = a.result ∧ b.reply = a.reply := by
  cases h with
  | command w => exact a.writeCommand_answer w
  | stays | status | param | inten | latch | returned => exact ⟨rfl, rfl⟩
  | soft | completed | cold => exact absurd rfl hb

/-! ## The owner of a command code (R143) -/

/-- The codes that R143 gives to a block. The CP has NOP and every code that no block has, so no list. -/
def codesOf : Block → List Word
  | .tt => [Config.codeTmrDefine, Config.codeTmrArm, Config.codeTmrDisarm, Config.codeTmrRetune, Config.codeTmrRelease,
      Config.codeTmrRead]
  | .qe => [Config.codeQSetup, Config.codeQSend, Config.codeQTake, Config.codeQPurge, Config.codeQRead,
      Config.codeCtxSetup, Config.codeCtxWait, Config.codeCtxAbandon, Config.codeCtxCollect, Config.codeCtxRead]
  | .lu => [Config.codeLnSetup, Config.codeLnDrive, Config.codeLnRead]
  | .tb => [Config.codeTbSetup, Config.codeTbRun, Config.codeTbHalt, Config.codeTbRead]
  | .nu => [Config.codeNtLevel]
  | .du | .cp => []

/-- The lists do not overlap: a block owns every code of its own list. -/
theorem ownerOf_of_mem_codesOf {b : Block} : ∀ w ∈ codesOf b, ownerOf w = b := by
  cases b <;> simp only [codesOf, List.forall_mem_cons, List.not_mem_nil, false_implies, implies_true] <;> decide

theorem mem_codesOf_ownerOf (w : Word) : ownerOf w = .cp ∨ w ∈ codesOf (ownerOf w) := by
  unfold ownerOf
  split_ifs with htt hqe hlu htb hnu
  · exact .inr (by simpa [codesOf] using htt)
  · exact .inr (by simpa [codesOf] using hqe)
  · exact .inr (by simpa [codesOf] using hlu)
  · exact .inr (by simpa [codesOf] using htb)
  · exact .inr (by simpa [codesOf] using hnu)
  · exact .inl rfl

theorem ownerOf_eq_iff_mem_codesOf {w : Word} {b : Block} (hb : b ≠ .cp) : ownerOf w = b ↔ w ∈ codesOf b where
  mp h := h ▸ (mem_codesOf_ownerOf w).resolve_left (h ▸ hb)
  mpr h := ownerOf_of_mem_codesOf w h

end Sys2Proof.Machine

/-! ## The statements -/

namespace Sys2Proof.Machine.CommandPortWrites

/-- Settles O45: acceptance, every event's move of the CP, and the table of owners. -/
theorem commandWriteAccepted : Obligations.CommandWriteAccepted := by
  refine ⟨fun w s hr hfree => ?accepted, fun i s t e _ hbusy => (exec_moves e).answer_stands hbusy, fun w => ?owners⟩
  case accepted =>
    exact ⟨_, exec_commandWrite_high w hr, s.cp.writeCommand_of_free w hfree, rfl, by simp [sameExcept]⟩
  case owners =>
    have owns : ∀ {b : Block}, b ≠ .cp → (ownerOf w = b ↔ w ∈ codesOf b) := ownerOf_eq_iff_mem_codesOf
    exact ⟨owns (by decide), owns (by decide), owns (by decide), owns (by decide),
      (owns (by decide)).trans List.mem_singleton, fun h => List.not_mem_nil ((owns (by decide)).1 h)⟩

/-- Settles O46: the refused write's record, in the next state of a COMMAND write. -/
theorem commandWriteRefused : Obligations.CommandWriteRefused := by
  intro w r s hr hbusy
  rw [exec_commandWrite_high w hr, s.cp.writeCommand_of_busy w hbusy]
  rfl

/-- Settles O49: a STATUS write leaves the slot BUSY, so a COMMAND write before or after it is refused (O46). -/
theorem statusWriteClearsRefused : Obligations.StatusWriteClearsRefused := by
  intro w s hr
  have hstatus := exec_statusWrite_high w hr
  rw [s.cp.writeStatus_eq w] at hstatus
  refine ⟨_, hstatus, rfl, fun code hslot => ?_⟩
  obtain ⟨r, hbusy⟩ := Option.ne_none_iff_exists'.1 hslot
  refine ⟨⟨_, commandWriteRefused code r _ hr hbusy, rfl⟩, fun hclear => ?_⟩
  refine ⟨_, _, commandWriteRefused code r s hr hbusy, exec_statusWrite_high w hr, ?_⟩
  simp [CommandPort.writeStatus_eq, hclear]

end Sys2Proof.Machine.CommandPortWrites
end

section
/-! Every event changes the Queue Engine by one of a few moves. The laws of the pool (R54 to R68) and of the waits (R83,
R92, R98) are kept by each move, hence by every step. -/

namespace Sys2Proof.Machine

/-! ## Steps -/

/-- A law that does not look at the events to come holds after every step, if every event keeps it. -/
theorem step_keeps {P : State → Prop} (hpending : ∀ s x, P s → P (s.withPending x))
    (hexec : ∀ {i s t}, exec i s = .next t → P s → P t) {s t : State} (e : step s = .next t) (h : P s) : P t := by
  unfold step at e
  split at e
  · exact Host.Outcome.next.inj e ▸ h
  · exact hexec e (hpending s _ h)

/-! ## Everything an event can do to the Queue Engine -/

/-- One event's change of the QE's record, with the event that makes it. -/
inductive QueueEngine.Moves (a : QueueEngine) : Instr → QueueEngine → Prop where
  | stays {i : Instr} : Moves a i a
  | post {i : Instr} (hi : i ∈ [Instr.post .tt, .post .lu, .qSend]) (q : QueueId) (m : Message) :
      Moves a i (a.takePost q m).2.qe
  | timeout (n : Notice ContextId) (now : Word) : Moves a .timeoutNotice (a.takeTimeout n now)
  | logpop : Moves a .logpopRead { a with log := a.log.tail }
  | warm {i : Instr} : Moves a i a.warm
  | cold : Moves a .coldReset .cold
  | configure (q : QueueId) (p : Words6) (hm : (a.queue q).msgs = []) (hw : (a.queue q).waiters = [])
      (hr : bit p[0] 3 = true → setupInRange p[1].toNat p[2].toNat p[3].toNat = true)
      (hc : bit p[0] 3 = true → p[2].toNat + a.unmetOthers q ≤ a.free) :
      Moves a .qSetup (a.setQueue q ((a.queue q).configured p))
  | removeHead {i : Instr} (q : QueueId) (m : Message) (rest : List Message) (hm : (a.queue q).msgs = m :: rest) :
      Moves a i (a.removeHead q rest)
  | purge (q : QueueId) (now : Word) :
      Moves a .qPurge (QueueEngine.purgeWaiters q now (a.queue q).waiters (a.discardAll q))
  | clear (q : QueueId) : Moves a .qRead (a.setQueue q (a.queue q).cleared)
  | priority (c : ContextId) (x : BitVec 3) (hs : (a.context c).state ≠ .waiting) :
      Moves a .ctxSetup (a.setContext c { a.context c with priority := x })
  | wait (c : ContextId) (q : QueueId) (t : Option Word) (hs : (a.context c).state = .idle)
      (he : (a.queue q).enabled = true) (hm : (a.queue q).msgs = []) : Moves a .ctxWait (a.beginWait c q t)
  | abandon (c : ContextId) (hs : (a.context c).state = .waiting) :
      Moves a .ctxAbandon ((a.dropWaiter (a.context c).queue c).setContext c
        { a.context c with state := .idle, arming := (a.context c).arming + 1 })
  | toIdle {i : Instr} (c : ContextId) (hs : (a.context c).state = .complete) :
      Moves a i ((a.unlog c).setContext c (a.context c).toIdle)

theorem QueueEngine.Moves.of_eq {a b : QueueEngine} {i : Instr} (h : b = a) : a.Moves i b := h ▸ .stays

section rules
variable (p : Words6) (now : Word) (qe : QueueEngine)

theorem moves_qSetup : qe.Moves .qSetup (qSetup p now qe).2.qe := by
  unfold qSetup
  split
  · exact .stays
  · split
    · exact .stays
    · next hrange =>
      simp only
      split
      · exact .stays
      · next hempty =>
        obtain ⟨hm, hw⟩ := not_or.1 hempty
        split
        · exact .stays
        · next hcells =>
          refine .configure _ p (not_not.1 hm) (not_not.1 hw) (fun hb => ?_) (fun hb => ?_)
          · simpa [hb] using hrange
          · simpa [hb] using hcells

theorem moves_qSend : qe.Moves .qSend (qSend p now qe).2.qe := by
  unfold qSend
  split
  · exact .stays
  · split
    · exact .stays
    · next data _ =>
      simp only
      split
      · next henabled =>
        have hpost := QueueEngine.Moves.post (a := qe) (i := .qSend) (by simp) (queueOf (field p[0] 0 3))
          { body := sendDraft p data, stamp := now }
        rwa [QueueEngine.takePost, if_pos henabled] at hpost
      · exact .stays

theorem moves_qTake : qe.Moves .qTake (qTake p now qe).2.qe := by
  unfold qTake
  split
  · exact .stays
  · simp only
    split
    · exact .stays
    · next m rest hm => exact .removeHead _ m rest hm

theorem moves_qPurge : qe.Moves .qPurge (qPurge p now qe).2.qe := by
  unfold qPurge
  split
  · exact .stays
  · exact .purge _ now

theorem moves_qRead : qe.Moves .qRead (qRead p now qe).2.qe := by
  unfold qRead
  split
  · exact .stays
  · simp only
    split
    · exact .clear _
    · exact .stays

theorem moves_ctxSetup : qe.Moves .ctxSetup (ctxSetup p now qe).2.qe := by
  unfold ctxSetup
  split
  · exact .stays
  · simp only
    split
    · exact .stays
    · next hs => exact .priority _ _ hs

theorem moves_ctxWait : qe.Moves .ctxWait (ctxWait p now qe).2.qe := by
  unfold ctxWait
  split
  · exact .stays
  · split
    · exact .stays
    · simp only
      split
      · exact .stays
      · next hs =>
        split
        · exact .stays
        · next he =>
          have he : (qe.queue (queueOf (field p[0] 4 3))).enabled = true := by simpa using he
          split
          · next m rest hm => exact .removeHead _ m rest hm
          · next hm =>
            split
            · exact .stays
            · exact .wait _ _ none (not_not.1 hs) he hm
            · exact .wait _ _ (some _) (not_not.1 hs) he hm

theorem moves_ctxAbandon : qe.Moves .ctxAbandon (ctxAbandon p now qe).2.qe := by
  unfold ctxAbandon
  split
  · exact .stays
  · simp only
    split
    · exact .stays
    · next hs => exact .abandon _ hs
    · next hs => exact .toIdle _ hs

theorem moves_ctxCollect : qe.Moves .ctxCollect (ctxCollect p now qe).2.qe := by
  unfold ctxCollect
  split
  · exact .stays
  · simp only
    split
    · next hs => exact .toIdle _ hs
    · exact .stays
    · exact .stays

end rules

section moves
variable {i : Instr} {s t u : State}

theorem qeMoves_running (e : running s u = .next t) (h : s.qe.Moves i u.qe) : s.qe.Moves i t.qe := by
  rcases running_eq_next e with ⟨_, rfl⟩ | ⟨_, rfl⟩
  · exact .stays
  · exact h

/-- A command of the QE moves it as its rule does. -/
theorem qeMoves_takeCommand {code : Word} {f : Words6 → Word → QueueEngine → Completion × QeOut}
    (h : ∀ p, s.qe.Moves i (f p s.stampNow s.qe).2.qe) : s.qe.Moves i (takeCommand code (qeCommand f) s).qe := by
  rcases takeCommand_cases code (qeCommand f) s with e | ⟨p, _, e⟩
  · rw [e]; exact .stays
  · rw [e]; exact h p

theorem qeMoves_takePost (x : PostSender) : s.qe.Moves (.post x) (s.takePost x).qe := by
  unfold State.takePost
  split
  · exact .stays
  · exact .post (by cases x <;> simp) _ _

theorem qeMoves_timeoutNotice : s.qe.Moves .timeoutNotice s.timeoutNotice.qe := by
  unfold State.timeoutNotice
  split
  · exact .stays
  · exact .timeout _ _

/-- The reset that the QE takes before a LOGPOP read leaves the read nothing to remove. -/
theorem qeMoves_logpopRead : s.qe.Moves .logpopRead s.logpopRead.qe := by
  unfold State.logpopRead State.qeUpToDate
  split
  · exact .stays
  · split
    · exact .warm
    · exact .logpop

/-- Every event changes the QE's record by one of the moves. -/
theorem exec_qeMoves (e : exec i s = .next t) : s.qe.Moves i t.qe := by
  by_cases hqe : Block.qe ∈ touchedBy i
  case neg =>
    obtain ⟨-, -, -, h, -⟩ := exec_touches e
    exact .of_eq (h.resolve_left hqe)
  cases i with
  | post x => exact qeMoves_running e (qeMoves_takePost x)
  | timeoutNotice => exact qeMoves_running e qeMoves_timeoutNotice
  | logpopRead => exact Host.Outcome.next.inj e ▸ qeMoves_logpopRead
  | qeWarmReset =>
    refine qeMoves_running e ?_
    split
    · exact .warm
    · exact .stays
  | coldReset => exact Host.Outcome.next.inj e ▸ .cold
  | qSetup => exact qeMoves_running e (qeMoves_takeCommand fun p => moves_qSetup p _ _)
  | qSend => exact qeMoves_running e (qeMoves_takeCommand fun p => moves_qSend p _ _)
  | qTake => exact qeMoves_running e (qeMoves_takeCommand fun p => moves_qTake p _ _)
  | qPurge => exact qeMoves_running e (qeMoves_takeCommand fun p => moves_qPurge p _ _)
  | qRead => exact qeMoves_running e (qeMoves_takeCommand fun p => moves_qRead p _ _)
  | ctxSetup => exact qeMoves_running e (qeMoves_takeCommand fun p => moves_ctxSetup p _ _)
  | ctxWait => exact qeMoves_running e (qeMoves_takeCommand fun p => moves_ctxWait p _ _)
  | ctxAbandon => exact qeMoves_running e (qeMoves_takeCommand fun p => moves_ctxAbandon p _ _)
  | ctxCollect => exact qeMoves_running e (qeMoves_takeCommand fun p => moves_ctxCollect p _ _)
  | _ => simp [touchedBy] at hqe

end moves

/-! ## The laws -/

section laws
variable {a b : QueueEngine} {i : Instr}

theorem QueueEngine.poolOk_takeTimeout (n : Notice ContextId) (now : Word) (h : a.PoolOk) :
    (a.takeTimeout n now).PoolOk := by
  unfold QueueEngine.takeTimeout
  split
  · exact QueueEngine.poolOk_finishWait _ _ _ _ _ _ h
  · exact h

/-- Every move keeps the laws of the pool. -/
theorem QueueEngine.Moves.keeps_poolOk (hmove : a.Moves i b) (h : a.PoolOk) : b.PoolOk := by
  cases hmove with
  | stays => exact h
  | post _ q m => exact QueueEngine.poolOk_takePost q m h
  | timeout n now => exact QueueEngine.poolOk_takeTimeout n now h
  | logpop => exact QueueEngine.poolOk_congr h rfl rfl
  | warm => exact QueueEngine.poolOk_warm h
  | cold => exact QueueEngine.poolOk_cold
  | configure q p hm hw hr hc => exact QueueEngine.poolOk_configured h hm hw hr hc
  | removeHead q m rest hm => exact QueueEngine.poolOk_removeHead h hm
  | purge q now => exact QueueEngine.poolOk_purgeWaiters q now _ _ (QueueEngine.poolOk_discardAll q h)
  | clear q => exact QueueEngine.poolOk_cleared q h
  | priority c x hs => exact QueueEngine.poolOk_congr h rfl rfl
  | wait c q t hs he hm => exact QueueEngine.poolOk_beginWait c t h he hm
  | abandon c hs => exact QueueEngine.poolOk_congr (QueueEngine.poolOk_dropWaiter _ c h) rfl rfl
  | toIdle c hs => exact QueueEngine.poolOk_congr h rfl rfl

/-- A WAITING context that is abandoned leaves its list and the log names it nowhere (R102). -/
theorem QueueEngine.waitOk_abandon {c : ContextId} (h : a.WaitOk) (hs : (a.context c).state = .waiting) :
    ((a.dropWaiter (a.context c).queue c).setContext c
      { a.context c with state := .idle, arming := (a.context c).arming + 1 }).WaitOk := by
  obtain ⟨hctx, -, -, hmem, -, -⟩ := id h
  obtain ⟨hout, hslot⟩ := hctx c
  refine QueueEngine.waitOk_leave h ((hmem _ c).2 ⟨hs, rfl⟩) (a.onlyQueue_setQueue _ _) rfl rfl
    (QueueEngine.onlyContext_setContext _ c _) ⟨?_, hslot⟩ (by simp) (.inl rfl)
  simpa [hs] using hout

/-- Every move keeps the laws of contexts, waiter lists and the log. -/
theorem QueueEngine.Moves.keeps_waitOk (hmove : a.Moves i b) (h : a.WaitOk) : b.WaitOk := by
  cases hmove with
  | stays => exact h
  | post _ q m => exact QueueEngine.waitOk_takePost q m h
  | timeout n now => exact QueueEngine.waitOk_takeTimeout n now h
  | logpop => exact QueueEngine.waitOk_quiet h (fun _ => rfl) (fun _ => .inl rfl) rfl (List.tail_sublist _)
  | warm => exact QueueEngine.waitOk_warm a
  | cold => exact QueueEngine.waitOk_cold
  | configure q p hm hw hr hc => exact QueueEngine.waitOk_setQueue a.free h rfl (.inr hw)
  | removeHead q m rest hm => exact QueueEngine.waitOk_setQueue _ h rfl (.inl rfl)
  | purge q now =>
    have hw : ((a.discardAll q).queue q).waiters = (a.queue q).waiters := by rw [(a.onlyQueue_discardAll q).1]
    have hd : (a.discardAll q).WaitOk := QueueEngine.waitOk_setQueue _ h rfl (.inl rfl)
    exact (QueueEngine.purgeWaiters_spec q now _ _ hd hw).1
  | clear q => exact QueueEngine.waitOk_setQueue a.free h rfl (.inl rfl)
  | priority c x hs =>
    exact QueueEngine.waitOk_setContext h hs rfl (a.onlyContext_setContext c _) (h.1 c) hs (.refl _)
      (.inr ⟨rfl, rfl, rfl⟩)
  | wait c q t hs he hm => exact QueueEngine.waitOk_beginWait t h hs
  | abandon c hs => exact QueueEngine.waitOk_abandon h hs
  | toIdle c hs => exact QueueEngine.waitOk_toIdle h hs

end laws

end Sys2Proof.Machine

/-! ## The statements -/

namespace Sys2Proof.Machine.QueueEngineLaws

/-- Settles O57: each of the QE's moves keeps the pool. -/
theorem everyStepKeepsThePool : Obligations.EveryStepKeepsThePool := fun _ _ h e =>
  step_keeps (P := fun s => s.qe.PoolOk) (fun _ _ h => h) (fun e h => (exec_qeMoves e).keeps_poolOk h) e h

/-- Settles O58: each of the QE's moves keeps the waits. -/
theorem everyStepKeepsTheWaits : Obligations.EveryStepKeepsTheWaits := fun _ _ h e =>
  step_keeps (P := fun s => s.qe.WaitOk) (fun _ _ h => h) (fun e h => (exec_qeMoves e).keeps_waitOk h) e h

end Sys2Proof.Machine.QueueEngineLaws
end

section
/-! The laws of the Time Base, the Line Unit and the Command Port, and the order of the items between blocks (R172): each is
kept by every event, hence by every step. -/

namespace Sys2Proof.Machine

/-! ## A law kept by every path of an event -/

section keeps
variable {P : State → Prop} {s t u : State}

theorem keeps_running (e : running s u = .next t) (h : P s) (hu : P u) : P t := by
  rcases running_eq_next e with ⟨_, rfl⟩ | ⟨_, rfl⟩
  · exact h
  · exact hu

theorem keeps_hostWrite (hbus : ∀ v : State, P v → P (v.withBus .idle)) (e : hostWrite s u = .next t) (h : P s)
    (hu : P u) : P t := by
  rcases hostWrite_eq_next e with ⟨_, rfl⟩ | ⟨_, rfl⟩
  · exact hbus _ h
  · exact hbus _ hu

/-- A law that does not look at the CP is kept by a command if its owner's rule keeps it. -/
theorem keeps_takeCommand (hcp : ∀ (v : State) (x : CommandPort), P v → P (v.withCp x)) {code : Word}
    {f : Words6 → State → Completion × State} (h : P s) (hf : ∀ p, P (f p s).2) : P (takeCommand code f s) := by
  rcases takeCommand_cases code f s with e | ⟨p, _, e⟩
  · rw [e]; exact h
  · rw [e]; exact hcp _ _ (hf p)

theorem keeps_ite {c : Prop} [Decidable c] {a b : State} (ha : P a) (hb : P b) : P (if c then a else b) := by
  split
  · exact ha
  · exact hb

end keeps

/-! ## Time Base -/

section timeBase
variable {tb : TimeBase}

theorem TimeBase.ok_count (h : tb.Ok) : tb.count.Ok := by
  by_cases hr : tb.reaches = true
  · simp only [TimeBase.Ok, TimeBase.count, hr, if_true] at *
    bv_omega
  · have hne : tb.prescaler + 1 ≠ tb.divisor := by simpa [TimeBase.reaches] using hr
    simp only [TimeBase.Ok, TimeBase.count, hr] at *
    simp only [Bool.false_eq_true, if_false]
    bv_omega

theorem TimeBase.ok_warm (h : tb.Ok) : tb.warm.Ok := by
  simp only [TimeBase.Ok, TimeBase.warm] at *
  bv_omega

theorem tbOk_risingEdge {s : State} (h : s.tb.Ok) : s.risingEdge.tb.Ok := by
  unfold State.risingEdge
  split
  · split
    · exact TimeBase.ok_count h
    · exact TimeBase.ok_count h
  · exact h

theorem tbOk_tbSetup {s : State} (p : Words6) (h : s.tb.Ok) : (tbSetup p s).2.tb.Ok := by
  unfold tbSetup
  split
  · exact h
  · next hp =>
    change (0 : Word) < p[0]
    bv_omega

/-- Every event keeps the prescaler below the divisor. -/
theorem exec_tbOk {i : Instr} {s t : State} (e : exec i s = .next t) (h : s.tb.Ok) : t.tb.Ok := by
  by_cases htb : Block.tb ∈ touchedBy i
  case neg =>
    obtain ⟨heq, -⟩ := exec_touches e
    exact heq.resolve_left htb ▸ h
  let P : State → Prop := fun s => s.tb.Ok
  have command : ∀ {code f}, (∀ p, P (f p s).2) → P (takeCommand code f s) :=
    keeps_takeCommand (P := P) (fun _ _ h => h) h
  cases i with
  | tbTick => exact keeps_running (P := P) e h (keeps_ite (tbOk_risingEdge h) h)
  | tbclkRisingEdge => exact keeps_running (P := P) e h (tbOk_risingEdge h)
  | tbWarmReset => exact keeps_running (P := P) e h (keeps_ite (TimeBase.ok_warm h) h)
  | tbSetup => exact keeps_running (P := P) e h (command fun p => tbOk_tbSetup p h)
  | tbRun | tbHalt => exact keeps_running (P := P) e h (command fun _ => h)
  | coldReset =>
    rw [← Host.Outcome.next.inj e]
    exact (by decide : TimeBase.cold.Ok)
  | _ => simp [touchedBy] at htb

end timeBase

/-! ## Line Unit -/

/-- What LineUnit.Ok says of one input (R114). -/
abbrev Input.Ok (x : Input) : Prop := x.mode = .count → x.edgeCount < x.compare

section lineUnit
variable {lu : LineUnit}

theorem LineUnit.ok_setInput {n : LineId} {x : Input} (h : lu.Ok) (hx : x.Ok) : (lu.setInput n x).Ok := by
  intro j
  rw [LineUnit.input_setInput]
  split
  · exact hx
  · exact h j

theorem Input.ok_counted {x : Input} (h : x.Ok) : x.counted.Ok := by
  intro hmode
  unfold Input.counted at hmode ⊢
  cases hm : x.mode with
  | off | post | retrigger => simp [hm] at hmode
  | count =>
    have hlt := h hm
    by_cases hc : x.completes = true
    · simp only [hc, if_true]
      bv_omega
    · have hne : x.edgeCount + 1 ≠ x.compare := by simpa [Input.completes, hm] using hc
      simp only [hc, Bool.false_eq_true, if_false]
      bv_omega

theorem LineUnit.ok_sample (n : LineId) (l : Level) (h : lu.Ok) : (lu.sample n l).lu.Ok := by
  have hlevel : (lu.setInputLevel n l).Ok := LineUnit.ok_setInput h (h n)
  unfold LineUnit.sample
  split
  · exact hlevel
  · split
    · exact h
    · split
      · exact LineUnit.ok_setInput hlevel (Input.ok_counted (hlevel n))
      · exact hlevel

theorem LineUnit.ok_warm (h : lu.Ok) : lu.warm.Ok := by
  intro n hm
  rw [LineUnit.input_warm] at hm ⊢
  have hlt := h n hm
  change (0 : Word) < (lu.input n).compare
  bv_omega

theorem LineUnit.ok_firstSamples (levels : BitVec 8) (h : lu.Ok) : (lu.firstSamples levels).Ok := by
  intro n
  rw [LineUnit.input_firstSamples]
  split
  · exact h n
  · exact h n

theorem LineUnit.ok_lnSetup (p : Words6) (h : lu.Ok) : (lnSetup p lu).2.Ok := by
  unfold lnSetup
  split
  · exact h
  · simp only
    split
    · exact h
    · split
      · exact h
      · split
        · exact h
        · next hcount =>
          refine LineUnit.ok_setInput h fun hm => ?_
          have hp : p[2] ≠ 0 := fun h0 => hcount ⟨hm, h0⟩
          simp only [Input.configured] at hm
          simp only [Input.configured, hm, setupCompare]
          bv_omega

theorem LineUnit.ok_lnDrive (p : Words6) (h : lu.Ok) : (lnDrive p lu).2.Ok := by
  unfold lnDrive
  split
  · exact h
  · split
    · exact h
    · next k _ => cases k <;> exact h

theorem LineUnit.ok_lnRead (p : Words6) (h : lu.Ok) : (lnRead p lu).2.Ok := by
  unfold lnRead
  split <;> exact h

theorem LineUnit.ok_cold : LineUnit.cold.Ok := by decide

theorem exec_resetnRise (levels : BitVec 8) (s : State) :
    exec (.resetnRise levels) s = .next ((s.withLu (s.lu.firstSamples levels)).withResetnLow false) := rfl

/-- Every event keeps the count of a COUNT input below its compare value. -/
theorem exec_luOk {i : Instr} {s t : State} (e : exec i s = .next t) (h : s.lu.Ok) : t.lu.Ok := by
  by_cases hlu : Block.lu ∈ touchedBy i
  case neg =>
    obtain ⟨-, -, -, -, heq, -⟩ := exec_touches e
    exact heq.resolve_left hlu ▸ h
  let P : State → Prop := fun s => s.lu.Ok
  have command : ∀ {code f}, (∀ p, P (f p s).2) → P (takeCommand code f s) :=
    keeps_takeCommand (P := P) (fun _ _ h => h) h
  cases i with
  | edge n l => exact keeps_running (P := P) e h (LineUnit.ok_sample n l h)
  | round n l =>
    exact keeps_running (P := P) e h (keeps_ite (a := s.commitLu (s.lu.sample n l)) (LineUnit.ok_sample n l h) h)
  | outputAction =>
    refine keeps_running (P := P) e h ?_
    unfold State.outputAction
    split <;> exact h
  | luTick =>
    refine keeps_running (P := P) e h ?_
    unfold State.luTick
    split <;> exact h
  | luWarmReset => exact keeps_running (P := P) e h (keeps_ite (LineUnit.ok_warm h) h)
  | resetnRise levels =>
    rw [exec_resetnRise] at e
    rw [← Host.Outcome.next.inj e, State.withResetnLow_lu, State.withLu_lu]
    exact LineUnit.ok_firstSamples levels h
  | lnSetup => exact keeps_running (P := P) e h (command fun p => LineUnit.ok_lnSetup p h)
  | lnDrive => exact keeps_running (P := P) e h (command fun p => LineUnit.ok_lnDrive p h)
  | lnRead => exact keeps_running (P := P) e h (command fun p => LineUnit.ok_lnRead p h)
  | coldReset =>
    rw [← Host.Outcome.next.inj e]
    exact LineUnit.ok_cold
  | _ => simp [touchedBy] at hlu

end lineUnit

/-! ## Command Port -/

/-- Every move of the CP keeps the owner of the command in flight. -/
theorem CommandPort.Moves.keeps_ok {a b : CommandPort} (hmove : a.Moves b) (h : a.Ok) : b.Ok := by
  cases hmove with
  | stays | status | param | inten | latch => exact h
  | command w =>
    cases hs : a.slot with
    | none => rw [a.writeCommand_of_free w hs]
    | some r => rw [a.writeCommand_of_busy w hs]; exact h
  | returned c =>
    cases hs : a.slot with
    | none => simp [CommandPort.Ok, hs]
    | some r => simpa [CommandPort.Ok, hs] using h
  | soft | completed | cold => trivial

/-! ## Items between blocks -/

section items
variable {α : Type} {a b n : Nat} {w v : List (Sent α)} {s : State}

theorem flowOk_sublist (h : flowOk a b w) (hv : v.Sublist w) : flowOk a b v :=
  ⟨h.1.sublist (hv.map _), fun x hx => h.2 x (hv.subset hx)⟩

theorem receive_sublist {x : α} {rest : List (Sent α)} (h : receive n w = some (x, rest)) : rest.Sublist w := by
  rw [receive_eq_some.1 h]
  exact List.sublist_cons_self _ _

/-- Every FIFO of `v` holds some of the items of the same FIFO of `w`, in their order. -/
def Wires.Thins (v w : Wires) : Prop :=
  v.tbToDu.Sublist w.tbToDu ∧ v.tbToLu.Sublist w.tbToLu ∧ v.duToTt.Sublist w.duToTt ∧ v.duToQe.Sublist w.duToQe ∧
  v.duToNu.Sublist w.duToNu ∧ v.ttToDu.Sublist w.ttToDu ∧ v.qeToDu.Sublist w.qeToDu ∧ v.ttToQe.Sublist w.ttToQe ∧
  v.luToQe.Sublist w.luToQe ∧ v.ttToLu.Sublist w.ttToLu ∧ v.luToTt.Sublist w.luToTt ∧ v.qeToNu.Sublist w.qeToNu ∧
  v.cpToNu.Sublist w.cpToNu

/-- Taking items off the FIFOs keeps their order and boundary. -/
theorem State.flowOk_thin {v : Wires} (h : s.FlowOk) (hv : v.Thins s.wires) : (s.withWires v).FlowOk := by
  obtain ⟨h0, h1, h2, h3, h4, h5, h6, h7, h8, h9, h10, h11, h12, h13⟩ := h
  obtain ⟨v1, v2, v3, v4, v5, v6, v7, v8, v9, v10, v11, v12, v13⟩ := hv
  exact ⟨h0, flowOk_sublist h1 v1, flowOk_sublist h2 v2, flowOk_sublist h3 v3, flowOk_sublist h4 v4, flowOk_sublist h5 v5,
    flowOk_sublist h6 v6, flowOk_sublist h7 v7, flowOk_sublist h8 v8, flowOk_sublist h9 v9, flowOk_sublist h10 v10,
    flowOk_sublist h11 v11, flowOk_sublist h12 v12, flowOk_sublist h13 v13⟩

theorem Wires.thins_setRequestsOf {w : Wires} {x : RequestSender} {r : LinkRequest} {rest : List (Sent LinkRequest)}
    (h : receive n (w.requestsOf x) = some (r, rest)) : (w.setRequestsOf x rest).Thins w := by
  have hsub := receive_sublist h
  cases x <;> simp_all [Wires.Thins, Wires.setRequestsOf, Wires.requestsOf]

theorem Wires.thins_setPostsOf {w : Wires} {x : PostSender} {p : Post} {rest : List (Sent Post)}
    (h : receive n (w.postsOf x) = some (p, rest)) : (w.setPostsOf x rest).Thins w := by
  have hsub := receive_sublist h
  cases x <;> simp_all [Wires.Thins, Wires.setPostsOf, Wires.postsOf]

end items

section flow
variable {s : State} (h : s.FlowOk)
include h

theorem State.flowOk_risingEdge : s.risingEdge.FlowOk := by
  have hcount : (s.withTb s.tb.count).FlowOk := State.flowOk_congr h rfl rfl
  exact keeps_ite (P := State.FlowOk) (keeps_ite (State.flowOk_sendTick hcount) hcount) h

theorem State.flowOk_tickArrival : s.tickArrival.FlowOk := by
  unfold State.tickArrival
  split
  · exact h
  · next hr => exact State.flowOk_commitDu _ (State.flowOk_thin h (by simp [Wires.Thins, receive_sublist hr]))

theorem State.flowOk_tickApplication : s.tickApplication.FlowOk := by
  unfold State.tickApplication
  split
  · exact h
  · exact State.flowOk_commitDu _ h

theorem State.flowOk_requestArrival (k : LinkRequest → Bool) (x : RequestSender) : (s.requestArrival k x).FlowOk := by
  unfold State.requestArrival
  split
  · exact h
  · next hr =>
    exact keeps_ite (P := State.FlowOk)
      (State.flowOk_congr (State.flowOk_thin h (Wires.thins_setRequestsOf hr)) rfl rfl) h

theorem State.flowOk_expiryNotice : s.expiryNotice.FlowOk := by
  unfold State.expiryNotice
  split
  · exact h
  · next hr => exact State.flowOk_commitTt _ (State.flowOk_thin h (by simp [Wires.Thins, receive_sublist hr]))

theorem State.flowOk_retriggerRequest : s.retriggerRequest.FlowOk := by
  unfold State.retriggerRequest
  split
  · exact h
  · next hr => exact State.flowOk_commitTt _ (State.flowOk_thin h (by simp [Wires.Thins, receive_sublist hr]))

theorem State.flowOk_takePost (x : PostSender) : (s.takePost x).FlowOk := by
  unfold State.takePost
  split
  · exact h
  · next hr => exact State.flowOk_commitQe _ (State.flowOk_thin h (Wires.thins_setPostsOf hr))

theorem State.flowOk_timeoutNotice : s.timeoutNotice.FlowOk := by
  unfold State.timeoutNotice
  split
  · exact h
  · next hr => exact State.flowOk_commitQe _ (State.flowOk_thin h (by simp [Wires.Thins, receive_sublist hr]))

theorem State.flowOk_outputAction : s.outputAction.FlowOk := by
  unfold State.outputAction
  split
  · exact h
  · next hr =>
    exact State.flowOk_congr (State.flowOk_thin h (by simp [Wires.Thins, receive_sublist hr])) rfl rfl

theorem State.flowOk_luTick : s.luTick.FlowOk := by
  unfold State.luTick
  split
  · exact h
  · next hr =>
    exact State.flowOk_congr (State.flowOk_thin h (by simp [Wires.Thins, receive_sublist hr])) rfl rfl

theorem State.flowOk_takeDone : s.takeDone.FlowOk := by
  unfold State.takeDone
  split
  · exact h
  · next hr =>
    exact State.flowOk_congr (State.flowOk_thin h (by simp [Wires.Thins, receive_sublist hr])) rfl rfl

theorem State.flowOk_takeSlip : s.takeSlip.FlowOk := by
  unfold State.takeSlip
  split
  · exact h
  · next hr =>
    exact State.flowOk_congr (State.flowOk_thin h (by simp [Wires.Thins, receive_sublist hr])) rfl rfl

theorem State.flowOk_takeQueueSignal (k : QueueSignal → Bool) : (s.takeQueueSignal k).FlowOk := by
  unfold State.takeQueueSignal
  split
  · exact h
  · next hr =>
    split
    · exact State.flowOk_congr (State.flowOk_thin h (by simp [Wires.Thins, receive_sublist hr])) rfl rfl
    · exact h

theorem State.flowOk_takeCompletion : s.takeCompletion.FlowOk := by
  unfold State.takeCompletion
  split
  · exact h
  · exact State.flowOk_complete _ h

theorem State.flowOk_takeNop : s.takeNop.FlowOk := by
  unfold State.takeNop
  split
  · exact h
  · exact keeps_ite (P := State.FlowOk) (State.flowOk_complete _ h) h

theorem State.flowOk_takeUnknown : s.takeUnknown.FlowOk := by
  unfold State.takeUnknown
  split
  · exact h
  · exact keeps_ite (P := State.FlowOk) h (State.flowOk_complete _ h)

theorem State.flowOk_nowloRead : s.nowloRead.FlowOk :=
  keeps_ite (P := State.FlowOk) (State.flowOk_congr h rfl rfl) (State.flowOk_readNowlo (State.flowOk_duUpToDate h))

theorem State.flowOk_logpopRead : s.logpopRead.FlowOk :=
  keeps_ite (P := State.FlowOk) (State.flowOk_congr h rfl rfl)
    (State.flowOk_congr (State.flowOk_qeUpToDate h) rfl rfl)

theorem State.flowOk_writeWord (a : BitVec 4) (w : Word) : (s.writeWord a w).FlowOk := by
  have hcp : ∀ x, (s.withCp x).FlowOk := fun _ => State.flowOk_congr h rfl rfl
  unfold State.writeWord
  split
  · exact hcp _
  · exact hcp _
  · exact hcp _
  · exact hcp _
  · exact hcp _
  · exact hcp _
  · exact hcp _
  · exact hcp _
  · exact State.flowOk_flagWrite .flaga w h
  · exact State.flowOk_flagWrite .flagb w h
  · exact State.flowOk_controlWrite w h
  · exact h

end flow

/-! The commands whose rules are written over the whole State send nothing. -/

theorem tmrRead_state (p : Words6) (s : State) : (tmrRead p s).2 = s := by
  unfold tmrRead
  split <;> rfl

theorem ctxRead_state (p : Words6) (s : State) : (ctxRead p s).2 = s := by
  unfold ctxRead
  split <;> rfl

theorem tbSetup_items (p : Words6) (s : State) : (tbSetup p s).2.wires = s.wires ∧ (tbSetup p s).2.resets = s.resets := by
  unfold tbSetup
  split <;> exact ⟨rfl, rfl⟩

theorem ntLevel_items (p : Words6) (s : State) : (ntLevel p s).2.wires = s.wires ∧ (ntLevel p s).2.resets = s.resets := by
  unfold ntLevel
  split
  · exact ⟨rfl, rfl⟩
  · split <;> exact ⟨rfl, rfl⟩

/-- Every event keeps the order of the items between blocks and their boundary. -/
theorem exec_flowOk {i : Instr} {s t : State} (e : exec i s = .next t) (h : s.FlowOk) : t.FlowOk := by
  have run : ∀ {u}, running s u = .next t → u.FlowOk → t.FlowOk := fun e hu => keeps_running e h hu
  have write : ∀ {u}, hostWrite s u = .next t → u.FlowOk → t.FlowOk := fun e hu =>
    keeps_hostWrite (P := State.FlowOk) (fun _ hv => State.flowOk_congr hv rfl rfl) e h hu
  have command : ∀ {code f}, (∀ p, ((f p s).2 : State).FlowOk) → (takeCommand code f s).FlowOk :=
    keeps_takeCommand (P := State.FlowOk) (fun _ _ hv => State.flowOk_congr hv rfl rfl) h
  have hcp : ∀ x, (s.withCp x).FlowOk := fun _ => State.flowOk_congr h rfl rfl
  obtain ⟨⟨ctb, cdu, ctt, cqe, clu, cnu⟩, -⟩ := id h
  cases i with
  | tbTick => exact run e (keeps_ite (State.flowOk_risingEdge h) h)
  | tbclkRisingEdge => exact run e (State.flowOk_risingEdge h)
  | tickArrival => exact run e (State.flowOk_tickArrival h)
  | tickApplication => exact run e (State.flowOk_tickApplication h)
  | entryFallsDue => exact run e (keeps_ite (State.flowOk_tickApplication h) h)
  | relinkWalkStart | walkEnd | takeLink | takeUnlink | takeReload => exact run e (State.flowOk_congr h rfl rfl)
  | linkRequest x | unlinkRequest x | reloadRequest x => exact run e (State.flowOk_requestArrival h _ x)
  | nowloRead => exact Host.Outcome.next.inj e ▸ State.flowOk_nowloRead h
  | expiryNotice => exact run e (State.flowOk_expiryNotice h)
  | retriggerRequest => exact run e (State.flowOk_retriggerRequest h)
  | post x => exact run e (State.flowOk_takePost h x)
  | timeoutNotice => exact run e (State.flowOk_timeoutNotice h)
  | logpopRead => exact Host.Outcome.next.inj e ▸ State.flowOk_logpopRead h
  | edge n l => exact run e (State.flowOk_commitLu _ h)
  | round n l => exact run e (keeps_ite (State.flowOk_commitLu _ h) h)
  | outputAction => exact run e (State.flowOk_outputAction h)
  | luTick => exact run e (State.flowOk_luTick h)
  | doneSignal => exact run e (State.flowOk_takeDone h)
  | slipSignal => exact run e (State.flowOk_takeSlip h)
  | levelSignal | dropSignal => exact run e (State.flowOk_takeQueueSignal h _)
  | flagWrite r w => exact write e (State.flowOk_flagWrite r w h)
  | intenWrite w | warmReset w => exact write e (State.flowOk_controlWrite w h)
  | registerWrite a w => exact write e (State.flowOk_writeWord h a w)
  | commandWrite w | statusWrite w | paramWrite _ w => exact write e (hcp _)
  | tbWarmReset =>
    refine run e ?_
    split
    · exact State.flowOk_warmTb h ‹_› (Nat.le_succ _)
    · exact h
  | duWarmReset =>
    refine run e ?_
    split
    · exact State.flowOk_warmDu h ‹_› (Nat.le_succ _)
    · exact h
  | ttWarmReset =>
    refine run e ?_
    split
    · exact State.flowOk_warmTt h ‹_› (Nat.le_succ _)
    · exact h
  | qeWarmReset =>
    refine run e ?_
    split
    · exact State.flowOk_warmQe h ‹_› (Nat.le_succ _)
    · exact h
  | luWarmReset =>
    refine run e ?_
    split
    · exact State.flowOk_warmLu h ‹_› (Nat.le_succ _)
    · exact h
  | nuWarmReset =>
    refine run e ?_
    split
    · exact State.flowOk_warmNu h ‹_›
    · exact h
  | coldReset => exact Host.Outcome.next.inj e ▸ State.flowOk_reset
  | resetnRise levels =>
    rw [exec_resetnRise] at e
    rw [← Host.Outcome.next.inj e]
    exact State.flowOk_congr h (by simp only [State.withResetnLow_wires, State.withLu_wires])
      (by simp only [State.withResetnLow_resets, State.withLu_resets])
  | commandCompletion => exact run e (State.flowOk_takeCompletion h)
  | nop => exact run e (State.flowOk_takeNop h)
  | unknownCode => exact run e (State.flowOk_takeUnknown h)
  | tmrDefine | tmrArm | tmrDisarm | tmrRetune | tmrRelease =>
    exact run e (command fun _ => State.flowOk_commitTt _ h)
  | qSetup | qSend | qTake | qPurge | qRead | ctxSetup | ctxWait | ctxAbandon | ctxCollect =>
    exact run e (command fun _ => State.flowOk_commitQe _ h)
  | lnSetup | lnDrive | lnRead | tbRun | tbHalt | tbRead =>
    exact run e (command fun _ => State.flowOk_congr h rfl rfl)
  | tmrRead => exact run e (command fun p => (tmrRead_state p s).symm ▸ h)
  | ctxRead => exact run e (command fun p => (ctxRead_state p s).symm ▸ h)
  | tbSetup => exact run e (command fun p => State.flowOk_congr h (tbSetup_items p s).1 (tbSetup_items p s).2)
  | ntLevel => exact run e (command fun p => State.flowOk_congr h (ntLevel_items p s).1 (ntLevel_items p s).2)

end Sys2Proof.Machine

/-! ## The statement -/

namespace Sys2Proof.Machine.UnitLaws

/-- Settles O60: each law is kept by every event on its own. -/
theorem everyStepKeepsTheUnitsAndTheirItems : Obligations.EveryStepKeepsTheUnitsAndTheirItems := fun _ _ e =>
  ⟨step_keeps (P := fun s => s.tb.Ok) (fun _ _ h => h) exec_tbOk e,
    step_keeps (P := fun s => s.lu.Ok) (fun _ _ h => h) exec_luOk e,
    step_keeps (P := fun s => s.cp.Ok) (fun _ _ h => h) (fun e h => (exec_moves e).keeps_ok h) e,
    step_keeps (P := State.FlowOk) (fun _ _ h => h) exec_flowOk e⟩

end Sys2Proof.Machine.UnitLaws
end

section
/-! Every event changes the Deadline Unit by one of a few moves. The laws of the deadlines (R8 to R13, R21, R52) are kept by
every event, hence by every step; and each move leaves the deadlines as O11 says. -/

namespace Sys2Proof.Machine

/-! ## Everything an event can do to the Deadline Unit -/

/-- One event's change of the DU's record, with the event that makes it. -/
inductive State.DuMoves (s : State) : Instr → DeadlineUnit → Prop where
  | stays {i : Instr} : DuMoves s i s.du
  | tickArrives : DuMoves s .tickArrival s.du.tickArrives.du
  | request {i : Instr} (r : LinkRequest) (hr : ∃ x, (x ∈ s.wires.ttToDu ∨ x ∈ s.wires.qeToDu) ∧ x.item = r) :
      DuMoves s i (s.du.requestArrives r)
  | tick {i : Instr} (hi : i = .tickApplication ∨ i = .entryFallsDue) (d : DeadlineUnit) (hd : s.du.TickNext d) :
      DuMoves s i d.applyTick.du
  | startRelink {i : Instr} : DuMoves s i s.du.startRelink
  | endWalk {i : Instr} : DuMoves s i s.du.endWalk
  | takeLink (e : EntryId) (delay reload : Word) (arming : BitVec 8) (d : DeadlineUnit)
      (hd : s.du.RequestNext (.link e delay reload arming) d) :
      DuMoves s .takeLink (d.takeRequest (.link e delay reload arming))
  | takeUnlink (e : EntryId) (d : DeadlineUnit) (hd : s.du.RequestNext (.unlink e) d) :
      DuMoves s .takeUnlink (d.takeRequest (.unlink e))
  | takeReload (e : EntryId) (v : Word) (d : DeadlineUnit) (hd : s.du.RequestNext (.reload e v) d) :
      DuMoves s .takeReload (d.takeRequest (.reload e v))
  | warm {i : Instr} (hi : i = .duWarmReset ∨ (i = .nowloRead ∧ s.resets.du < s.resets.cp)) : DuMoves s i s.du.warm
  | cold : DuMoves s .coldReset .cold

section moves
variable {i : Instr} {s t u : State}

theorem State.DuMoves.of_eq {b : DeadlineUnit} (h : b = s.du) : s.DuMoves i b := h ▸ .stays

theorem duMoves_running (e : running s u = .next t) (h : s.DuMoves i u.du) : s.DuMoves i t.du := by
  rcases running_eq_next e with ⟨_, rfl⟩ | ⟨_, rfl⟩
  · exact .stays
  · exact h

theorem duMoves_tickArrival : s.DuMoves .tickArrival s.tickArrival.du := by
  unfold State.tickArrival
  split
  · exact .stays
  · exact .tickArrives

theorem duMoves_requestArrival (k : LinkRequest → Bool) (x : RequestSender) :
    s.DuMoves i (s.requestArrival k x).du := by
  unfold State.requestArrival
  split
  · exact .stays
  · next r rest hr =>
    have hhead := receive_eq_some.1 hr
    split
    · refine .request r ⟨{ epoch := s.resets.du, item := r }, ?_, rfl⟩
      cases x <;> simp only [Wires.requestsOf] at hhead <;> simp [hhead]
    · exact .stays

theorem duMoves_tickApplication (hi : i = .tickApplication ∨ i = .entryFallsDue) : s.DuMoves i s.tickApplication.du := by
  unfold State.tickApplication
  split
  · exact .stays
  · next d hd => exact .tick hi d (DeadlineUnit.claimTick_eq_some.1 hd)

theorem duMoves_takeLink : s.DuMoves .takeLink (s.du.takeNext LinkRequest.isLink) := by
  rcases s.du.takeNext_cases LinkRequest.isLink with e | ⟨r, d, hd, hk, e⟩
  · exact .of_eq e
  · rw [e]
    cases r with
    | link x delay reload arming => exact .takeLink x delay reload arming d hd
    | unlink | reload => cases hk

theorem duMoves_takeUnlink : s.DuMoves .takeUnlink (s.du.takeNext LinkRequest.isUnlink) := by
  rcases s.du.takeNext_cases LinkRequest.isUnlink with e | ⟨r, d, hd, hk, e⟩
  · exact .of_eq e
  · rw [e]
    cases r with
    | unlink x => exact .takeUnlink x d hd
    | link | reload => cases hk

theorem duMoves_takeReload : s.DuMoves .takeReload (s.du.takeNext LinkRequest.isReload) := by
  rcases s.du.takeNext_cases LinkRequest.isReload with e | ⟨r, d, hd, hk, e⟩
  · exact .of_eq e
  · rw [e]
    cases r with
    | reload x v => exact .takeReload x v d hd
    | link | unlink => cases hk

theorem duMoves_nowloRead : s.DuMoves .nowloRead s.nowloRead.du := by
  unfold State.nowloRead
  split
  · exact .stays
  · rw [State.readNowlo_du]
    rcases s.duUpToDate_cases with ⟨_, e⟩ | ⟨hlt, e⟩
    · rw [e]; exact .stays
    · rw [e]; exact .warm (.inr ⟨rfl, hlt⟩)

/-- Every event changes the DU's record by one of the moves. -/
theorem exec_duMoves (e : exec i s = .next t) : s.DuMoves i t.du := by
  by_cases hdu : Block.du ∈ touchedBy i
  case neg =>
    obtain ⟨-, h, -⟩ := exec_touches e
    exact .of_eq (h.resolve_left hdu)
  cases i with
  | tickArrival => exact duMoves_running e duMoves_tickArrival
  | tickApplication => exact duMoves_running e (duMoves_tickApplication (.inl rfl))
  | entryFallsDue =>
    refine duMoves_running e ?_
    split
    · exact duMoves_tickApplication (.inr rfl)
    · exact .stays
  | relinkWalkStart => exact duMoves_running e .startRelink
  | walkEnd => exact duMoves_running e .endWalk
  | linkRequest x | unlinkRequest x | reloadRequest x => exact duMoves_running e (duMoves_requestArrival _ x)
  | takeLink => exact duMoves_running e duMoves_takeLink
  | takeUnlink => exact duMoves_running e duMoves_takeUnlink
  | takeReload => exact duMoves_running e duMoves_takeReload
  | nowloRead => exact Host.Outcome.next.inj e ▸ duMoves_nowloRead
  | duWarmReset =>
    refine duMoves_running e ?_
    split
    · exact .warm (.inl rfl)
    · exact .stays
  | coldReset => exact Host.Outcome.next.inj e ▸ .cold
  | _ => simp [touchedBy] at hdu

/-- Every move of the DU keeps its laws, the requests on their way being in range. -/
theorem State.DuMoves.keeps_ok {b : DeadlineUnit} (hmove : s.DuMoves i b) (h : s.du.Ok)
    (htt : ∀ x ∈ s.wires.ttToDu, x.item.Ok) (hqe : ∀ x ∈ s.wires.qeToDu, x.item.Ok) : b.Ok := by
  have take : ∀ {r d}, s.du.RequestNext r d → (d.takeRequest r).Ok := fun hd => by
    obtain ⟨hok, hr, hquiet, hrelink, -⟩ := DeadlineUnit.requestNext_ok h hd
    exact DeadlineUnit.ok_takeRequest hok hr hquiet hrelink
  cases hmove with
  | stays => exact h
  | tickArrives => exact DeadlineUnit.ok_tickArrives h
  | request r hr =>
    obtain ⟨x, hx, rfl⟩ := hr
    exact DeadlineUnit.ok_requestArrives h (hx.elim (htt x) (hqe x))
  | tick _ d hd =>
    obtain ⟨hok, hquiet, hrelink, -⟩ := DeadlineUnit.tickNext_ok h hd
    exact DeadlineUnit.ok_applyTick hok hquiet hrelink
  | startRelink => exact DeadlineUnit.ok_startRelink h
  | endWalk => exact DeadlineUnit.ok_endWalk h
  | takeLink _ _ _ _ d hd => exact take hd
  | takeUnlink _ d hd => exact take hd
  | takeReload _ _ d hd => exact take hd
  | warm => exact DeadlineUnit.ok_warm _
  | cold => exact DeadlineUnit.ok_cold

end moves

/-! ## Timers and requests on their way -/

/-- The part of the laws of the deadlines that lies outside the DU: the timers' periods and the requests on their way. -/
def State.RequestsOk (s : State) : Prop :=
  s.tt.Ok ∧ (∀ x ∈ s.wires.ttToDu, x.item.Ok) ∧ ∀ x ∈ s.wires.qeToDu, x.item.Ok

section requests
variable {s t : State}

theorem TimerTable.ok_warm {tt : TimerTable} (h : tt.Ok) : tt.warm.Ok := by
  intro n hn
  rw [TimerTable.timer_warm] at hn ⊢
  refine h n fun hfree => hn ?_
  simp [Timer.warm, hfree]

/-- The timers as they were, and no request that was not on its way before. -/
theorem State.requestsOk_congr (h : s.RequestsOk) (htt : t.tt = s.tt)
    (hwtt : ∀ x ∈ t.wires.ttToDu, x ∈ s.wires.ttToDu) (hwqe : ∀ x ∈ t.wires.qeToDu, x ∈ s.wires.qeToDu) :
    t.RequestsOk := by
  obtain ⟨h1, h2, h3⟩ := h
  exact ⟨htt ▸ h1, fun x hx => h2 x (hwtt x hx), fun x hx => h3 x (hwqe x hx)⟩

/-- An event that touches neither the timers nor the requests on their way. -/
theorem State.requestsOk_same (h : s.RequestsOk) (htt : t.tt = s.tt) (hwtt : t.wires.ttToDu = s.wires.ttToDu)
    (hwqe : t.wires.qeToDu = s.wires.qeToDu) : t.RequestsOk :=
  State.requestsOk_congr h htt (fun _ hx => hwtt ▸ hx) (fun _ hx => hwqe ▸ hx)

theorem State.requestsOk_thin {v : Wires} (h : s.RequestsOk) (hv : v.Thins s.wires) : (s.withWires v).RequestsOk := by
  obtain ⟨-, -, -, -, -, htt, hqe, -⟩ := hv
  exact State.requestsOk_congr h rfl (fun _ hx => htt.subset hx) (fun _ hx => hqe.subset hx)

theorem State.requestsOk_commitTt {o : TtOut} (h : s.RequestsOk) (ho : o.Ok) : (s.commitTt o).RequestsOk := by
  obtain ⟨-, h2, h3⟩ := h
  exact ⟨ho.1, items_sendAll h2 ho.2, h3⟩

theorem State.requestsOk_commitQe {o : QeOut} (h : s.RequestsOk) (ho : ∀ r ∈ o.requests, r.Ok) :
    (s.commitQe o).RequestsOk := by
  obtain ⟨h1, h2, h3⟩ := h
  exact ⟨h1, h2, items_sendAll h3 ho⟩

section paths
variable (h : s.RequestsOk)
include h

theorem State.requestsOk_risingEdge : s.risingEdge.RequestsOk := by
  unfold State.risingEdge
  split
  · split <;> exact State.requestsOk_same h rfl rfl rfl
  · exact h

theorem State.requestsOk_tickArrival : s.tickArrival.RequestsOk := by
  unfold State.tickArrival
  split
  · exact h
  · exact State.requestsOk_same h rfl rfl rfl

theorem State.requestsOk_tickApplication : s.tickApplication.RequestsOk := by
  unfold State.tickApplication
  split
  · exact h
  · exact State.requestsOk_same h rfl rfl rfl

theorem State.requestsOk_requestArrival (k : LinkRequest → Bool) (x : RequestSender) :
    (s.requestArrival k x).RequestsOk := by
  unfold State.requestArrival
  split
  · exact h
  · next hr =>
    split
    · exact State.requestsOk_same (State.requestsOk_thin h (Wires.thins_setRequestsOf hr)) rfl rfl rfl
    · exact h

theorem State.requestsOk_expiryNotice : s.expiryNotice.RequestsOk := by
  unfold State.expiryNotice
  split
  · exact h
  · next n rest hr =>
    have hthin := State.requestsOk_thin h (v := { s.wires with duToTt := rest })
      (by simp [Wires.Thins, receive_sublist hr])
    exact State.requestsOk_commitTt hthin (ok_takeNotice h.1 n)

theorem State.requestsOk_retriggerRequest : s.retriggerRequest.RequestsOk := by
  unfold State.retriggerRequest
  split
  · exact h
  · next i rest hr =>
    have hthin := State.requestsOk_thin h (v := { s.wires with luToTt := rest })
      (by simp [Wires.Thins, receive_sublist hr])
    exact State.requestsOk_commitTt hthin (ok_retrigger h.1 i)

theorem State.requestsOk_takePost (x : PostSender) : (s.takePost x).RequestsOk := by
  unfold State.takePost
  split
  · exact h
  · next hr =>
    exact State.requestsOk_commitQe (State.requestsOk_thin h (Wires.thins_setPostsOf hr))
      (Machine.requestsOk_takePost _ _ _)

theorem State.requestsOk_timeoutNotice : s.timeoutNotice.RequestsOk := by
  unfold State.timeoutNotice
  split
  · exact h
  · next n rest hr =>
    have hthin := State.requestsOk_thin h (v := { s.wires with duToQe := rest })
      (by simp [Wires.Thins, receive_sublist hr])
    exact State.requestsOk_commitQe hthin (by simp)

theorem State.requestsOk_outputAction : s.outputAction.RequestsOk := by
  unfold State.outputAction
  split
  · exact h
  · exact State.requestsOk_same h rfl rfl rfl

theorem State.requestsOk_luTick : s.luTick.RequestsOk := by
  unfold State.luTick
  split
  · exact h
  · exact State.requestsOk_same h rfl rfl rfl

theorem State.requestsOk_takeDone : s.takeDone.RequestsOk := by
  unfold State.takeDone
  split
  · exact h
  · exact State.requestsOk_same h rfl rfl rfl

theorem State.requestsOk_takeSlip : s.takeSlip.RequestsOk := by
  unfold State.takeSlip
  split
  · exact h
  · exact State.requestsOk_same h rfl rfl rfl

theorem State.requestsOk_takeQueueSignal (k : QueueSignal → Bool) : (s.takeQueueSignal k).RequestsOk := by
  unfold State.takeQueueSignal
  split
  · exact h
  · split
    · exact State.requestsOk_same h rfl rfl rfl
    · exact h

theorem State.requestsOk_takeCompletion : s.takeCompletion.RequestsOk := by
  unfold State.takeCompletion
  split
  · exact h
  · exact State.requestsOk_same h rfl rfl rfl

theorem State.requestsOk_takeNop : s.takeNop.RequestsOk := by
  unfold State.takeNop
  split
  · exact h
  · exact keeps_ite (P := State.RequestsOk) (State.requestsOk_same h rfl rfl rfl) h

theorem State.requestsOk_takeUnknown : s.takeUnknown.RequestsOk := by
  unfold State.takeUnknown
  split
  · exact h
  · exact keeps_ite (P := State.RequestsOk) h (State.requestsOk_same h rfl rfl rfl)

theorem State.requestsOk_warmDu (e : Nat) : (s.warmDu e).RequestsOk :=
  State.requestsOk_congr h rfl (fun _ hx => (mem_boundary.1 hx).1) (fun _ hx => (mem_boundary.1 hx).1)

theorem State.requestsOk_warmTt (e : Nat) : (s.warmTt e).RequestsOk :=
  ⟨TimerTable.ok_warm h.1, h.2⟩

theorem State.requestsOk_nowloRead : s.nowloRead.RequestsOk := by
  unfold State.nowloRead
  split
  · exact State.requestsOk_same h rfl rfl rfl
  · have hdu : s.duUpToDate.RequestsOk := keeps_ite (P := State.RequestsOk) (State.requestsOk_warmDu h _) h
    exact State.requestsOk_same hdu rfl rfl rfl

theorem State.requestsOk_logpopRead : s.logpopRead.RequestsOk := by
  unfold State.logpopRead
  split
  · exact State.requestsOk_same h rfl rfl rfl
  · have hqe : s.qeUpToDate.RequestsOk := keeps_ite (P := State.RequestsOk) (State.requestsOk_same h rfl rfl rfl) h
    exact State.requestsOk_same hqe rfl rfl rfl

theorem State.requestsOk_nuUpToDate : s.nuUpToDate.RequestsOk :=
  keeps_ite (P := State.RequestsOk) (State.requestsOk_same h rfl rfl rfl) h

theorem State.requestsOk_flagWrite (r : FlagReg) (w : Word) : (s.flagWrite r w).RequestsOk :=
  State.requestsOk_same (State.requestsOk_nuUpToDate h) rfl rfl rfl

theorem State.requestsOk_controlWrite (w : Word) : (s.controlWrite w).RequestsOk := by
  have hfollow : (s.followInten w).RequestsOk := keeps_ite (P := State.RequestsOk) h (State.requestsOk_nuUpToDate h)
  unfold State.controlWrite
  split <;> exact State.requestsOk_same hfollow rfl rfl rfl

theorem State.requestsOk_writeWord (a : BitVec 4) (w : Word) : (s.writeWord a w).RequestsOk := by
  have hcp : ∀ x, (s.withCp x).RequestsOk := fun _ => State.requestsOk_same h rfl rfl rfl
  unfold State.writeWord
  split
  · exact hcp _
  · exact hcp _
  · exact hcp _
  · exact hcp _
  · exact hcp _
  · exact hcp _
  · exact hcp _
  · exact hcp _
  · exact State.requestsOk_flagWrite h .flaga w
  · exact State.requestsOk_flagWrite h .flagb w
  · exact State.requestsOk_controlWrite h w
  · exact h

end paths

/-- Every event keeps the timers' periods and the requests on their way in range. -/
theorem exec_requestsOk {i : Instr} (e : exec i s = .next t) (h : s.RequestsOk) : t.RequestsOk := by
  have run : ∀ {u}, running s u = .next t → u.RequestsOk → t.RequestsOk := fun e hu => keeps_running e h hu
  have write : ∀ {u}, hostWrite s u = .next t → u.RequestsOk → t.RequestsOk := fun e hu =>
    keeps_hostWrite (P := State.RequestsOk) (fun _ hv => State.requestsOk_same hv rfl rfl rfl) e h hu
  have command : ∀ {code f}, (∀ p, ((f p s).2 : State).RequestsOk) → (takeCommand code f s).RequestsOk :=
    keeps_takeCommand (P := State.RequestsOk) (fun _ _ hv => State.requestsOk_same hv rfl rfl rfl) h
  have ttRule : ∀ {code f}, (∀ p, (f p s.tt).2.Ok) → (takeCommand code (ttCommand f) s).RequestsOk := fun hf =>
    command fun p => State.requestsOk_commitTt h (hf p)
  have qeRule : ∀ {code f}, (∀ p, ∀ r ∈ (f p s.stampNow s.qe).2.requests, r.Ok) →
      (takeCommand code (qeCommand f) s).RequestsOk := fun hf => command fun p => State.requestsOk_commitQe h (hf p)
  cases i with
  | tbTick => exact run e (keeps_ite (State.requestsOk_risingEdge h) h)
  | tbclkRisingEdge => exact run e (State.requestsOk_risingEdge h)
  | tickArrival => exact run e (State.requestsOk_tickArrival h)
  | tickApplication => exact run e (State.requestsOk_tickApplication h)
  | entryFallsDue => exact run e (keeps_ite (State.requestsOk_tickApplication h) h)
  | relinkWalkStart | walkEnd | takeLink | takeUnlink | takeReload => exact run e (State.requestsOk_same h rfl rfl rfl)
  | linkRequest x | unlinkRequest x | reloadRequest x => exact run e (State.requestsOk_requestArrival h _ x)
  | nowloRead => exact Host.Outcome.next.inj e ▸ State.requestsOk_nowloRead h
  | expiryNotice => exact run e (State.requestsOk_expiryNotice h)
  | retriggerRequest => exact run e (State.requestsOk_retriggerRequest h)
  | post x => exact run e (State.requestsOk_takePost h x)
  | timeoutNotice => exact run e (State.requestsOk_timeoutNotice h)
  | logpopRead => exact Host.Outcome.next.inj e ▸ State.requestsOk_logpopRead h
  | edge n l => exact run e (State.requestsOk_same h rfl rfl rfl)
  | round n l => exact run e (keeps_ite (State.requestsOk_same h rfl rfl rfl) h)
  | outputAction => exact run e (State.requestsOk_outputAction h)
  | luTick => exact run e (State.requestsOk_luTick h)
  | doneSignal => exact run e (State.requestsOk_takeDone h)
  | slipSignal => exact run e (State.requestsOk_takeSlip h)
  | levelSignal | dropSignal => exact run e (State.requestsOk_takeQueueSignal h _)
  | flagWrite r w => exact write e (State.requestsOk_flagWrite h r w)
  | intenWrite w | warmReset w => exact write e (State.requestsOk_controlWrite h w)
  | registerWrite a w => exact write e (State.requestsOk_writeWord h a w)
  | commandWrite w | statusWrite w | paramWrite _ w => exact write e (State.requestsOk_same h rfl rfl rfl)
  | duWarmReset => exact run e (keeps_ite (State.requestsOk_warmDu h _) h)
  | ttWarmReset => exact run e (keeps_ite (State.requestsOk_warmTt h _) h)
  | tbWarmReset | qeWarmReset | luWarmReset | nuWarmReset =>
    exact run e (keeps_ite (State.requestsOk_same h rfl rfl rfl) h)
  | coldReset =>
    rw [← Host.Outcome.next.inj e]
    exact ⟨(by decide : TimerTable.cold.Ok), by simp [State.coldHeld, State.reset, Wires.cold],
      by simp [State.coldHeld, State.reset, Wires.cold]⟩
  | resetnRise levels =>
    rw [exec_resetnRise] at e
    rw [← Host.Outcome.next.inj e]
    have hlu : (s.withLu (s.lu.firstSamples levels)).RequestsOk :=
      State.requestsOk_same h (State.withLu_tt _ _) (by rw [State.withLu_wires]) (by rw [State.withLu_wires])
    exact State.requestsOk_same hlu (State.withResetnLow_tt _ _) (by rw [State.withResetnLow_wires])
      (by rw [State.withResetnLow_wires])
  | commandCompletion => exact run e (State.requestsOk_takeCompletion h)
  | nop => exact run e (State.requestsOk_takeNop h)
  | unknownCode => exact run e (State.requestsOk_takeUnknown h)
  | tmrDefine => exact run e (ttRule fun p => ok_tmrDefine h.1 p)
  | tmrArm => exact run e (ttRule fun p => ok_tmrArm h.1 p)
  | tmrDisarm => exact run e (ttRule fun p => ok_tmrDisarm h.1 p)
  | tmrRetune => exact run e (ttRule fun p => ok_tmrRetune h.1 p)
  | tmrRelease => exact run e (ttRule fun p => ok_tmrRelease h.1 p)
  | qSend => exact run e (qeRule fun p => requestsOk_qSend _ p _)
  | qPurge => exact run e (qeRule fun p => requestsOk_qPurge _ p _)
  | ctxWait => exact run e (qeRule fun p => requestsOk_ctxWait _ p _)
  | ctxAbandon => exact run e (qeRule fun p => requestsOk_ctxAbandon _ p _)
  | qSetup => exact run e (qeRule fun p => by simp [requests_qSetup])
  | qTake => exact run e (qeRule fun p => by simp [requests_qTake])
  | qRead => exact run e (qeRule fun p => by simp [requests_qRead])
  | ctxSetup => exact run e (qeRule fun p => by simp [requests_ctxSetup])
  | ctxCollect => exact run e (qeRule fun p => by simp [requests_ctxCollect])
  | lnSetup | lnDrive | lnRead | tbRun | tbHalt | tbRead =>
    exact run e (command fun _ => State.requestsOk_same h rfl rfl rfl)
  | tmrRead => exact run e (command fun p => (tmrRead_state p s).symm ▸ h)
  | ctxRead => exact run e (command fun p => (ctxRead_state p s).symm ▸ h)
  | tbSetup =>
    refine run e (command fun p => ?_)
    unfold tbSetup
    split <;> exact State.requestsOk_same h rfl rfl rfl
  | ntLevel =>
    refine run e (command fun p => ?_)
    unfold ntLevel
    split
    · exact h
    · split <;> exact State.requestsOk_same h rfl rfl rfl

end requests

/-- Every event keeps the laws of the deadlines. -/
theorem exec_deadlinesOk {i : Instr} {s t : State} (e : exec i s = .next t) (h : s.DeadlinesOk) : t.DeadlinesOk := by
  obtain ⟨hdu, htt, hwtt, hwqe⟩ := h
  exact ⟨(exec_duMoves e).keeps_ok hdu hwtt hwqe, exec_requestsOk e ⟨htt, hwtt, hwqe⟩⟩

end Sys2Proof.Machine

/-! ## The statement -/

namespace Sys2Proof.Machine.DeadlineLaws

/-- Settles O59: the DU's moves keep its laws, and every event keeps the timers and the requests on their way in range. -/
theorem everyStepKeepsTheDeadlines : Obligations.EveryStepKeepsTheDeadlines := fun _ _ h e =>
  step_keeps (P := State.DeadlinesOk) (fun _ _ h => h) exec_deadlinesOk e h

end Sys2Proof.Machine.DeadlineLaws
end

section
/-! What each move does to the remaining times (R8, R15, R20, R27, R28), to NOW (R5, R15) and to the arming numbers of timers
(R34) and contexts (R84). -/

namespace Sys2Proof.Machine

/-! ## What the operations of the Deadline Unit leave alone -/

section unchanged
variable (du : DeadlineUnit)

@[simp] theorem DeadlineUnit.tickArrives_list : du.tickArrives.du.list = du.list := by
  unfold DeadlineUnit.tickArrives
  split
  · rfl
  · split <;> rfl

@[simp] theorem DeadlineUnit.tickArrives_now : du.tickArrives.du.now = du.now := by
  unfold DeadlineUnit.tickArrives
  split
  · rfl
  · split <;> rfl

@[simp] theorem DeadlineUnit.requestArrives_list (r : LinkRequest) : (du.requestArrives r).list = du.list := by
  unfold DeadlineUnit.requestArrives
  split <;> rfl

@[simp] theorem DeadlineUnit.requestArrives_now (r : LinkRequest) : (du.requestArrives r).now = du.now := by
  unfold DeadlineUnit.requestArrives
  split <;> rfl

@[simp] theorem DeadlineUnit.startRelink_list : du.startRelink.list = du.list := by
  unfold DeadlineUnit.startRelink
  split <;> rfl

@[simp] theorem DeadlineUnit.startRelink_now : du.startRelink.now = du.now := by
  unfold DeadlineUnit.startRelink
  split <;> rfl

@[simp] theorem DeadlineUnit.endWalk_now : du.endWalk.now = du.now := by
  unfold DeadlineUnit.endWalk
  split <;> rfl

@[simp] theorem DeadlineUnit.takeRequest_now (r : LinkRequest) : (du.takeRequest r).now = du.now := by
  cases r <;> rfl

theorem DeadlineUnit.applyTick_now : du.applyTick.du.now = du.now + 1 := by
  unfold DeadlineUnit.applyTick
  split
  · rfl
  · split <;> rfl

variable {du} {d : DeadlineUnit}

theorem DeadlineUnit.TickNext.now_eq (h : du.TickNext d) : d.now = du.now := by
  rcases h with ⟨-, rfl⟩ | ⟨-, -, -, rfl⟩ <;> rfl

theorem DeadlineUnit.RequestNext.now_eq {r : LinkRequest} (h : du.RequestNext r d) : d.now = du.now := by
  rcases h with ⟨-, rfl⟩ | ⟨-, -, -, -, -, rfl⟩ <;> rfl

theorem DeadlineUnit.RequestNext.list_eq {r : LinkRequest} (h : du.RequestNext r d) : d.list = du.list := by
  rcases h with ⟨-, rfl⟩ | ⟨-, -, -, -, -, rfl⟩ <;> rfl

/-- A walk's end places its entry (R20). -/
theorem DeadlineUnit.endWalk_of_walking {w : WalkRecord} (h : du.activity = .walking w) :
    du.endWalk =
      { du with list := placeEntry w.entry w.delay.toNat w.reload w.arming du.list, activity := .quiet } := by
  simp only [DeadlineUnit.endWalk, h]

theorem DeadlineUnit.endWalk_of_not_walking (h : ∀ w, du.activity ≠ .walking w) : du.endWalk = du := by
  unfold DeadlineUnit.endWalk
  split
  · next w hw => exact absurd hw (h w)
  · rfl
  · rfl
  · rfl

end unchanged

/-! ## The remaining times -/

section remaining
variable {s : State} {i : Instr} {e : EntryId} {n : Nat}

/-- A walk's end changes the remaining time of no linked entry. -/
theorem remaining_endWalk {du : DeadlineUnit} (hok : du.Ok) (hn : remaining e du.list = some n) :
    remaining e du.endWalk.list = some n := by
  by_cases hw : ∃ w, du.activity = .walking w
  · obtain ⟨w, hw⟩ := hw
    have hfree := DeadlineUnit.walking_not_linked hok hw
    have hne : e ≠ w.entry := fun he => by simp [he, remaining_eq_none.2 hfree] at hn
    rw [DeadlineUnit.endWalk_of_walking hw]
    simp only [remaining_placeEntry w.reload w.arming _ hfree, hne, if_false, hn]
  · rw [DeadlineUnit.endWalk_of_not_walking (not_exists.1 hw)]
    exact hn

/-- What a move that is no tick and no reset leaves of a linked entry. -/
theorem State.DuMoves.remaining {b : DeadlineUnit} (hmove : s.DuMoves i b) (hok : s.du.Ok)
    (hi : i ≠ .tickApplication ∧ i ≠ .entryFallsDue ∧ i ≠ .duWarmReset ∧ i ≠ .coldReset)
    (hn : Machine.remaining e s.du.list = some n) :
    Machine.remaining e b.list = some n ∨
      (Machine.remaining e b.list = none ∧ ((i = .takeLink ∧ ∃ w, b.activity = .walking w ∧ w.entry = e) ∨
        i = .takeUnlink ∨ (i = .nowloRead ∧ s.resets.du < s.resets.cp))) := by
  obtain ⟨htick, hdue, hwarm, hcold⟩ := hi
  have hnodup := DeadlineUnit.nodup_list hok
  cases hmove with
  | stays => exact .inl hn
  | tickArrives => exact .inl (by rw [DeadlineUnit.tickArrives_list]; exact hn)
  | request r hr => exact .inl (by rw [DeadlineUnit.requestArrives_list]; exact hn)
  | tick hi d hd => exact absurd hi (by simp [htick, hdue])
  | startRelink => exact .inl (by rw [DeadlineUnit.startRelink_list]; exact hn)
  | endWalk => exact .inl (remaining_endWalk hok hn)
  | takeLink x delay reload arming d hd =>
    change Machine.remaining e (unlinkEntry x d.list) = _ ∨ (Machine.remaining e (unlinkEntry x d.list) = _ ∧ _)
    rw [hd.list_eq]
    by_cases hx : e = x
    · exact .inr ⟨hx ▸ remaining_unlinkEntry_self hnodup, .inl ⟨rfl, _, rfl, hx.symm⟩⟩
    · exact .inl ((remaining_unlinkEntry hx _).trans hn)
  | takeUnlink x d hd =>
    change Machine.remaining e (unlinkEntry x d.list) = _ ∨ (Machine.remaining e (unlinkEntry x d.list) = _ ∧ _)
    rw [hd.list_eq]
    by_cases hx : e = x
    · exact .inr ⟨hx ▸ remaining_unlinkEntry_self hnodup, .inr (.inl rfl)⟩
    · exact .inl ((remaining_unlinkEntry hx _).trans hn)
  | takeReload x v d hd =>
    refine .inl ((remaining_reloadEntry x e v d.list).trans ?_)
    rw [hd.list_eq]
    exact hn
  | warm hi =>
    rcases hi with hi | hi
    · exact absurd hi hwarm
    · exact .inr ⟨rfl, .inr (.inr hi)⟩
  | cold => exact absurd rfl hcold

end remaining

/-! ## The events of a tick and of a walk's end -/

section events
variable {s : State} (hr : s.resetnLow = false)
include hr

theorem exec_tickApplication_high {d : DeadlineUnit} (hd : s.du.TickNext d) :
    exec .tickApplication s = .next (s.commitDu d.applyTick) := by
  change running s s.tickApplication = _
  rw [running_high hr]
  simp only [State.tickApplication, DeadlineUnit.claimTick_eq_some.2 hd]

theorem exec_walkEnd_high : exec .walkEnd s = .next (s.withDu s.du.endWalk) := running_high hr

end events

/-! ## NOW -/

/-- NOW moves at tick applications alone. -/
theorem State.DuMoves.now {s : State} {i : Instr} {b : DeadlineUnit} (hmove : s.DuMoves i b) (hcold : i ≠ .coldReset) :
    b.now = s.du.now ∨ (b.now = s.du.now + 1 ∧ (i = .tickApplication ∨ i = .entryFallsDue)) := by
  cases hmove with
  | stays => exact .inl rfl
  | tickArrives => exact .inl (DeadlineUnit.tickArrives_now _)
  | request r hr => exact .inl (DeadlineUnit.requestArrives_now _ r)
  | tick hi d hd => exact .inr ⟨by rw [DeadlineUnit.applyTick_now, hd.now_eq], hi⟩
  | startRelink => exact .inl (DeadlineUnit.startRelink_now _)
  | endWalk => exact .inl (DeadlineUnit.endWalk_now _)
  | takeLink _ _ _ _ d hd => exact .inl hd.now_eq
  | takeUnlink _ d hd => exact .inl hd.now_eq
  | takeReload _ _ d hd => exact .inl hd.now_eq
  | warm => exact .inl rfl
  | cold => exact absurd rfl hcold

/-! ## The arming numbers of timers -/

/-- Every timer keeps its arming number. -/
def TimerTable.KeepsArming (a b : TimerTable) : Prop := ∀ n, (b.timer n).arming = (a.timer n).arming

/-- Every timer keeps its arming number or has it raised by 1. -/
def TimerTable.RaisesArming (a b : TimerTable) : Prop :=
  ∀ n, (b.timer n).arming = (a.timer n).arming ∨ (b.timer n).arming = (a.timer n).arming + 1

section timers
variable {tt : TimerTable} {i : TimerId} {r : Timer}

theorem TimerTable.KeepsArming.raises {a b : TimerTable} (h : a.KeepsArming b) : a.RaisesArming b := fun n => .inl (h n)

theorem keepsArming_setTimer (h : r.arming = (tt.timer i).arming) : tt.KeepsArming (tt.setTimer i r) := by
  intro n
  rw [TimerTable.timer_setTimer]
  split
  · next hn => rw [← hn, h]
  · rfl

theorem raisesArming_setTimer (h : r.arming = (tt.timer i).arming + 1) : tt.RaisesArming (tt.setTimer i r) := by
  intro n
  rw [TimerTable.timer_setTimer]
  split
  · next hn => exact .inr (by rw [← hn, h])
  · exact .inl rfl

theorem keepsArming_refl (tt : TimerTable) : tt.KeepsArming tt := fun _ => rfl

theorem keepsArming_takeNotice (n : Notice TimerId) : tt.KeepsArming (tt.takeNotice n).tt := by
  unfold TimerTable.takeNotice
  split
  · exact keepsArming_setTimer rfl
  · exact keepsArming_refl tt

theorem keepsArming_warm : tt.KeepsArming tt.warm := fun n => by rw [TimerTable.timer_warm]; rfl

theorem keepsArming_tmrRetune (p : Words6) : tt.KeepsArming (tmrRetune p tt).2.tt := by
  unfold tmrRetune
  split
  · exact keepsArming_refl tt
  · split
    · exact keepsArming_refl tt
    · split
      · exact keepsArming_refl tt
      · exact keepsArming_setTimer rfl

theorem keepsArming_tmrRelease (p : Words6) : tt.KeepsArming (tmrRelease p tt).2.tt := by
  unfold tmrRelease
  split
  · exact keepsArming_refl tt
  · split
    · exact keepsArming_refl tt
    · exact keepsArming_setTimer rfl
    · exact keepsArming_refl tt

theorem raisesArming_retrigger (i : TimerId) : tt.RaisesArming (tt.retrigger i).tt := by
  unfold TimerTable.retrigger
  split
  · exact (keepsArming_refl tt).raises
  · exact raisesArming_setTimer rfl
  · exact raisesArming_setTimer rfl

theorem definitionOf_arming {p : Words6} {arming : BitVec 8} {t : Timer} (h : definitionOf p arming = some t) :
    t.arming = arming := by
  unfold definitionOf at h
  split at h
  · split at h
    · cases h
    · rw [← Option.some.inj h]
  · cases h
  · cases h

theorem raisesArming_tmrDefine (p : Words6) : tt.RaisesArming (tmrDefine p tt).2.tt := by
  unfold tmrDefine
  split
  · exact (keepsArming_refl tt).raises
  · split
    · exact (keepsArming_refl tt).raises
    · next t ht =>
      split
      · exact (keepsArming_refl tt).raises
      · exact raisesArming_setTimer (definitionOf_arming ht)
      · exact raisesArming_setTimer (definitionOf_arming ht)

theorem raisesArming_tmrArm (p : Words6) : tt.RaisesArming (tmrArm p tt).2.tt := by
  unfold tmrArm
  split
  · exact (keepsArming_refl tt).raises
  · split
    · exact (keepsArming_refl tt).raises
    · exact raisesArming_setTimer rfl
    · exact raisesArming_setTimer rfl

theorem raisesArming_tmrDisarm (p : Words6) : tt.RaisesArming (tmrDisarm p tt).2.tt := by
  unfold tmrDisarm
  split
  · exact (keepsArming_refl tt).raises
  · split
    · exact (keepsArming_refl tt).raises
    · exact (keepsArming_refl tt).raises
    · exact raisesArming_setTimer rfl

variable {s t : State}

theorem State.expiryNotice_tt : s.tt.KeepsArming s.expiryNotice.tt := by
  unfold State.expiryNotice
  split
  · exact keepsArming_refl s.tt
  · exact keepsArming_takeNotice _

theorem State.retriggerRequest_tt : s.tt.RaisesArming s.retriggerRequest.tt := by
  unfold State.retriggerRequest
  split
  · exact (keepsArming_refl s.tt).raises
  · exact raisesArming_retrigger _

/-- A timer's arming number moves at its definition, arming, disarming and retriggering alone. -/
theorem exec_timer_arming {i : Instr} (e : exec i s = .next t) (hcold : i ≠ .coldReset) :
    s.tt.KeepsArming t.tt ∨
      (s.tt.RaisesArming t.tt ∧ i ∈ [Instr.tmrDefine, .tmrArm, .tmrDisarm, .retriggerRequest]) := by
  by_cases htt : Block.tt ∈ touchedBy i
  case neg =>
    obtain ⟨-, -, heq, -⟩ := exec_touches e
    exact .inl (heq.resolve_left htt ▸ keepsArming_refl s.tt)
  have keeps : ∀ {u}, running s u = .next t → s.tt.KeepsArming u.tt → s.tt.KeepsArming t.tt := fun e hu =>
    keeps_running (P := fun v => s.tt.KeepsArming v.tt) e (keepsArming_refl s.tt) hu
  have raises : ∀ {u}, running s u = .next t → s.tt.RaisesArming u.tt → s.tt.RaisesArming t.tt := fun e hu =>
    keeps_running (P := fun v => s.tt.RaisesArming v.tt) e (keepsArming_refl s.tt).raises hu
  have keepsRule : ∀ {code f}, (∀ p, s.tt.KeepsArming (f p s.tt).2.tt) →
      s.tt.KeepsArming (takeCommand code (ttCommand f) s).tt := fun hf =>
    keeps_takeCommand (P := fun v => s.tt.KeepsArming v.tt) (fun _ _ h => h) (keepsArming_refl s.tt) hf
  have raisesRule : ∀ {code f}, (∀ p, s.tt.RaisesArming (f p s.tt).2.tt) →
      s.tt.RaisesArming (takeCommand code (ttCommand f) s).tt := fun hf =>
    keeps_takeCommand (P := fun v => s.tt.RaisesArming v.tt) (fun _ _ h => h) (keepsArming_refl s.tt).raises hf
  cases i with
  | expiryNotice => exact .inl (keeps e State.expiryNotice_tt)
  | ttWarmReset =>
    exact .inl (keeps e (keeps_ite (P := fun v => s.tt.KeepsArming v.tt) keepsArming_warm (keepsArming_refl s.tt)))
  | tmrRetune => exact .inl (keeps e (keepsRule keepsArming_tmrRetune))
  | tmrRelease => exact .inl (keeps e (keepsRule keepsArming_tmrRelease))
  | retriggerRequest => exact .inr ⟨raises e State.retriggerRequest_tt, by simp⟩
  | tmrDefine => exact .inr ⟨raises e (raisesRule raisesArming_tmrDefine), by simp⟩
  | tmrArm => exact .inr ⟨raises e (raisesRule raisesArming_tmrArm), by simp⟩
  | tmrDisarm => exact .inr ⟨raises e (raisesRule raisesArming_tmrDisarm), by simp⟩
  | coldReset => exact absurd rfl hcold
  | _ => simp [touchedBy] at htt

end timers

/-! ## The arming numbers of contexts -/

section contexts
variable {a b : QueueEngine} {c : ContextId} {x : Context}

/-- One context changed, its arming number as before or raised by 1. -/
theorem QueueEngine.OnlyContext.arming (h : a.OnlyContext c x b)
    (hx : x.arming = (a.context c).arming ∨ x.arming = (a.context c).arming + 1) (d : ContextId) :
    (b.context d).arming = (a.context d).arming ∨ (b.context d).arming = (a.context d).arming + 1 := by
  by_cases hd : d = c
  · rw [hd, h.1]; exact hx
  · rw [h.2 d hd]; exact .inl rfl

theorem QueueEngine.OnlyContext.same_arming (h : a.OnlyContext c x b) (hx : x.arming = (a.context c).arming)
    (d : ContextId) : (b.context d).arming = (a.context d).arming := by
  by_cases hd : d = c
  · rw [hd, h.1, hx]
  · rw [h.2 d hd]

theorem QueueEngine.context_congr (h : b.contexts = a.contexts) (d : ContextId) : b.context d = a.context d := by
  simp only [QueueEngine.context, h]

/-- A post raises the arming number of the context it is delivered to, and no other. -/
theorem QueueEngine.takePost_arming (q : QueueId) (m : Message) (d : ContextId) :
    ((a.takePost q m).2.qe.context d).arming = (a.context d).arming ∨
      ((a.takePost q m).2.qe.context d).arming = (a.context d).arming + 1 := by
  have hpost := a.takePost_postTaken q m
  generalize (a.takePost q m).1 = fate at hpost
  cases fate with
  | delivered c =>
    obtain ⟨-, _, -, -, hctx, -⟩ := hpost
    exact hctx.arming (.inr rfl) d
  | disabled =>
    obtain ⟨-, -, -, hctx, -⟩ := hpost
    exact .inl (by rw [QueueEngine.context_congr hctx])
  | stored =>
    obtain ⟨-, -, -, -, -, hctx, -⟩ := hpost
    exact .inl (by rw [QueueEngine.context_congr hctx])
  | displaced v =>
    obtain ⟨-, -, -, -, -, -, hctx, -⟩ := hpost
    exact .inl (by rw [QueueEngine.context_congr hctx])
  | dropped =>
    obtain ⟨-, -, -, -, -, -, hctx, -⟩ := hpost
    exact .inl (by rw [QueueEngine.context_congr hctx])

theorem QueueEngine.takeTimeout_arming (n : Notice ContextId) (now : Word) (d : ContextId) :
    ((a.takeTimeout n now).context d).arming = (a.context d).arming := by
  unfold QueueEngine.takeTimeout
  split
  · exact (a.onlyContext_finishWait _ n.who .timeout none now true).same_arming rfl d
  · rfl

/-- A purge raises the arming number of each waiter once: no context waits twice (R92). -/
theorem QueueEngine.purge_arming (h : a.WaitOk) (q : QueueId) (now : Word) (d : ContextId) :
    ((QueueEngine.purgeWaiters q now (a.queue q).waiters (a.discardAll q)).context d).arming = (a.context d).arming ∨
      ((QueueEngine.purgeWaiters q now (a.queue q).waiters (a.discardAll q)).context d).arming =
        (a.context d).arming + 1 := by
  have hw : ((a.discardAll q).queue q).waiters = (a.queue q).waiters := by rw [(a.onlyQueue_discardAll q).1]
  have hok : (a.discardAll q).WaitOk := QueueEngine.waitOk_setQueue _ h rfl (.inl rfl)
  obtain ⟨-, -, hin, hout, -⟩ := QueueEngine.purgeWaiters_spec q now _ _ hok hw
  by_cases hd : d ∈ (a.queue q).waiters
  · exact .inr (by rw [hin d hd]; rfl)
  · exact .inl (by rw [hout d hd]; rfl)

/-- A context's arming number moves at the beginning and the end of a wait alone. -/
theorem QueueEngine.Moves.arming {i : Instr} (hmove : a.Moves i b) (hcold : i ≠ .coldReset) (h : a.WaitOk)
    (d : ContextId) :
    (b.context d).arming = (a.context d).arming ∨
      ((b.context d).arming = (a.context d).arming + 1 ∧
        i ∈ [Instr.ctxWait, .post .tt, .post .lu, .qSend, .qPurge, .ctxAbandon]) := by
  cases hmove with
  | stays | logpop | configure | removeHead | clear => exact .inl rfl
  | post hi q m =>
    exact (QueueEngine.takePost_arming q m d).imp_right fun hd =>
      ⟨hd, List.mem_cons_of_mem _ (List.mem_append_left [Instr.qPurge, .ctxAbandon] hi)⟩
  | timeout n now => exact .inl (QueueEngine.takeTimeout_arming n now d)
  | warm => exact .inl (by rw [QueueEngine.context_warm]; rfl)
  | cold => exact absurd rfl hcold
  | purge q now => exact (QueueEngine.purge_arming h q now d).imp_right fun hd => ⟨hd, by simp⟩
  | priority c x hs => exact .inl ((a.onlyContext_setContext c { a.context c with priority := x }).same_arming rfl d)
  | wait c q t hs he hm =>
    refine ((a.onlyContext_beginWait c q t).arming ?_ d).imp_right fun hd => ⟨hd, by simp⟩
    cases t with
    | none => exact .inl rfl
    | some ticks => exact .inr rfl
  | abandon c hs =>
    exact ((QueueEngine.onlyContext_setContext (a.dropWaiter _ c) c _).arming (.inr rfl) d).imp_right
      fun hd => ⟨hd, by simp⟩
  | toIdle c hs =>
    exact .inl ((QueueEngine.onlyContext_setContext (a.unlog c) c (a.context c).toIdle).same_arming rfl d)

end contexts

end Sys2Proof.Machine

/-! ## The statements -/

namespace Sys2Proof.Machine.DeadlinesAndNumbers

/-- Settles O11: the tick and the walk's end by what they do to the list, every other event by the DU's moves. -/
theorem deadlinesStand : Obligations.DeadlinesStand := by
  intro s hr hok
  refine ⟨fun d hd => ?tick, fun w hw => ?walk, fun i t e htick hdue hwarm hcold x n hn => ?other⟩
  case tick =>
    obtain ⟨hnext, -, -, hlist, -⟩ := DeadlineUnit.tickNext_ok hok hd
    obtain ⟨-, -, hhead, -⟩ := id hnext
    refine ⟨_, exec_tickApplication_high hr hd, fun x => ?_⟩
    have hremaining := remaining_applyTick (DeadlineUnit.nodup_list hnext) hhead x
    rw [hlist] at hremaining
    exact hremaining
  case walk =>
    refine ⟨_, exec_walkEnd_high hr, ?_⟩
    rw [State.withDu_du, DeadlineUnit.endWalk_of_walking hw]
    simp [remaining_placeEntry w.reload w.arming _ (DeadlineUnit.walking_not_linked hok hw)]
  case other => exact (exec_duMoves e).remaining hok ⟨htick, hdue, hwarm, hcold⟩ hn

/-- Settles O13: NOW by the DU's moves, the numbers of timers by the TT's events, those of contexts by the QE's moves. -/
theorem nowAndArmingNumbersMoveAtTheirEventsAlone : Obligations.NowAndArmingNumbersMoveAtTheirEventsAlone := by
  intro i s t e hcold hwait
  refine ⟨(exec_duMoves e).now hcold, fun n => ?_, (exec_qeMoves e).arming hcold hwait⟩
  rcases exec_timer_arming e hcold with hkeeps | ⟨hraises, hi⟩
  · exact .inl (hkeeps n)
  · exact (hraises n).imp_right fun h => ⟨h, hi⟩

end Sys2Proof.Machine.DeadlinesAndNumbers
end

section
/-! The events of the Deadline Unit, each by what it leaves: tick arrivals and applications (R13 to R16), walks (R18, R20),
requests (R23 to R28), and the link status (R29). -/

namespace Sys2Proof.Machine

/-! ## The next state of a DU event -/

theorem sameExcept_commitDu (s : State) (o : DuOut) : sameExcept [.du] s (s.commitDu o) := by
  simp [sameExcept]

theorem sameExcept_withDu (s : State) (du : DeadlineUnit) : sameExcept [.du] s (s.withDu du) := by
  simp [sameExcept]

/-- A DU event that sends nothing leaves every FIFO as it was. -/
theorem commitDu_wires_of_silent (s : State) (du : DeadlineUnit) : (s.commitDu { du := du }).wires = s.wires := by
  simp only [State.commitDu, State.withWires_wires, sendAll_nil]

/-! ## Tick arrival (R13, R14) -/

section arrival
variable {du : DeadlineUnit}

theorem DeadlineUnit.tickArrives_of_idle (h : du.idle = true) :
    du.tickArrives = { du := { du with activity := .applying } } := by
  simp only [DeadlineUnit.tickArrives, h, if_true]

theorem DeadlineUnit.tickArrives_of_room (h : du.idle = false) (hb : du.backlog < Config.maxBacklog) :
    du.tickArrives = { du := { du with backlog := du.backlog + 1 } } := by
  simp [DeadlineUnit.tickArrives, h, hb]

theorem DeadlineUnit.tickArrives_of_full (h : du.idle = false) (hb : Config.maxBacklog ≤ du.backlog) :
    du.tickArrives = { du := { du with slip := if du.slip = 255 then 255 else du.slip + 1 }, slips := [()] } := by
  simp [DeadlineUnit.tickArrives, h, Nat.not_lt.2 hb]

theorem exec_tickArrival_high {rest : List (Sent Unit)} {s : State} (hr : s.resetnLow = false)
    (hw : receive s.resets.du s.wires.tbToDu = some ((), rest)) :
    exec .tickArrival s = .next ((s.withWires { s.wires with tbToDu := rest }).commitDu s.du.tickArrives) := by
  change running s s.tickArrival = _
  rw [running_high hr]
  simp only [State.tickArrival, hw]

end arrival

/-! ## Tick application (R15, R16) -/

section application
variable {d : DeadlineUnit} {head : LinkedEntry} {rest : List LinkedEntry}

theorem DeadlineUnit.applyTick_of_nil (h : d.list = []) : d.applyTick = { du := { d with now := d.now + 1 } } := by
  simp only [DeadlineUnit.applyTick, h]

theorem DeadlineUnit.applyTick_of_later (h : d.list = head :: rest) (hd : 2 ≤ head.delta) :
    d.applyTick =
      { du := { d with now := d.now + 1, list := { head with delta := head.delta - 1 } :: rest } } := by
  simp only [DeadlineUnit.applyTick, h, show 1 < head.delta from hd, if_true]

theorem DeadlineUnit.applyTick_of_due (h : d.list = head :: rest) (hd : head.delta ≤ 1) :
    d.applyTick =
      { du := { d with
          now := d.now + 1
          list := notDue rest
          relink := d.relink ++ relinksOf (head :: dueWith rest) }
        expiries := expiriesOf (head :: dueWith rest)
        timeouts := timeoutsOf (head :: dueWith rest) } := by
  simp only [DeadlineUnit.applyTick, h, Nat.not_lt.2 hd, if_false]

theorem DeadlineUnit.TickNext.list_eq {du : DeadlineUnit} (h : du.TickNext d) : d.list = du.list := by
  rcases h with ⟨-, rfl⟩ | ⟨-, -, -, rfl⟩ <;> rfl

/-- ENTRY_FALLS_DUE is the tick application at which the head falls due. -/
theorem exec_entryFallsDue_of_due {s : State} (h : s.du.list = head :: rest) (hd : head.delta ≤ 1) :
    exec .entryFallsDue s = exec .tickApplication s := by
  have hdue : s.du.headFallsDue = true := by simpa only [DeadlineUnit.headFallsDue, h, decide_eq_true_eq] using hd
  change running s (if s.du.headFallsDue then s.tickApplication else s) = running s s.tickApplication
  rw [if_pos hdue]

end application

/-! ## Requests (R23 to R28) -/

section requests
variable {du : DeadlineUnit} {r : LinkRequest} {table : List LinkRequest}

theorem DeadlineUnit.requestArrives_of_idle (h : du.idle = true) :
    du.requestArrives r = { du with activity := .taking r } := by
  simp only [DeadlineUnit.requestArrives, h, if_true]

theorem DeadlineUnit.requestArrives_of_busy (h : du.idle = false) :
    du.requestArrives r = { du with table := enterRequest r du.table } := by
  simp [DeadlineUnit.requestArrives, h]

/-- R24: a LINK or UNLINK takes the place of what is pending for its entry. -/
theorem enterRequest_of_not_reload (h : ∀ e v, r ≠ .reload e v) :
    enterRequest r table = table.filter (fun x => x.entry ≠ r.entry) ++ [r] := by
  cases r with
  | link | unlink => rfl
  | reload e v => exact absurd rfl (h e v)

variable {e : EntryId} {v : Word}

/-- R25: nothing is pending for the entry. -/
theorem enterReload_of_free (h : ∀ x ∈ table, x.entry ≠ e) : enterReload e v table = table ++ [.reload e v] := by
  have hany : table.any (fun x => x.entry = e) = false := by simpa using h
  rw [enterReload, hany]
  rfl

/-- R25: a RELOAD meets what is pending for the entry. -/
theorem enterReload_of_pending (h : ∃ x ∈ table, x.entry = e) :
    enterReload e v table = table.map fun x => if x.entry = e then x.meetReload v else x := by
  have hany : table.any (fun x => x.entry = e) = true := by simpa using h
  rw [enterReload, if_pos hany]

variable {s : State} {sender : RequestSender} {rest : List (Sent LinkRequest)}

/-- Each kind of request arrives at its own event. -/
theorem State.requestArrival_of_kind {isKind : LinkRequest → Bool}
    (hw : receive s.resets.du (s.wires.requestsOf sender) = some (r, rest)) (hk : isKind r = true) :
    s.requestArrival isKind sender =
      (s.withWires (s.wires.setRequestsOf sender rest)).withDu (s.du.requestArrives r) := by
  simp [State.requestArrival, hw, hk]

variable (hr : s.resetnLow = false) {d : DeadlineUnit}
include hr

theorem exec_takeLink_high {delay reload : Word} {arming : BitVec 8}
    (hd : s.du.RequestNext (.link e delay reload arming) d) :
    exec .takeLink s = .next (s.withDu (d.takeRequest (.link e delay reload arming))) := by
  change running s (s.withDu (s.du.takeNext LinkRequest.isLink)) = _
  rw [running_high hr, DeadlineUnit.takeNext_eq hd rfl]

theorem exec_takeUnlink_high (hd : s.du.RequestNext (.unlink e) d) :
    exec .takeUnlink s = .next (s.withDu (d.takeRequest (.unlink e))) := by
  change running s (s.withDu (s.du.takeNext LinkRequest.isUnlink)) = _
  rw [running_high hr, DeadlineUnit.takeNext_eq hd rfl]

theorem exec_takeReload_high (hd : s.du.RequestNext (.reload e v) d) :
    exec .takeReload s = .next (s.withDu (d.takeRequest (.reload e v))) := by
  change running s (s.withDu (s.du.takeNext LinkRequest.isReload)) = _
  rw [running_high hr, DeadlineUnit.takeNext_eq hd rfl]

end requests

/-! ## Walks (R18) -/

theorem DeadlineUnit.startRelink_of_cons {du : DeadlineUnit} {r : RelinkEntry} {rest : List RelinkEntry}
    (ha : du.activity = .quiet) (hr : du.relink = r :: rest) :
    du.startRelink = { du with
      relink := rest
      activity := .walking
        { entry := r.entry, delay := r.reload, reload := r.reload, arming := r.arming, source := .relink } } := by
  simp only [DeadlineUnit.startRelink, ha, hr]

/-! ## Link status (R29) -/

section status
variable {du : DeadlineUnit} {e : EntryId}

theorem DeadlineUnit.linkStatus_of_link {d : Word} (h : linkDelay e du.table = some d) :
    du.linkStatus e = (.linkPending, d) := by
  simp only [DeadlineUnit.linkStatus, h]

theorem DeadlineUnit.linkStatus_of_unlink (hl : linkDelay e du.table = none) (h : unlinkPending e du.table = true) :
    du.linkStatus e = (.notLinked, 0) := by
  simp only [DeadlineUnit.linkStatus, hl, h, if_true]

/-- The request table holds one request for an entry: an UNLINK there leaves no LINK. -/
theorem DeadlineUnit.link_not_pending (h : du.Ok) (hu : .unlink e ∈ du.table) :
    ∀ d rl a, .link e d rl a ∉ du.table := by
  intro d rl a hl
  obtain ⟨-, hnodup, -⟩ := h
  exact absurd (List.inj_on_of_nodup_map hnodup hl hu rfl) (by simp)

section noRequest
variable (hl : linkDelay e du.table = none) (hu : unlinkPending e du.table = false)
include hl hu

theorem DeadlineUnit.linkStatus_of_activity {st : LinkStatus × Word} (ha : activityStatus e du.activity = some st) :
    du.linkStatus e = st := by
  simp [DeadlineUnit.linkStatus, hl, hu, ha]

theorem DeadlineUnit.linkStatus_of_relink {rl : Word} (ha : activityStatus e du.activity = none)
    (hr : relinkReload e du.relink = some rl) : du.linkStatus e = (.relinkPending, rl) := by
  simp [DeadlineUnit.linkStatus, hl, hu, ha, hr]

theorem DeadlineUnit.linkStatus_of_linked {n : Nat} (ha : activityStatus e du.activity = none)
    (hr : relinkReload e du.relink = none) (hn : remaining e du.list = some n) :
    du.linkStatus e = (.linked, BitVec.ofNat 16 n) := by
  simp [DeadlineUnit.linkStatus, hl, hu, ha, hr, hn, natWord]

theorem DeadlineUnit.linkStatus_of_none (ha : activityStatus e du.activity = none)
    (hr : relinkReload e du.relink = none) (hn : remaining e du.list = none) : du.linkStatus e = (.notLinked, 0) := by
  simp [DeadlineUnit.linkStatus, hl, hu, ha, hr, hn]

end noRequest

theorem activityStatus_of_linkWalk {w : WalkRecord} (he : w.entry = e) (hs : w.source = .link) :
    activityStatus e (.walking w) = some (.linkPending, w.delay) := by
  simp only [activityStatus, he, if_true, hs]

theorem activityStatus_of_relinkWalk {w : WalkRecord} (he : w.entry = e) (hs : w.source = .relink) :
    activityStatus e (.walking w) = some (.relinkPending, w.reload) := by
  simp only [activityStatus, he, if_true, hs]

/-- With no request in hand and no walk of the entry, what the DU is in the middle of does not concern it. -/
theorem activityStatus_eq_none (ht : ∀ r, du.activity ≠ .taking r)
    (hw : ∀ w, du.activity = .walking w → w.entry ≠ e) : activityStatus e du.activity = none := by
  cases ha : du.activity with
  | quiet | applying => rfl
  | taking r => exact absurd ha (ht r)
  | walking w => simp only [activityStatus, hw w ha, if_false]

/-- An entry to be relinked is in no walk (R11, R21). -/
theorem DeadlineUnit.walking_not_relinked {w : WalkRecord} (h : du.Ok) (hw : du.activity = .walking w) :
    w.entry ∉ du.relink.map RelinkEntry.entry := by
  obtain ⟨hn, -⟩ := h
  unfold DeadlineUnit.entries at hn
  rw [hw, List.nodup_append] at hn
  exact fun hm => hn.2.2 _ (List.mem_append_right _ hm) w.entry (by simp) rfl

/-- A linked entry is not to be relinked (R21). -/
theorem DeadlineUnit.relinked_not_linked (h : du.Ok) (hm : e ∈ du.list.map LinkedEntry.entry) :
    ∀ r ∈ du.relink, r.entry ≠ e := by
  obtain ⟨hn, -⟩ := h
  have hlists := (List.nodup_append.1 hn).1
  intro r hr he
  exact (List.nodup_append.1 hlists).2.2 e hm r.entry (List.mem_map_of_mem hr) he.symm

theorem DeadlineUnit.nodup_relink (h : du.Ok) : (du.relink.map RelinkEntry.entry).Nodup := by
  obtain ⟨hn, -⟩ := h
  exact (List.nodup_append.1 (List.nodup_append.1 hn).1).2.1

end status

end Sys2Proof.Machine

/-! ## The statements -/

namespace Sys2Proof.Machine.DeadlineUnitEvents

/-- Settles O6: the three fates of a tick at the DU. -/
theorem tickArrival : Obligations.TickArrival := by
  intro rest s hr hw
  have hexec := exec_tickArrival_high hr hw
  refine ⟨_, hexec, sameExcept_commitDu (s.withWires _) _, fun hi => ?idle, fun hi hb => ?room, fun hi hb => ?full⟩
  case idle =>
    rw [DeadlineUnit.tickArrives_of_idle hi]
    exact ⟨rfl, commitDu_wires_of_silent _ _⟩
  case room =>
    rw [DeadlineUnit.tickArrives_of_room hi hb]
    exact ⟨rfl, commitDu_wires_of_silent _ _⟩
  case full =>
    rw [DeadlineUnit.tickArrives_of_full hi hb]
    refine ⟨rfl, ?_⟩
    simp [State.commitDu, sendAll_singleton]

/-- Settles O7: no head, a head that stays, a head that falls due. -/
theorem tickApplication : Obligations.TickApplication := by
  intro d s hr hd
  have hexec := exec_tickApplication_high hr hd
  refine ⟨fun hl => ?empty, fun head rest hl hlater => ?later, fun head rest hl hdue i hi => ?due⟩
  case empty =>
    rw [DeadlineUnit.applyTick_of_nil hl] at hexec
    exact ⟨_, hexec, rfl, commitDu_wires_of_silent s _, sameExcept_commitDu s _⟩
  case later =>
    rw [DeadlineUnit.applyTick_of_later hl hlater] at hexec
    exact ⟨_, hexec, rfl, commitDu_wires_of_silent s _, sameExcept_commitDu s _⟩
  case due =>
    have hexec_i : exec i s = exec .tickApplication s := by
      rcases List.mem_pair.1 hi with rfl | rfl
      · rfl
      · exact exec_entryFallsDue_of_due (hd.list_eq ▸ hl) hdue
    rw [DeadlineUnit.applyTick_of_due hl hdue, notDue_eq_dropWhile, relinksOf_eq_map_filter, dueWith_eq_takeWhile]
      at hexec
    refine ⟨_, hexec_i.trans hexec, rfl, ?_, sameExcept_commitDu s _⟩
    simp only [State.commitDu, State.withWires_wires, sendAll_nil]
    rfl

/-- Settles O8: the first record of the relink list begins its walk; a walk's end places its entry. -/
theorem walksBeginAndEnd : Obligations.WalksBeginAndEnd := by
  refine ⟨fun r rest s hr ha hl => ?start, fun w s hr hw => ?finish⟩
  case start =>
    have hexec : exec .relinkWalkStart s = .next (s.withDu s.du.startRelink) := running_high hr
    rw [DeadlineUnit.startRelink_of_cons ha hl] at hexec
    exact ⟨_, hexec, rfl, rfl, sameExcept_withDu s _⟩
  case finish =>
    have hexec := exec_walkEnd_high hr
    rw [DeadlineUnit.endWalk_of_walking hw] at hexec
    exact ⟨_, hexec, placed_placeEntry w s.du.list, rfl, rfl, sameExcept_withDu s _⟩

/-- Settles O9: the request leaves its wire; what becomes of it is IDLE's, R24's or R25's. -/
theorem requestArrival : Obligations.RequestArrival := by
  intro sender r rest s hr hw
  have hrec : receive s.resets.du (s.wires.requestsOf sender) = some (r, rest) := by cases sender <;> exact hw
  refine ⟨(s.withWires (s.wires.setRequestsOf sender rest)).withDu (s.du.requestArrives r), ?exec, ?wires,
    sameExcept_withDu (s.withWires _) _, fun hi => DeadlineUnit.requestArrives_of_idle hi, fun hi => ?busy⟩
  case exec =>
    cases r with
    | link => exact (running_high hr).trans (by rw [State.requestArrival_of_kind hrec rfl])
    | unlink => exact (running_high hr).trans (by rw [State.requestArrival_of_kind hrec rfl])
    | reload => exact (running_high hr).trans (by rw [State.requestArrival_of_kind hrec rfl])
  case wires => cases sender <;> rfl
  case busy =>
    rw [DeadlineUnit.requestArrives_of_busy hi]
    refine ⟨rfl, fun hkind => enterRequest_of_not_reload hkind, ?_⟩
    rintro e v rfl
    refine ⟨fun hfree => enterReload_of_free hfree, fun hpending => ?_⟩
    refine (enterReload_of_pending hpending).trans (List.map_congr_left fun x _ => ?_)
    cases x <;> rfl

/-- Settles O10: each kind of request by what taking it does to the list. -/
theorem requestsAreTaken : Obligations.RequestsAreTaken := by
  intro d s hr
  refine ⟨fun e delay reload arming hd => ?link, fun e hd => ?unlink, fun e v hd => ?reload⟩
  case link =>
    exact ⟨_, exec_takeLink_high hr hd, unlinked_unlinkEntry e d.list, rfl, rfl, sameExcept_withDu s _⟩
  case unlink =>
    exact ⟨_, exec_takeUnlink_high hr hd, unlinked_unlinkEntry e d.list, rfl, rfl, sameExcept_withDu s _⟩
  case reload => exact ⟨_, exec_takeReload_high hr hd, rfl, rfl, sameExcept_withDu s _⟩

/-- Settles O20: each condition of R29, those before it failing by the laws of the DU. -/
theorem linkStatusByTheFirstCondition : Obligations.LinkStatusByTheFirstCondition := by
  intro du e hok ht
  obtain ⟨-, htable, -⟩ := id hok
  refine ⟨fun d rl a hl => DeadlineUnit.linkStatus_of_link (linkDelay_of_mem htable hl), fun hu => ?unlink,
    fun hnl hnu => ?rest⟩
  case unlink =>
    exact DeadlineUnit.linkStatus_of_unlink (linkDelay_eq_none (DeadlineUnit.link_not_pending hok hu))
      (unlinkPending_eq_true.2 hu)
  case rest =>
    have hl := linkDelay_eq_none hnl
    have hu : unlinkPending e du.table = false := by simpa [← unlinkPending_eq_true] using hnu
    refine ⟨fun w ha he hs => ?walkLink, fun w ha he hs => ?walkRelink, fun r hr he => ?relink, fun n hn => ?linked,
      fun hw hr hn => ?none⟩
    case walkLink => exact DeadlineUnit.linkStatus_of_activity hl hu (ha ▸ activityStatus_of_linkWalk he hs)
    case walkRelink => exact DeadlineUnit.linkStatus_of_activity hl hu (ha ▸ activityStatus_of_relinkWalk he hs)
    case relink =>
      have hw : ∀ w, du.activity = .walking w → w.entry ≠ e := fun w ha hwe =>
        DeadlineUnit.walking_not_relinked hok ha (hwe ▸ he ▸ List.mem_map_of_mem hr)
      exact DeadlineUnit.linkStatus_of_relink hl hu (activityStatus_eq_none ht hw)
        (relinkReload_of_mem he (DeadlineUnit.nodup_relink hok) hr)
    case linked =>
      have hm : e ∈ du.list.map LinkedEntry.entry := by
        by_contra hm
        simp [remaining_eq_none.2 hm] at hn
      have hw : ∀ w, du.activity = .walking w → w.entry ≠ e := fun w ha hwe =>
        DeadlineUnit.walking_not_linked hok ha (hwe ▸ hm)
      exact DeadlineUnit.linkStatus_of_linked hl hu (activityStatus_eq_none ht hw)
        (relinkReload_eq_none (DeadlineUnit.relinked_not_linked hok hm)) hn
    case none =>
      have hfree : e ∉ du.list.map LinkedEntry.entry := by simpa using hn
      exact DeadlineUnit.linkStatus_of_none hl hu (activityStatus_eq_none ht hw) (relinkReload_eq_none hr)
        (remaining_eq_none.2 hfree)

end Sys2Proof.Machine.DeadlineUnitEvents
end

section
/-! The machine as a whole: its step, the resets and what they hold (R4, R125, R170 to R173), and the Time Base (R1 to
R3). -/

namespace Sys2Proof.Machine

/-! ## Every event has a next state -/

theorem exec_eq_next (i : Instr) (s : State) : ∃ t, exec i s = .next t := by
  cases i <;> exact ⟨_, rfl⟩

section pending
variable {s t : State}

theorem State.nuUpToDate_pending (s : State) : s.nuUpToDate.pending = s.pending := by
  unfold State.nuUpToDate
  split <;> rfl

theorem State.controlWrite_pending (s : State) (w : Word) : (s.controlWrite w).pending = s.pending := by
  have hfollow : (s.followInten w).pending = s.pending := by
    unfold State.followInten
    split
    · rfl
    · exact s.nuUpToDate_pending
  unfold State.controlWrite
  split <;> exact hfollow

theorem State.writeWord_pending (s : State) (a : BitVec 4) (w : Word) : (s.writeWord a w).pending = s.pending := by
  unfold State.writeWord
  split
  case h_9 => exact s.nuUpToDate_pending
  case h_10 => exact s.nuUpToDate_pending
  case h_11 => exact s.controlWrite_pending w
  all_goals rfl

theorem State.nowloRead_pending (s : State) : s.nowloRead.pending = s.pending := by
  unfold State.nowloRead State.duUpToDate
  split
  · rfl
  · split <;> rfl

theorem State.logpopRead_pending (s : State) : s.logpopRead.pending = s.pending := by
  unfold State.logpopRead State.qeUpToDate
  split
  · rfl
  · split <;> rfl

theorem State.requestArrival_pending (s : State) (k : LinkRequest → Bool) (x : RequestSender) :
    (s.requestArrival k x).pending = s.pending := by
  unfold State.requestArrival
  split
  · rfl
  · split <;> rfl

theorem State.takeQueueSignal_pending (s : State) (k : QueueSignal → Bool) :
    (s.takeQueueSignal k).pending = s.pending := by
  unfold State.takeQueueSignal
  split
  · rfl
  · split <;> rfl

theorem State.tickApplication_pending (s : State) : s.tickApplication.pending = s.pending := by
  unfold State.tickApplication
  split <;> rfl

theorem State.takeNop_pending (s : State) : s.takeNop.pending = s.pending := by
  unfold State.takeNop
  split
  · rfl
  · split <;> rfl

theorem State.takeUnknown_pending (s : State) : s.takeUnknown.pending = s.pending := by
  unfold State.takeUnknown
  split
  · rfl
  · split <;> rfl

theorem tbSetup_pending (p : Words6) (s : State) : (tbSetup p s).2.pending = s.pending := by
  unfold tbSetup
  split <;> rfl

theorem ntLevel_pending (p : Words6) (s : State) : (ntLevel p s).2.pending = s.pending := by
  unfold ntLevel
  split
  · rfl
  · split <;> rfl

/-- No event touches the events to come. -/
theorem exec_pending {i : Instr} (e : exec i s = .next t) : t.pending = s.pending := by
  have run : ∀ {u}, running s u = .next t → u.pending = s.pending → t.pending = s.pending := fun e hu =>
    keeps_running (P := fun v => v.pending = s.pending) e rfl hu
  have write : ∀ {u}, hostWrite s u = .next t → u.pending = s.pending → t.pending = s.pending := fun e hu =>
    keeps_hostWrite (P := fun v => v.pending = s.pending) (fun _ hv => hv) e rfl hu
  have command : ∀ {code f}, (∀ p, (f p s).2.pending = s.pending) → (takeCommand code f s).pending = s.pending :=
    keeps_takeCommand (P := fun v => v.pending = s.pending) (fun _ _ hv => hv) rfl
  have choice : ∀ {c : Prop} [Decidable c] {a b : State}, a.pending = s.pending → b.pending = s.pending →
      (if c then a else b).pending = s.pending := fun ha hb =>
    keeps_ite (P := fun v => v.pending = s.pending) ha hb
  cases i with
  | tbclkRisingEdge => exact run e (choice (choice rfl rfl) rfl)
  | tbTick => exact run e (choice (choice (choice rfl rfl) rfl) rfl)
  | tickArrival => exact run e (by unfold State.tickArrival; split <;> rfl)
  | expiryNotice => exact run e (by unfold State.expiryNotice; split <;> rfl)
  | retriggerRequest => exact run e (by unfold State.retriggerRequest; split <;> rfl)
  | timeoutNotice => exact run e (by unfold State.timeoutNotice; split <;> rfl)
  | post _ => exact run e (by unfold State.takePost; split <;> rfl)
  | outputAction => exact run e (by unfold State.outputAction; split <;> rfl)
  | luTick => exact run e (by unfold State.luTick; split <;> rfl)
  | doneSignal => exact run e (by unfold State.takeDone; split <;> rfl)
  | slipSignal => exact run e (by unfold State.takeSlip; split <;> rfl)
  | linkRequest x | unlinkRequest x | reloadRequest x => exact run e (s.requestArrival_pending _ x)
  | levelSignal | dropSignal => exact run e (s.takeQueueSignal_pending _)
  | tickApplication => exact run e s.tickApplication_pending
  | entryFallsDue => exact run e (choice s.tickApplication_pending rfl)
  | relinkWalkStart | walkEnd | takeLink | takeUnlink | takeReload | edge _ _ => exact run e rfl
  | round _ _ | tbWarmReset | duWarmReset | ttWarmReset | qeWarmReset | luWarmReset | nuWarmReset =>
    exact run e (choice rfl rfl)
  | commandCompletion => exact run e (by unfold State.takeCompletion; split <;> rfl)
  | nop => exact run e s.takeNop_pending
  | unknownCode => exact run e s.takeUnknown_pending
  | nowloRead => exact Host.Outcome.next.inj e ▸ s.nowloRead_pending
  | logpopRead => exact Host.Outcome.next.inj e ▸ s.logpopRead_pending
  | coldReset => exact Host.Outcome.next.inj e ▸ rfl
  | resetnRise levels =>
    rw [exec_resetnRise] at e
    rw [← Host.Outcome.next.inj e, State.withResetnLow_pending, State.withLu_pending]
  | flagWrite _ _ => exact write e s.nuUpToDate_pending
  | intenWrite w | warmReset w => exact write e (s.controlWrite_pending w)
  | registerWrite a w => exact write e (s.writeWord_pending a w)
  | commandWrite _ | statusWrite _ | paramWrite _ _ => exact write e rfl
  | tmrRead => exact run e (command fun p => by rw [tmrRead_state])
  | ctxRead => exact run e (command fun p => by rw [ctxRead_state])
  | tbSetup => exact run e (command fun p => tbSetup_pending p s)
  | ntLevel => exact run e (command fun p => ntLevel_pending p s)
  | _ => exact run e (command fun _ => rfl)

end pending

/-! ## RESETN low and its rise -/

/-- While RESETN is low every event but the two resets and the two reads with an effect only ends a write access. -/
theorem exec_low {i : Instr} {s : State} (h : s.resetnLow = true) (hcold : i ≠ .coldReset)
    (hrise : ∀ l, i ≠ .resetnRise l) (hnowlo : i ≠ .nowloRead) (hlogpop : i ≠ .logpopRead) :
    exec i s = .next (if isHostWrite i then { s with bus := .idle } else s) := by
  cases i with
  | coldReset => exact absurd rfl hcold
  | resetnRise l => exact absurd rfl (hrise l)
  | nowloRead => exact absurd rfl hnowlo
  | logpopRead => exact absurd rfl hlogpop
  | commandWrite _ | statusWrite _ | paramWrite _ _ | intenWrite _ | warmReset _ | flagWrite _ _ | registerWrite _ _ =>
    exact hostWrite_low h
  | _ => exact running_low h

theorem exec_nowloRead_low {s : State} (h : s.resetnLow = true) : exec .nowloRead s = .next (s.withBus (.read 0)) := by
  change Host.Outcome.next s.nowloRead = _
  simp only [State.nowloRead, h, if_true]

theorem exec_logpopRead_low {s : State} (h : s.resetnLow = true) :
    exec .logpopRead s = .next (s.withBus (.read 0)) := by
  change Host.Outcome.next s.logpopRead = _
  simp only [State.logpopRead, h, if_true]

/-! ## Time Base -/

section timeBase
variable {s : State}

theorem sameExcept_withTb (s : State) (tb : TimeBase) : sameExcept [.tb] s (s.withTb tb) := by
  simp [sameExcept]

theorem State.risingEdge_of_halted (h : s.tb.running = false) : s.risingEdge = s := by
  simp [State.risingEdge, h]

theorem State.risingEdge_of_count (h : s.tb.running = true) (hc : s.tb.prescaler + 1 ≠ s.tb.divisor) :
    s.risingEdge = s.withTb { s.tb with prescaler := s.tb.prescaler + 1 } := by
  have hreach : s.tb.reaches = false := by simpa [TimeBase.reaches] using hc
  simp [State.risingEdge, h, hreach, TimeBase.count]

theorem TimeBase.reaches_eq_true {tb : TimeBase} : tb.reaches = true ↔ tb.prescaler + 1 = tb.divisor := by
  simp [TimeBase.reaches]

theorem State.risingEdge_of_tick (h : s.tb.running = true) (hc : s.tb.prescaler + 1 = s.tb.divisor) :
    s.risingEdge = (s.withTb { s.tb with prescaler := 0 }).sendTick := by
  simp [State.risingEdge, h, TimeBase.reaches_eq_true.2 hc, TimeBase.count]

variable (hr : s.resetnLow = false)
include hr

theorem exec_tbclkRisingEdge_high : exec .tbclkRisingEdge s = .next s.risingEdge := running_high hr

/-- TB_TICK is the rising edge that reaches the divisor. -/
theorem exec_tbTick_of_tick (hc : s.tb.prescaler + 1 = s.tb.divisor) : exec .tbTick s = .next s.risingEdge := by
  change running s (if s.tb.reaches then s.risingEdge else s) = _
  rw [if_pos (TimeBase.reaches_eq_true.2 hc), running_high hr]

end timeBase

/-- A TB command that completes with OK and reply words 0. -/
theorem tbCommand_answers {code : Word} {p : Words6} {s : State} {tb : TimeBase} {i : Instr}
    {f : Words6 → State → Completion × State} (hi : exec i s = running s (takeCommand code f s)) (ht : Taken code p s)
    (hf : f p s = (.ok (words), s.withTb tb)) :
    ∃ t, exec i s = .next t ∧ Answered (.ok (words)) [.tb] s t ∧ t.tb = tb ∧ t.wires = s.wires :=
  ⟨_, hi.trans (command_next ht hf rfl), answered_withCp (by simp [sameExcept]), rfl, rfl⟩

end Sys2Proof.Machine

/-! ## The statements -/

namespace Sys2Proof.Machine.WholeMachine

/-- Settles O1: both clauses are the two cases of `step`. -/
theorem stepTakesTheFrontEvent : Obligations.StepTakesTheFrontEvent := by
  refine ⟨fun c s => rfl, fun s h => ?_⟩
  unfold step
  rw [h]

/-- Settles O2: every arm of `exec` answers a next state, and each path keeps the queue. -/
theorem everyEventHasANextState : Obligations.EveryEventHasANextState := fun i s => by
  obtain ⟨t, e⟩ := exec_eq_next i s
  exact ⟨t, e, exec_pending e⟩

/-- Settles O3: the record of each block, and each bank of records entry by entry. -/
theorem coldResetValues : Obligations.ColdResetValues := by
  refine ⟨rfl, rfl, rfl, rfl, rfl, rfl, fun i => ?timer, fun q => ?queue, fun c => ?context, rfl, rfl, fun n => ?input,
    fun o => ?output, ⟨rfl, rfl, rfl, rfl, fun n => ?level⟩, rfl, rfl, rfl, by decide, by decide⟩
  case timer => simp [State.reset, TimerTable.timer, TimerTable.cold, Timer.cold]
  case queue => simp [State.reset, QueueEngine.queue, QueueEngine.cold, QueueRec.cold]
  case context => simp [State.reset, QueueEngine.context, QueueEngine.cold, Context.cold]
  case input => simp [State.reset, LineUnit.input, LineUnit.cold, Input.cold]
  case output => simp [State.reset, LineUnit.output, LineUnit.cold, Output.cold]
  case level => simp [State.reset, NotifyUnit.levelOf, NotifyUnit.cold]

/-- Settles O4: the cold reset, what it holds, and its release. -/
theorem coldResetHoldsAndRiseReleases : Obligations.ColdResetHoldsAndRiseReleases := by
  refine ⟨fun s => rfl, fun i s => exec_low, fun s h => ⟨exec_nowloRead_low h, exec_logpopRead_low h⟩,
    fun levels s => ⟨_, exec_resetnRise levels s, fun n => ?input, fun o => ?output, ?frame⟩⟩
  case input =>
    rw [State.withResetnLow_lu, State.withLu_lu]
    exact s.lu.input_firstSamples levels n
  case output => rw [State.withResetnLow_lu, State.withLu_lu, LineUnit.output_firstSamples]
  case frame =>
    generalize s.lu.firstSamples levels = lu
    rfl

/-- Settles O5: an edge by what it brings the count to, a command by its rule. -/
theorem timeBaseEdgesAndCommands : Obligations.TimeBaseEdgesAndCommands := by
  refine ⟨fun s hr => ⟨fun hh => ?halted, fun hrun hc => ?counts, fun hrun hc i hi => ?ticks⟩,
    fun p s => ⟨fun ht hp => ?setup, fun ht => ?run, fun ht => ?halt⟩⟩
  case halted => rw [exec_tbclkRisingEdge_high hr, State.risingEdge_of_halted hh]
  case counts =>
    have hexec := exec_tbclkRisingEdge_high hr
    rw [State.risingEdge_of_count hrun hc] at hexec
    exact ⟨_, hexec, rfl, rfl, sameExcept_withTb s _⟩
  case ticks =>
    have hexec : exec i s = .next s.risingEdge := by
      rcases List.mem_pair.1 hi with rfl | rfl
      · exact exec_tbclkRisingEdge_high hr
      · exact exec_tbTick_of_tick hr hc
    rw [State.risingEdge_of_tick hrun hc] at hexec
    exact ⟨_, hexec, rfl, rfl, sameExcept_withTb s _⟩
  case setup => exact tbCommand_answers rfl ht (by simp only [tbSetup, hp, if_false])
  case run => exact tbCommand_answers rfl ht rfl
  case halt => exact tbCommand_answers rfl ht rfl

end Sys2Proof.Machine.WholeMachine
end

section
/-! The warm resets of the blocks and the boundary they draw (R156, R172), with their independence of order, and what the
Command Port's own events leave: NOWLO (R6), completions (R146, R148), the writes of PARAM and CONTROL (R135, R152). -/

namespace Sys2Proof.Machine

/-! ## The latch of NOWLO reads -/

section latch
variable {s t : State}

theorem nowLatch_takeCommand {code : Word} {f : Words6 → State → Completion × State}
    (h : ∀ p, (f p s).2.cp = s.cp) : (takeCommand code f s).cp.nowLatch = s.cp.nowLatch := by
  rcases takeCommand_cases code f s with e | ⟨p, _, e⟩
  · rw [e]
  · rw [e, State.withCp_cp, CommandPort.returned_nowLatch, h p]

theorem CommandPort.writeCommand_nowLatch (cp : CommandPort) (w : Word) :
    (cp.writeCommand w).nowLatch = cp.nowLatch := by
  unfold CommandPort.writeCommand
  split <;> rfl

theorem State.controlWrite_nowLatch (s : State) (w : Word) : (s.controlWrite w).cp.nowLatch = s.cp.nowLatch := by
  unfold State.controlWrite
  split <;> rfl

theorem State.flagWrite_cp (s : State) (r : FlagReg) (w : Word) : (s.flagWrite r w).cp = s.cp :=
  (touches_flagWrite s r w).cp_eq (by decide)

theorem State.writeWord_nowLatch (s : State) (a : BitVec 4) (w : Word) :
    (s.writeWord a w).cp.nowLatch = s.cp.nowLatch := by
  unfold State.writeWord
  split
  case h_2 => exact s.cp.writeCommand_nowLatch w
  case h_9 => rw [s.flagWrite_cp]
  case h_10 => rw [s.flagWrite_cp]
  case h_11 => exact s.controlWrite_nowLatch w
  all_goals rfl

theorem State.takeCompletion_nowLatch (s : State) : s.takeCompletion.cp.nowLatch = s.cp.nowLatch := by
  unfold State.takeCompletion
  split <;> rfl

theorem State.takeNop_nowLatch (s : State) : s.takeNop.cp.nowLatch = s.cp.nowLatch := by
  unfold State.takeNop
  split
  · rfl
  · split <;> rfl

theorem State.takeUnknown_nowLatch (s : State) : s.takeUnknown.cp.nowLatch = s.cp.nowLatch := by
  unfold State.takeUnknown
  split
  · rfl
  · split <;> rfl

/-- No event but a NOWLO read and the cold reset changes the latch (R6). -/
theorem exec_nowLatch {i : Instr} (e : exec i s = .next t) (hnowlo : i ≠ .nowloRead) (hcold : i ≠ .coldReset) :
    t.cp.nowLatch = s.cp.nowLatch := by
  by_cases hcp : Block.cp ∈ touchedBy i
  case neg => rw [(exec_touches e).cp_eq hcp]
  have run : ∀ {u}, running s u = .next t → u.cp.nowLatch = s.cp.nowLatch → t.cp.nowLatch = s.cp.nowLatch :=
    fun e hu => keeps_running (P := fun v => v.cp.nowLatch = s.cp.nowLatch) e rfl hu
  have write : ∀ {u}, hostWrite s u = .next t → u.cp.nowLatch = s.cp.nowLatch → t.cp.nowLatch = s.cp.nowLatch :=
    fun e hu => keeps_hostWrite (P := fun v => v.cp.nowLatch = s.cp.nowLatch) (fun _ hv => hv) e rfl hu
  cases i with
  | nowloRead => exact absurd rfl hnowlo
  | coldReset => exact absurd rfl hcold
  | commandWrite w => exact write e (s.cp.writeCommand_nowLatch w)
  | statusWrite w | paramWrite _ w => exact write e rfl
  | intenWrite w | warmReset w => exact write e (s.controlWrite_nowLatch w)
  | registerWrite a w => exact write e (s.writeWord_nowLatch a w)
  | commandCompletion => exact run e s.takeCompletion_nowLatch
  | nop => exact run e s.takeNop_nowLatch
  | unknownCode => exact run e s.takeUnknown_nowLatch
  | tmrDefine | tmrArm | tmrDisarm | tmrRetune | tmrRelease
  | qSetup | qSend | qTake | qPurge | qRead | ctxSetup | ctxWait | ctxAbandon | ctxCollect
  | lnSetup | lnDrive | lnRead | tbRun | tbHalt | tbRead =>
    exact run e (nowLatch_takeCommand fun _ => rfl)
  | tmrRead => exact run e (nowLatch_takeCommand fun p => tmrRead_cp p s)
  | ctxRead => exact run e (nowLatch_takeCommand fun p => ctxRead_cp p s)
  | tbSetup => exact run e (nowLatch_takeCommand fun p => tbSetup_cp p s)
  | ntLevel => exact run e (nowLatch_takeCommand fun p => ntLevel_cp p s)
  | _ => simp [touchedBy] at hcp

theorem exec_nowloRead_high (h : s.resetnLow = false) : exec .nowloRead s = .next s.duUpToDate.readNowlo := by
  change Host.Outcome.next s.nowloRead = _
  rw [State.nowloRead, if_neg (by simp [h])]

theorem exec_coldReset (s : State) : exec .coldReset s = .next (State.coldHeld s.pending) := rfl

end latch

/-! ## The CP's own completions (R146, R148) -/

section completions
variable {s : State} {r : InFlight}

theorem sameExcept_complete (s : State) (c : Completion) : sameExcept [.cp] s (s.complete c) := by
  simp [sameExcept]

theorem State.takeCompletion_of_completing {c : Completion} (hs : s.cp.slot = some r) (hc : r.stage = .completing c) :
    s.takeCompletion = s.complete c := by
  simp only [State.takeCompletion, CommandPort.completion, hs, hc]

theorem CommandPort.acceptedCode_of_handedOver {cp : CommandPort} (hs : cp.slot = some r) (hh : r.stage = .handedOver) :
    cp.acceptedCode = some r.code := by
  simp only [CommandPort.acceptedCode, hs, hh, if_true]

theorem State.takeNop_of_nop (ha : s.cp.acceptedCode = some r.code) (hc : r.code = Config.codeNop) :
    s.takeNop = s.complete .ok := by
  simp only [State.takeNop, ha, hc, if_true]

theorem State.takeUnknown_of_unknown (ha : s.cp.acceptedCode = some r.code) (hc : knownCode r.code = false) :
    s.takeUnknown = s.complete (.fail .unknown) := by
  simp [State.takeUnknown, ha, hc]

/-- NOP and the 24 codes of R143. -/
def codes : List Word :=
  [0x0000, 0x0010, 0x0011, 0x0012, 0x0013, 0x0014, 0x0015, 0x0020, 0x0022, 0x0023, 0x0024, 0x0025, 0x0030, 0x0031,
    0x0032, 0x0033, 0x0034, 0x0040, 0x0041, 0x0042, 0x0050, 0x0051, 0x0052, 0x0053, 0x0060]

theorem mem_codes_of_mem_codesOf (b : Block) : ∀ w ∈ codesOf b, w ∈ codes := by
  cases b <;> simp only [codesOf, List.forall_mem_cons, List.not_mem_nil, false_implies, implies_true] <;> decide

/-- A code that is neither NOP nor in the list of any block is unknown (R143). -/
theorem knownCode_eq_false {w : Word} (hnop : w ≠ Config.codeNop) (hno : ∀ b, w ∉ codesOf b) : knownCode w = false := by
  have howner : ownerOf w = .cp := (mem_codesOf_ownerOf w).resolve_right (hno _)
  simp [knownCode, howner, hnop]

end completions

/-! ## Register writes -/

section writes
variable {s : State}

/-- R141: a write to a read-only address is no register's. -/
theorem State.writeWord_of_readOnly (s : State) (w : Word) :
    ∀ a ∈ ([0x0, 0x9, 0xC, 0xE, 0xF] : List (BitVec 4)), s.writeWord a w = s := by
  simp only [List.forall_mem_cons, List.not_mem_nil, false_implies, implies_true, and_true]
  exact ⟨rfl, rfl, rfl, rfl, rfl⟩

theorem hostWrite_self (s : State) : hostWrite s s = .next { s with bus := .idle } := by
  simp only [hostWrite, State.written, ite_self]
  rfl

theorem CommandPort.writeParam_param (cp : CommandPort) (i j : Fin 6) (w : Word) :
    (cp.writeParam i w).params[j] = if i = j then w else cp.params[j] := by
  simp [CommandPort.writeParam, Vector.getElem_set, Fin.ext_iff]

/-- A change of INTEN is taken at the NU after the warm resets sent before it. -/
theorem State.followInten_eq (s : State) (w : Word) :
    s.followInten w =
      if w.getLsbD 0 ≠ s.cp.inten ∧ s.resets.nu < s.resets.cp then s.warmNu s.resets.cp else s := by
  unfold State.followInten State.nuUpToDate bit
  by_cases hi : w.getLsbD 0 = s.cp.inten
  · rw [if_pos hi, if_neg fun h => h.1 hi]
  · rw [if_neg hi]
    simp only [ne_eq, hi, not_false_eq_true, true_and]

theorem CommandPort.warm_eq (cp : CommandPort) :
    cp.warm = { cp with
      slot := none, result := if cp.slot = none then .ok else .aborted, reply := #v[0, 0, 0, 0, 0, 0]
      refused := false } := by
  unfold CommandPort.warm
  cases cp.slot <;> rfl

end writes

/-! ## The warm reset of a block -/

/-- The six blocks that take the warm resets that the CP sends. -/
inductive WarmBlock where
  | tb
  | du
  | tt
  | qe
  | lu
  | nu

namespace WarmBlock

/-- The event at which the block takes its next warm reset. -/
def event : WarmBlock → Instr
  | .tb => .tbWarmReset
  | .du => .duWarmReset
  | .tt => .ttWarmReset
  | .qe => .qeWarmReset
  | .lu => .luWarmReset
  | .nu => .nuWarmReset

/-- The block's count of warm resets taken. -/
def taken (r : Resets) : WarmBlock → Nat
  | .tb => r.tb
  | .du => r.du
  | .tt => r.tt
  | .qe => r.qe
  | .lu => r.lu
  | .nu => r.nu

/-- The block's warm reset, taken as its next one. -/
def reset (s : State) : WarmBlock → State
  | .tb => s.warmTb (s.resets.tb + 1)
  | .du => s.warmDu (s.resets.du + 1)
  | .tt => s.warmTt (s.resets.tt + 1)
  | .qe => s.warmQe (s.resets.qe + 1)
  | .lu => s.warmLu (s.resets.lu + 1)
  | .nu => s.warmNu (s.resets.nu + 1)

/-- The block has a warm reset to take, and RESETN is high. -/
def due (s : State) (b : WarmBlock) : Bool := !s.resetnLow && decide (taken s.resets b < s.resets.cp)

/-- The block's event. -/
def take (s : State) (b : WarmBlock) : State := if due s b then reset s b else s

theorem running_ite (s t : State) (c : Prop) [Decidable c] :
    running s (if c then t else s) = .next (if !s.resetnLow && decide c then t else s) := by
  cases hl : s.resetnLow
  · rw [running_high hl]; simp
  · rw [running_low hl]; simp

theorem exec_event (s : State) (b : WarmBlock) : exec b.event s = .next (take s b) := by
  cases b <;> exact running_ite s _ _

/-- The event of a block that has a warm reset to take. -/
theorem exec_of_taken_lt {s : State} (b : WarmBlock) (hr : s.resetnLow = false) (h : taken s.resets b < s.resets.cp) :
    exec b.event s = .next (reset s b) := by
  have hdue : due s b = true := by simp [due, hr, h]
  rw [exec_event, take, if_pos hdue]

/-- A block's warm reset counts at that block alone. -/
theorem taken_reset {a b : WarmBlock} (h : a ≠ b) (s : State) : taken (reset s a).resets b = taken s.resets b := by
  cases a <;> cases b <;> solve | rfl | exact absurd rfl h

theorem due_reset {a b : WarmBlock} (h : a ≠ b) (s : State) : due (reset s a) b = due s b := by
  have hframe : (reset s a).resetnLow = s.resetnLow ∧ (reset s a).resets.cp = s.resets.cp := by
    cases a <;> exact ⟨rfl, rfl⟩
  rw [due, due, taken_reset h, hframe.1, hframe.2]

/-- Two blocks' warm resets touch different records, counts and FIFOs: each FIFO has one receiver. -/
theorem reset_comm (s : State) (a b : WarmBlock) : reset (reset s a) b = reset (reset s b) a := by
  cases a <;> cases b <;> rfl

theorem take_comm (s : State) (a b : WarmBlock) : take (take s a) b = take (take s b) a := by
  by_cases hab : a = b
  · rw [hab]
  · have hba := Ne.symm hab
    cases ha : due s a <;> cases hb : due s b <;> simp [take, ha, hb, due_reset hab, due_reset hba, reset_comm s a b]

theorem take_withPending (s : State) (b : WarmBlock) (x : List Instr) :
    take (s.withPending x) b = (take s b).withPending x := by
  have hdue : due (s.withPending x) b = due s b := rfl
  rw [take, take, hdue]
  split
  · cases b <;> rfl
  · rfl

theorem run_succ {s t : State} (k : Nat) (h : step s = .next t) :
    Sys2Proof.core.run (k + 1) s = Sys2Proof.core.run k t := by
  have hcore : Sys2Proof.core.step s = .next t := h
  simp only [Host.Core.run, hcore]

/-- A run over the events of a list of blocks takes their warm resets one after the other. -/
theorem run_events (l : List WarmBlock) (s : State) (rest : List Instr) :
    Sys2Proof.core.run l.length (s.withPending (l.map event ++ rest)) = .next ((l.foldl take s).withPending rest) := by
  induction l generalizing s with
  | nil => rfl
  | cons b l ih =>
    have hstep : step (s.withPending ((b :: l).map event ++ rest)) =
        .next ((take s b).withPending (l.map event ++ rest)) := by
      change exec b.event (s.withPending (l.map event ++ rest)) = _
      rw [exec_event, take_withPending]
    exact (run_succ l.length hstep).trans (ih (take s b))

theorem foldl_take_perm {l l' : List WarmBlock} (h : l.Perm l') (s : State) : l.foldl take s = l'.foldl take s := by
  have : RightCommutative take := ⟨take_comm⟩
  exact h.foldl_eq s

theorem event_injective : Function.Injective event := by
  intro a b h
  cases a <;> cases b <;> solve | rfl | cases h

def all : List WarmBlock := [.tb, .du, .tt, .qe, .lu, .nu]

/-- An order of the six events is an order of the six blocks. -/
theorem exists_perm_of_events {l : List Instr} (h : l.Perm (all.map event)) :
    ∃ bs : List WarmBlock, l = bs.map event ∧ bs.Perm all := by
  have hl : l ∈ Set.range (List.map event) := by
    rw [Set.range_list_map]
    intro i hi
    obtain ⟨b, -, rfl⟩ := List.mem_map.1 (h.mem_iff.1 hi)
    exact ⟨b, rfl⟩
  obtain ⟨bs, rfl⟩ := hl
  exact ⟨bs, rfl, (List.map_perm_map_iff event_injective).1 h⟩

end WarmBlock

/-! What the warm reset does to one record of a bank, as R53, R82, R107 and R126 write it. -/

theorem Timer.warm_eq (t : Timer) :
    t.warm = { t with expiries := 0, state := if t.state = .armed then .idle else t.state } := by
  unfold Timer.warm
  cases t.state <;> rfl

end Sys2Proof.Machine

/-! ## The statements -/

namespace Sys2Proof.Machine.ResetsAndWrites

/-- Settles O12: the read at the DU brought up to date, and the latch by every other event. -/
theorem nowloRead : Obligations.NowloRead := by
  refine ⟨fun s hr => ?read, fun s => rfl, fun s => rfl, fun i s t => exec_nowLatch, rfl,
    fun s => ⟨_, exec_coldReset s, rfl, rfl⟩, fun s => exec_nowloRead_low⟩
  case read =>
    rw [exec_nowloRead_high hr, State.readNowlo, State.stampNow_eq, State.duUpToDate_now]
    unfold State.duUpToDate
    split <;> rfl

/-- Settles O47: the CP takes the completion on its way. -/
theorem commandCompletion : Obligations.CommandCompletion := by
  intro c r s hr hs hc
  have hexec : exec .commandCompletion s = .next s.takeCompletion := running_high hr
  rw [State.takeCompletion_of_completing hs hc] at hexec
  exact ⟨_, hexec, rfl, rfl, sameExcept_complete s c⟩

/-- Settles O48: the CP takes and completes the codes that it owns. -/
theorem nopAndUnknownCodes : Obligations.NopAndUnknownCodes := by
  intro r s hr hs hh completes
  have ha := CommandPort.acceptedCode_of_handedOver hs hh
  refine ⟨fun hc => ?nop, fun hc => ?unknown⟩
  case nop =>
    have hexec : exec .nop s = .next s.takeNop := running_high hr
    rw [State.takeNop_of_nop ha hc] at hexec
    exact ⟨_, hexec, rfl, rfl, sameExcept_complete s _⟩
  case unknown =>
    have hno : ∀ b, r.code ∉ codesOf b := fun b hb => hc (mem_codes_of_mem_codesOf b _ hb)
    have hexec : exec .unknownCode s = .next s.takeUnknown := running_high hr
    rw [State.takeUnknown_of_unknown ha (knownCode_eq_false (fun h => hc (by simp [h, Config.codeNop])) hno)] at hexec
    exact ⟨_, hexec, rfl, rfl, sameExcept_complete s _⟩

/-- Settles O50: a PARAM write sets one register, a read-only address none, every other address is its register's row. -/
theorem paramAndRegisterWrites : Obligations.ParamAndRegisterWrites := by
  refine ⟨fun i w s hr => ?param, fun a w s ha => ?readOnly, fun w s => ?rows⟩
  case param =>
    refine ⟨_, hostWrite_high hr, rfl, ?_, fun j hj => ?_⟩
    · exact (s.cp.writeParam_param i i w).trans (if_pos rfl)
    · exact (s.cp.writeParam_param i j w).trans (if_neg (Ne.symm hj))
  case readOnly =>
    change hostWrite s (s.writeWord a w) = _
    rw [s.writeWord_of_readOnly w a ha, hostWrite_self]
  case rows => exact ⟨rfl, rfl, rfl, rfl, rfl, rfl, rfl, rfl, rfl, rfl, fun _ => rfl, fun _ => rfl⟩

/-- Settles O51: the NU follows a change of INTEN, and SOFT adds the CP's own warm reset. -/
theorem controlWrites : Obligations.ControlWrites := by
  intro w s hr a
  refine ⟨fun hsoft => ?inten, fun hsoft => ?soft⟩
  case inten =>
    refine (hostWrite_high hr).trans ?_
    have hbit : bit w 1 = false := hsoft
    rw [State.controlWrite, hbit, if_neg Bool.false_ne_true, State.followInten_eq]
    rfl
  case soft =>
    refine (hostWrite_high hr).trans ?_
    have hbit : bit w 1 = true := hsoft
    rw [State.controlWrite, hbit, if_pos rfl, State.followInten_eq, CommandPort.warm_eq]
    rfl

/-- Settles O52: the FIFOs by their two operations, each block by its warm reset. -/
theorem blockWarmResets : Obligations.BlockWarmResets := by
  refine ⟨fun α a b x xs w => ?sends, fun α b e x rest => ?receives, fun s hr => ?blocks⟩
  case sends =>
    refine ⟨fun h => ?_, fun h => ?_⟩
    · simp [send, sendAll, Nat.not_lt.2 h]
    · simp [send, sendAll, h]
  case receives => exact ⟨receive_nil b, receive_cons_self b x rest, fun h => by simp [receive, h]⟩
  case blocks =>
    refine ⟨fun h => ?tb, fun h => ?du, fun h => ?tt, fun h => ?qe, fun h => ?lu, fun h => ?nu⟩
    case tb => exact WarmBlock.exec_of_taken_lt .tb hr h
    case du => exact WarmBlock.exec_of_taken_lt .du hr h
    case nu => exact WarmBlock.exec_of_taken_lt .nu hr h
    case tt =>
      exact ⟨_, WarmBlock.exec_of_taken_lt .tt hr h, fun i => (s.tt.timer_warm i).trans (Timer.warm_eq _), rfl⟩
    case qe =>
      exact ⟨_, WarmBlock.exec_of_taken_lt .qe hr h, s.qe.queue_warm, s.qe.context_warm, rfl, rfl, rfl⟩
    case lu =>
      exact ⟨_, WarmBlock.exec_of_taken_lt .lu hr h, s.lu.input_warm, s.lu.output_warm, rfl⟩

/-- Settles O53: the six warm resets commute, so a run over them ends alike in every order. -/
theorem warmResetOrderDoesNotMatter : Obligations.WarmResetOrderDoesNotMatter := by
  intro l s hl
  obtain ⟨bs, rfl, hbs⟩ := WarmBlock.exists_perm_of_events (l := l) hl
  have hlen : bs.length = 6 := hbs.length_eq
  have hrun := WarmBlock.run_events bs s s.pending
  rw [hlen, WarmBlock.foldl_take_perm hbs] at hrun
  exact ⟨_, hrun, WarmBlock.run_events WarmBlock.all s s.pending⟩

/-- Settles O56: the cold state of each block meets the block's laws, and no item is on its way. -/
theorem invariantsHoldAtReset : Obligations.InvariantsHoldAtReset :=
  ⟨QueueEngine.poolOk_cold, QueueEngine.waitOk_cold,
    ⟨DeadlineUnit.ok_cold, (by decide : TimerTable.cold.Ok), List.forall_mem_nil _, List.forall_mem_nil _⟩,
    (by decide : TimeBase.cold.Ok), LineUnit.ok_cold, trivial, State.flowOk_reset⟩

end Sys2Proof.Machine.ResetsAndWrites
end

section
/-! The Timer Table: expiry notices (R44 to R46), retriggers (R48) and the timer commands in the states that take them (R37
to R43). First what each rule answers, then the statements. -/

namespace Sys2Proof.Machine

/-! ## A command of the TT -/

section ttCommands
variable {code : Word} {p : Words6} {s : State} {c : Completion} {i : Instr}
  {f : Words6 → TimerTable → Completion × TtOut} (hi : exec i s = running s (takeCommand code (ttCommand f) s))
  (ht : Taken code p s)
include hi ht

/-- A command that changes the timers and sends nothing. -/
theorem ttCommand_silent {tt : TimerTable} (hf : f p s.tt = (c, { tt := tt })) :
    ∃ t, exec i s = .next t ∧ Answered c [.tt] s t ∧ t.tt = tt ∧ t.wires = s.wires := by
  refine ⟨_, hi.trans (ttCommand_next ht hf), answered_commitTt s c _, rfl, ?_⟩
  simp only [State.withCp_wires, State.commitTt, State.withWires_wires, sendAll_nil]

/-- A command that changes nothing. -/
theorem ttCommand_reports (hf : f p s.tt = (c, { tt := s.tt })) :
    ∃ t, exec i s = .next t ∧ Answered c [] s t ∧ t.wires = s.wires := by
  have hnext := hi.trans (ttCommand_next ht hf)
  rw [commitTt_nothing] at hnext
  exact ⟨_, hnext, answered_self s c, rfl⟩

/-- A command that changes the timers and sends one request to the DU. -/
theorem ttCommand_requests {tt : TimerTable} {r : LinkRequest} (hf : f p s.tt = (c, { tt := tt, requests := [r] })) :
    ∃ t, exec i s = .next t ∧ Answered c [.tt] s t ∧ t.tt = tt ∧
      t.wires = { s.wires with ttToDu := send s.resets.tt s.resets.du r s.wires.ttToDu } := by
  refine ⟨_, hi.trans (ttCommand_next ht hf), answered_commitTt s c _, rfl, ?_⟩
  simp only [State.withCp_wires, State.commitTt, State.withWires_wires, sendAll_nil, sendAll_singleton]

end ttCommands

/-! ## Notices and retriggers -/

section notices
variable {tt : TimerTable} {n : Notice TimerId}

theorem Timer.current_eq_true {t : Timer} {a : BitVec 8} : t.current a = true ↔ t.state = .armed ∧ t.arming = a := by
  simp [Timer.current]

theorem TimerTable.takeNotice_of_current (h : (tt.timer n.who).current n.arming = true) :
    tt.takeNotice n =
      { tt := tt.setTimer n.who (tt.timer n.who).expire
        posts := (tt.timer n.who).expire.posts n.who
        actions := (tt.timer n.who).actions } := by
  rw [TimerTable.takeNotice, if_pos h]

theorem TimerTable.takeNotice_of_stale (h : ¬ (tt.timer n.who).current n.arming = true) :
    tt.takeNotice n = { tt := tt } := by
  rw [TimerTable.takeNotice, if_neg h]

theorem exec_expiryNotice_high {rest : List (Sent (Notice TimerId))} {s : State} (hr : s.resetnLow = false)
    (hw : receive s.resets.tt s.wires.duToTt = some (n, rest)) :
    exec .expiryNotice s = .next ((s.withWires { s.wires with duToTt := rest }).commitTt (s.tt.takeNotice n)) := by
  change running s s.expiryNotice = _
  rw [running_high hr]
  simp only [State.expiryNotice, hw]

theorem exec_retriggerRequest_high {i : TimerId} {rest : List (Sent TimerId)} {s : State} (hr : s.resetnLow = false)
    (hw : receive s.resets.tt s.wires.luToTt = some (i, rest)) :
    exec .retriggerRequest s = .next ((s.withWires { s.wires with luToTt := rest }).commitTt (s.tt.retrigger i)) := by
  change running s s.retriggerRequest = _
  rw [running_high hr]
  simp only [State.retriggerRequest, hw]

theorem sameExcept_commitTt (s : State) (o : TtOut) : sameExcept [.tt] s (s.commitTt o) := by
  simp [sameExcept]

theorem sameExcept_commitTt_nothing (s : State) : sameExcept [] s (s.commitTt { tt := s.tt }) := by
  simp [sameExcept]

theorem commitTt_wires_of_silent (s : State) (tt : TimerTable) : (s.commitTt { tt := tt }).wires = s.wires := by
  simp only [State.commitTt, State.withWires_wires, sendAll_nil]

/-- The low byte of a word. -/
theorem setWidth_eq_low (w : Word) : w.setWidth 8 = w.extractLsb' 0 8 := by
  apply BitVec.eq_of_toNat_eq
  simp [BitVec.extractLsb'_toNat]

theorem TimerTable.retrigger_of_free {i : TimerId} (h : (tt.timer i).state = .free) :
    tt.retrigger i = { tt := tt } := by
  simp only [TimerTable.retrigger, h]

theorem TimerTable.retrigger_of_not_free {i : TimerId} (h : (tt.timer i).state ≠ .free) :
    tt.retrigger i = tt.armWith i (tt.timer i).period := by
  unfold TimerTable.retrigger
  cases hs : (tt.timer i).state with
  | free => exact absurd hs h
  | idle | armed => rfl

theorem Timer.reload_eq (t : Timer) : t.reload = if t.mode = .periodic then t.period else 0 := by
  unfold Timer.reload
  cases t.mode <;> rfl

end notices

/-! ## The rules of the timer commands -/

section rules
variable {p : Words6} {tt : TimerTable} {i : TimerId}

theorem definitionOf_eq_some {arming : BitVec 8} {kind : Option ActionKind} {data : MessageData}
    (hk : actionKindOf (field p[0] 13 3) = some kind) (hd : dataOf (field p[3] 2 2) p[4] p[5] = some data)
    (hp : p[1] ≠ 0) :
    definitionOf p arming = some {
      state := .idle
      mode := timerModeOf (bit p[0] 6)
      period := p[1]
      target := if bit p[0] 7 then some (queueOf (field p[0] 8 3)) else none
      template := { tag := p[2], priority := field p[3] 0 2, data := data }
      action := kind.map fun k => { output := outputOf (field p[0] 11 2), kind := k }
      arming := arming
      expiries := 0 } := by
  simp only [definitionOf, hk, hd, hp, if_false]

theorem tmrDefine_of_not_armed {t : Timer} (hi : (field p[0] 0 6).toNat = i.val)
    (hd : definitionOf p ((tt.timer i).arming + 1) = some t) (hs : (tt.timer i).state ≠ .armed) :
    tmrDefine p tt = (.ok (words (t.arming.setWidth 16)), { tt := tt.setTimer i t }) := by
  simp only [tmrDefine, timerOf_eq_some hi, hd, place_zero]
  cases h : (tt.timer i).state with
  | armed => exact absurd h hs
  | free | idle => rfl

section number
variable (hi : p[0].toNat = i.val)
include hi

theorem tmrArm_of_not_free (hs : (tt.timer i).state ≠ .free) :
    tmrArm p tt =
      (.ok (words (((tt.timer i).arming + 1).setWidth 16) ((tt.timer i).resolve p[1])),
        tt.armWith i ((tt.timer i).resolve p[1])) := by
  simp only [tmrArm, timerOf_eq_some hi, tmrArmWords, place_zero]
  cases h : (tt.timer i).state with
  | free => exact absurd h hs
  | idle | armed => rfl

theorem tmrDisarm_of_armed (hs : (tt.timer i).state = .armed) :
    tmrDisarm p tt =
      (.ok (tmrDisarmWords .armed ((tt.timer i).arming + 1)),
        { tt := tt.setTimer i { tt.timer i with state := .idle, arming := (tt.timer i).arming + 1 }
          requests := [.unlink (.timer i)] }) := by
  simp only [tmrDisarm, timerOf_eq_some hi, hs]

theorem tmrDisarm_of_idle (hs : (tt.timer i).state = .idle) :
    tmrDisarm p tt = (.ok (tmrDisarmWords .idle (tt.timer i).arming), { tt := tt }) := by
  simp only [tmrDisarm, timerOf_eq_some hi, hs]

theorem tmrRelease_of_idle (hs : (tt.timer i).state = .idle) :
    tmrRelease p tt =
      (.ok (words (place 0 TimerState.idle.code)), { tt := tt.setTimer i { tt.timer i with state := .free } }) := by
  simp only [tmrRelease, timerOf_eq_some hi, hs]

theorem tmrRelease_of_free (hs : (tt.timer i).state = .free) :
    tmrRelease p tt = (.ok (words (place 0 TimerState.free.code)), { tt := tt }) := by
  simp only [tmrRelease, timerOf_eq_some hi, hs]

theorem tmrRetune_of_reloads (hp : p[1] ≠ 0) (hs : (tt.timer i).state ≠ .free) (hr : (tt.timer i).reloads = true) :
    tmrRetune p tt =
      (.ok (words (tt.timer i).period 1),
        { tt := tt.setTimer i { tt.timer i with period := p[1] }, requests := [.reload (.timer i) p[1]] }) := by
  simp only [tmrRetune, timerOf_eq_some hi, hp, hs, hr, if_false, if_true]
  rfl

theorem tmrRetune_of_not_reloads (hp : p[1] ≠ 0) (hs : (tt.timer i).state ≠ .free)
    (hr : (tt.timer i).reloads = false) :
    tmrRetune p tt =
      (.ok (words (tt.timer i).period 0), { tt := tt.setTimer i { tt.timer i with period := p[1] } }) := by
  simp only [tmrRetune, timerOf_eq_some hi, hp, hs, hr, if_false, Bool.false_eq_true]
  rfl

end number

theorem Timer.reloads_eq_true {t : Timer} : t.reloads = true ↔ t.state = .armed ∧ t.mode = .periodic := by
  simp [Timer.reloads]

end rules

end Sys2Proof.Machine

/-! ## The statements -/

namespace Sys2Proof.Machine.TimerTableEvents

/-- Settles O14: a current notice by the timer's expiry, a stale one by what taking it leaves. -/
theorem expiryNotice : Obligations.ExpiryNotice := by
  intro n rest s hr hw T
  have hexec := exec_expiryNotice_high hr hw
  refine ⟨fun harmed harming => ?current, fun hstale => ?stale⟩
  case current =>
    rw [TimerTable.takeNotice_of_current (Timer.current_eq_true.2 ⟨harmed, harming⟩)] at hexec
    refine ⟨_, hexec, ?_, ?_, sameExcept_commitTt (s.withWires _) _⟩
    · have hexpire : T.expire = { T with
          expiries := T.expiries + 1
          state := match T.mode with
            | .oneShot => .idle
            | .periodic => .armed } := by
        cases hm : T.mode with
        | oneShot | periodic => simp only [Timer.expire, harmed, hm]
      exact hexpire ▸ s.tt.only_setTimer n.who T.expire
    · have hseq : T.expire.expiries.setWidth 8 = (T.expiries + 1).extractLsb' 0 8 := setWidth_eq_low _
      simp only [State.commitTt, State.withWires_wires, sendAll_nil, Timer.posts, Timer.draft]
      rw [hseq]
      rfl
  case stale =>
    rw [TimerTable.takeNotice_of_stale fun h => hstale (Timer.current_eq_true.1 h)] at hexec
    exact ⟨_, hexec, commitTt_wires_of_silent _ _, sameExcept_commitTt_nothing (s.withWires _)⟩

/-- Settles O15: a FREE timer ignores the request, any other is armed for its period. -/
theorem retriggerRequest : Obligations.RetriggerRequest := by
  intro i rest s hr hw T
  have hexec := exec_retriggerRequest_high hr hw
  refine ⟨fun hfree => ?free, fun hs => ?arms⟩
  case free =>
    rw [TimerTable.retrigger_of_free hfree] at hexec
    exact ⟨_, hexec, commitTt_wires_of_silent _ _, sameExcept_commitTt_nothing (s.withWires _)⟩
  case arms =>
    rw [TimerTable.retrigger_of_not_free hs] at hexec
    refine ⟨_, hexec, s.tt.only_setTimer i _, ?_, sameExcept_commitTt (s.withWires _) _⟩
    rw [← Timer.reload_eq]
    simp only [State.commitTt, State.withWires_wires, TimerTable.armWith, sendAll_nil, sendAll_singleton]
    rfl

/-- Settles O16: the definition that the parameter words describe is set. -/
theorem tmrDefine : Obligations.TmrDefine := by
  intro p i kind data s ht hi hs hp hk hd
  obtain ⟨t, hexec, hans, htt, hw⟩ :=
    ttCommand_silent (i := .tmrDefine) rfl ht (tmrDefine_of_not_armed hi (definitionOf_eq_some hk hd hp) hs)
  exact ⟨t, hexec, hans, htt ▸ s.tt.only_setTimer i _, hw⟩

/-- Settles O17: the timer is armed with the delay as resolved. -/
theorem tmrArm : Obligations.TmrArm := by
  intro p i s ht hi hs T delay
  obtain ⟨t, hexec, hans, htt, hw⟩ := ttCommand_requests (i := .tmrArm) rfl ht (tmrArm_of_not_free hi hs)
  refine ⟨t, hexec, hans, htt ▸ s.tt.only_setTimer i _, hw.trans ?_⟩
  rw [← Timer.reload_eq]
  rfl

/-- Settles O18: each command in each state that takes it, a retune by whether a RELOAD goes with it. -/
theorem tmrDisarmReleaseAndRetune : Obligations.TmrDisarmReleaseAndRetune := by
  intro p i s hi T
  refine ⟨fun ht hs => ?disarm, fun ht hs => ttCommand_reports rfl ht (tmrDisarm_of_idle hi hs), fun ht hs => ?release,
    fun ht hs => ttCommand_reports rfl ht (tmrRelease_of_free hi hs), fun ht hp hs => ?retune⟩
  case disarm =>
    obtain ⟨t, hexec, hans, htt, hw⟩ := ttCommand_requests (i := .tmrDisarm) rfl ht (tmrDisarm_of_armed hi hs)
    exact ⟨t, hexec, hans, htt ▸ s.tt.only_setTimer i _, hw⟩
  case release =>
    obtain ⟨t, hexec, hans, htt, hw⟩ := ttCommand_silent (i := .tmrRelease) rfl ht (tmrRelease_of_idle hi hs)
    exact ⟨t, hexec, hans, htt ▸ s.tt.only_setTimer i _, hw⟩
  case retune =>
    cases hreload : T.reloads with
    | true =>
      have hyes := Timer.reloads_eq_true.1 hreload
      obtain ⟨t, hexec, hans, htt, hw⟩ := ttCommand_requests (i := .tmrRetune) rfl ht (tmrRetune_of_reloads hi hp hs hreload)
      exact ⟨t, hexec, htt ▸ s.tt.only_setTimer i _, fun _ => ⟨hans, hw⟩, fun hno => absurd hyes hno⟩
    | false =>
      have hno : ¬ (T.state = .armed ∧ T.mode = .periodic) := fun h => by
        rw [Timer.reloads_eq_true.2 h] at hreload
        cases hreload
      obtain ⟨t, hexec, hans, htt, hw⟩ :=
        ttCommand_silent (i := .tmrRetune) rfl ht (tmrRetune_of_not_reloads hi hp hs hreload)
      exact ⟨t, hexec, htt ▸ s.tt.only_setTimer i _, fun hyes => absurd hyes hno, fun _ => ⟨hans, hw⟩⟩

end Sys2Proof.Machine.TimerTableEvents
end

section
/-! The Queue Engine: posts (R60 to R71), timeout notices (R95) and the queue commands (R74 to R80). First the words that
replies are made of and what each rule answers, then the statements. -/

namespace Sys2Proof.Machine

/-! ## Words of the replies -/

/-- A bit of a reply word, as a choice of words. -/
theorem placeBit_eq_ite (lo : Nat) (b : Bool) : placeBit lo b = if b then place lo (1 : BitVec 1) else 0 := by
  cases b with
  | true => rfl
  | false => simp [placeBit, place]

/-- An order's code in a reply word. -/
theorem place_orderCode (lo : Nat) (o : Order) : place lo o.code = if o = .priority then place lo (1 : BitVec 1) else 0 := by
  cases o with
  | fifo => simp [place, Order.code]
  | priority => rfl

/-- A policy's code in a reply word. -/
theorem place_overflowCode (lo : Nat) (o : Overflow) :
    place lo o.code = if o = .displace then place lo (1 : BitVec 1) else 0 := by
  cases o with
  | reject => simp [place, Overflow.code]
  | displace => rfl

/-- A number below its field's range is the same number in a word. -/
theorem setWidth_ofNat_of_lt {k n : Nat} (hk : k ≤ 16) (hn : n < 2 ^ k) :
    (BitVec.ofNat k n).setWidth 16 = BitVec.ofNat 16 n := by
  have hn16 : n < 2 ^ 16 := lt_of_lt_of_le hn (Nat.pow_le_pow_right (by decide) hk)
  apply BitVec.eq_of_toNat_eq
  rw [BitVec.toNat_setWidth, BitVec.toNat_ofNat, BitVec.toNat_ofNat, Nat.mod_eq_of_lt hn]

/-! ## A command of the QE -/

section qeCommands
variable {code : Word} {p : Words6} {s : State} {c : Completion} {i : Instr}
  {f : Words6 → Word → QueueEngine → Completion × QeOut}
  (hi : exec i s = running s (takeCommand code (qeCommand f) s)) (ht : Taken code p s)
include hi ht

/-- What a command of the QE leaves and sends. -/
theorem qeCommand_sends {o : QeOut} (hf : f p s.stampNow s.qe = (c, o)) :
    ∃ t, exec i s = .next t ∧ Answered c [.qe] s t ∧ t.qe = o.qe ∧
      t.wires = { s.wires with
        qeToDu := sendAll s.resets.qe s.resets.du o.requests s.wires.qeToDu
        qeToNu := sendAll s.resets.qe s.resets.nu o.signals s.wires.qeToNu } :=
  ⟨_, hi.trans (qeCommand_next ht hf), answered_commitQe s c o, rfl, rfl⟩

/-- A command that sends nothing. -/
theorem qeCommand_silent {qe : QueueEngine} (hf : f p s.stampNow s.qe = (c, { qe := qe })) :
    ∃ t, exec i s = .next t ∧ Answered c [.qe] s t ∧ t.qe = qe ∧ t.wires = s.wires :=
  ⟨_, hi.trans (qeCommand_next ht hf), answered_commitQe s c _, rfl, commitQe_wires_of_silent s qe⟩

/-- A command that sends requests to the DU and no signal. -/
theorem qeCommand_requests {qe : QueueEngine} {l : List LinkRequest}
    (hf : f p s.stampNow s.qe = (c, { qe := qe, requests := l })) :
    ∃ t, exec i s = .next t ∧ Answered c [.qe] s t ∧ t.qe = qe ∧
      t.wires = { s.wires with qeToDu := sendAll s.resets.qe s.resets.du l s.wires.qeToDu } := by
  obtain ⟨t, hexec, hans, hqe, hw⟩ := qeCommand_sends hi ht hf
  refine ⟨t, hexec, hans, hqe, hw.trans ?_⟩
  rw [sendAll_nil]

/-- A command that changes nothing. -/
theorem qeCommand_reports (hf : f p s.stampNow s.qe = (c, { qe := s.qe })) :
    ∃ t, exec i s = .next t ∧ Answered c [] s t ∧ t.wires = s.wires := by
  have hnext := hi.trans (qeCommand_next ht hf)
  rw [commitQe_nothing] at hnext
  exact ⟨_, hnext, answered_self s c, rfl⟩

end qeCommands

/-! ## Posts and notices -/

theorem exec_post_high {sender : PostSender} {p : Post} {rest : List (Sent Post)} {s : State} (hr : s.resetnLow = false)
    (hw : receive s.resets.qe (s.wires.postsOf sender) = some (p, rest)) :
    exec (.post sender) s = .next ((s.withWires (s.wires.setPostsOf sender rest)).commitQe
      (s.qe.takePost p.queue { body := p.body, stamp := s.stampNow }).2) := by
  change running s (s.takePost sender) = _
  rw [running_high hr]
  simp only [State.takePost, hw]

theorem exec_timeoutNotice_high {n : Notice ContextId} {rest : List (Sent (Notice ContextId))} {s : State}
    (hr : s.resetnLow = false) (hw : receive s.resets.qe s.wires.duToQe = some (n, rest)) :
    exec .timeoutNotice s =
      .next ((s.withWires { s.wires with duToQe := rest }).commitQe { qe := s.qe.takeTimeout n s.stampNow }) := by
  change running s s.timeoutNotice = _
  rw [running_high hr]
  simp only [State.timeoutNotice, hw]

theorem sameExcept_commitQe (s : State) (o : QeOut) : sameExcept [.qe] s (s.commitQe o) := by
  simp [sameExcept, State.commitQe]

theorem sameExcept_commitQe_nothing (s : State) : sameExcept [] s (s.commitQe { qe := s.qe }) := by
  simp [sameExcept]

theorem Context.current_eq_true {x : Context} {a : BitVec 8} :
    x.current a = true ↔ x.state = .waiting ∧ x.timeout ≠ none ∧ x.arming = a := by
  simp [Context.current, Option.isSome_iff_ne_none, and_assoc]

theorem QueueEngine.takeTimeout_of_current {qe : QueueEngine} {n : Notice ContextId} {now : Word}
    (h : (qe.context n.who).current n.arming = true) :
    qe.takeTimeout n now = qe.finishWait (qe.context n.who).queue n.who .timeout none now true := if_pos h

theorem QueueEngine.takeTimeout_of_stale {qe : QueueEngine} {n : Notice ContextId} {now : Word}
    (h : ¬ (qe.context n.who).current n.arming = true) : qe.takeTimeout n now = qe := if_neg h

/-! ## The rules of the queue commands -/

section rules
variable {p : Words6} {now : Word} {qe : QueueEngine}

/-- Q_SETUP with its checks passed (R74, R75). -/
theorem qSetup_of_accepted (hr : p[0] &&& unassignedQSetup = 0)
    (hv : bit p[0] 3 = true → setupInRange p[1].toNat p[2].toNat p[3].toNat = true)
    (hm : (qe.queue (queueOf (field p[0] 0 3))).msgs = []) (hw : (qe.queue (queueOf (field p[0] 0 3))).waiters = [])
    (hc : bit p[0] 3 = true → p[2].toNat + qe.unmetOthers (queueOf (field p[0] 0 3)) ≤ qe.free) :
    qSetup p now qe =
      let qe' := qe.setQueue (queueOf (field p[0] 0 3)) ((qe.queue (queueOf (field p[0] 0 3))).configured p)
      (.ok (words (natWord qe'.free) (natWord qe'.unmetTotal)), { qe := qe' }) := by
  have hrange : (bit p[0] 3 && !setupInRange p[1].toNat p[2].toNat p[3].toNat) = false := by
    cases hb : bit p[0] 3 with
    | false => rfl
    | true => rw [hv hb]; rfl
  have hcells :
      (bit p[0] 3 && decide (qe.free < p[2].toNat + qe.unmetOthers (queueOf (field p[0] 0 3)))) = false := by
    cases hb : bit p[0] 3 with
    | false => rfl
    | true => simpa using hc hb
  simp [qSetup, inRange_of_zero hr, hrange, hcells, hm, hw]

/-- Q_SEND to an enabled queue (R76). -/
theorem qSend_of_enabled {data : MessageData} (hr : p[0] &&& unassignedQSend = 0)
    (hd : dataOf (field p[0] 6 2) p[3] p[4] = some data)
    (he : (qe.queue (queueOf (field p[0] 0 3))).enabled = true) :
    qSend p now qe =
      let r := qe.takeEnabled (queueOf (field p[0] 0 3)) { body := sendDraft p data, stamp := now }
      (sendCompletion r.1 (r.2.qe.queue (queueOf (field p[0] 0 3))) now, r.2) := by
  simp only [qSend, inRange_of_zero hr, hd, he, Bool.not_true, Bool.false_eq_true, if_false, if_true]

/-- The reply of a Q_SEND whose message was delivered (R77). -/
theorem sendCompletion_delivered (c : ContextId) (r : QueueRec) (now : Word) :
    sendCompletion (.delivered c) r now =
      .ok (words (1 ||| (BitVec.ofNat 16 c.val <<< 4)) (BitVec.ofNat 16 r.count) now) := by
  rw [← setWidth_ofNat_of_lt (k := 4) (by decide) c.isLt]
  rfl

/-- The reply of a Q_SEND whose message displaced another (R77). -/
theorem sendCompletion_displaced (v : Message) (r : QueueRec) (now : Word) :
    sendCompletion (.displaced v) r now =
      .ok (words 3 (BitVec.ofNat 16 r.count) now
        (v.body.kind.code.setWidth 16 ||| v.body.origin.setWidth 16 <<< 2) (v.body.seq.setWidth 16)) := by
  simp only [sendCompletion, place_zero]
  rfl

theorem qTake_of_cons {m : Message} {rest : List Message} (hr : p[0] &&& unassignedQueue = 0)
    (hm : (qe.queue (queueOf (field p[0] 0 3))).msgs = m :: rest) :
    qTake p now qe =
      (.ok (messageWords m none (queueOf (field p[0] 0 3))),
        { qe := qe.removeHead (queueOf (field p[0] 0 3)) rest }) := by
  simp only [qTake, inRange_of_zero hr, hm, Bool.not_true, Bool.false_eq_true, if_false]

theorem qTake_of_empty (hr : p[0] &&& unassignedQueue = 0) (hm : (qe.queue (queueOf (field p[0] 0 3))).msgs = []) :
    qTake p now qe = (.fail .empty, { qe := qe }) := by
  simp only [qTake, inRange_of_zero hr, hm, Bool.not_true, Bool.false_eq_true, if_false]

theorem qRead_of_inRange (hr : p[0] &&& unassignedQRead = 0) :
    qRead p now qe =
      (.ok (qReadWords qe (queueOf (field p[0] 0 3))),
        { qe := if bit p[0] 8 then
            qe.setQueue (queueOf (field p[0] 0 3)) (qe.queue (queueOf (field p[0] 0 3))).cleared else qe }) := by
  simp only [qRead, inRange_of_zero hr, Bool.not_true, Bool.false_eq_true, if_false]

theorem qPurge_of_inRange (hr : p[0] &&& unassignedQueue = 0) :
    qPurge p now qe =
      let q := queueOf (field p[0] 0 3)
      (.ok (words (natWord (qe.queue q).count) (natWord (qe.queue q).waiters.length)),
        { qe := QueueEngine.purgeWaiters q now (qe.queue q).waiters (qe.discardAll q)
          requests := qe.purgeUnlinks (qe.queue q).waiters }) := by
  simp only [qPurge, inRange_of_zero hr, Bool.not_true, Bool.false_eq_true, if_false]

/-- The words of a Q_READ, field by field (R169). -/
theorem qReadWords_eq (qe : QueueEngine) (q : QueueId) :
    let r := qe.queue q
    qReadWords qe q = words
      ((BitVec.ofNat 3 q.val).setWidth 16 ||| (if r.enabled then (0x0008 : Word) else 0) |||
        (if r.msgOrder = .priority then (0x0010 : Word) else 0) |||
        (if r.waiterOrder = .priority then (0x0020 : Word) else 0) |||
        (if r.policy = .displace then (0x0040 : Word) else 0) ||| (BitVec.ofNat 5 r.waiters.length).setWidth 16 <<< 8)
      ((BitVec.ofNat 8 r.quota).setWidth 16 ||| (BitVec.ofNat 8 r.reserve).setWidth 16 <<< 8)
      ((BitVec.ofNat 8 r.threshold).setWidth 16 ||| (BitVec.ofNat 8 r.count).setWidth 16 <<< 8)
      ((BitVec.ofNat 8 r.peak).setWidth 16)
      ((BitVec.ofNat 8 qe.free).setWidth 16 |||
        (BitVec.ofNat 8 (sumBank QueueRec.unmet qe.queues)).setWidth 16 <<< 8)
      r.drops := by
  simp only [qReadWords, placeNat8, place_zero, placeBit_eq_ite, place_orderCode, place_overflowCode]
  rfl

end rules

/-! ## A purge -/

/-- The UNLINK requests of a purge are those of the timed waiters, in waiter order (R96). -/
theorem QueueEngine.purgeUnlinks_eq (qe : QueueEngine) (l : List ContextId) :
    qe.purgeUnlinks l =
      (l.filter fun c => (qe.context c).timeout.isSome).map fun c => LinkRequest.unlink (.context c) := by
  induction l with
  | nil => rfl
  | cons c rest ih =>
    unfold QueueEngine.purgeUnlinks at ih ⊢
    rw [List.flatMap_cons, ih, Context.unlinkIfTimed_eq, List.filter_cons]
    cases (qe.context c).timeout.isSome with
    | true => rfl
    | false => rfl

theorem QueueEngine.waitOk_discardAll {qe : QueueEngine} (q : QueueId) (h : qe.WaitOk) : (qe.discardAll q).WaitOk :=
  QueueEngine.waitOk_setQueue _ h rfl (.inl rfl)

end Sys2Proof.Machine

/-! ## The statements -/

namespace Sys2Proof.Machine.QueueCommands

/-- Settles O21: what taking a post does, in every fate, with the sender's item gone from its FIFO. -/
theorem postIsTaken : Obligations.PostIsTaken := by
  intro sender p rest s hr hw
  have hreceive : receive s.resets.qe (s.wires.postsOf sender) = some (p, rest) := by
    cases sender with
    | tt => exact hw
    | lu => exact hw
  rw [← State.stampNow_eq]
  refine ⟨_, _, _, _, exec_post_high hr hreceive, s.qe.takePost_postTaken p.queue _, ?_,
    sameExcept_commitQe (s.withWires _) _⟩
  cases sender with
  | tt => rfl
  | lu => rfl

/-- Settles O22: a current notice finishes the wait by its deadline, a stale one changes nothing. -/
theorem timeoutNotice : Obligations.TimeoutNotice := by
  intro n rest s hr hw x
  have hexec := exec_timeoutNotice_high hr hw
  refine ⟨fun hcurrent => ?current, fun hstale => ?stale⟩
  case current =>
    rw [QueueEngine.takeTimeout_of_current (Context.current_eq_true.2 hcurrent)] at hexec
    rw [← State.stampNow_eq]
    exact ⟨_, hexec, s.qe.onlyContext_finishWait _ n.who .timeout none s.stampNow true,
      s.qe.onlyQueue_finishWait _ n.who .timeout none s.stampNow true, rfl, rfl,
      commitQe_wires_of_silent (s.withWires _) _, sameExcept_commitQe (s.withWires _) _⟩
  case stale =>
    rw [QueueEngine.takeTimeout_of_stale fun h => hstale (Context.current_eq_true.1 h)] at hexec
    exact ⟨_, hexec, commitQe_wires_of_silent (s.withWires _) _, sameExcept_commitQe_nothing (s.withWires _)⟩

/-- Settles O24: the checks of R74 pass, and the queue is configured from the parameter words. -/
theorem qSetup : Obligations.QSetup := by
  intro p s ht hr q on hv hm hw hc
  obtain ⟨t, hexec, hans, hqe, hwires⟩ := qeCommand_silent (i := .qSetup) rfl ht
    (qSetup_of_accepted hr (fun hb => setupInRange_eq_true.2 (hv hb)) hm hw hc)
  rw [← hqe] at hans
  refine ⟨t, hexec, hans, ?_, ?_, ?_, ?_, hwires⟩
  · exact hqe ▸ s.qe.onlyQueue_setQueue q _
  · rw [hqe]; rfl
  · rw [hqe]; rfl
  · rw [hqe]; rfl

/-- Settles O25: the message is taken as a post is, and the completion is the one of its fate. -/
theorem qSend : Obligations.QSend := by
  intro p data s ht hr hd q now m he
  obtain ⟨t, hexec, hans, hqe, hwires⟩ := qeCommand_sends (i := .qSend) rfl ht (qSend_of_enabled hr hd he)
  have htaken := QueueEngine.takeEnabled_postTaken m he
  rw [State.stampNow_eq] at hans hqe hwires
  change t.qe = (s.qe.takeEnabled q m).2.qe at hqe
  rw [← hqe] at htaken
  refine ⟨t, _, _, _, hexec, htaken, hwires, ?_⟩
  change Answered (sendCompletion (s.qe.takeEnabled q m).1 ((s.qe.takeEnabled q m).2.qe.queue q) now) [.qe] s t at hans
  rw [← hqe] at hans
  generalize (s.qe.takeEnabled q m).1 = fate at hans ⊢
  cases fate with
  | delivered c => rwa [sendCompletion_delivered] at hans
  | displaced v => rwa [sendCompletion_displaced] at hans
  | disabled | stored | dropped => exact hans

/-- Settles O26: the head message, none, and the words of a read with the statistics cleared where asked. -/
theorem qTakeAndQRead : Obligations.QTakeAndQRead := by
  intro p s q r
  refine ⟨fun m rest ht hr hm => ?message, fun ht hr hm => ?empty, fun ht hr => ?read⟩
  case message =>
    obtain ⟨t, hexec, hans, hqe, hwires⟩ := qeCommand_silent (i := .qTake) rfl ht (qTake_of_cons hr hm)
    exact ⟨t, hexec, hans, hqe ▸ s.qe.onlyQueue_removeHead q rest, hqe ▸ rfl, hqe ▸ rfl, hqe ▸ rfl, hwires⟩
  case empty =>
    exact fails_of (i := .qTake) rfl ht (qeCommand_fails (qTake_of_empty hr hm))
  case read =>
    obtain ⟨t, hexec, hans, hqe, hwires⟩ := qeCommand_silent (i := .qRead) rfl ht (qRead_of_inRange hr)
    rw [qReadWords_eq] at hans
    refine ⟨t, hexec, hans, ?_⟩
    change t.qe = if p[0].getLsbD 8 then s.qe.setQueue q r.cleared else s.qe at hqe
    by_cases hb : p[0].getLsbD 8 = true
    · rw [if_pos hb] at hqe ⊢
      exact ⟨hqe ▸ s.qe.onlyQueue_setQueue q _, hqe ▸ rfl, hqe ▸ rfl, hqe ▸ rfl, hwires⟩
    · rw [if_neg hb] at hqe ⊢
      exact ⟨hqe.symm ▸ ⟨rfl, fun _ _ => rfl⟩, hqe ▸ rfl, hqe ▸ rfl, hqe ▸ rfl, hwires⟩

/-- Settles O28: the waiters complete one after the other on the queue whose messages are gone. -/
theorem qPurge : Obligations.QPurge := by
  intro p s ht hr hok q r
  obtain ⟨t, hexec, hans, hqe, hwires⟩ := qeCommand_requests (i := .qPurge) rfl ht (qPurge_of_inRange hr)
  obtain ⟨hq, hqOthers⟩ := s.qe.onlyQueue_discardAll q
  have hwaiters : ((s.qe.discardAll q).queue q).waiters = r.waiters := by rw [hq]
  obtain ⟨_, ⟨hq', hqOthers'⟩, hin, hout, hlog, hfree⟩ := QueueEngine.purgeWaiters_spec q s.stampNow r.waiters
    (s.qe.discardAll q) (QueueEngine.waitOk_discardAll q hok) hwaiters
  change t.qe = QueueEngine.purgeWaiters q s.stampNow r.waiters (s.qe.discardAll q) at hqe
  rw [← hqe] at hq' hqOthers' hin hout hlog hfree
  rw [QueueEngine.purgeUnlinks_eq] at hwires
  rw [← State.stampNow_eq]
  refine ⟨t, hexec, hans, ⟨hq'.trans ?_, fun j hj => (hqOthers' j hj).trans (hqOthers j hj)⟩, hfree, hin, hout, hlog,
    hwires⟩
  rw [hq]

end Sys2Proof.Machine.QueueCommands
end

section
/-! The contexts and the completion log (R87 to R105), the commands that read (R29, R30, R51, R105), and the layout of the
words (R162, R167). First the fields of a word and what each rule answers, then the statements. -/

namespace Sys2Proof.Machine

/-! ## Fields of a word -/

/-- A field of a word is the value placed there. -/
theorem extract_place_self {n : Nat} {lo : Nat} (b : BitVec n) (h : lo + n ≤ 16) :
    (place lo b).extractLsb' lo n = b := by
  ext k hk
  simp only [BitVec.getElem_extractLsb', place_getLsbD]
  simp [show lo + k < 16 by omega, BitVec.getLsbD_eq_getElem hk]

/-- A value placed elsewhere does not show in a field. -/
theorem extract_place_apart {n m lo k : Nat} (b : BitVec n) (h : lo + n ≤ k ∨ k + m ≤ lo) :
    (place lo b).extractLsb' k m = 0 := by
  ext i hi
  simp only [BitVec.getElem_extractLsb', place_getLsbD]
  rcases h with h | h
  · rw [BitVec.getLsbD_of_ge b _ (by omega), Bool.and_false]
    simp
  · simp [show ¬ lo ≤ k + i by omega]

/-- The word of a LOGPOP read, field by field (R162). -/
theorem logWord_fields (e : LogEntry) (n : Nat) :
    (logWord e n).extractLsb' 0 2 = e.outcome.code ∧ (logWord e n).extractLsb' 2 2 = 0 ∧
    (logWord e n).extractLsb' 4 4 = BitVec.ofNat 4 e.context.val ∧
    (logWord e n).extractLsb' 8 3 = BitVec.ofNat 3 e.queue.val ∧ (logWord e n).extractLsb' 11 1 = 0 ∧
    (logWord e n).extractLsb' 12 4 = BitVec.ofNat 4 n := by
  simp [logWord, queueBits, BitVec.extractLsb'_or, extract_place_self, extract_place_apart]

/-- The first word of a message, field by field (R167). -/
theorem messageWords_head (m : Message) (o : Option WaitOutcome) (q : QueueId) :
    (messageWords m o q)[0].extractLsb' 0 2 = m.body.kind.code ∧
    (messageWords m o q)[0].extractLsb' 2 6 = m.body.origin ∧
    (messageWords m o q)[0].extractLsb' 8 2 = m.body.priority ∧
    (messageWords m o q)[0].extractLsb' 10 2 = m.body.data.count ∧
    (messageWords m o q)[0].extractLsb' 12 2 = outcomeCode o ∧ (messageWords m o q)[0].extractLsb' 14 2 = 0 := by
  simp [messageWords, words, BitVec.extractLsb'_or, extract_place_self, extract_place_apart]

/-- The third word of a message, field by field (R167). -/
theorem messageWords_third (m : Message) (o : Option WaitOutcome) (q : QueueId) :
    (messageWords m o q)[2].extractLsb' 0 8 = m.body.seq ∧
    (messageWords m o q)[2].extractLsb' 8 3 = BitVec.ofNat 3 q.val ∧
    (messageWords m o q)[2].extractLsb' 11 5 = 0 := by
  simp [messageWords, words, queueBits, BitVec.extractLsb'_or, extract_place_self, extract_place_apart]

/-! ## The log -/

theorem State.logpop_of_empty {s : State} (h : s.qe.log = []) : s.logpop = s.withBus (.read 0) := by
  have htail : s.qe.log.tail = s.qe.log := by rw [h]; rfl
  have hword : s.qe.logpopWord = 0 := by simp only [QueueEngine.logpopWord, h]
  rw [State.logpop, htail, hword]
  rfl

theorem State.logpop_of_cons {s : State} {e : LogEntry} {rest : List LogEntry} (h : s.qe.log = e :: rest) :
    s.logpop = { s with bus := .read (logWord e rest.length), qe := { s.qe with log := rest } } := by
  simp only [State.logpop, QueueEngine.logpopWord, h]
  rfl

theorem exec_logpopRead_high {s : State} (h : s.resetnLow = false) :
    exec .logpopRead s = .next s.qeUpToDate.logpop := by
  change Host.Outcome.next s.logpopRead = _
  rw [State.logpopRead, h]
  rfl

theorem QueueEngine.inLog_eq_true {qe : QueueEngine} {c : ContextId} :
    qe.inLog c = true ↔ ∃ e ∈ qe.log, e.context = c := by
  simp [QueueEngine.inLog]

/-! ## The rules of the context commands -/

section rules
variable {p : Words6} {now : Word} {qe : QueueEngine}

/-- CTX_WAIT by an IDLE context on an enabled queue that holds a message (R88). -/
theorem ctxWait_of_message {mode : WaitMode} {m : Message} {rest : List Message}
    (hr : p[0] &&& unassignedCtxWait = 0) (hm : waitModeOf (field p[0] 8 2) p[1] = some mode)
    (hs : (qe.context (contextOf (field p[0] 0 4))).state = .idle)
    (he : (qe.queue (queueOf (field p[0] 4 3))).enabled = true)
    (hq : (qe.queue (queueOf (field p[0] 4 3))).msgs = m :: rest) :
    ctxWait p now qe =
      (.ok (messageWords m (some .message) (queueOf (field p[0] 4 3))),
        { qe := qe.removeHead (queueOf (field p[0] 4 3)) rest }) := by
  simp [ctxWait, inRange_of_zero hr, hm, hs, he, hq]

/-- The wait that a timeout mode gives on an empty queue: without a deadline, or with one of p[1] ticks (R90). -/
theorem ctxWait_of_empty (hr : p[0] &&& unassignedCtxWait = 0)
    (hm : field p[0] 8 2 = 0 ∨ (field p[0] 8 2 = 2 ∧ p[1] ≠ 0))
    (hs : (qe.context (contextOf (field p[0] 0 4))).state = .idle)
    (he : (qe.queue (queueOf (field p[0] 4 3))).enabled = true)
    (hq : (qe.queue (queueOf (field p[0] 4 3))).msgs = []) :
    ctxWait p now qe = waitOnEmpty qe (contextOf (field p[0] 0 4)) (queueOf (field p[0] 4 3))
      (if field p[0] 8 2 = 2 then some p[1] else none) := by
  rcases hm with hm | ⟨hm, hticks⟩
  · have hmode : waitModeOf (field p[0] 8 2) p[1] = some .untimed := by rw [hm]; rfl
    rw [if_neg (by rw [hm]; decide)]
    simp [ctxWait, inRange_of_zero hr, hmode, hs, he, hq]
  · have hmode : waitModeOf (field p[0] 8 2) p[1] = some (.timed p[1]) := by
      rw [hm]; exact if_neg hticks
    rw [if_pos hm]
    simp [ctxWait, inRange_of_zero hr, hmode, hs, he, hq]

/-- What beginning a wait answers and requests (R90). -/
theorem waitOnEmpty_eq (qe : QueueEngine) (c : ContextId) (q : QueueId) (t : Option Word) :
    let arming := if t.isSome then (qe.context c).arming + 1 else (qe.context c).arming
    waitOnEmpty qe c q t =
      (.ok (words 0 0 ((BitVec.ofNat 3 q.val).setWidth 16 <<< 8) (arming.setWidth 16)),
        { qe := qe.beginWait c q t, requests := waitLink c t arming }) := by
  simp only [waitOnEmpty, (qe.onlyContext_beginWait c q t).1, waitingWords, place_zero]
  rfl

theorem ctxAbandon_of_idle (hr : p[0] &&& unassignedContext = 0)
    (hs : (qe.context (contextOf (field p[0] 0 4))).state = .idle) :
    ctxAbandon p now qe =
      (.ok (abandonWords .idle none (qe.context (contextOf (field p[0] 0 4))).queue
        (qe.context (contextOf (field p[0] 0 4))).arming), { qe := qe }) := by
  simp [ctxAbandon, inRange_of_zero hr, hs]

theorem ctxAbandon_of_waiting (hr : p[0] &&& unassignedContext = 0)
    (hs : (qe.context (contextOf (field p[0] 0 4))).state = .waiting) :
    let c := contextOf (field p[0] 0 4)
    let x := qe.context c
    ctxAbandon p now qe =
      (.ok (abandonWords .waiting none x.queue (x.arming + 1)),
        { qe := (qe.dropWaiter x.queue c).setContext c { x with state := .idle, arming := x.arming + 1 }
          requests := x.unlinkIfTimed c }) := by
  simp [ctxAbandon, inRange_of_zero hr, hs]

theorem ctxAbandon_of_complete (hr : p[0] &&& unassignedContext = 0)
    (hs : (qe.context (contextOf (field p[0] 0 4))).state = .complete) :
    let c := contextOf (field p[0] 0 4)
    let x := qe.context c
    ctxAbandon p now qe =
      (.ok (abandonWords .complete x.outcome x.queue x.arming), { qe := (qe.unlog c).setContext c x.toIdle }) := by
  simp [ctxAbandon, inRange_of_zero hr, hs]

theorem ctxCollect_of_complete (hr : p[0] &&& unassignedContext = 0)
    (hs : (qe.context (contextOf (field p[0] 0 4))).state = .complete) :
    let c := contextOf (field p[0] 0 4)
    ctxCollect p now qe =
      (.ok (collectWords (qe.context c)), { qe := (qe.unlog c).setContext c (qe.context c).toIdle }) := by
  simp [ctxCollect, inRange_of_zero hr, hs]

end rules

/-! ## The replies of CTX_ABANDON and CTX_COLLECT -/

section replies
variable (q : QueueId) (arming : BitVec 8)

theorem abandonWords_idle :
    abandonWords .idle none q arming =
      words ((BitVec.ofNat 3 q.val).setWidth 16 <<< 8) (arming.setWidth 16) := by
  simp [abandonWords, ContextState.code, outcomeCode, place, queueBits]

theorem abandonWords_waiting :
    abandonWords .waiting none q arming =
      words (1 ||| (BitVec.ofNat 3 q.val).setWidth 16 <<< 8) (arming.setWidth 16) := by
  simp [abandonWords, ContextState.code, outcomeCode, place, queueBits]

theorem abandonWords_complete (o : Option WaitOutcome) :
    abandonWords .complete o q arming =
      words (2 ||| (outcomeCode o).setWidth 16 <<< 4 ||| (BitVec.ofNat 3 q.val).setWidth 16 <<< 8)
        (arming.setWidth 16) := by
  simp [abandonWords, ContextState.code, place, queueBits]

theorem collectWords_of_none {x : Context} (h : x.slot = none) :
    collectWords x = words ((outcomeCode x.outcome).setWidth 16 <<< 12) 0
      ((BitVec.ofNat 3 x.queue.val).setWidth 16 <<< 8) 0 0 x.stamp := by
  simp only [collectWords, h]
  rfl

theorem collectWords_of_some {x : Context} {m : Message} (h : x.slot = some m) :
    collectWords x = messageWords m x.outcome x.queue := by
  simp only [collectWords, h]

end replies

/-! ## The commands that read -/

/-- A command that reports on the state and leaves it. -/
theorem reads_next {i : Instr} {code : Word} {p : Words6} {s : State} {c : Completion}
    {f : Words6 → State → Completion × State} (hi : exec i s = running s (takeCommand code f s)) (ht : Taken code p s)
    (hf : f p s = (c, s)) : ∃ t, exec i s = .next t ∧ t.wires = s.wires ∧ Answered c [] s t :=
  ⟨_, hi.trans (command_next ht hf rfl), rfl, answered_self s c⟩

theorem tmrRead_of_timer {p : Words6} {i : TimerId} (s : State) (h : p[0].toNat = i.val) :
    tmrRead p s = (.ok (tmrReadWords (s.tt.timer i) (s.du.linkStatus (.timer i))), s) := by
  simp only [tmrRead, timerOf_eq_some h]

theorem ctxRead_of_inRange {p : Words6} (s : State) (h : p[0] &&& unassignedContext = 0) :
    ctxRead p s =
      (.ok (ctxReadWords (s.qe.context (contextOf (field p[0] 0 4))) (s.qe.inLog (contextOf (field p[0] 0 4)))
        (s.du.linkStatus (.context (contextOf (field p[0] 0 4))))), s) := by
  simp only [ctxRead, inRange_of_zero h, Bool.not_true, Bool.false_eq_true, if_false]

/-- The words of a CTX_READ, field by field (R169). -/
theorem ctxReadWords_eq (x : Context) (inLog : Bool) (link : LinkStatus × Word) :
    ctxReadWords x inLog link = words
      (x.state.code.setWidth 16 ||| x.priority.setWidth 16 <<< 4 ||| (BitVec.ofNat 3 x.queue.val).setWidth 16 <<< 8 |||
        (if x.timeout.isSome then (0x0800 : Word) else 0) ||| (if inLog then (0x1000 : Word) else 0) |||
        (outcomeCode x.outcome).setWidth 16 <<< 13)
      (x.timeout.getD 0) (x.arming.setWidth 16 ||| link.1.code.setWidth 16 <<< 8) link.2 := by
  simp only [ctxReadWords, placeBit_eq_ite, place_zero]
  rfl

/-- The words of a TB_READ, field by field (R168). -/
theorem tbReadWords_eq (tb : TimeBase) (du : DeadlineUnit) :
    tbReadWords tb du = words tb.divisor
      ((if tb.running then (1 : Word) else 0) ||| (if du.isWalking then (2 : Word) else 0) |||
        (BitVec.ofNat 3 du.backlog).setWidth 16 <<< 4 ||| (BitVec.ofNat 7 du.list.length).setWidth 16 <<< 8)
      (du.slip.setWidth 16) := by
  simp only [tbReadWords, placeBit_eq_ite, place_zero]
  rfl

end Sys2Proof.Machine

/-! ## The statements -/

namespace Sys2Proof.Machine.ContextsAndReads

/-- Settles O19: each rule's words are those of the fields, and a read leaves the state. -/
theorem readsOfTimersContextsAndTime : Obligations.ReadsOfTimersContextsAndTime := by
  refine ⟨fun p i s ht hi => ?tmr, fun p s ht hr => ?ctx, fun p s ht => ?tb⟩
  case tmr =>
    have hread := reads_next (i := .tmrRead) rfl ht (tmrRead_of_timer s hi)
    simp only [tmrReadWords, place_zero] at hread
    exact hread
  case ctx =>
    have hread := reads_next (i := .ctxRead) rfl ht (ctxRead_of_inRange s hr)
    simp only [ctxReadWords_eq, QueueEngine.inLog_eq_true] at hread
    exact hread
  case tb =>
    have hread := reads_next (i := .tbRead) (f := tbRead) rfl ht rfl
    rw [tbReadWords_eq] at hread
    exact hread

/-- Settles O23: the log of the QE as it stands, or of the QE with the warm resets taken that were sent before. -/
theorem logpopRead : Obligations.LogpopRead := by
  refine ⟨fun s hlow => exec_logpopRead_low hlow, fun s hr => ⟨fun hup hlog => ?empty, fun e rest hup hlog => ?entry,
    fun hwarm => ?warm⟩⟩
  case empty =>
    rw [exec_logpopRead_high hr, State.qeUpToDate_eq hup, State.logpop_of_empty hlog]
    rfl
  case entry =>
    obtain ⟨houtcome, hgap, hcontext, hqueue, hbit, hremaining⟩ := logWord_fields e rest.length
    refine ⟨logWord e rest.length, ?_, houtcome.trans ?_, hgap, hcontext, hqueue, hbit, hremaining⟩
    · rw [exec_logpopRead_high hr, State.qeUpToDate_eq hup, State.logpop_of_cons hlog]
    · cases e.outcome with
      | message | timeout | purged => rfl
  case warm =>
    have hqe : s.qeUpToDate = s.warmQe s.resets.cp := if_pos hwarm
    rw [exec_logpopRead_high hr, hqe, State.logpop_of_empty (s := s.warmQe s.resets.cp) rfl]
    rfl

/-- Settles O27: the codes by evaluation, the words field by field. -/
theorem messageLayout : Obligations.MessageLayout := by
  refine ⟨rfl, rfl, rfl, rfl, rfl, rfl, rfl, rfl, rfl, rfl, rfl, fun _ _ => rfl, fun _ => rfl, fun m o q => ?_⟩
  obtain ⟨hkind, horigin, hpriority, hcount, houtcome, hgap⟩ := messageWords_head m o q
  obtain ⟨hseq, hqueue, hrest⟩ := messageWords_third m o q
  refine ⟨hkind.trans ?_, horigin, hpriority, hcount.trans ?_, houtcome.trans ?_, hgap, rfl, hseq, hqueue, hrest, ?_, ?_,
    rfl⟩
  · cases m.body.kind with
    | timer | line | sent => rfl
  · cases m.body.data with
    | none | one | two => rfl
  · cases o with
    | none => rfl
    | some o => cases o with
      | message | timeout | purged => rfl
  · change m.body.data.data0 = _
    cases m.body.data with
    | none | one | two => rfl
  · change m.body.data.data1 = _
    cases m.body.data with
    | none | one | two => rfl

/-- Settles O30: the head message at once, whatever the timeout mode. -/
theorem ctxWaitImmediate : Obligations.CtxWaitImmediate := by
  intro p mode m rest s ht hr hmode c q hs he hm
  obtain ⟨t, hexec, hans, hqe, hwires⟩ :=
    qeCommand_silent (i := .ctxWait) rfl ht (ctxWait_of_message hr hmode hs he hm)
  exact ⟨t, hexec, hans, hqe ▸ s.qe.onlyQueue_removeHead q rest, hqe ▸ rfl, hqe ▸ rfl, hqe ▸ rfl, hwires⟩

/-- Settles O32: the wait begins, with its deadline linked when the mode is timed. -/
theorem ctxWaitDeferred : Obligations.CtxWaitDeferred := by
  intro p s ht hr hmode c q x r timed arming hs he hm
  obtain ⟨t, hexec, hans, hqe, hwires⟩ := qeCommand_requests (i := .ctxWait) rfl ht
    ((ctxWait_of_empty hr hmode hs he hm).trans (waitOnEmpty_eq s.qe c q _))
  have hcontext := s.qe.onlyContext_beginWait c q (if timed then some p[1] else none)
  have hqueue := s.qe.onlyQueue_beginWait c q (if timed then some p[1] else none)
  have harming : (if (if timed then some p[1] else none).isSome then x.arming + 1 else x.arming) = arming := by
    by_cases h : timed
    · simp only [arming, if_pos h, Option.isSome_some, if_true]
    · simp only [arming, if_neg h, Option.isSome_none, Bool.false_eq_true, if_false]
  have hlink : waitLink c (if timed then some p[1] else none) arming =
      if timed then [.link (.context c) p[1] 0 (x.arming + 1)] else [] := by
    by_cases h : timed
    · simp only [arming, if_pos h, waitLink]
    · simp only [if_neg h, waitLink]
  rw [harming] at hans hwires hcontext
  rw [hlink] at hwires
  refine ⟨t, hexec, hans, hqe ▸ hcontext, ⟨_, hqe ▸ hqueue, fun ho => ?fifo, fun ho => ?priority⟩, hqe ▸ rfl, hqe ▸ rfl,
    hwires⟩
  case fifo =>
    rw [show (s.qe.queue q).waiterOrder = .fifo from ho]
    rfl
  case priority =>
    rw [show (s.qe.queue q).waiterOrder = .priority from ho]
    exact insertRanked_split s.qe.waiterRank c r.waiters

/-- Settles O33: nothing for an IDLE context, the wait ended for a WAITING one, the outcome discarded for a COMPLETE
one. -/
theorem ctxAbandon : Obligations.CtxAbandon := by
  intro p s ht hr c x queue
  refine ⟨fun hs => ?idle, fun hs => ?waiting, fun hs => ?complete⟩
  case idle =>
    have hreport := qeCommand_reports (i := .ctxAbandon) rfl ht (ctxAbandon_of_idle hr hs)
    rwa [abandonWords_idle] at hreport
  case waiting =>
    obtain ⟨t, hexec, hans, hqe, hwires⟩ := qeCommand_requests (i := .ctxAbandon) rfl ht (ctxAbandon_of_waiting hr hs)
    rw [abandonWords_waiting] at hans
    rw [Context.unlinkIfTimed_eq] at hwires
    exact ⟨t, hexec, hans, hqe ▸ QueueEngine.onlyContext_setContext (s.qe.dropWaiter x.queue c) c _,
      hqe ▸ s.qe.onlyQueue_setQueue x.queue _, hqe ▸ rfl, hqe ▸ rfl, hwires⟩
  case complete =>
    obtain ⟨t, hexec, hans, hqe, hwires⟩ := qeCommand_silent (i := .ctxAbandon) rfl ht (ctxAbandon_of_complete hr hs)
    rw [abandonWords_complete] at hans
    exact ⟨t, hexec, hans, hqe ▸ QueueEngine.onlyContext_setContext (s.qe.unlog c) c _, hqe ▸ rfl, hqe ▸ rfl, hqe ▸ rfl,
      hwires⟩

/-- Settles O34: the message with its outcome, or the outcome with its completion stamp. -/
theorem ctxCollect : Obligations.CtxCollect := by
  intro p s ht hr c x hs
  obtain ⟨t, hexec, hans, hqe, hwires⟩ := qeCommand_silent (i := .ctxCollect) rfl ht (ctxCollect_of_complete hr hs)
  refine ⟨t, hexec, ?_, hqe ▸ QueueEngine.onlyContext_setContext (s.qe.unlog c) c _, hqe ▸ rfl, hqe ▸ rfl, hqe ▸ rfl,
    hwires⟩
  cases hslot : x.slot with
  | none => rwa [collectWords_of_none hslot] at hans
  | some m => rwa [collectWords_of_some hslot] at hans

end Sys2Proof.Machine.ContextsAndReads
end

section
/-! The Line Unit: edges and rounds (R109 to R116, R125), output actions and ticks (R117, R119), and the line commands (R121
to R124). First what a sample, an action and each rule do, then the statements. -/

namespace Sys2Proof.Machine

/-! ## Levels -/

theorem levelBit_eq_decide (l : Level) : levelBit l = decide (l = .high) := by
  cases l with
  | low | high => rfl

theorem flipLevel_eq_ite (l : Level) : flipLevel l = if l = .low then .high else .low := by
  cases l with
  | low | high => rfl

/-- A level in a reply word. -/
theorem placeBit_levelBit (lo : Nat) (l : Level) :
    placeBit lo (levelBit l) = if l = .high then place lo (1 : BitVec 1) else 0 := by
  rw [placeBit_eq_ite, levelBit_eq_decide]
  simp only [decide_eq_true_eq]

/-- An edge qualifies by the selection and the level it leads to (R110). -/
theorem EdgeSel.admits_eq_true {e : EdgeSel} {l : Level} :
    e.admits l = true ↔ e = .both ∨ (e = .rise ∧ l = .high) ∨ (e = .fall ∧ l = .low) := by
  cases l with
  | low => cases e with
    | rise | fall | both => decide
  | high => cases e with
    | rise | fall | both => decide

/-- The word of the input levels, wherever the levels are the same (R111). -/
theorem inputLevels_word {a b : LineUnit} (h : ∀ j, (b.input j).level = (a.input j).level) :
    (∀ j : LineId, (a.inputLevels.setWidth 16).getLsbD j.val = decide ((b.input j).level = .high)) ∧
      ∀ k, 8 ≤ k → (a.inputLevels.setWidth 16).getLsbD k = false := by
  refine ⟨fun j => ?_, fun k hk => ?_⟩
  · have hj : j.val < 16 := Nat.lt_trans j.isLt (by decide)
    rw [BitVec.getLsbD_setWidth, a.inputLevels_getLsbD, levelBit_eq_decide, h j, decide_eq_true hj, Bool.true_and]
  · rw [BitVec.getLsbD_setWidth, BitVec.getLsbD_of_ge _ _ hk, Bool.and_false]

/-! ## A sample of an input -/

section samples
variable {lu : LineUnit} {n : LineId} {l : Level}

theorem LineUnit.setInput_setInput (lu : LineUnit) (n : LineId) (x y : Input) :
    (lu.setInput n x).setInput n y = lu.setInput n y := by
  simp [LineUnit.setInput]

theorem LineUnit.setInputLevel_of_sampled (h : (lu.input n).firstSampleDue = false) :
    lu.setInputLevel n l = lu.setInput n { lu.input n with level := l } := by
  rw [LineUnit.setInputLevel, ← h]

theorem LineUnit.sample_of_first (h : (lu.input n).firstSampleDue = true) :
    lu.sample n l = { lu := lu.setInput n { lu.input n with level := l, firstSampleDue := false } } := by
  rw [LineUnit.sample, if_pos h]
  rfl

theorem LineUnit.sample_of_same (h : (lu.input n).firstSampleDue = false) (hl : (lu.input n).level = l) :
    lu.sample n l = { lu := lu } := by
  rw [LineUnit.sample, if_neg (Bool.eq_false_iff.1 h), if_pos hl]

variable (h : (lu.input n).firstSampleDue = false) (hl : (lu.input n).level ≠ l)
include h hl

/-- An edge that does not qualify sets the level (R109, R110). -/
theorem LineUnit.sample_of_unqualified (hq : ¬ (lu.input n).edge.admits l = true) :
    lu.sample n l = { lu := lu.setInput n { lu.input n with level := l } } := by
  rw [LineUnit.sample, if_neg (Bool.eq_false_iff.1 h), if_neg hl, if_neg hq, LineUnit.setInputLevel_of_sampled h]

/-- An edge that qualifies sets the level and has its mode's effects (R112 to R116). -/
theorem LineUnit.sample_of_qualified {y : Input} (hy : y = { lu.input n with level := l })
    (hq : (lu.input n).edge.admits l = true) :
    lu.sample n l =
      { lu := lu.setInput n y.counted
        posts := y.edgePosts (lu.setInput n y) n
        retriggers := y.edgeRetriggers } := by
  rw [LineUnit.sample, if_neg (Bool.eq_false_iff.1 h), if_neg hl, if_pos hq, LineUnit.setInputLevel_of_sampled h, ← hy]
  simp only [LineUnit.qualifies, LineUnit.input_setInput_self, LineUnit.setInput_setInput]

theorem LineUnit.roundAt_of_qualified (hq : (lu.input n).edge.admits l = true)
    (hc : (lu.input n).completes = true) : lu.roundAt n l = true := by
  simp [LineUnit.roundAt, h, hl, hq, hc]

end samples

section counting
variable {x : Input} {lu : LineUnit} {n : LineId}

theorem Input.completes_eq_true : x.completes = true ↔ x.mode = .count ∧ x.edgeCount + 1 = x.compare := by
  simp [Input.completes]

theorem Input.counted_of_off (h : x.mode = .off) : x.counted = x := by simp only [Input.counted, h]

theorem Input.counted_of_post (h : x.mode = .post) : x.counted = { x with edgeCount := x.edgeCount + 1 } := by
  simp only [Input.counted, h]

theorem Input.counted_of_retrigger (h : x.mode = .retrigger) :
    x.counted = { x with edgeCount := x.edgeCount + 1 } := by
  simp only [Input.counted, h]

theorem Input.counted_of_below (h : x.mode = .count) (hc : x.edgeCount + 1 ≠ x.compare) :
    x.counted = { x with edgeCount := x.edgeCount + 1 } := by
  have hno : ¬ x.completes = true := fun hyes => hc (Input.completes_eq_true.1 hyes).2
  simp only [Input.counted, h, if_neg hno]

theorem Input.counted_of_round (h : x.mode = .count) (hc : x.edgeCount + 1 = x.compare) :
    x.counted = { x with edgeCount := 0, rounds := x.rounds + 1 } := by
  simp only [Input.counted, h, if_pos (Input.completes_eq_true.2 ⟨h, hc⟩)]

theorem Input.edgePosts_of_silent (h : x.mode = .off ∨ x.mode = .retrigger) : x.edgePosts lu n = [] := by
  rcases h with h | h
  · simp only [Input.edgePosts, h]
  · simp only [Input.edgePosts, h]

theorem Input.edgeRetriggers_of_retrigger (h : x.mode = .retrigger) : x.edgeRetriggers = [x.timer] := by
  simp only [Input.edgeRetriggers, h]

theorem Input.edgeRetriggers_of_other (h : x.mode ≠ .retrigger) : x.edgeRetriggers = [] := by
  unfold Input.edgeRetriggers
  cases hm : x.mode with
  | retrigger => exact absurd hm h
  | off | post | count => rfl

theorem Input.edgePosts_of_post (h : x.mode = .post) :
    x.edgePosts lu n = [{ queue := x.queue, body := lineDraft lu x n ((x.edgeCount + 1).extractLsb' 0 8) }] := by
  simp only [Input.edgePosts, h, setWidth_eq_low]

theorem Input.edgePosts_of_below (h : x.mode = .count) (hc : x.edgeCount + 1 ≠ x.compare) :
    x.edgePosts lu n = [] := by
  have hno : ¬ x.completes = true := fun hyes => hc (Input.completes_eq_true.1 hyes).2
  simp only [Input.edgePosts, h, if_neg hno]

theorem Input.edgePosts_of_round (h : x.mode = .count) (hc : x.edgeCount + 1 = x.compare) :
    x.edgePosts lu n = [{ queue := x.queue, body := lineDraft lu x n (x.rounds + 1) }] := by
  simp only [Input.edgePosts, h, if_pos (Input.completes_eq_true.2 ⟨h, hc⟩)]

end counting

/-! ## The events of the LU -/

theorem sameExcept_commitLu (s : State) (o : LuOut) : sameExcept [.lu] s (s.commitLu o) := by
  simp [sameExcept, State.commitLu]

theorem sameExcept_withLu (s : State) (lu : LineUnit) : sameExcept [.lu] s (s.withLu lu) := by
  simp [sameExcept]

theorem commitLu_nothing (s : State) : s.commitLu { lu := s.lu } = s := by
  simp only [State.commitLu, sendAll_nil]
  rfl

section events
variable {n : LineId} {l : Level} {s : State}

theorem exec_edge_high (hr : s.resetnLow = false) : exec (.edge n l) s = .next (s.commitLu (s.lu.sample n l)) :=
  running_high hr

theorem exec_round_high (hr : s.resetnLow = false) (h : s.lu.roundAt n l = true) :
    exec (.round n l) s = .next (s.commitLu (s.lu.sample n l)) := by
  change running s _ = _
  rw [running_high hr, if_pos h]

/-- A sample after which the LU sends nothing. -/
theorem edge_quiet {y : Input} (hr : s.resetnLow = false) (h : s.lu.sample n l = { lu := s.lu.setInput n y }) :
    ∃ t, exec (.edge n l) s = .next t ∧ s.lu.OnlyInput n y t.lu ∧ t.wires = s.wires ∧ sameExcept [.lu] s t := by
  refine ⟨_, exec_edge_high hr, ?_, ?_, sameExcept_commitLu s _⟩
  · rw [h]
    exact s.lu.onlyInput_setInput n y
  · rw [h]
    simp only [State.commitLu, State.withWires_wires, sendAll_nil]

/-- A sample after which the LU sends one post, with the levels of the inputs in its data word. -/
theorem sample_posts {i : Instr} {x y : Input} {draft : Word → Post} {a : LineUnit}
    (hi : exec i s = .next (s.commitLu (s.lu.sample n l)))
    (h : s.lu.sample n l = { lu := s.lu.setInput n y, posts := [draft (a.inputLevels.setWidth 16)] })
    (ha : a = s.lu.setInput n x) (hlevel : y.level = x.level) :
    ∃ t, exec i s = .next t ∧ s.lu.OnlyInput n y t.lu ∧
      (∃ w : Word, ((∀ j : LineId, w.getLsbD j.val = decide ((t.lu.input j).level = .high)) ∧
          ∀ k, 8 ≤ k → w.getLsbD k = false) ∧
        t.wires = { s.wires with luToQe := send s.resets.lu s.resets.qe (draft w) s.wires.luToQe }) ∧
      sameExcept [.lu] s t := by
  rw [h] at hi
  refine ⟨_, hi, s.lu.onlyInput_setInput n y, ⟨_, inputLevels_word (a := a) fun j => ?_, ?_⟩, sameExcept_commitLu s _⟩
  · rw [ha]
    change ((s.lu.setInput n y).input j).level = _
    rw [LineUnit.input_setInput, LineUnit.input_setInput]
    by_cases hj : n = j
    · rw [if_pos hj, if_pos hj, hlevel]
    · rw [if_neg hj, if_neg hj]
  · simp only [State.commitLu, State.withWires_wires, sendAll_nil, sendAll_singleton]

end events

theorem exec_outputAction_high {a : OutputAction} {rest : List (Sent OutputAction)} {s : State}
    (hr : s.resetnLow = false) (hw : receive s.resets.lu s.wires.ttToLu = some (a, rest)) :
    exec .outputAction s = .next ((s.withWires { s.wires with ttToLu := rest }).withLu (s.lu.act a)) := by
  change running s s.outputAction = _
  rw [running_high hr]
  simp only [State.outputAction, hw]

theorem exec_luTick_high {rest : List (Sent Unit)} {s : State} (hr : s.resetnLow = false)
    (hw : receive s.resets.lu s.wires.tbToLu = some ((), rest)) :
    exec .luTick s = .next ((s.withWires { s.wires with tbToLu := rest }).withLu s.lu.tick) := by
  change running s s.luTick = _
  rw [running_high hr]
  simp only [State.luTick, hw]

/-! ## The line commands -/

section luCommands
variable {code : Word} {p : Words6} {s : State} {c : Completion} {i : Instr} {f : Words6 → LineUnit → Completion × LineUnit}
  (hi : exec i s = running s (takeCommand code (luCommand f) s)) (ht : Taken code p s)
include hi ht

theorem luCommand_answers {lu : LineUnit} (hf : f p s.lu = (c, lu)) :
    ∃ t, exec i s = .next t ∧ Answered c [.lu] s t ∧ t.lu = lu ∧ t.wires = s.wires :=
  ⟨_, hi.trans (luCommand_next ht hf), answered_withLu s c lu, rfl, rfl⟩

end luCommands

section rules
variable {p : Words6} {lu : LineUnit}

theorem lnSetup_of_accepted {edge : EdgeSel} {timer : TimerId} (hr : p[0] &&& unassignedLnSetup = 0)
    (ht : setupTimer (lineModeOf (field p[0] 4 2)) p[2] = some timer)
    (he : edgeSelOf (field p[0] 6 2) = some edge) (hc : ¬ (lineModeOf (field p[0] 4 2) = .count ∧ p[2] = 0)) :
    let n := lineOf (field p[0] 0 3)
    lnSetup p lu =
      (.ok (lnSetupWords (lu.input n)),
        lu.setInput n ((lu.input n).configured p (lineModeOf (field p[0] 4 2)) edge timer)) := by
  simp only [lnSetup, inRange_of_zero hr, ht, he, hc, Bool.not_true, Bool.false_eq_true, if_false]

theorem lnSetupWords_eq (x : Input) :
    lnSetupWords x = words x.edgeCount (x.rounds.setWidth 16 ||| if x.level = .high then 0x0100 else 0) := by
  simp only [lnSetupWords, placeBit_levelBit, place_zero]
  rfl

theorem lnDrive_of_kind {kind : Option ActionKind} (hr : p[0] &&& unassignedLnDrive = 0)
    (hk : actionKindOf (field p[0] 4 3) = some kind) :
    let o := outputOf (field p[0] 0 2)
    lnDrive p lu = (.ok (lnDriveWords (lu.output o) ((lu.drive o kind).output o) (lu.drive o kind)), lu.drive o kind) := by
  simp only [lnDrive, inRange_of_zero hr, hk, Bool.not_true, Bool.false_eq_true, if_false]

theorem lnDriveWords_eq (before after : Output) (lu : LineUnit) :
    lnDriveWords before after lu = words
      ((if before.level = .high then 1 else 0) ||| (if after.level = .high then 2 else 0) |||
        (if after.pulsePending then 4 else 0))
      (lu.outputLevels.setWidth 16) := by
  simp only [lnDriveWords, placeBit_levelBit, placeBit_eq_ite 2, place_zero]
  rfl

/-- The output after LN_DRIVE's action, code 0 being none (R123). -/
theorem LineUnit.onlyOutput_drive (lu : LineUnit) (o : OutputId) (kind : Option ActionKind) :
    lu.OnlyOutput o (kind.elim (lu.output o) (lu.output o).act) (lu.drive o kind) := by
  cases kind with
  | none => exact ⟨rfl, fun _ _ => rfl, fun _ => rfl⟩
  | some k => exact lu.onlyOutput_setOutput o _

theorem lnRead_of_inRange (hr : p[0] &&& unassignedLine = 0) :
    lnRead p lu = (.ok (lnReadWords lu (lineOf (field p[0] 0 3))), lu) := by
  simp only [lnRead, inRange_of_zero hr, Bool.not_true, Bool.false_eq_true, if_false]

/-- The words of an LN_READ, field by field (R169). -/
theorem lnReadWords_eq (lu : LineUnit) (n : LineId) :
    let x := lu.input n
    lnReadWords lu n = words
      ((BitVec.ofNat 3 n.val).setWidth 16 ||| x.mode.code.setWidth 16 <<< 4 ||| x.edge.code.setWidth 16 <<< 6 |||
        (BitVec.ofNat 3 x.queue.val).setWidth 16 <<< 8 ||| x.priority.setWidth 16 <<< 12 |||
        (if x.level = .high then 0x8000 else 0))
      x.tag x.further x.edgeCount (x.rounds.setWidth 16)
      (lu.outputLevels.setWidth 16 ||| lu.pendingMarks.setWidth 16 <<< 4) := by
  simp only [lnReadWords, placeBit_levelBit, place_zero]
  rfl

end rules

end Sys2Proof.Machine

/-! ## The statements -/

namespace Sys2Proof.Machine.LineUnitEvents

/-- Settles O35: each kind of sample by what it leaves, a qualifying edge by the input's mode. -/
theorem edgesAndRounds : Obligations.EdgesAndRounds := by
  intro n l s hr x edge qualifies levels draft posted quiet
  have hadmits : qualifies → x.edge.admits l = true := EdgeSel.admits_eq_true.2
  obtain ⟨y, hy⟩ : ∃ y : Input, y = { x with level := l } := ⟨_, rfl⟩
  have hym : y.mode = x.mode := by rw [hy]
  have hsample : edge → x.edge.admits l = true → s.lu.sample n l =
      { lu := s.lu.setInput n y.counted
        posts := y.edgePosts (s.lu.setInput n y) n
        retriggers := y.edgeRetriggers } := fun ⟨h, hl⟩ hq => LineUnit.sample_of_qualified h hl hy hq
  have hother : x.mode ≠ .retrigger → y.edgeRetriggers = [] := fun hm => Input.edgeRetriggers_of_other (hym.symm ▸ hm)
  refine ⟨fun h => edge_quiet hr (LineUnit.sample_of_first h), fun h hl => ?same, fun hedge hno => ?off,
    fun hedge hq hm => ?post, fun hedge hq hm hc => ?below, fun hedge hq hm hc i hi => ?round,
    fun hedge hq hm => ?retrigger⟩
  case same =>
    rw [exec_edge_high hr, LineUnit.sample_of_same h hl, commitLu_nothing]
  case off =>
    by_cases hq : x.edge.admits l = true
    · have hm : y.mode = .off := hym.trans (hno.resolve_left fun hn => hn (EdgeSel.admits_eq_true.1 hq))
      have hsample := hsample hedge hq
      rw [Input.counted_of_off hm, Input.edgePosts_of_silent (.inl hm),
        Input.edgeRetriggers_of_other (hm ▸ LineMode.noConfusion), hy] at hsample
      exact edge_quiet hr hsample
    · exact edge_quiet hr (LineUnit.sample_of_unqualified hedge.1 hedge.2 hq)
  case post =>
    have hsample := hsample hedge (hadmits hq)
    have hm' := hym.trans hm
    rw [Input.counted_of_post hm', Input.edgePosts_of_post hm', hother (hm ▸ LineMode.noConfusion)] at hsample
    subst hy
    exact sample_posts (draft := draft _) (exec_edge_high hr) hsample rfl rfl
  case below =>
    have hsample := hsample hedge (hadmits hq)
    have hm' := hym.trans hm
    have hc' : y.edgeCount + 1 ≠ y.compare := by rwa [hy]
    rw [Input.counted_of_below hm' hc', Input.edgePosts_of_below hm' hc', hother (hm ▸ LineMode.noConfusion)] at hsample
    subst hy
    exact edge_quiet hr hsample
  case round =>
    have hround := LineUnit.roundAt_of_qualified hedge.1 hedge.2 (hadmits hq) (Input.completes_eq_true.2 ⟨hm, hc⟩)
    have hexec : exec i s = .next (s.commitLu (s.lu.sample n l)) := by
      simp only [List.mem_cons, List.not_mem_nil, or_false] at hi
      rcases hi with rfl | rfl
      · exact exec_edge_high hr
      · exact exec_round_high hr hround
    have hsample := hsample hedge (hadmits hq)
    have hm' := hym.trans hm
    have hc' : y.edgeCount + 1 = y.compare := by rwa [hy]
    rw [Input.counted_of_round hm' hc', Input.edgePosts_of_round hm' hc', hother (hm ▸ LineMode.noConfusion)] at hsample
    subst hy
    exact sample_posts (draft := draft _) hexec hsample rfl rfl
  case retrigger =>
    have hsample := hsample hedge (hadmits hq)
    have hm' := hym.trans hm
    rw [Input.counted_of_retrigger hm', Input.edgePosts_of_silent (.inr hm'), Input.edgeRetriggers_of_retrigger hm']
      at hsample
    subst hy
    refine ⟨_, exec_edge_high hr, ?_, ?_, sameExcept_commitLu s _⟩
    · rw [hsample]
      exact s.lu.onlyInput_setInput n _
    · rw [hsample]
      simp only [State.commitLu, State.withWires_wires, sendAll_nil, sendAll_singleton]

/-- Settles O36: an action at its output, a tick at every output, the two words bit by bit. -/
theorem outputActionsAndTicks : Obligations.OutputActionsAndTicks := by
  refine ⟨fun a rest s hr hw => ?action, fun rest s hr hw => ?tick, fun lu o => ?words⟩
  case action =>
    refine ⟨_, exec_outputAction_high hr hw, ?_, rfl, sameExcept_withLu (s.withWires _) _⟩
    have honly := s.lu.onlyOutput_setOutput a.output ((s.lu.output a.output).act a.kind)
    cases hk : a.kind with
    | toggle =>
      rw [hk, Output.act, flipLevel_eq_ite] at honly
      simp only [State.withLu_lu, LineUnit.act, hk, Output.act, flipLevel_eq_ite]
      exact honly
    | set | clear | pulse =>
      rw [hk, Output.act] at honly
      simp only [State.withLu_lu, LineUnit.act, hk, Output.act]
      exact honly
  case tick =>
    exact ⟨_, exec_luTick_high hr hw, fun o => s.lu.output_tick o, fun n => s.lu.input_tick n, rfl,
      sameExcept_withLu (s.withWires _) _⟩
  case words =>
    exact ⟨(lu.outputLevels_getLsbD o).trans (levelBit_eq_decide _), lu.pendingMarks_getLsbD o⟩

/-- Settles O37: the compare value and the timer that the mode uses, the other 0. -/
theorem lnSetup : Obligations.LnSetup := by
  intro p edge s ht hr he n x mode set
  have hset : ∀ timer, setupTimer mode p[2] = some timer → ¬ (mode = .count ∧ p[2] = 0) →
      set timer (setupCompare mode p[2]) := fun timer htimer hc => by
    obtain ⟨t, hexec, hans, hlu, hwires⟩ := luCommand_answers (i := .lnSetup) rfl ht (lnSetup_of_accepted hr htimer he hc)
    rw [lnSetupWords_eq] at hans
    exact ⟨t, hexec, hans, hlu ▸ s.lu.onlyInput_setInput n _, hwires⟩
  refine ⟨fun hm => ?_, fun hm hc => ?_, fun timer hm htimer => ?_⟩
  · rcases hm with hm | hm
    · rw [hm] at hset
      exact hset 0 rfl (fun h => by cases h.1)
    · rw [hm] at hset
      exact hset 0 rfl (fun h => by cases h.1)
  · rw [hm] at hset
    exact hset 0 rfl fun h => hc h.2
  · rw [hm] at hset
    exact hset timer (timerOf_eq_some htimer) (fun h => by cases h.1)

/-- Settles O38: the output after the action with the words of before and after, and the words of a read. -/
theorem lnDriveAndRead : Obligations.LnDriveAndRead := by
  refine ⟨?drive, ?read⟩
  case drive =>
    intro p kind s ht hr hk o before after
    have hafter : kind.elim before before.act = after := by
      cases kind with
      | none => rfl
      | some k => cases k with
        | toggle => simp only [after, Option.elim, Output.act, flipLevel_eq_ite]
        | set | clear | pulse => rfl
    have honly := s.lu.onlyOutput_drive o kind
    obtain ⟨t, hexec, hans, hlu, hwires⟩ := luCommand_answers (i := .lnDrive) rfl ht (lnDrive_of_kind hr hk)
    rw [honly.1, lnDriveWords_eq, ← hlu] at hans
    rw [← hlu] at honly
    exact ⟨t, hexec, hafter ▸ honly, hwires, hafter ▸ hans⟩
  case read =>
    intro p s ht hr n x
    have hread := reads_next (i := .lnRead) (f := luCommand Machine.lnRead) rfl ht
      (show luCommand Machine.lnRead p s = (.ok (lnReadWords s.lu n), s) by
        simp only [luCommand, lnRead_of_inRange hr]
        rfl)
    rw [lnReadWords_eq] at hread
    exact hread

end Sys2Proof.Machine.LineUnitEvents
end

section
/-! The Notification Unit: signals (R128), flag writes (R130), levels and the vector (R132 to R137), the register reads
(R154, R160 to R164), and the accesses that the bus pins make (R160, R170). First the flags and words bit by bit, then the
statements. -/

namespace Sys2Proof.Machine

/-! ## The flags -/

section flags
variable (nu : NotifyUnit) (log : Bool)

theorem NotifyUnit.flags_done : (nu.flags log).getLsbD 0 = nu.done := by
  rw [NotifyUnit.flags_getLsbD, if_pos rfl]

theorem NotifyUnit.flags_log : (nu.flags log).getLsbD 1 = log := by
  rw [NotifyUnit.flags_getLsbD, if_neg (by decide), if_pos rfl]

theorem NotifyUnit.flags_slip : (nu.flags log).getLsbD 2 = nu.slip := by
  rw [NotifyUnit.flags_getLsbD, if_neg (by decide), if_neg (by decide), if_pos rfl]

/-- The LEVEL flags are bits 3 to 10. -/
theorem NotifyUnit.flags_level {k : Nat} (h : k < 8) : (nu.flags log).getLsbD (3 + k) = nu.level.getLsbD k := by
  rw [NotifyUnit.flags_getLsbD, if_neg (by omega), if_neg (by omega), if_neg (by omega), if_pos (by omega),
    Nat.add_sub_cancel_left]

/-- The DROP flags are the bits from 11 on. -/
theorem NotifyUnit.flags_drop (k : Nat) : (nu.flags log).getLsbD (11 + k) = nu.drop.getLsbD k := by
  rw [NotifyUnit.flags_getLsbD, if_neg (by omega), if_neg (by omega), if_neg (by omega), if_neg (by omega),
    Nat.add_sub_cancel_left]

end flags

/-- A bit position is DONE's, LOG's, SLIP's, a LEVEL flag's, or a DROP flag's or beyond. -/
theorem flag_position (k : Nat) :
    k = 0 ∨ k = 1 ∨ k = 2 ∨ (∃ j, j < 8 ∧ k = 3 + j) ∨ ∃ j, k = 11 + j := by
  by_cases h : k < 11
  · by_cases h3 : k < 3
    · omega
    · exact .inr (.inr (.inr (.inl ⟨k - 3, by omega, by omega⟩)))
  · exact .inr (.inr (.inr (.inr ⟨k - 11, by omega⟩)))

/-- A write to FLAGA, flag by flag (R130, R163). -/
theorem NotifyUnit.flags_writeFlagA (nu : NotifyUnit) (w : Word) (log : Bool) (k : Nat) :
    ((nu.writeFlagA w).flags log).getLsbD k =
      ((nu.flags log).getLsbD k && (!(decide (k < 16) && w.getLsbD k) || decide (k = 1))) := by
  rcases flag_position k with rfl | rfl | rfl | ⟨j, hj, rfl⟩ | ⟨j, rfl⟩
  · simp only [NotifyUnit.flags_done, NotifyUnit.writeFlagA]
    simp
  · simp only [NotifyUnit.flags_log]
    simp
  · simp only [NotifyUnit.flags_slip, NotifyUnit.writeFlagA]
    simp
  · simp only [NotifyUnit.flags_level _ _ hj, NotifyUnit.writeFlagA]
    simp [hj, show 3 + j < 16 by omega, show 3 + j ≠ 1 by omega]
  · simp only [NotifyUnit.flags_drop, NotifyUnit.writeFlagA]
    by_cases h8 : j < 8
    · by_cases h5 : j < 5
      · simp [h8, h5, show 11 + j < 16 by omega, show 11 + j ≠ 1 by omega]
      · simp [h8, h5, show ¬ 11 + j < 16 by omega]
    · simp [BitVec.getLsbD_of_ge nu.drop j (by omega)]

/-- A write to FLAGB, flag by flag (R130, R163). -/
theorem NotifyUnit.flags_writeFlagB (nu : NotifyUnit) (w : Word) (log : Bool) (k : Nat) :
    ((nu.writeFlagB w).flags log).getLsbD k =
      ((nu.flags log).getLsbD k && !(decide (16 ≤ k) && w.getLsbD (k - 16))) := by
  rcases flag_position k with rfl | rfl | rfl | ⟨j, hj, rfl⟩ | ⟨j, rfl⟩
  · simp only [NotifyUnit.flags_done, NotifyUnit.writeFlagB]
    simp
  · simp only [NotifyUnit.flags_log]
    simp
  · simp only [NotifyUnit.flags_slip, NotifyUnit.writeFlagB]
    simp
  · simp only [NotifyUnit.flags_level _ _ hj, NotifyUnit.writeFlagB]
    simp [show ¬ 16 ≤ 3 + j by omega]
  · simp only [NotifyUnit.flags_drop, NotifyUnit.writeFlagB]
    by_cases h8 : j < 8
    · by_cases h5 : j < 5
      · simp [h8, h5, show ¬ 16 ≤ 11 + j by omega]
      · simp [h8, h5, show 16 ≤ 11 + j by omega, show j - 5 < 3 by omega, show 11 + j - 16 = j - 5 by omega]
    · simp [BitVec.getLsbD_of_ge nu.drop j (by omega)]

/-- Setting one flag of eight. -/
theorem getLsbD_or_twoPow (b : BitVec 8) (q : QueueId) (k : Nat) :
    (b ||| BitVec.twoPow 8 q.val).getLsbD k = (b.getLsbD k || decide (k = q.val)) := by
  rw [BitVec.getLsbD_or, BitVec.getLsbD_twoPow, decide_eq_true q.isLt, Bool.true_and, decide_eq_decide.2 eq_comm]

/-! ## The events of the NU -/

theorem sameExcept_withNu (s : State) (nu : NotifyUnit) : sameExcept [.nu] s (s.withNu nu) := by
  simp [sameExcept]

section signals
variable {s : State} (hr : s.resetnLow = false)
include hr

theorem exec_doneSignal_high {rest : List (Sent Unit)} (hw : receive s.resets.nu s.wires.cpToNu = some ((), rest)) :
    exec .doneSignal s =
      .next ((s.withWires { s.wires with cpToNu := rest }).withNu { s.nu with done := true }) := by
  change running s s.takeDone = _
  rw [running_high hr]
  simp only [State.takeDone, hw]

theorem exec_slipSignal_high {rest : List (Sent Unit)} (hw : receive s.resets.nu s.wires.duToNu = some ((), rest)) :
    exec .slipSignal s =
      .next ((s.withWires { s.wires with duToNu := rest }).withNu { s.nu with slip := true }) := by
  change running s s.takeSlip = _
  rw [running_high hr]
  simp only [State.takeSlip, hw]

theorem exec_levelSignal_high {q : QueueId} {rest : List (Sent QueueSignal)}
    (hw : receive s.resets.nu s.wires.qeToNu = some (.level q, rest)) :
    exec .levelSignal s =
      .next ((s.withWires { s.wires with qeToNu := rest }).withNu (s.nu.takeQueueSignal (.level q))) := by
  change running s (s.takeQueueSignal QueueSignal.isLevel) = _
  rw [running_high hr]
  simp only [State.takeQueueSignal, hw]
  rfl

theorem exec_dropSignal_high {q : QueueId} {rest : List (Sent QueueSignal)}
    (hw : receive s.resets.nu s.wires.qeToNu = some (.drop q, rest)) :
    exec .dropSignal s =
      .next ((s.withWires { s.wires with qeToNu := rest }).withNu (s.nu.takeQueueSignal (.drop q))) := by
  change running s (s.takeQueueSignal QueueSignal.isDrop) = _
  rw [running_high hr]
  simp only [State.takeQueueSignal, hw]
  rfl

theorem exec_flagWrite_high (reg : FlagReg) (w : Word) :
    exec (.flagWrite reg w) s = .next ((s.flagWrite reg w).withBus .idle) := hostWrite_high hr

end signals

/-! ## NT_LEVEL -/

section rules
variable {p : Words6}

theorem ntLevel_of_source {n : SourceId} (s : State) (hr : p[0] &&& unassignedNtLevel = 0)
    (hn : (field p[0] 0 5).toNat = n.val) :
    ntLevel p s =
      (.ok (ntLevelWords (s.nu.levelOf n) ((s.nu.flags s.logFlag).getLsbD n.val) (field p[0] 8 2)),
        s.withNu (s.nu.setLevel n (field p[0] 8 2))) := by
  simp only [ntLevel, inRange_of_zero hr, sourceOf_eq_some hn, Bool.not_true, Bool.false_eq_true, if_false]

theorem ntLevel_of_no_source (s : State) (hr : p[0] &&& unassignedNtLevel = 0) (hn : 19 ≤ (field p[0] 0 5).toNat) :
    ntLevel p s = (.fail .badIndex, s) := by
  simp only [ntLevel, inRange_of_zero hr, sourceOf_eq_none hn, Bool.not_true, Bool.false_eq_true, if_false]

theorem ntLevelWords_eq (prior l : BitVec 2) (flag : Bool) :
    ntLevelWords prior flag l =
      words (prior.setWidth 16 ||| (if flag then (0x0010 : Word) else 0) ||| l.setWidth 16 <<< 8) := by
  simp only [ntLevelWords, placeBit_eq_ite, place_zero]
  rfl

end rules

/-! ## The vector -/

section vector
variable {nu : NotifyUnit} {log : Bool}

theorem NotifyUnit.pending_eq (n : SourceId) :
    nu.pending log n = ((nu.flags log).getLsbD n.val && decide (1 ≤ nu.levelOf n)) := by
  have hlevel : ∀ l : BitVec 2, (l != 0) = decide (1 ≤ l) := by decide
  rw [NotifyUnit.pending, hlevel]

theorem NotifyUnit.pending_eq_true {n : SourceId} :
    nu.pending log n = true ↔ (nu.flags log).getLsbD n.val = true ∧ 1 ≤ nu.levelOf n := by
  rw [NotifyUnit.pending_eq, Bool.and_eq_true, decide_eq_true_eq]

/-- The interrupt condition: some source is pending (R134). -/
theorem State.interruptCondition_eq_true {s : State} :
    s.interruptCondition = true ↔ ∃ n, s.nu.pending s.logFlag n = true := by
  rw [State.interruptCondition, NotifyUnit.condition, List.any_eq_true]
  exact ⟨fun ⟨n, _, h⟩ => ⟨n, h⟩, fun ⟨n, h⟩ => ⟨n, mem_allSources n, h⟩⟩

theorem NotifyUnit.firstAt_eq_none {l : BitVec 2} (h : ∀ j, nu.pending log j = true → nu.levelOf j ≠ l) :
    nu.firstAt log l = none := by
  refine find_allSources_none fun j => ?_
  cases hp : nu.pending log j with
  | false => rfl
  | true => simpa using h j hp

/-- The vector names a pending source that no other exceeds in level, nor precedes at its own level (R136). -/
theorem NotifyUnit.vector_eq_some {n : SourceId} (hn : nu.pending log n = true)
    (hmax : ∀ j, nu.pending log j = true → nu.levelOf j ≤ nu.levelOf n)
    (hfirst : ∀ j, nu.pending log j = true → nu.levelOf j = nu.levelOf n → n ≤ j) : nu.vector log = some n := by
  have hat : nu.firstAt log (nu.levelOf n) = some n := by
    refine find_allSources (by simp [hn]) fun j hj => ?_
    obtain ⟨hp, hl⟩ := Bool.and_eq_true_iff.1 hj
    exact hfirst j hp (beq_iff_eq.1 hl)
  have habove : ∀ l : BitVec 2, nu.levelOf n < l → nu.firstAt log l = none := fun l hl =>
    NotifyUnit.firstAt_eq_none fun j hp he => absurd (he ▸ hmax j hp) (BitVec.not_le.2 hl)
  have hlevels : ∀ l : BitVec 2, 1 ≤ l → l = 1 ∨ l = 2 ∨ l = 3 := by decide
  unfold NotifyUnit.vector
  rcases hlevels _ (NotifyUnit.pending_eq_true.1 hn).2 with hl | hl | hl
  · rw [hl] at hat habove
    rw [habove 3 (by decide), habove 2 (by decide), hat]
    rfl
  · rw [hl] at hat habove
    rw [habove 3 (by decide), hat]
    rfl
  · rw [hl] at hat
    rw [hat]
    rfl

theorem NotifyUnit.vectorWord_of_none (h : ∀ n, nu.pending log n = false) : nu.vectorWord log = 0 := by
  have hnone : ∀ l, nu.firstAt log l = none := fun l => NotifyUnit.firstAt_eq_none fun j hp => by
    rw [h j] at hp
    cases hp
  have hvector : nu.vector log = none := by
    rw [NotifyUnit.vector, hnone, hnone, hnone]
    rfl
  simp only [NotifyUnit.vectorWord, hvector]

theorem NotifyUnit.vectorWord_of_some {n : SourceId} (h : nu.vector log = some n) :
    nu.vectorWord log = BitVec.ofNat 16 (n.val + 1) ||| (nu.levelOf n).setWidth 16 <<< 8 := by
  have hn : n.val + 1 < 2 ^ 5 := Nat.lt_trans (Nat.succ_lt_succ n.isLt) (by decide)
  simp only [NotifyUnit.vectorWord, h, place_zero, setWidth_ofNat_of_lt (by decide) hn]
  rfl

end vector

/-! ## The register reads -/

/-- The bits of the STATUS word (R154, R161). -/
theorem State.statusWord_bits (s : State) :
    s.statusWord.getLsbD 0 = s.cp.slot.isSome ∧ s.statusWord.getLsbD 1 = s.cp.refused ∧
    s.statusWord.getLsbD 2 = s.tb.running ∧ s.statusWord.getLsbD 3 = s.interruptCondition := by
  simp only [State.statusWord, BitVec.getLsbD_or, placeBit_getLsbD, place_getLsbD]
  simp

/-- The fields of the STATUS word (R154, R161). -/
theorem State.statusWord_fields (s : State) :
    s.statusWord.extractLsb' 4 4 = s.cp.result.code ∧
    s.statusWord.extractLsb' 8 5 = BitVec.ofNat 5 s.qe.log.length ∧ s.statusWord.extractLsb' 13 3 = 0 := by
  simp [State.statusWord, BitVec.extractLsb'_or, placeBit, extract_place_self, extract_place_apart]

/-- The NU's record with every warm reset taken that the CP sent before. -/
theorem State.nuUpToDate_nu (s : State) :
    s.nuUpToDate.nu = if s.resets.nu < s.resets.cp then s.nu.warm else s.nu := by
  unfold State.nuUpToDate
  split
  · rfl
  · rfl

theorem State.readWord_flagA (s : State) {k : Nat} (h : k < 16) :
    (s.readWord 0xA).getLsbD k = s.readFlags.getLsbD k := by
  change (s.readFlags.extractLsb' 0 16).getLsbD k = _
  simp [h]

theorem State.readWord_flagB (s : State) {k : Nat} (h : k < 16) :
    (s.readWord 0xB).getLsbD k = s.readFlags.getLsbD (16 + k) := by
  change ((s.readFlags.extractLsb' 16 3).setWidth 16).getLsbD k = _
  by_cases h3 : k < 3
  · simp [h, h3]
  · simp [h, h3, BitVec.getLsbD_of_ge s.readFlags (16 + k) (by omega)]

/-! ## The bus -/

section bus
variable {s : State} {p : BusPins}

theorem State.dataBus_of_idle (h : s.bus = .idle) : s.dataBus = none := by
  rw [State.dataBus, h]

theorem State.dataBus_of_neither (h : s.bus = .neither) : s.dataBus = none := by
  rw [State.dataBus, h]

/-- A write access that has ended leaves none in progress (R160). -/
theorem State.endWrite_bus (s : State) (p : BusPins) : (s.endWrite p).bus = .idle := rfl

/-- A read of any address but LOGPOP's, the flags', VECTOR's and NOWLO's has no effect (R141). -/
theorem State.beginRead_of_plain {a : BitVec 4} (h : a ∉ ([0x9, 0xA, 0xB, 0xC, 0xE] : List (BitVec 4))) :
    s.beginRead a = s.withBus (.read (s.readWord a)) := by
  have hne : ∀ b : BitVec 4, b ∈ ([0x9, 0xA, 0xB, 0xC, 0xE] : List (BitVec 4)) → a.toNat ≠ b.toNat :=
    fun b hb he => h (BitVec.eq_of_toNat_eq he ▸ hb)
  unfold State.beginRead
  split
  · next he => exact absurd he (hne 0x9 (by decide))
  · next he => exact absurd he (hne 0xA (by decide))
  · next he => exact absurd he (hne 0xB (by decide))
  · next he => exact absurd he (hne 0xC (by decide))
  · next he => exact absurd he (hne 0xE (by decide))
  · rfl

/-- A read of the flags or of VECTOR is taken at the NU (R127, R136). -/
theorem State.beginRead_of_notify {a : BitVec 4} (h : a ∈ ([0xA, 0xB, 0xC] : List (BitVec 4))) :
    s.beginRead a = s.notifyRead a := by
  simp only [List.mem_cons, List.not_mem_nil, or_false] at h
  rcases h with rfl | rfl | rfl
  · rfl
  · rfl
  · rfl

theorem State.notifyRead_eq (s : State) (a : BitVec 4) :
    s.notifyRead a =
      (if s.resetnLow = false ∧ s.resets.nu < s.resets.cp then s.warmNu s.resets.cp else s).withBus
        (.read (s.readWord a)) := by
  unfold State.notifyRead State.nuUpToDate
  cases s.resetnLow with
  | true => rw [if_pos rfl, if_neg fun h => by cases h.1]
  | false => simp only [Bool.false_eq_true, if_false, true_and]

end bus

end Sys2Proof.Machine

/-! ## The statements -/

namespace Sys2Proof.Machine.NotificationAndBus

/-- Settles O39: the flags bit by bit, and the flag that each signal sets. -/
theorem signalsSetTheirFlags : Obligations.SignalsSetTheirFlags := by
  refine ⟨fun nu log => ⟨nu.flags_done log, nu.flags_log log, nu.flags_slip log,
    fun q => ⟨nu.flags_level log q.isLt, nu.flags_drop log q.val⟩⟩, fun s hr => ⟨fun rest hw => ?done, fun rest hw => ?slip,
    fun q rest hw => ?level, fun q rest hw => ?drop⟩⟩
  case done => exact ⟨_, exec_doneSignal_high hr hw, rfl, rfl, sameExcept_withNu (s.withWires _) _⟩
  case slip => exact ⟨_, exec_slipSignal_high hr hw, rfl, rfl, sameExcept_withNu (s.withWires _) _⟩
  case level =>
    exact ⟨_, exec_levelSignal_high hr hw, rfl, getLsbD_or_twoPow s.nu.level q, rfl, sameExcept_withNu (s.withWires _) _⟩
  case drop =>
    exact ⟨_, exec_dropSignal_high hr hw, rfl, getLsbD_or_twoPow s.nu.drop q, rfl, sameExcept_withNu (s.withWires _) _⟩

/-- Settles O40: the writes flag by flag, at the NU with the warm resets taken that were sent before. -/
theorem flagWriteClears : Obligations.FlagWriteClears := by
  intro w s hr a
  have ha : s.nuUpToDate = a := rfl
  refine ⟨⟨_, exec_flagWrite_high hr .flaga w, rfl, rfl, fun log k => ?_⟩, _, exec_flagWrite_high hr .flagb w, rfl, rfl,
    fun log k => ?_⟩
  · exact ha ▸ s.nuUpToDate.nu.flags_writeFlagA w log k
  · exact ha ▸ s.nuUpToDate.nu.flags_writeFlagB w log k

/-- Settles O41: the rule by whether the number names a source. -/
theorem ntLevel : Obligations.NtLevel := by
  intro p s ht hr
  refine ⟨fun hn => fails_of (i := .ntLevel) rfl ht (ntLevel_of_no_source s hr hn), fun n hn => ?_⟩
  have hanswer := ntLevel_of_source s hr hn
  rw [ntLevelWords_eq, State.logFlag_eq] at hanswer
  refine ⟨_, command_next ht hanswer rfl, answered_withCp (by simp [sameExcept]), ?_, fun j hj => ?_, fun log => rfl, rfl⟩
  · exact (s.nu.levelOf_setLevel n n _).trans (if_pos rfl)
  · exact (s.nu.levelOf_setLevel n j _).trans (if_neg (Ne.symm hj))

/-- Settles O42: the vector's source by its level and its number. -/
theorem vectorNamesTheHighestPendingSource : Obligations.VectorNamesTheHighestPendingSource := by
  refine ⟨fun nu log => ⟨NotifyUnit.vectorWord_of_none, fun n hn hmax hfirst =>
    NotifyUnit.vectorWord_of_some (NotifyUnit.vector_eq_some hn hmax hfirst)⟩, fun nu log n => NotifyUnit.pending_eq n,
    fun s => ?read, fun s b => ?inten⟩
  case read =>
    rw [← State.logFlag_eq]
    rfl
  case inten =>
    change (s.withCp _).nuUpToDate.nu.vectorWord s.logFlag = s.nuUpToDate.nu.vectorWord s.logFlag
    rw [State.nuUpToDate_nu, State.nuUpToDate_nu]
    rfl

/-- Settles O43: the interrupt condition as a pending source, and each register's word. -/
theorem interruptAndRegisterReads : Obligations.InterruptAndRegisterReads := by
  intro s condition
  have hcondition : s.interruptCondition = true ↔ condition := by
    rw [State.interruptCondition_eq_true, State.logFlag_eq]
    exact exists_congr fun n => NotifyUnit.pending_eq_true
  obtain ⟨hbusy, hrefused, hrunning, hint⟩ := s.statusWord_bits
  have hinten : s.readWord 0xD = if s.cp.inten then 1 else 0 := placeBit_eq_ite 0 s.cp.inten
  refine ⟨?_, ⟨hbusy, hrefused, hrunning, hint ▸ hcondition, s.statusWord_fields⟩, rfl, rfl, rfl, rfl, rfl, rfl, rfl, rfl,
    hinten, fun k hk => ?_⟩
  · rw [State.intnAsserted, Bool.and_eq_true, hcondition]
  · rw [← State.logFlag_eq]
    exact ⟨s.readWord_flagA hk, s.readWord_flagB hk⟩

/-- Settles O44: each way the strobes can stand, by the access in progress. -/
theorem busPinsMakeTheAccesses : Obligations.BusPinsMakeTheAccesses := by
  refine ⟨fun w s => State.dataBus_eq_some, fun p s => ⟨fun hc => ?deselected, fun hc hr hw => ?both,
    fun hc hr hw => ?read, fun hc hr hw => ?write, fun hc hr hw => ?off⟩⟩
  case deselected =>
    rw [State.busPins_of_csn hc]
    refine ⟨fun hb hw => ?_, fun hno => ?_, ?_⟩
    · rw [if_pos ⟨hw, hb⟩, exec_registerWrite]
    · rw [if_neg fun h => hno h.symm]
      rfl
    · split
      · exact State.dataBus_of_idle (s.endWrite_bus p)
      · rfl
  case both =>
    rw [State.busPins_of_both hc hr hw]
    exact ⟨rfl, rfl⟩
  case read =>
    have hpins := State.busPins_of_read (s := s) hc hr hw
    refine ⟨fun hb => ?idle, fun w hb => ?reading, fun hb => ?neither, fun hb => ?writing⟩
    case idle =>
      rw [hb] at hpins
      change s.busPins p = s.beginRead p.address at hpins
      rw [hpins]
      refine ⟨fun ha => ?_, fun ha => ?_, fun ha => ?_, fun ha hhigh hzero => ?_, fun ha => State.beginRead_of_plain ha⟩
      · rw [ha, exec_logpopRead]
      · rw [ha, Machine.exec_nowloRead]
      · rw [State.beginRead_of_notify ha, State.notifyRead_eq]
        rfl
      · have hno := State.interruptCondition_of_readVector hhigh hzero
        rw [← ha] at hno
        obtain ⟨_, _, _, hint⟩ := State.statusWord_bits (s.beginRead p.address)
        refine ⟨?_, hint.trans hno⟩
        rw [State.intnAsserted, hno, Bool.and_false]
    case reading => rw [hpins, hb]
    case neither => rw [hpins, hb]
    case writing =>
      refine ⟨_, exec_registerWrite s p, ?_⟩
      rw [hpins, hb, State.busPins_of_read hc hr hw, s.endWrite_bus p]
  case write =>
    have hpins := State.busPins_of_write (s := s) hc hr hw
    refine ⟨fun hb => ?_, fun hb => ?_, fun w hb => ?_, fun hb => ?_⟩
    · rw [hpins, hb]
      rfl
    · rw [hpins, hb]
      change { s with bus := .write } = s
      rw [← hb]
    · rw [hpins, hb]
      rfl
    · rw [hpins, hb]
  case off =>
    have hpins := State.busPins_of_off (s := s) hc hr hw
    refine ⟨fun hb => ?_, fun hb => ?_, ?_⟩
    · rw [hpins, hb, exec_registerWrite]
    · rw [hpins]
      cases hbus : s.bus with
      | write => exact absurd hbus hb
      | idle | read | neither => rfl
    · rw [hpins]
      cases hbus : s.bus with
      | write => exact State.dataBus_of_idle (s.endWrite_bus p)
      | idle | read | neither => rfl

end Sys2Proof.Machine.NotificationAndBus
end

section
/-! Failed checks (R35, R73, R74, R85, R87, R120, R133): a number or a value out of its range, and a state that does not take
the command. First what the operand codes are where they are no value, and each rule's answer, then the statements. -/

namespace Sys2Proof.Machine

/-! ## Codes that are a value, and codes that are none (R165) -/

theorem actionKindOf_eq_none : ∀ {k : BitVec 3}, 5 ≤ k.toNat → actionKindOf k = none := by decide

theorem exists_actionKindOf {k : BitVec 3} (h : k.toNat < 5) : ∃ kind, actionKindOf k = some kind := by
  have hsome : ∀ k : BitVec 3, k.toNat < 5 → (actionKindOf k).isSome = true := by decide
  exact Option.isSome_iff_exists.1 (hsome k h)

theorem dataOf_three (d0 d1 : Word) : dataOf 3 d0 d1 = none := rfl

theorem exists_dataOf {c : BitVec 2} (d0 d1 : Word) (h : c ≠ 3) : ∃ data, dataOf c d0 d1 = some data := by
  have hcount : ∀ c : BitVec 2, c ≠ 3 → c = 0 ∨ c = 1 ∨ c = 2 := by decide
  rcases hcount c h with rfl | rfl | rfl
  · exact ⟨.none, rfl⟩
  · exact ⟨.one d0, rfl⟩
  · exact ⟨.two d0 d1, rfl⟩

/-- Mode 3 and a timed wait of 0 ticks are no wait mode (R87). -/
theorem waitModeOf_eq_none {m : BitVec 2} {ticks : Word} (h : m = 3 ∨ (m = 2 ∧ ticks = 0)) :
    waitModeOf m ticks = none := by
  rcases h with rfl | ⟨rfl, rfl⟩
  · rfl
  · rfl

theorem exists_waitModeOf {m : BitVec 2} {ticks : Word} (h : m ≠ 3) (hticks : m = 2 → ticks ≠ 0) :
    ∃ mode, waitModeOf m ticks = some mode := by
  have hmode : ∀ m : BitVec 2, m ≠ 3 → m = 0 ∨ m = 1 ∨ m = 2 := by decide
  rcases hmode m h with rfl | rfl | rfl
  · exact ⟨.untimed, rfl⟩
  · exact ⟨.poll, rfl⟩
  · exact ⟨.timed ticks, if_neg (hticks rfl)⟩

/-- LN_SETUP's timer field is set in every mode but RETRIGGER with a number of 48 or more (R121). -/
theorem exists_setupTimer {m : BitVec 2} {v : Word} (h : m = 3 → v.toNat < 48) :
    ∃ timer, setupTimer (lineModeOf m) v = some timer := by
  have hmode : ∀ m : BitVec 2, m = 0 ∨ m = 1 ∨ m = 2 ∨ m = 3 := by decide
  rcases hmode m with rfl | rfl | rfl | rfl
  · exact ⟨0, rfl⟩
  · exact ⟨0, rfl⟩
  · exact ⟨0, rfl⟩
  · exact ⟨⟨v.toNat, h rfl⟩, timerOf_eq_some rfl⟩

theorem definitionOf_eq_none {p : Words6} {arming : BitVec 8}
    (h : p[1] = 0 ∨ 5 ≤ (field p[0] 13 3).toNat ∨ field p[3] 2 2 = 3) : definitionOf p arming = none := by
  unfold definitionOf
  rcases h with h | h | h
  · cases actionKindOf (field p[0] 13 3) with
    | none => rfl
    | some kind =>
      cases dataOf (field p[3] 2 2) p[4] p[5] with
      | none => rfl
      | some data => exact if_pos h
  · rw [actionKindOf_eq_none h]
  · rw [h, dataOf_three]
    cases actionKindOf (field p[0] 13 3) with
    | none | some _ => rfl

theorem setupInRange_eq_false {a b c : Nat} (h : a = 0 ∨ 128 < a ∨ a < b ∨ c = 0 ∨ a < c) :
    setupInRange a b c = false := by
  rw [Bool.eq_false_iff]
  intro hyes
  obtain ⟨_, _, _, _, _⟩ := setupInRange_eq_true.1 hyes
  omega

/-! ## What the rules answer -/

section timers
variable {p : Words6} {tt : TimerTable}

theorem tmrDefine_of_no_definition {i : TimerId} (hi : (field p[0] 0 6).toNat = i.val)
    (h : p[1] = 0 ∨ 5 ≤ (field p[0] 13 3).toNat ∨ field p[3] 2 2 = 3) :
    tmrDefine p tt = (.fail .badValue, { tt := tt }) := by
  simp only [tmrDefine, timerOf_eq_some hi, definitionOf_eq_none h]

theorem tmrDefine_of_armed {i : TimerId} {t : Timer} (hi : (field p[0] 0 6).toNat = i.val)
    (hd : definitionOf p ((tt.timer i).arming + 1) = some t) (hs : (tt.timer i).state = .armed) :
    tmrDefine p tt = (.fail .wrongState, { tt := tt }) := by
  simp only [tmrDefine, timerOf_eq_some hi, hd, hs]

variable {i : TimerId} (hi : p[0].toNat = i.val)
include hi

theorem tmrArm_of_free (hs : (tt.timer i).state = .free) : tmrArm p tt = (.fail .wrongState, { tt := tt }) := by
  simp only [tmrArm, timerOf_eq_some hi, hs]

theorem tmrDisarm_of_free (hs : (tt.timer i).state = .free) :
    tmrDisarm p tt = (.fail .wrongState, { tt := tt }) := by
  simp only [tmrDisarm, timerOf_eq_some hi, hs]

theorem tmrRelease_of_armed (hs : (tt.timer i).state = .armed) :
    tmrRelease p tt = (.fail .wrongState, { tt := tt }) := by
  simp only [tmrRelease, timerOf_eq_some hi, hs]

theorem tmrRetune_of_zero (hp : p[1] = 0) : tmrRetune p tt = (.fail .badValue, { tt := tt }) := by
  simp only [tmrRetune, timerOf_eq_some hi, hp, if_true]

theorem tmrRetune_of_free (hp : p[1] ≠ 0) (hs : (tt.timer i).state = .free) :
    tmrRetune p tt = (.fail .wrongState, { tt := tt }) := by
  simp only [tmrRetune, timerOf_eq_some hi, hp, hs, if_true, if_false]

end timers

section queues
variable {p : Words6} {now : Word} {qe : QueueEngine}

theorem qSetup_of_bad_value (hr : p[0] &&& unassignedQSetup = 0) (hb : bit p[0] 3 = true)
    (hv : setupInRange p[1].toNat p[2].toNat p[3].toNat = false) : qSetup p now qe = (.fail .badValue, { qe := qe }) := by
  simp [qSetup, inRange_of_zero hr, hb, hv]

/-- The range check of R74 passes. -/
theorem qSetup_range_passes {b v : Bool} (hv : b = true → v = true) : (b && !v) = false := by
  cases b with
  | false => rfl
  | true => rw [hv rfl]; rfl

theorem qSetup_of_occupied (hr : p[0] &&& unassignedQSetup = 0)
    (hv : bit p[0] 3 = true → setupInRange p[1].toNat p[2].toNat p[3].toNat = true)
    (ho : (qe.queue (queueOf (field p[0] 0 3))).msgs ≠ [] ∨ (qe.queue (queueOf (field p[0] 0 3))).waiters ≠ []) :
    qSetup p now qe = (.fail .wrongState, { qe := qe }) := by
  simp only [qSetup, inRange_of_zero hr, qSetup_range_passes hv, if_pos ho, Bool.not_true, Bool.false_eq_true, if_false]

theorem qSetup_of_no_cells (hr : p[0] &&& unassignedQSetup = 0)
    (hv : bit p[0] 3 = true → setupInRange p[1].toNat p[2].toNat p[3].toNat = true)
    (hm : (qe.queue (queueOf (field p[0] 0 3))).msgs = []) (hw : (qe.queue (queueOf (field p[0] 0 3))).waiters = [])
    (hb : bit p[0] 3 = true) (hc : qe.free < p[2].toNat + qe.unmetOthers (queueOf (field p[0] 0 3))) :
    qSetup p now qe = (.fail .noCells, { qe := qe }) := by
  simp [qSetup, inRange_of_zero hr, hv hb, hm, hw, hb, hc]

theorem qSend_of_bad_count (hr : p[0] &&& unassignedQSend = 0) (hd : field p[0] 6 2 = 3) :
    qSend p now qe = (.fail .badValue, { qe := qe }) := by
  simp only [qSend, inRange_of_zero hr, hd, dataOf_three, Bool.not_true, Bool.false_eq_true, if_false]

theorem qSend_of_disabled {data : MessageData} (hr : p[0] &&& unassignedQSend = 0)
    (hd : dataOf (field p[0] 6 2) p[3] p[4] = some data)
    (he : (qe.queue (queueOf (field p[0] 0 3))).enabled = false) :
    qSend p now qe = (.fail .disabled, { qe := qe }) := by
  simp only [qSend, inRange_of_zero hr, hd, he, Bool.not_true, Bool.false_eq_true, if_false]

theorem ctxWait_of_no_mode (hr : p[0] &&& unassignedCtxWait = 0) (hm : waitModeOf (field p[0] 8 2) p[1] = none) :
    ctxWait p now qe = (.fail .badValue, { qe := qe }) := by
  simp only [ctxWait, inRange_of_zero hr, hm, Bool.not_true, Bool.false_eq_true, if_false]

theorem ctxWait_of_not_idle {mode : WaitMode} (hr : p[0] &&& unassignedCtxWait = 0)
    (hm : waitModeOf (field p[0] 8 2) p[1] = some mode)
    (hs : (qe.context (contextOf (field p[0] 0 4))).state ≠ .idle) :
    ctxWait p now qe = (.fail .wrongState, { qe := qe }) := by
  simp [ctxWait, inRange_of_zero hr, hm, hs]

theorem ctxWait_of_disabled {mode : WaitMode} (hr : p[0] &&& unassignedCtxWait = 0)
    (hm : waitModeOf (field p[0] 8 2) p[1] = some mode)
    (hs : (qe.context (contextOf (field p[0] 0 4))).state = .idle)
    (he : (qe.queue (queueOf (field p[0] 4 3))).enabled = false) :
    ctxWait p now qe = (.fail .disabled, { qe := qe }) := by
  simp [ctxWait, inRange_of_zero hr, hm, hs, he]

theorem ctxCollect_of_not_complete (hr : p[0] &&& unassignedContext = 0)
    (hs : (qe.context (contextOf (field p[0] 0 4))).state ≠ .complete) :
    ctxCollect p now qe = (.fail .wrongState, { qe := qe }) := by
  simp only [ctxCollect, inRange_of_zero hr, Bool.not_true, Bool.false_eq_true, if_false]
  cases h : (qe.context (contextOf (field p[0] 0 4))).state with
  | complete => exact absurd h hs
  | idle | waiting => rfl

end queues

section lines
variable {p : Words6} {lu : LineUnit}

theorem lnSetup_of_no_timer (hr : p[0] &&& unassignedLnSetup = 0) (hm : field p[0] 4 2 = 3) (ht : 48 ≤ p[2].toNat) :
    lnSetup p lu = (.fail .badIndex, lu) := by
  have htimer : setupTimer (lineModeOf (field p[0] 4 2)) p[2] = none := by
    rw [hm]
    exact timerOf_eq_none ht
  simp only [lnSetup, inRange_of_zero hr, htimer, Bool.not_true, Bool.false_eq_true, if_false]

theorem lnSetup_of_bad_edge {timer : TimerId} (hr : p[0] &&& unassignedLnSetup = 0)
    (ht : setupTimer (lineModeOf (field p[0] 4 2)) p[2] = some timer) (he : field p[0] 6 2 = 3) :
    lnSetup p lu = (.fail .badValue, lu) := by
  have hedge : edgeSelOf (field p[0] 6 2) = none := by
    rw [he]
    rfl
  simp only [lnSetup, inRange_of_zero hr, ht, hedge, Bool.not_true, Bool.false_eq_true, if_false]

theorem lnSetup_of_no_compare {timer : TimerId} (hr : p[0] &&& unassignedLnSetup = 0)
    (ht : setupTimer (lineModeOf (field p[0] 4 2)) p[2] = some timer) (hm : field p[0] 4 2 = 2) (hc : p[2] = 0) :
    lnSetup p lu = (.fail .badValue, lu) := by
  have hcount : lineModeOf (field p[0] 4 2) = .count := by
    rw [hm]
    rfl
  simp only [lnSetup, inRange_of_zero hr, ht, Bool.not_true, Bool.false_eq_true, if_false, if_pos (And.intro hcount hc)]
  cases edgeSelOf (field p[0] 6 2) with
  | none | some _ => rfl

theorem lnDrive_of_no_kind (hr : p[0] &&& unassignedLnDrive = 0) (hk : 5 ≤ (field p[0] 4 3).toNat) :
    lnDrive p lu = (.fail .badValue, lu) := by
  simp only [lnDrive, inRange_of_zero hr, actionKindOf_eq_none hk, Bool.not_true, Bool.false_eq_true, if_false]

end lines

/-! ## A number out of range -/

section badIndex
variable {p : Words6} {s : State}

/-- A timer number of 48 or more (R35). -/
theorem timerCommands_bad_index (h : 48 ≤ p[0].toNat) :
    (Taken 0x0011 p s → Fails .tmrArm .badIndex s) ∧ (Taken 0x0012 p s → Fails .tmrDisarm .badIndex s) ∧
    (Taken 0x0013 p s → Fails .tmrRetune .badIndex s) ∧ (Taken 0x0014 p s → Fails .tmrRelease .badIndex s) ∧
    (Taken 0x0015 p s → Fails .tmrRead .badIndex s) := by
  have hnone := timerOf_eq_none h
  refine ⟨fun ht => fails_of rfl ht (ttCommand_fails ?_), fun ht => fails_of rfl ht (ttCommand_fails ?_),
    fun ht => fails_of rfl ht (ttCommand_fails ?_), fun ht => fails_of rfl ht (ttCommand_fails ?_),
    fun ht => fails_of rfl ht ?_⟩
  · simp only [tmrArm, hnone]
  · simp only [tmrDisarm, hnone]
  · simp only [tmrRetune, hnone]
  · simp only [tmrRelease, hnone]
  · simp only [tmrRead, hnone]

/-- A queue number out of range (R73). -/
theorem queueCommands_bad_index :
    (Taken 0x0020 p s → p[0] &&& unassignedQSetup ≠ 0 → Fails .qSetup .badIndex s) ∧
    (Taken 0x0022 p s → p[0] &&& unassignedQSend ≠ 0 → Fails .qSend .badIndex s) ∧
    (Taken 0x0023 p s → p[0] &&& unassignedQueue ≠ 0 → Fails .qTake .badIndex s) ∧
    (Taken 0x0024 p s → p[0] &&& unassignedQueue ≠ 0 → Fails .qPurge .badIndex s) ∧
    (Taken 0x0025 p s → p[0] &&& unassignedQRead ≠ 0 → Fails .qRead .badIndex s) := by
  refine ⟨fun ht h => fails_of rfl ht (qeCommand_fails ?_), fun ht h => fails_of rfl ht (qeCommand_fails ?_),
    fun ht h => fails_of rfl ht (qeCommand_fails ?_), fun ht h => fails_of rfl ht (qeCommand_fails ?_),
    fun ht h => fails_of rfl ht (qeCommand_fails ?_)⟩
  · simp only [qSetup, inRange_of_ne_zero h, Bool.not_false, if_true]
  · simp only [qSend, inRange_of_ne_zero h, Bool.not_false, if_true]
  · simp only [qTake, inRange_of_ne_zero h, Bool.not_false, if_true]
  · simp only [qPurge, inRange_of_ne_zero h, Bool.not_false, if_true]
  · simp only [qRead, inRange_of_ne_zero h, Bool.not_false, if_true]

/-- A context number out of range (R85). -/
theorem contextCommands_bad_index :
    (Taken 0x0030 p s → p[0] &&& unassignedCtxSetup ≠ 0 → Fails .ctxSetup .badIndex s) ∧
    (Taken 0x0031 p s → p[0] &&& unassignedCtxWait ≠ 0 → Fails .ctxWait .badIndex s) ∧
    (Taken 0x0032 p s → p[0] &&& unassignedContext ≠ 0 → Fails .ctxAbandon .badIndex s) ∧
    (Taken 0x0033 p s → p[0] &&& unassignedContext ≠ 0 → Fails .ctxCollect .badIndex s) ∧
    (Taken 0x0034 p s → p[0] &&& unassignedContext ≠ 0 → Fails .ctxRead .badIndex s) := by
  refine ⟨fun ht h => fails_of rfl ht (qeCommand_fails ?_), fun ht h => fails_of rfl ht (qeCommand_fails ?_),
    fun ht h => fails_of rfl ht (qeCommand_fails ?_), fun ht h => fails_of rfl ht (qeCommand_fails ?_),
    fun ht h => fails_of rfl ht ?_⟩
  · simp only [ctxSetup, inRange_of_ne_zero h, Bool.not_false, if_true]
  · simp only [ctxWait, inRange_of_ne_zero h, Bool.not_false, if_true]
  · simp only [ctxAbandon, inRange_of_ne_zero h, Bool.not_false, if_true]
  · simp only [ctxCollect, inRange_of_ne_zero h, Bool.not_false, if_true]
  · simp only [ctxRead, inRange_of_ne_zero h, Bool.not_false, if_true]

/-- A line's, an output's or a source's number out of range (R120, R133). -/
theorem lineCommands_bad_index :
    (Taken 0x0040 p s → p[0] &&& unassignedLnSetup ≠ 0 → Fails .lnSetup .badIndex s) ∧
    (Taken 0x0041 p s → p[0] &&& unassignedLnDrive ≠ 0 → Fails .lnDrive .badIndex s) ∧
    (Taken 0x0042 p s → p[0] &&& unassignedLine ≠ 0 → Fails .lnRead .badIndex s) ∧
    (Taken 0x0060 p s → p[0] &&& unassignedNtLevel ≠ 0 → Fails .ntLevel .badIndex s) := by
  refine ⟨fun ht h => fails_of rfl ht (luCommand_fails ?_), fun ht h => fails_of rfl ht (luCommand_fails ?_),
    fun ht h => fails_of rfl ht (luCommand_fails ?_), fun ht h => fails_of rfl ht ?_⟩
  · simp only [lnSetup, inRange_of_ne_zero h, Bool.not_false, if_true]
  · simp only [lnDrive, inRange_of_ne_zero h, Bool.not_false, if_true]
  · simp only [lnRead, inRange_of_ne_zero h, Bool.not_false, if_true]
  · simp only [ntLevel, inRange_of_ne_zero h, Bool.not_false, if_true]

theorem tmrDefine_bad_index (ht : Taken 0x0010 p s) (h : 48 ≤ (field p[0] 0 6).toNat) :
    Fails .tmrDefine .badIndex s := by
  refine fails_of rfl ht (ttCommand_fails ?_)
  simp only [tmrDefine, timerOf_eq_none h]

end badIndex

end Sys2Proof.Machine

/-! ## The statements -/

namespace Sys2Proof.Machine.FailedChecks

/-- Settles O54: the numbers by block, then the values command by command. -/
theorem outOfRangeParameters : Obligations.OutOfRangeParameters := by
  intro p s
  refine ⟨fun x hx ht h => ?timers, tmrDefine_bad_index, fun x hx ht h => ?numbers,
    fun ht hr hm h => fails_of rfl ht (luCommand_fails (lnSetup_of_no_timer hr hm h)),
    fun ht hi h => fails_of rfl ht (ttCommand_fails (tmrDefine_of_no_definition (i := ⟨_, hi⟩) rfl h)),
    fun ht hi h => fails_of rfl ht (ttCommand_fails (tmrRetune_of_zero (i := ⟨_, hi⟩) rfl h)),
    fun ht hr hb h => fails_of rfl ht (qeCommand_fails (qSetup_of_bad_value hr hb (setupInRange_eq_false h))),
    fun ht hr h => fails_of rfl ht (qeCommand_fails (qSend_of_bad_count hr h)),
    fun ht hr h => fails_of rfl ht (qeCommand_fails (ctxWait_of_no_mode hr (waitModeOf_eq_none h))),
    fun ht hr hm h => ?lnSetup, fun ht hr h => fails_of rfl ht (luCommand_fails (lnDrive_of_no_kind hr h)),
    fun ht h => fails_of rfl ht (if_pos h)⟩
  case timers =>
    obtain ⟨harm, hdisarm, hretune, hrelease, hread⟩ := timerCommands_bad_index (s := s) h
    simp only [List.mem_cons, List.not_mem_nil, or_false] at hx
    rcases hx with rfl | rfl | rfl | rfl | rfl
    · exact harm ht
    · exact hdisarm ht
    · exact hretune ht
    · exact hrelease ht
    · exact hread ht
  case numbers =>
    obtain ⟨hqSetup, hqSend, hqTake, hqPurge, hqRead⟩ := queueCommands_bad_index (p := p) (s := s)
    obtain ⟨hctxSetup, hctxWait, hctxAbandon, hctxCollect, hctxRead⟩ := contextCommands_bad_index (p := p) (s := s)
    obtain ⟨hlnSetup, hlnDrive, hlnRead, hntLevel⟩ := lineCommands_bad_index (p := p) (s := s)
    simp only [List.mem_cons, List.not_mem_nil, or_false] at hx
    rcases hx with rfl | rfl | rfl | rfl | rfl | rfl | rfl | rfl | rfl | rfl | rfl | rfl | rfl | rfl
    · exact hqSetup ht h
    · exact hqSend ht h
    · exact hqTake ht h
    · exact hqPurge ht h
    · exact hqRead ht h
    · exact hctxSetup ht h
    · exact hctxWait ht h
    · exact hctxAbandon ht h
    · exact hctxCollect ht h
    · exact hctxRead ht h
    · exact hlnSetup ht h
    · exact hlnDrive ht h
    · exact hlnRead ht h
    · exact hntLevel ht h
  case lnSetup =>
    obtain ⟨timer, htimer⟩ := exists_setupTimer hm
    rcases h with he | ⟨hm, hc⟩
    · exact fails_of rfl ht (luCommand_fails (lnSetup_of_bad_edge hr htimer he))
    · exact fails_of rfl ht (luCommand_fails (lnSetup_of_no_compare hr htimer hm hc))

/-- Settles O55: each command in each state that does not take it, its numbers and values being in range. -/
theorem statesThatDoNotTakeACommand : Obligations.StatesThatDoNotTakeACommand := by
  intro p s
  refine ⟨fun i ht hi hp hk hd hs => ?define,
    fun i hi hs => ⟨fun ht => fails_of rfl ht (ttCommand_fails (tmrArm_of_free hi hs)),
      fun ht => fails_of rfl ht (ttCommand_fails (tmrDisarm_of_free hi hs)),
      fun ht hp => fails_of rfl ht (ttCommand_fails (tmrRetune_of_free hi hp hs))⟩,
    fun i ht hi hs => fails_of rfl ht (ttCommand_fails (tmrRelease_of_armed hi hs)), fun ht hr => ?setup,
    fun ht hr hd he => ?send, fun ht hr hm hticks => ?wait,
    fun ht hr hs => fails_of rfl ht (qeCommand_fails (ctxCollect_of_not_complete hr hs))⟩
  case define =>
    obtain ⟨kind, hkind⟩ := exists_actionKindOf hk
    obtain ⟨data, hdata⟩ := exists_dataOf p[4] p[5] hd
    exact fails_of rfl ht (ttCommand_fails (tmrDefine_of_armed hi (definitionOf_eq_some hkind hdata hp) hs))
  case setup =>
    intro q hv
    have hrange := fun hb => setupInRange_eq_true.2 (hv hb)
    exact ⟨fun ho => fails_of rfl ht (qeCommand_fails (qSetup_of_occupied hr hrange ho)), fun hm hw hb hc =>
      fails_of rfl ht (qeCommand_fails (qSetup_of_no_cells hr hrange hm hw hb hc))⟩
  case send =>
    obtain ⟨data, hdata⟩ := exists_dataOf p[3] p[4] hd
    exact fails_of rfl ht (qeCommand_fails (qSend_of_disabled hr hdata he))
  case wait =>
    obtain ⟨mode, hmode⟩ := exists_waitModeOf hm hticks
    exact ⟨fun hs => fails_of rfl ht (qeCommand_fails (ctxWait_of_not_idle hr hmode hs)), fun hs he =>
      fails_of rfl ht (qeCommand_fails (ctxWait_of_disabled hr hmode hs he))⟩

end Sys2Proof.Machine.FailedChecks
end
